-- ==== Sys2Proof/Word.lean ====
section
/-!
DEFINITION. The word types of the AEDP block (spec/00_scope.md R7, R8): 32-bit registers and bus words, bytes,
signed 16-bit samples, and 64-bit absolute sample positions.
-/

namespace Sys2Proof

/-- A register, a bus word or a binary32 bit pattern (R7, R9). -/
abbrev Word := BitVec 32

/-- One byte lane of a bus word (R81), or one companded sample (R320). -/
abbrev Byte := BitVec 8

/-- A signed 16-bit PCM sample, as its bit pattern (R7); `BitVec.toInt` is the spec's `s16` (R8). -/
abbrev Sample := BitVec 16

/-- An absolute 64-bit sample position or time stamp (R25). -/
abbrev Pos := BitVec 64

end Sys2Proof
end

