-- ==== Sys2Proof/Machine/Float32.lean ====
section
/-!
DEFINITION. Binary32 arithmetic (spec/00_scope.md R9). A finite binary32 number is a whole multiple of 2^-149, so
each operation is computed exactly on those multiples (as an integer, or as a quotient of two naturals) and rounded
once, to nearest, ties to even, at the end. No operation is fused, subnormals are kept, and a NaN result is 0x7FC00000.
-/

namespace Sys2Proof.Machine

/-- The canonical quiet NaN (R9). -/
abbrev f32NaN : Word := 0x7FC00000
/-- +infinity. -/
abbrev f32Inf : Word := 0x7F800000
/-- -infinity. -/
abbrev f32NegInf : Word := 0xFF800000
/-- +0.0. -/
abbrev f32Zero : Word := 0x00000000
/-- 1.0. -/
abbrev f32One : Word := 0x3F800000

/-- The sign bit. -/
def f32Neg (a : Word) : Bool := a.getLsbD 31

/-- The pattern without its sign bit; it orders the magnitudes of all numbers, infinity included. -/
def f32Abs (a : Word) : Nat := a.toNat % 2 ^ 31

/-- `a` is a NaN. -/
def isNaN (a : Word) : Bool := decide (0x7F800000 < f32Abs a)

/-- `a` is +infinity or -infinity. -/
def isInf (a : Word) : Bool := decide (f32Abs a = 0x7F800000)

/-- `isfinite` (R9). -/
def isFinite (a : Word) : Bool := decide (f32Abs a < 0x7F800000)

/-- `fabs` (R9). -/
def fabs (a : Word) : Word := a &&& 0x7FFFFFFF

/-- `fneg` (R9). -/
def fneg (a : Word) : Word := a ^^^ 0x80000000

/-- The magnitude of a finite number as a multiple of 2^-149. -/
def f32Mag (a : Word) : Nat :=
  let e := f32Abs a / 2 ^ 23
  let frac := f32Abs a % 2 ^ 23
  if e = 0 then frac else (frac + 2 ^ 23) * 2 ^ (e - 1)

/-- The value of a finite number as a multiple of 2^-149. -/
def f32Int (a : Word) : Int := if f32Neg a then -(f32Mag a : Int) else (f32Mag a : Int)

/-- The natural number nearest to `num / den`, ties to even. -/
def roundNE (num den : Nat) : Nat :=
  let q := num / den
  let r := num % den
  if 2 * r > den ∨ (2 * r = den ∧ q % 2 = 1) then q + 1 else q

/-- The sign bit's contribution to a pattern. -/
def signBit (neg : Bool) : Nat := if neg then 2 ^ 31 else 0

/-- The pattern (less its sign bit) of the binary32 number nearest to `num / den` multiples of 2^-149, ties to even:
`k` is the binade above the subnormal spacing, and a result past the largest finite number is infinity. -/
def roundMag (num den : Nat) : Nat :=
  let k := (num / den).log2 - 23
  let bits := k * 2 ^ 23 + roundNE num (den * 2 ^ k)
  if bits < 0x7F800000 then bits else 0x7F800000

/-- The binary32 number nearest to `num / den` multiples of 2^-149, with the given sign. -/
def packRat (neg : Bool) (num den : Nat) : Word := BitVec.ofNat 32 (signBit neg + roundMag num den)

/-- The binary32 number nearest to `i` multiples of 2^-149; an exact zero is +0. -/
def packInt (i : Int) : Word := packRat (decide (i < 0)) i.natAbs 1

/-- `fadd` (R9). -/
def fadd (a b : Word) : Word :=
  if isNaN a || isNaN b then f32NaN
  else if isInf a then (if isInf b && (f32Neg a != f32Neg b) then f32NaN else a)
  else if isInf b then b
  else
    let sum := f32Int a + f32Int b
    if sum = 0 then (if f32Neg a && f32Neg b then 0x80000000 else f32Zero) else packInt sum

/-- `fsub` (R9). -/
def fsub (a b : Word) : Word := fadd a (fneg b)

/-- `fmul` (R9). -/
def fmul (a b : Word) : Word :=
  let neg := f32Neg a != f32Neg b
  if isNaN a || isNaN b then f32NaN
  else if isInf a || isInf b then
    (if f32Abs a = 0 ∨ f32Abs b = 0 then f32NaN else if neg then f32NegInf else f32Inf)
  else packRat neg (f32Mag a * f32Mag b) (2 ^ 149)

/-- `fdiv` (R9). -/
def fdiv (a b : Word) : Word :=
  let neg := f32Neg a != f32Neg b
  if isNaN a || isNaN b then f32NaN
  else if isInf a then (if isInf b then f32NaN else if neg then f32NegInf else f32Inf)
  else if isInf b then packRat neg 0 1
  else if f32Abs b = 0 then (if f32Abs a = 0 then f32NaN else if neg then f32NegInf else f32Inf)
  else packRat neg (f32Mag a * 2 ^ 149) (f32Mag b)

/-- The integer square root of `n`, rounded down, for `n < 4^fuel`: one result bit a step. -/
def isqrt (fuel : Nat) (n : Nat) : Nat :=
  match fuel with
  | 0 => 0
  | f + 1 =>
    let r := 2 * isqrt f (n / 4)
    if (r + 1) * (r + 1) ≤ n then r + 1 else r

/-- `fsqrt` (R9). The root of `m` multiples of 2^-149 is the root of `m * 2^149` in the same multiples; it has at
least 74 whole bits, so its floor and one bit that says whether it is exact round as the root does. -/
def fsqrt (a : Word) : Word :=
  if isNaN a then f32NaN
  else if f32Abs a = 0 then a
  else if f32Neg a then f32NaN
  else if isInf a then a
  else
    let n := f32Mag a * 2 ^ 149
    let r := isqrt 220 n
    packRat false (2 * r + (if r * r = n then 0 else 1)) 2

/-- `f32(i)`: an integer rounded to binary32 (R9). -/
def f32OfInt (i : Int) : Word := packInt (i * 2 ^ 149)

/-- The place of a number that is not a NaN on the ordered line; -0 and +0 share place 0. -/
def f32Key (a : Word) : Int := if f32Neg a then -(f32Abs a : Int) else (f32Abs a : Int)

/-- Neither operand is a NaN, so an IEEE comparison is ordered (R9). -/
def ordered (a b : Word) : Bool := !isNaN a && !isNaN b

/-- `flt` (R9). -/
def flt (a b : Word) : Bool := ordered a b && decide (f32Key a < f32Key b)

/-- `fle` (R9). -/
def fle (a b : Word) : Bool := ordered a b && decide (f32Key a ≤ f32Key b)

/-- `fgt` (R9). -/
def fgt (a b : Word) : Bool := flt b a

/-- `fge` (R9). -/
def fge (a b : Word) : Bool := fle b a

/-- `feq` (R9). -/
def feq (a b : Word) : Bool := ordered a b && decide (f32Key a = f32Key b)

/-- `fmin` (R9). -/
def fmin (a b : Word) : Word := if flt a b then a else b

/-- `fmaxe` (R9). -/
def fmaxe (e eps : Word) : Word := if fgt e eps then e else eps

end Sys2Proof.Machine
end

