-- ==== Sys2Proof/Syntax.lean ====
section
/-!
DEFINITION. The commands of the AEDP block (spec/30_encoding.md R113): one constructor per row of
spec/opcode_table.json. Commands stand where instructions stand in an ISA (R13 "Command").
-/

namespace Sys2Proof

/-- The two command channels (R88): channel 0 is the capture and detection context, channel 1 the streaming
context. The channel's number is also the number of the ring-buffer reader its commands read (R113). -/
inductive Chan where
  | ch0
  | ch1
deriving DecidableEq, Repr

/-- The 22 commands. Operands are the assembled values of R112: `NCNT` and `S` unsigned, `X` a signed sample, `V` a
flag. -/
inductive Instr where
  /-- `NOP` (R140). -/
  | nop
  /-- `CFG_COMMIT` (R142). -/
  | cfgCommit
  /-- `START` (R145). -/
  | start
  /-- `STOP` (R146). -/
  | stop
  /-- `RESET_RT` (R147). -/
  | resetRt
  /-- `RB_READ NCNT` (R173). -/
  | rbRead (ncnt : Nat)
  /-- `RB_PEEK NCNT` (R174). -/
  | rbPeek (ncnt : Nat)
  /-- `PRE_STEP X` (R196). -/
  | preStep (x : Int)
  /-- `WIN_APPLY` (R197). -/
  | winApply
  /-- `FFT_BITREV` (R223). -/
  | fftBitrev
  /-- `FFT_STAGE S` (R224). -/
  | fftStage (stage : Nat)
  /-- `FFT_FULL` (R225). -/
  | fftFull
  /-- `FFT_POWER` (R226). -/
  | fftPower
  /-- `MEL_APPLY` (R252). -/
  | melApply
  /-- `LOG_COMPRESS` (R254). -/
  | logCompress
  /-- `FEAT_EXTRACT` (R260). -/
  | featExtract
  /-- `DEC_STEP V` (R291). -/
  | decStep (v : Bool)
  /-- `DEC_RESET` (R293). -/
  | decReset
  /-- `EVT_POP` (R292). -/
  | evtPop
  /-- `ALAW_ENC X` (R321). -/
  | alawEnc (x : Int)
  /-- `CODEC_FRAME` (R325). -/
  | codecFrame
  /-- `PKT_POP` (R326). -/
  | pktPop
deriving DecidableEq, Repr

end Sys2Proof
end

