-- ==== Sys2Proof/WellFormed.lean ====
section
/-!
DEFINITION. Which command terms have an encoding: an operand lies in the range its field admits
(spec/30_encoding.md R111, R112).
-/

namespace Sys2Proof

/-- `NCNT` fits the unsigned 16-bit field [31:16] (R111). -/
def Instr.countFits (ncnt : Nat) : Bool := decide (ncnt < 65536)

/-- `S` fits the unsigned 4-bit field [11:8] (R111). -/
def Instr.stageFits (stage : Nat) : Bool := decide (stage < 16)

/-- `X` is a signed 16-bit sample (R111, R112). -/
def Instr.sampleFits (x : Int) : Bool := decide (-32768 ≤ x) && decide (x ≤ 32767)

/-- The command has an encoding. -/
def Instr.wellFormed : Instr → Bool
  | .nop => true
  | .cfgCommit => true
  | .start => true
  | .stop => true
  | .resetRt => true
  | .rbRead ncnt => Instr.countFits ncnt
  | .rbPeek ncnt => Instr.countFits ncnt
  | .preStep x => Instr.sampleFits x
  | .winApply => true
  | .fftBitrev => true
  | .fftStage stage => Instr.stageFits stage
  | .fftFull => true
  | .fftPower => true
  | .melApply => true
  | .logCompress => true
  | .featExtract => true
  | .decStep _ => true
  | .decReset => true
  | .evtPop => true
  | .alawEnc x => Instr.sampleFits x
  | .codecFrame => true
  | .pktPop => true

end Sys2Proof
end

