-- ==== Sys2Proof/Decode.lean ====
section
/-!
DEFINITION. The command decoder (spec/30_encoding.md R110-R114) and, after it, the encoder. The decoder is total: each
word is one command or is refused by name.
-/

namespace Sys2Proof

/-- The decode errors of R110, in the order they are checked. -/
inductive DecodeRefusal where
  /-- `w[7:0]` is a reserved opcode (R110, R114): the command completes with 0x01. -/
  | badOpcode
  /-- The opcode is not legal on this channel (R110, R113): the command completes with 0x02. -/
  | wrongChannel
  /-- A reserved bit is set (R110, R111): the command completes with 0x03. -/
  | reservedBit
deriving DecidableEq, Repr

/-- The five formats (R111). -/
inductive Format where
  | cn | cs | cv | cc | cx
deriving DecidableEq, Repr

/-- The opcodes of R113. -/
inductive Opcode where
  | nop | cfgCommit | start | stop | resetRt | rbRead | rbPeek | preStep | winApply | fftBitrev | fftStage | fftFull
  | fftPower | melApply | logCompress | featExtract | decStep | decReset | evtPop | alawEnc | codecFrame | pktPop
deriving DecidableEq, Repr

/-- The opcode byte `OPC` (R113). -/
def Opcode.byte : Opcode → Byte
  | .nop => 0x00
  | .cfgCommit => 0x01
  | .start => 0x02
  | .stop => 0x03
  | .resetRt => 0x04
  | .rbRead => 0x10
  | .rbPeek => 0x11
  | .preStep => 0x20
  | .winApply => 0x21
  | .fftBitrev => 0x28
  | .fftStage => 0x29
  | .fftFull => 0x2A
  | .fftPower => 0x2B
  | .melApply => 0x30
  | .logCompress => 0x31
  | .featExtract => 0x38
  | .decStep => 0x40
  | .decReset => 0x41
  | .evtPop => 0x42
  | .alawEnc => 0x50
  | .codecFrame => 0x51
  | .pktPop => 0x52

/-- Every opcode of R113, in the table's order. -/
def Opcode.all : List Opcode :=
  [.nop, .cfgCommit, .start, .stop, .resetRt, .rbRead, .rbPeek, .preStep, .winApply, .fftBitrev, .fftStage,
   .fftFull, .fftPower, .melApply, .logCompress, .featExtract, .decStep, .decReset, .evtPop, .alawEnc, .codecFrame,
   .pktPop]

/-- The opcode a byte names; `none` on the reserved bytes of R114. -/
def Opcode.ofByte (b : Byte) : Option Opcode := Opcode.all.find? (fun op => op.byte == b)

/-- The format column of R113. -/
def Opcode.format : Opcode → Format
  | .rbRead | .rbPeek => .cc
  | .preStep | .alawEnc => .cx
  | .fftStage => .cs
  | .decStep => .cv
  | .nop | .cfgCommit | .start | .stop | .resetRt | .winApply | .fftBitrev | .fftFull | .fftPower | .melApply
  | .logCompress | .featExtract | .decReset | .evtPop | .codecFrame | .pktPop => .cn

/-- The channels column of R113. -/
def Opcode.legalOn : Opcode → Chan → Bool
  | .nop, _ | .rbRead, _ | .rbPeek, _ => true
  | .alawEnc, n | .codecFrame, n | .pktPop, n => n == .ch1
  | .cfgCommit, n | .start, n | .stop, n | .resetRt, n | .preStep, n | .winApply, n | .fftBitrev, n | .fftStage, n
  | .fftFull, n | .fftPower, n | .melApply, n | .logCompress, n | .featExtract, n | .decStep, n | .decReset, n
  | .evtPop, n => n == .ch0

/-- The fixed bits of a format: the second table of R111. -/
def Format.fixedBits : Format → Word
  | .cn => 0xFFFFFFFF
  | .cs => 0xFFFFF0FF
  | .cv => 0xFFFFFEFF
  | .cc => 0x0000FFFF
  | .cx => 0x0000FFFF

/-- The reserved bits of a format: its fixed bits above the opcode byte, which the first table of R111 gives as `0`.
This is the set R110 tests with `w AND NOT mask(opc)`. Log entry 6 (DEDUCED). -/
def Format.reservedBits (f : Format) : Word := f.fixedBits &&& 0xFFFFFF00

/-- The fields of R112. -/
def fieldNCNT (w : Word) : Nat := (w.extractLsb' 16 16).toNat
def fieldX (w : Word) : Int := (w.extractLsb' 16 16).toInt
def fieldS (w : Word) : Nat := (w.extractLsb' 8 4).toNat
def fieldV (w : Word) : Bool := w.getLsbD 8

/-- Operand assembly (R112). -/
def Opcode.assemble (op : Opcode) (w : Word) : Instr :=
  match op with
  | .nop => .nop
  | .cfgCommit => .cfgCommit
  | .start => .start
  | .stop => .stop
  | .resetRt => .resetRt
  | .rbRead => .rbRead (fieldNCNT w)
  | .rbPeek => .rbPeek (fieldNCNT w)
  | .preStep => .preStep (fieldX w)
  | .winApply => .winApply
  | .fftBitrev => .fftBitrev
  | .fftStage => .fftStage (fieldS w)
  | .fftFull => .fftFull
  | .fftPower => .fftPower
  | .melApply => .melApply
  | .logCompress => .logCompress
  | .featExtract => .featExtract
  | .decStep => .decStep (fieldV w)
  | .decReset => .decReset
  | .evtPop => .evtPop
  | .alawEnc => .alawEnc (fieldX w)
  | .codecFrame => .codecFrame
  | .pktPop => .pktPop

/-- `OPC = w[7:0]`. -/
def opcodeByte (w : Word) : Byte := w.extractLsb' 0 8

/-- The command a word encodes, whatever the channel (R110 less its channel check). -/
def decode (w : Word) : Except DecodeRefusal Instr :=
  match Opcode.ofByte (opcodeByte w) with
  | none => .error .badOpcode
  | some op => if w &&& op.format.reservedBits ≠ 0 then .error .reservedBit else .ok (op.assemble w)

/-- The decode of R110 on channel `n`: BAD_OPCODE, then WRONG_CHANNEL, then the reserved bits. -/
def decodeOn (n : Chan) (w : Word) : Except DecodeRefusal Instr :=
  match Opcode.ofByte (opcodeByte w) with
  | none => .error .badOpcode
  | some op => if op.legalOn n then decode w else .error .wrongChannel

/-- The bus word of four byte lanes, lane 0 first (R81: little-endian). -/
def wordOfBytes (b0 b1 b2 b3 : Byte) : Word := b3 ++ b2 ++ b1 ++ b0

/-- Byte lane `j` of a word (R81). -/
def byteLane (w : Word) (j : Nat) : Byte := w.extractLsb' (8 * j) 8

/-- The decoder on a command word's four bytes as a bus write carries them. -/
def decodeBytes (b0 b1 b2 b3 : Byte) : Except DecodeRefusal Instr := decode (wordOfBytes b0 b1 b2 b3)

/-- The opcode of a command. -/
def Instr.opcode : Instr → Opcode
  | .nop => .nop
  | .cfgCommit => .cfgCommit
  | .start => .start
  | .stop => .stop
  | .resetRt => .resetRt
  | .rbRead _ => .rbRead
  | .rbPeek _ => .rbPeek
  | .preStep _ => .preStep
  | .winApply => .winApply
  | .fftBitrev => .fftBitrev
  | .fftStage _ => .fftStage
  | .fftFull => .fftFull
  | .fftPower => .fftPower
  | .melApply => .melApply
  | .logCompress => .logCompress
  | .featExtract => .featExtract
  | .decStep _ => .decStep
  | .decReset => .decReset
  | .evtPop => .evtPop
  | .alawEnc _ => .alawEnc
  | .codecFrame => .codecFrame
  | .pktPop => .pktPop

/-- The operand bits of a command word (R111). -/
def Instr.operandBits : Instr → Word
  | .rbRead ncnt | .rbPeek ncnt => (BitVec.ofNat 16 ncnt).setWidth 32 <<< 16
  | .preStep x | .alawEnc x => (BitVec.ofInt 16 x).setWidth 32 <<< 16
  | .fftStage stage => (BitVec.ofNat 4 stage).setWidth 32 <<< 8
  | .decStep v => (BitVec.ofBool v).setWidth 32 <<< 8
  | .nop | .cfgCommit | .start | .stop | .resetRt | .winApply | .fftBitrev | .fftFull | .fftPower | .melApply
  | .logCompress | .featExtract | .decReset | .evtPop | .codecFrame | .pktPop => 0

/-- The command word of a well-formed command: the Word column of R113. -/
def encode (i : Instr) : Word := i.operandBits ||| i.opcode.byte.setWidth 32

/-- Byte `k` of an opcode-table instruction whose `nbits` low bits are `w`; the bits above are 0. -/
def tableByte (nbits w k : Nat) : Byte := if 8 * k < nbits then BitVec.ofNat 8 (w >>> (8 * k)) else 0

/-- The command this decoder reads from an opcode-table word: its bytes as the bus carries them (R81). -/
def decodeTableWord (nbits w : Nat) : Option Instr :=
  match decodeBytes (tableByte nbits w 0) (tableByte nbits w 1) (tableByte nbits w 2) (tableByte nbits w 3) with
  | .ok i => some i
  | .error _ => none

end Sys2Proof
end

