-- ==== Sys2Proof/Config.lean ====
section
/-!
DEFINITION. What an implementation of the AEDP block fixes: the parameters of spec/00_scope.md R6, as a record that the
model's functions take as an argument, and the FREE VALUES of the model: constants without a body, of which nothing can
be proved but their type. The values of AEDP-1, the hardware modelled, stand in Machine/Params.lean.
-/

namespace Sys2Proof

/-- The parameters the block is defined over (R6), LOG10 among them (R12). -/
structure Params where
  /-- `MAX_FFT_LOG2`, the largest log2 of the FFT size. -/
  maxFftLog2 : Nat
  /-- `MAX_MEL`, the largest Mel band count. -/
  maxMel : Nat
  /-- `MAX_T`, the largest count of time frames. -/
  maxT : Nat
  /-- `MAX_RB`, the largest ring-buffer capacity in samples. -/
  maxRb : Nat
  /-- `MAX_CLASSES`, the largest class count. -/
  maxClasses : Nat
  /-- `MAX_K`, the largest median length. -/
  maxK : Nat
  /-- `EVQ_DEPTH`, the depth of the event queue. -/
  evqDepth : Nat
  /-- `MAX_CODEC_LEN`, the largest codec frame in samples. -/
  maxCodecLen : Nat
  /-- `SCRATCH_LEN`, the length of a scratch buffer in samples. -/
  scratchLen : Nat
  /-- `MEL_STRIDE`, the words between Mel weight rows. -/
  melStride : Nat
  /-- `BASE / 2^20`: the window is aligned to 1 MiB (R80). -/
  baseMiB : Nat
  /-- `LOG10` (R12). -/
  log10 : Word → Word

/-- `NMAX = 2^MAX_FFT_LOG2`, the length of WORK and WIN (R6). -/
def Params.nMax (p : Params) : Nat := 2 ^ p.maxFftLog2

/-- `NBMAX = NMAX/2 + 1`, the largest count of non-negative bins (R6). -/
def Params.nbMax (p : Params) : Nat := p.nMax / 2 + 1

/-- `MAX_FEAT = MAX_T * MAX_MEL`, the words of the feature matrix (R6). -/
def Params.maxFeat (p : Params) : Nat := p.maxT * p.maxMel

/-- `BASE`, the bus address of the block's 1 MiB window (R6, R80). The host's accesses name the offset from it, so no
behaviour depends on it. -/
def Params.base (p : Params) : Nat := p.baseMiB * 2 ^ 20

namespace Config

/-- The read-only identification words (R2, R21). -/
abbrev idWord : Word := 0x41454450
abbrev versionWord : Word := 0x00010000

/-- The `k`-th FREE VALUE: a data word a command leaves unspecified because the samples it read were evicted while it
ran (spec/20_memory.md R90, U2). `State.draws` says which one is drawn next, so no two draws are the same constant.
No body: nothing can be proved of its value. Log entry 3. -/
opaque freeWord : Nat → Word

/-- `LOG10` of AEDP-1 on the arguments to which the block never applies it (zero, negative numbers, NaN): R12 states its
properties on positive arguments only. No body: a free value. Log entry 5. -/
opaque log10Outside : Word → Word

/-- `BASE / 2^20`: the platform's choice (R6, R80, D3). No body: a free value. Log entry 4. -/
opaque baseMiB : Nat

end Config

end Sys2Proof
end

