-- ==== Sys2Proof/Machine/State.lean ====
section
/-!
DEFINITION. The state of the AEDP block as plain data (spec/10_state.md), the reasons a step can stop, and the state
after reset (spec/70_reset_and_hazards.md R380). Every register stands once; what several offsets show of one register
is computed by the register map of Machine/Bus.lean.
-/

namespace Sys2Proof.Machine

/-- The block's arrays as bytes at offsets of its window, in one canonical form: offsets strictly rising. An offset
that is not listed has never been written: its written-bit (R50) is 0 and it holds no value. -/
abbrev Memory := List Host.Cell

/-- The canonical form: offsets strictly rising. (An unlisted byte reads as no value, so no entry can equal it.) -/
def Memory.wf : Memory → Bool
  | [] => true
  | [_] => true
  | a :: b :: rest => decide (a.1 < b.1) && Memory.wf (b :: rest)

/-- Completion codes (R350). `cfgField i` is code 0x40 + i. -/
inductive ErrCode where
  | badOpcode | wrongChannel | badArg | noConfig | notRunning | running | otherBusy | evqEmpty | pktEmpty
  | cfgField (i : Nat)
deriving DecidableEq, Repr

/-- The 26 configuration fields, in the index order of R31. The block holds them twice (R30). -/
structure Cfg where
  fs : Word
  rbCap : Word
  winLen : Word
  hop : Word
  nframes : Word
  fftLog2 : Word
  melBands : Word
  featStride : Word
  featCtrl : Word
  dcR : Word
  preemph : Word
  agcAttack : Word
  agcRelease : Word
  agcGsmooth : Word
  agcTarget : Word
  agcMaxgain : Word
  gateThr : Word
  logEps : Word
  nclasses : Word
  target : Word
  threshold : Word
  emaAlpha : Word
  medianK : Word
  minDur : Word
  quiet : Word
  codecLen : Word
deriving DecidableEq, Repr

/-- The preprocessor's committed state PP_X1, PP_Y1, PP_P1, PP_ENV, PP_GAIN (R38, R190); all binary32. -/
structure PrepState where
  x1 : Word
  y1 : Word
  p1 : Word
  env : Word
  gain : Word
deriving DecidableEq, Repr

/-- A detection-event record (R36). -/
structure EventRec where
  cls : Word
  seq : Word
  start : Pos
  dur : Word
  peakconf : Word
  rms : Word
  peak : Word
deriving DecidableEq, Repr

/-- The header of the packet in the packet buffer (R37). -/
structure PktHeader where
  seq : Word
  ts : Word
  len : Word
deriving DecidableEq, Repr

/-- `DEC_STATE` (R280). -/
inductive DecState where
  | idle
  | eventActive
deriving DecidableEq, Repr

/-- The decision-engine registers of R34 (less EVT_SEQ_NEXT and FEAT_MIN, which `dec_clear` keeps). -/
structure Decision where
  state : DecState
  argmax : Word
  conf : Word
  start : Pos
  last : Pos
  peakconf : Word
  rmsmax : Word
  peakmax : Word
  hpos : Word
deriving DecidableEq, Repr

/-- The ten statistics counters (R29). -/
structure Counters where
  ovr0 : Word
  ovr1 : Word
  featFail : Word
  nodet : Word
  underrun : Word
  pktSkip : Word
  evtDrop : Word
  discard : Word
  featOk : Word
  pkt : Word
deriving DecidableEq, Repr

/-- The BEGIN snapshot of R90: `SCLK`, the position of the channel's reader, and the ring-buffer slots. -/
structure Snapshot where
  sclk : Pos
  rpos : Pos
  ring : Memory
deriving DecidableEq, Repr

/-- What a channel engine holds (R26, R90). BUSYn = 1 exactly when it is not `idle`. -/
inductive Pending where
  /-- No pending command. -/
  | idle
  /-- `PEND[n]` is latched and its BEGIN step has not been taken. -/
  | latched (w : Word)
  /-- BEGIN has been taken: the error it found, if any, and the snapshot. END is still to come. -/
  | begun (w : Word) (verdict : Option ErrCode) (snap : Snapshot)
deriving DecidableEq, Repr

/-- MODEL's own: a command the host has written, and what stood when it was written and decides which words the command
writes: the active configuration, and DEC_HPOS (R357; log entry 10). -/
structure Issued where
  word : Word
  cfg : Cfg
  hpos : Word
deriving DecidableEq, Repr

/-- One command channel: its pending command, ERRn and RESULTn (R26, R27). -/
structure Channel where
  pending : Pending
  /-- ERRn[15:8] (R27). -/
  errOpc : Byte
  /-- ERRn[7:0] (R27). -/
  errCode : Byte
  /-- RESULTn (R27). -/
  result : Word
  /-- MODEL's own: the commands latched since the host last saw BUSYn = 0, the newest first (R357 STALE_CMD). -/
  unobserved : List Issued
deriving DecidableEq, Repr

/-- What the other agents of R88 do, and when a channel engine takes its steps: one entry is one step of the total
order of R89. -/
inductive Input where
  /-- A host read of `width` bytes at offset `off` (R80, R82). -/
  | hostRead (width off : Nat)
  /-- A host write of `width` bytes at offset `off`; `v` is the 32-bit datum (R80, R82). -/
  | hostWrite (width off : Nat) (v : Word)
  /-- The sample producer hands over one sample (R170). -/
  | sample (x : Sample)
  /-- The engine of channel `n` takes its BEGIN step and no more (R90). -/
  | begin (n : Chan)
  /-- The engine of channel `n` takes its END step, after its BEGIN step if that is still to come (R90). -/
  | run (n : Chan)
  /-- The block's reset input is asserted and released (R380, R381). -/
  | resetInput
deriving DecidableEq, Repr

/-- The state of the block. -/
structure State where
  /-- STATUS.CFG_VALID (R24). -/
  cfgValid : Bool
  /-- STATUS.RUN (R24). -/
  run : Bool
  /-- STATUS.FEAT_VALID (R24). -/
  featValid : Bool
  chan0 : Channel
  chan1 : Channel
  /-- IRQ_STATUS[14:0] (R28); bits 31:15 read 0 and are never set. -/
  irqStatus : BitVec 15
  /-- IRQ_ENABLE[14:0] (R28). -/
  irqEnable : BitVec 15
  /-- SCLK (R25). -/
  sclk : Pos
  /-- RPOS[0] (R25). -/
  rpos0 : Pos
  /-- RPOS[1] (R25). -/
  rpos1 : Pos
  counters : Counters
  /-- The shadow registers CFG_* (R30). -/
  shadow : Cfg
  /-- The active copies ACT_*, the spec's `cfg` (R30). -/
  act : Cfg
  /-- CYCLE_TS (R33). -/
  cycleTs : Pos
  /-- LEVEL_RMS (R33), binary32. -/
  levelRms : Word
  /-- LEVEL_PEAK (R33), binary32. -/
  levelPeak : Word
  dec : Decision
  /-- EVT_SEQ_NEXT (R34). -/
  evtSeqNext : Word
  /-- FEAT_MIN (R34), binary32. -/
  featMin : Word
  /-- PROB[c] (R35), binary32. -/
  prob : Vector Word 8
  /-- EMA[c] (R35), binary32. -/
  ema : Vector Word 8
  /-- SMOOTH[c] (R35), binary32. -/
  smooth : Vector Word 8
  /-- HIST[c][k] (R35), binary32. -/
  hist : Vector (Vector Word 8) 8
  /-- EVQ, head first (R36). -/
  evq : List EventRec
  /-- The packet buffer's header; `some` exactly when STATUS.PKT_VALID = 1 (R322). -/
  pkt : Option PktHeader
  /-- PKT_SEQ_NEXT (R37). -/
  pktSeqNext : Word
  /-- PKT_TS_NEXT (R37). -/
  pktTsNext : Word
  /-- PP_X1 .. PP_GAIN (R38). -/
  pp : PrepState
  /-- WIN, TW_RE, TW_IM, SCRATCH0, SCRATCH1, WORK_RE, WORK_IM, POW, MEL_E, MEL_LOG, FEAT, PKT_PAY, MEL_W and RBRAM
  (R40-R50). -/
  mem : Memory
  /-- MODEL's own: what the other agents do next, the next step first. -/
  inputs : List Input
  /-- MODEL's own: the channel whose engine takes the current step. -/
  active : Chan
  /-- MODEL's own: the number of free values drawn so far (log entry 3). -/
  draws : Nat
  /-- MODEL's own: the word the bus returned to the last host read. -/
  busData : Word
deriving DecidableEq, Repr

/-- The model faults of R357: cases in which the hardware does something unspecified, or answers the host's bus with
an error. Each is SAFE: the model stops where the hardware goes on. -/
inductive Fault where
  /-- UNINIT_READ: a command or the host read an array word never written since reset (R50). Raised by the array reads
  of every command and by the host read. Safe. -/
  | uninitRead (off : Nat)
  /-- BUS_ERROR: a host access that is not a 32-bit access, not aligned, or to an unmapped offset (R84). Raised by the
  host read and the host write. Safe. -/
  | busError (off : Nat)
  /-- HAZARD_RW: a host write to a word in the footprint of a pending command (R387). Raised by the host write. Safe. -/
  | hazardRw (off : Nat)
  /-- STALE_CMD: a host read of a word that a command writes, before the host has observed its completion (R386).
  Raised by the host read. Safe. -/
  | staleCmd (off : Nat)
deriving DecidableEq, Repr

/-- Why a step has no meaning. -/
inductive Refusal where
  /-- The instruction has no meaning in this model; raised by an arm of `exec` only. Safe. -/
  | notModelled (mnemonic : String)
deriving DecidableEq, Repr

/-- The reset values of the configuration fields (R31); the shadow and the active copy hold the same (R30). -/
def Cfg.reset : Cfg where
  fs := 0x00003E80
  rbCap := 0x00003E80
  winLen := 0x00000190
  hop := 0x000000A0
  nframes := 0x00000031
  fftLog2 := 0x00000009
  melBands := 0x00000028
  featStride := 0x000000A0
  featCtrl := 0x0000000C
  dcR := 0x3F7EB852
  preemph := 0x3F7851EC
  agcAttack := 0x3C23D70A
  agcRelease := 0x38D1B717
  agcGsmooth := 0x3A83126F
  agcTarget := 0x454CCCCD
  agcMaxgain := 0x41200000
  gateThr := 0x42800000
  logEps := 0x2EDBE6FF
  nclasses := 0x00000004
  target := 0x00000000
  threshold := 0x3F4CCCCD
  emaAlpha := 0x3F333333
  medianK := 0x00000003
  minDur := 0x000012C0
  quiet := 0x000012C0
  codecLen := 0x000000A0

/-- PP_X1 .. PP_GAIN after reset and `runtime_clear` (R38, R190): +0, +0, +0, +0, 1.0. -/
def PrepState.reset : PrepState := { x1 := 0, y1 := 0, p1 := 0, env := 0, gain := 0x3F800000 }

/-- The decision registers after reset and `dec_clear` (R34, R293). -/
def Decision.reset : Decision :=
  { state := .idle, argmax := 0, conf := 0, start := 0, last := 0, peakconf := 0, rmsmax := 0, peakmax := 0, hpos := 0 }

/-- The counters after reset (R29). -/
def Counters.reset : Counters :=
  { ovr0 := 0, ovr1 := 0, featFail := 0, nodet := 0, underrun := 0, pktSkip := 0, evtDrop := 0, discard := 0,
    featOk := 0, pkt := 0 }

/-- A channel after reset: idle, ERRn = 0, RESULTn = 0 (R26, R27). -/
def Channel.reset : Channel := { pending := .idle, errOpc := 0, errCode := 0, result := 0, unobserved := [] }

/-- Eight words of +0.0 (R35). -/
def zeros8 : Vector Word 8 := #v[0, 0, 0, 0, 0, 0, 0, 0]

/-- Eight rows of eight words of +0.0 (R35). -/
def zeros64 : Vector (Vector Word 8) 8 := #v[zeros8, zeros8, zeros8, zeros8, zeros8, zeros8, zeros8, zeros8]

/-- The state after reset (R380). The model's own fields: nothing is scheduled, channel 0 stands first, no free value
has been drawn, and no host read has been answered (log entry 7). -/
def State.reset : State where
  cfgValid := false
  run := false
  featValid := false
  chan0 := Channel.reset
  chan1 := Channel.reset
  irqStatus := 0
  irqEnable := 0
  sclk := 0
  rpos0 := 0
  rpos1 := 0
  counters := Counters.reset
  shadow := Cfg.reset
  act := Cfg.reset
  cycleTs := 0
  levelRms := 0
  levelPeak := 0
  dec := Decision.reset
  evtSeqNext := 0
  featMin := 0
  prob := zeros8
  ema := zeros8
  smooth := zeros8
  hist := zeros64
  evq := []
  pkt := none
  pktSeqNext := 0
  pktTsNext := 0
  pp := PrepState.reset
  mem := []
  inputs := []
  active := .ch0
  draws := 0
  busData := 0

end Sys2Proof.Machine
end

