-- ==== Sys2Proof/Machine/Flags.lean ====
section
/-!
DEFINITION. The flags of the block: STATUS (spec/10_state.md R24), IRQ_STATUS and IRQ_ENABLE (R28), the interrupt line
(spec/60_exceptions.md R355) and the statistics counters (R29). The block has no condition codes (R52).
-/

namespace Sys2Proof.Machine

/-- The other channel. -/
def otherChan : Chan → Chan
  | .ch0 => .ch1
  | .ch1 => .ch0

/-- The first of two values on channel 0, the second on channel 1. -/
def byChan {α : Type} (n : Chan) (a b : α) : α :=
  match n with
  | .ch0 => a
  | .ch1 => b

/-- The record of channel `n`. -/
def State.chan (s : State) (n : Chan) : Channel := byChan n s.chan0 s.chan1

/-- Replace the record of channel `n`. -/
def State.setChan (s : State) (n : Chan) (c : Channel) : State :=
  { s with chan0 := byChan n c s.chan0, chan1 := byChan n s.chan1 c }

/-- `BUSYn` (R24, R26): the channel holds a command that has not completed. -/
def Pending.busy : Pending → Bool
  | .idle => false
  | .latched _ => true
  | .begun _ _ _ => true

/-- `BUSYn` (R24). -/
def State.busy (s : State) (n : Chan) : Bool := (s.chan n).pending.busy

/-- `STATUS` as a read shows it (R24). -/
def State.statusWord (s : State) : Word :=
  let bit (b : Bool) (i : Nat) : Word := (BitVec.ofBool b).setWidth 32 <<< i
  bit s.cfgValid 0 ||| bit s.run 1 ||| bit (s.busy .ch0) 2 ||| bit (s.busy .ch1) 3 ||| bit s.featValid 4
    ||| bit (decide (s.dec.state = .eventActive)) 5 ||| bit s.pkt.isSome 6
    ||| (BitVec.ofNat 3 s.evq.length).setWidth 32 <<< 8

/-- The 15 interrupt sources (R28). -/
inductive Irq where
  | done0 | done1 | err0 | err1 | event | pktReady | overrun | underrun | featFail | probBad | cmdLost | evtDrop
  | featOvf | pktSkip | discard
deriving DecidableEq, Repr

/-- The bit of IRQ_STATUS and IRQ_ENABLE that a source has (R28). -/
def Irq.bit : Irq → Nat
  | .done0 => 0
  | .done1 => 1
  | .err0 => 2
  | .err1 => 3
  | .event => 4
  | .pktReady => 5
  | .overrun => 6
  | .underrun => 7
  | .featFail => 8
  | .probBad => 9
  | .cmdLost => 10
  | .evtDrop => 11
  | .featOvf => 12
  | .pktSkip => 13
  | .discard => 14

/-- The mask of one source. -/
def Irq.mask (q : Irq) : BitVec 15 := 1#15 <<< q.bit

/-- The DONE source of a channel (R28). -/
def Irq.done : Chan → Irq
  | .ch0 => .done0
  | .ch1 => .done1

/-- The ERR source of a channel (R28). -/
def Irq.err : Chan → Irq
  | .ch0 => .err0
  | .ch1 => .err1

/-- Set one sticky event bit (R28). -/
def State.setIrq (s : State) (q : Irq) : State := { s with irqStatus := s.irqStatus ||| q.mask }

/-- Set one sticky event bit when `b` holds. -/
def State.setIrqIf (s : State) (b : Bool) (q : Irq) : State :=
  { s with irqStatus := if b then s.irqStatus ||| q.mask else s.irqStatus }

/-- A source is pending (R355). -/
def State.irqPending (s : State) (q : Irq) : Bool := s.irqStatus.getLsbD q.bit

/-- The interrupt line (R355). -/
def State.irqLine (s : State) : Bool := decide (s.irqStatus &&& s.irqEnable ≠ 0)

/-- W1C: the bits written as 1 are cleared (R28, R86). -/
def State.clearIrq (s : State) (v : Word) : State := { s with irqStatus := s.irqStatus &&& ~~~(v.setWidth 15) }

/-- A write of IRQ_ENABLE drops the reserved bits (R28, R86). -/
def State.setIrqEnable (s : State) (v : Word) : State := { s with irqEnable := v.setWidth 15 }

/-- Replace the statistics counters (R29). -/
def State.setCounters (s : State) (f : Counters → Counters) : State := { s with counters := f s.counters }

/-- Each statistics counter counts modulo 2^32 (R29). -/
def Counters.bumpOvr (r : Chan) (c : Counters) : Counters :=
  match r with
  | .ch0 => { c with ovr0 := c.ovr0 + 1 }
  | .ch1 => { c with ovr1 := c.ovr1 + 1 }
def Counters.bumpFeatFail (c : Counters) : Counters := { c with featFail := c.featFail + 1 }
def Counters.bumpNodet (c : Counters) : Counters := { c with nodet := c.nodet + 1 }
def Counters.bumpUnderrun (c : Counters) : Counters := { c with underrun := c.underrun + 1 }
def Counters.bumpPktSkip (c : Counters) : Counters := { c with pktSkip := c.pktSkip + 1 }
def Counters.bumpEvtDrop (c : Counters) : Counters := { c with evtDrop := c.evtDrop + 1 }
def Counters.bumpDiscard (c : Counters) : Counters := { c with discard := c.discard + 1 }
def Counters.bumpFeatOk (c : Counters) : Counters := { c with featOk := c.featOk + 1 }
def Counters.bumpPkt (c : Counters) : Counters := { c with pkt := c.pkt + 1 }

end Sys2Proof.Machine
end

