-- ==== Sys2Proof/Machine/Log10.lean ====
section
/-!
DEFINITION. `LOG10` (spec/00_scope.md R12) at its AEDP-1 value: the correctly rounded binary32 value of the exact
base-10 logarithm. A positive finite number is m * 2^e with 1 ≤ m < 2; its logarithm is (e ln 2 + ln m) / ln 10, and
each natural logarithm is twice the series of the inverse hyperbolic tangent, in fixed point with 192 fraction bits.
-/

namespace Sys2Proof.Machine

/-- One in the fixed point of the series. -/
def fixOne : Nat := 2 ^ 192

/-- The first `fuel` terms of z + z^3/3 + z^5/5 + ..., where `p` is the current odd power of z, `z2` the square of z
and `k` the current odd number, all in fixed point. -/
def atanhSum (fuel : Nat) (p z2 k : Nat) : Nat :=
  match fuel with
  | 0 => 0
  | f + 1 => p / k + atanhSum f (p * z2 / fixOne) z2 (k + 2)

/-- ln(a / b) in fixed point, for b ≤ a < 2b. The argument of the series is below 1/3, so 64 terms reach past the last
fraction bit. -/
def fixLn (a b : Nat) : Nat :=
  let z := (a - b) * fixOne / (a + b)
  2 * atanhSum 64 z (z * z / fixOne) 1

/-- ln 2 = 2 atanh (1/3) in fixed point. -/
def fixLn2 : Nat := 2 * atanhSum 64 (fixOne / 3) (fixOne / 9) 1

/-- ln 10 = 3 ln 2 + ln (5/4) in fixed point. -/
def fixLn10 : Nat := 3 * fixLn2 + fixLn 5 4

/-- The logarithm of a positive finite number, correctly rounded (R12). -/
def log10Finite (a : Word) : Word :=
  let m := f32Mag a
  let n := m.log2
  let num := ((n : Int) - 149) * fixLn2 + fixLn m (2 ^ n)
  if num = 0 then f32Zero else packRat (decide (num < 0)) (num.natAbs * 2 ^ 149) fixLn10

/-- `LOG10` of AEDP-1 (R12, D7; log entry 5). -/
def log10 (a : Word) : Word :=
  if isNaN a || f32Neg a || decide (f32Abs a = 0) then Config.log10Outside a
  else if isInf a then a
  else log10Finite a

end Sys2Proof.Machine
end

