-- ==== Sys2Proof/Machine/Params.lean ====
section
/-!
DEFINITION. The parameters of spec/00_scope.md R6 at their AEDP-1 values. Every function that depends on a parameter
takes the record as its last argument, and stands for the block with those parameters; where the argument is not
written it is `aedp1`, the hardware modelled.
-/

namespace Sys2Proof.Machine

/-- The parameters of AEDP-1 (R6). BASE is the platform's and stays open (log entry 4); LOG10 is the correctly rounded
function (R12, log entry 5). -/
def aedp1 : Params where
  maxFftLog2 := 10
  maxMel := 64
  maxT := 128
  maxRb := 32768
  maxClasses := 8
  maxK := 7
  evqDepth := 4
  maxCodecLen := 1024
  scratchLen := 1024
  melStride := 1024
  baseMiB := Config.baseMiB
  log10 := log10

end Sys2Proof.Machine
end

