-- ==== Sys2Proof/Machine/Ops.lean ====
section
/-!
DEFINITION. The named operations every command is built of: the block's arrays and memory (spec/10_state.md R40-R50,
spec/20_memory.md R81), the reader cursors (R25, R90), free draws (R90), completing a command and raising an error
(R26, R27, spec/60_exceptions.md R350-R353), and the two steps of a command (R90). The block has no exceptions: an
error completion is the one thing that ends a command early, and it saves no state and returns nowhere (R352).
-/

namespace Sys2Proof.Machine

/-! ### Memory -/

/-- The byte at an offset; `none` when it was never written (R50). -/
def Memory.readByte : Memory → Nat → Option Byte
  | [], _ => none
  | (a, b) :: rest, off => if off = a then some b else Memory.readByte rest off

/-- Write one byte, keeping the canonical form. -/
def Memory.writeByte : Memory → Nat → Byte → Memory
  | [], off, v => [(off, v)]
  | (a, b) :: rest, off, v =>
    if off < a then (off, v) :: (a, b) :: rest
    else if off = a then (off, v) :: rest
    else (a, b) :: Memory.writeByte rest off v

/-- The word at an offset, byte lane 0 at the lowest address (R81); `none` when a byte of it was never written. -/
def Memory.readWord (m : Memory) (off : Nat) : Option Word :=
  match m.readByte off, m.readByte (off + 1), m.readByte (off + 2), m.readByte (off + 3) with
  | some b0, some b1, some b2, some b3 => some (wordOfBytes b0 b1 b2 b3)
  | _, _, _, _ => none

/-- Write a word, byte lane 0 at the lowest address (R81). -/
def Memory.writeWord (m : Memory) (off : Nat) (v : Word) : Memory :=
  (((m.writeByte off (byteLane v 0)).writeByte (off + 1) (byteLane v 1)).writeByte (off + 2) (byteLane v 2)).writeByte
    (off + 3) (byteLane v 3)

/-- The arrays of R40-R49. -/
inductive Arr where
  | win | twRe | twIm | scratch0 | scratch1 | workRe | workIm | pow | melE | melLog | feat | pktPay | melW | rbram
deriving DecidableEq, Repr

/-- The offset of an array's word 0 (R23). -/
def Arr.base : Arr → Nat
  | .win => 0x01000
  | .twRe => 0x02000
  | .twIm => 0x02800
  | .scratch0 => 0x03000
  | .workRe => 0x04000
  | .workIm => 0x05000
  | .pow => 0x06000
  | .melE => 0x07000
  | .melLog => 0x07100
  | .feat => 0x08000
  | .scratch1 => 0x10000
  | .pktPay => 0x11000
  | .melW => 0x40000
  | .rbram => 0x80000

/-- An array's length in words, from the parameters (R40-R49). The offsets of R23 stand for parameters whose arrays fit
between them. -/
def Arr.len (a : Arr) (p : Params := aedp1) : Nat :=
  match a with
  | .win | .workRe | .workIm => p.nMax
  | .twRe | .twIm => p.nMax / 2
  | .scratch0 | .scratch1 => p.scratchLen
  | .pow => p.nbMax
  | .melE | .melLog => p.maxMel
  | .feat => p.maxFeat
  | .pktPay => p.maxCodecLen / 4
  | .melW => p.maxMel * p.melStride
  | .rbram => p.maxRb

/-- An array the host may write (R23). -/
def Arr.writable : Arr → Bool
  | .scratch0 | .scratch1 | .pktPay | .rbram => false
  | .win | .twRe | .twIm | .workRe | .workIm | .pow | .melE | .melLog | .feat | .melW => true

/-- Every array, in the order of R23. -/
def Arr.all : List Arr :=
  [.win, .twRe, .twIm, .scratch0, .workRe, .workIm, .pow, .melE, .melLog, .feat, .scratch1, .pktPay, .melW, .rbram]

/-- The offset of word `i` of an array (R23). -/
def Arr.off (a : Arr) (i : Nat) : Nat := a.base + 4 * i

/-- Read `ARRAY[i]`: the model fault UNINIT_READ where it was never written (R50). -/
def load (a : Arr) (i : Nat) (m : Memory) : Except Fault Word :=
  match m.readWord (a.off i) with
  | some v => .ok v
  | none => .error (.uninitRead (a.off i))

/-- `ARRAY[i] <- v` (R10); it sets the written-bit (R50). -/
def store (a : Arr) (i : Nat) (v : Word) (m : Memory) : Memory := m.writeWord (a.off i) v

/-- `for i in 0 .. n-1: body i`, stopping at the first model fault. -/
def forUpTo {σ : Type} (n : Nat) (body : Nat → σ → Except Fault σ) (x : σ) : Except Fault σ :=
  match n with
  | 0 => .ok x
  | k + 1 =>
    match forUpTo k body x with
    | .ok y => body k y
    | .error f => .error f

/-- The same loop, for a body that cannot fault. -/
def loopUpTo {σ : Type} (n : Nat) (body : Nat → σ → σ) (x : σ) : σ :=
  match n with
  | 0 => x
  | k + 1 => body k (loopUpTo k body x)

/-- The values `f 0, .., f (n-1)`, stopping at the first model fault. -/
def collect {α : Type} (n : Nat) (f : Nat → Except Fault α) : Except Fault (List α) :=
  match n with
  | 0 => .ok []
  | k + 1 =>
    match collect k f with
    | .ok xs =>
      match f k with
      | .ok x => .ok (xs ++ [x])
      | .error e => .error e
    | .error e => .error e

/-- The eight words `f 0, .., f 7`. -/
def tab8 {α : Type} (f : Nat → α) : Vector α 8 := #v[f 0, f 1, f 2, f 3, f 4, f 5, f 6, f 7]

/-- Element `i` of a per-class array; the spec gives no element past 7 (R35). -/
def at8 (v : Vector Word 8) (i : Nat) : Word := v.toList.getD i 0

/-- Element `k` of row `c` of HIST (R35). -/
def at64 (v : Vector (Vector Word 8) 8) (c k : Nat) : Word := at8 (v.toList.getD c zeros8) k

/-! ### Free draws -/

/-- The `k`-th word drawn from here on (R90; log entry 3). -/
def State.freeAt (s : State) (k : Nat) : Word := Config.freeWord (s.draws + k)

/-- Draw every word of `a[0 .. n-1]` freely (R90). -/
def State.drawArray (s : State) (a : Arr) (n : Nat) : State :=
  { s with mem := loopUpTo n (fun i m => store a i (s.freeAt i) m) s.mem, draws := s.draws + n }

/-! ### Reader cursors -/

/-- `RPOS[r]` (R25). -/
def State.rpos (s : State) (r : Chan) : Pos := byChan r s.rpos0 s.rpos1

/-- `RPOS[r] <- p`. -/
def State.setRpos (s : State) (r : Chan) (p : Pos) : State :=
  { s with rpos0 := byChan r p s.rpos0, rpos1 := byChan r s.rpos1 p }

/-- `avail(r) = SCLK - RPOS[r]` (R172). -/
def State.avail (s : State) (r : Chan) : Nat := (s.sclk - s.rpos r).toNat

/-- The reader cursor a command advances becomes `max(P0 + advance, RPOS[r] at END)` (R90). -/
def State.advance (s : State) (r : Chan) (p0 : Pos) (n : Nat) : State :=
  s.setRpos r (BitVec.ofNat 64 (max (p0.toNat + n) (s.rpos r).toNat))

/-! ### Completion -/

/-- `CODE` of R350. -/
def ErrCode.code : ErrCode → Byte
  | .badOpcode => 0x01
  | .wrongChannel => 0x02
  | .badArg => 0x03
  | .noConfig => 0x04
  | .notRunning => 0x05
  | .running => 0x06
  | .otherBusy => 0x07
  | .evqEmpty => 0x08
  | .pktEmpty => 0x09
  | .cfgField i => BitVec.ofNat 8 (0x40 + i)

/-- The completion code of a decode error (R110). -/
def ErrCode.ofDecode : DecodeRefusal → ErrCode
  | .badOpcode => .badOpcode
  | .wrongChannel => .wrongChannel
  | .reservedBit => .badArg

/-- `CODE` of a completion; 0x00 is success (R350). -/
def completionCode : Option ErrCode → Byte
  | none => 0x00
  | some e => e.code

/-- Complete the active channel's command: BUSYn = 0, ERRn = {OPC, CODE}, DONEn set, ERRn's bit set when CODE is not 0
(R26, R27, R353). -/
def State.complete (s : State) (opc : Byte) (e : Option ErrCode) : State :=
  let c := s.chan s.active
  ((s.setChan s.active { c with pending := .idle, errOpc := opc, errCode := completionCode e }).setIrq
    (Irq.done s.active)).setIrqIf (decide (completionCode e ≠ 0)) (Irq.err s.active)

/-- `result <- v` on the active channel (R10, R27). -/
def State.setResult (s : State) (v : Word) : State := s.setChan s.active { s.chan s.active with result := v }

/-- A write of the command word `w` to CMDn while BUSYn = 0 latches it (R26). The model records that the host has not
yet observed its completion, and the configuration and history slot the command runs with: the present ones, which no
other command can change before this one's END (R141). R357, log entry 10. -/
def State.latch (s : State) (n : Chan) (w : Word) : State :=
  let c := s.chan n
  s.setChan n
    { c with pending := .latched w, unobserved := { word := w, cfg := s.act, hpos := s.dec.hpos } :: c.unobserved }

/-! ### The two steps of a command -/

/-- The cells of the ring buffer, the last array of R23. -/
def Memory.ringCells (m : Memory) : Memory := m.filter (fun c => decide (Arr.rbram.base ≤ c.1))

/-- The BEGIN snapshot on the active channel: SCLK, the position of the channel's reader, and the slots (R90). -/
def State.snapshot (s : State) : Snapshot :=
  { sclk := s.sclk, rpos := s.rpos s.active, ring := s.mem.ringCells }

/-- The availability `A0 = S0 - P0` at BEGIN (R173). -/
def Snapshot.avail (sn : Snapshot) : Nat := (sn.sclk - sn.rpos).toNat

/-- At END, some sample the command could have read was overwritten while it ran: `S1 - C > P0` (R90). -/
def State.evicted (s : State) (sn : Snapshot) : Bool :=
  decide (sn.rpos.toNat + s.act.rbCap.toNat < s.sclk.toNat)

/-- What the engine found at BEGIN: from the record when BEGIN has been taken, else found now (R90). -/
def State.beginResult (s : State) (check : State → Option ErrCode) : Option ErrCode × Snapshot :=
  match (s.chan s.active).pending with
  | .begun _ verdict sn => (verdict, sn)
  | .latched _ => (check s, s.snapshot)
  | .idle => (check s, s.snapshot)

/-- The END step: an error completes the command with no other effect (R352); otherwise the whole effect happens at
once and the command completes with code 0 (R90). -/
def State.finish (s : State) (i : Instr) (verdict : Option ErrCode) (effect : State → Except Fault State) :
    Host.Outcome State Fault Refusal :=
  match verdict with
  | some e => .next (s.complete i.opcode.byte (some e))
  | none =>
    match effect s with
    | .ok t => .next (t.complete i.opcode.byte none)
    | .error f => .fault f

/-- A command on the active channel: END, after BEGIN if that is still to come (R90). -/
def runCommand (i : Instr) (check : State → Option ErrCode) (effect : Snapshot → State → Except Fault State)
    (s : State) : Host.Outcome State Fault Refusal :=
  s.finish i (s.beginResult check).1 (effect (s.beginResult check).2)

/-- A command whose BEGIN and END are one step (R90: CFG_COMMIT and RESET_RT). -/
def runAtomic (i : Instr) (check : State → Option ErrCode) (effect : State → Except Fault State) (s : State) :
    Host.Outcome State Fault Refusal :=
  s.finish i (check s) effect

/-- The BEGIN step alone: the verdict and the snapshot are kept until END (R90). -/
def State.begin (s : State) (w : Word) (verdict : Option ErrCode) : State :=
  s.setChan s.active { s.chan s.active with pending := .begun w verdict s.snapshot }

end Sys2Proof.Machine
end

