-- ==== Sys2Proof/Machine/Operands.lean ====
section
/-!
DEFINITION. The quantities commands work on: those derived from the active configuration (spec/00_scope.md R11,
spec/10_state.md R32), and the samples of a reader (spec/41_ringbuffer.md R172, R173).
-/

namespace Sys2Proof.Machine

/-- `N = 2^FFT_LOG2`, the FFT size. -/
def Cfg.fftSize (c : Cfg) : Nat := 2 ^ c.fftLog2.toNat

/-- `NB = N/2 + 1`, the count of non-negative bins. -/
def Cfg.bins (c : Cfg) : Nat := c.fftSize / 2 + 1

/-- `L`, the window length. -/
def Cfg.window (c : Cfg) : Nat := c.winLen.toNat

/-- `T`, the count of time frames. -/
def Cfg.frames (c : Cfg) : Nat := c.nframes.toNat

/-- `M`, the band count. -/
def Cfg.bands (c : Cfg) : Nat := c.melBands.toNat

/-- The samples of `nwin` windows: `L + (nwin - 1)·H` (R255, R259). -/
def Cfg.spanOf (c : Cfg) (nwin : Nat) : Nat := c.winLen.toNat + (nwin - 1) * c.hop.toNat

/-- `RQ = L + (T-1)·H`, the samples one full extraction needs. -/
def Cfg.required (c : Cfg) : Nat := c.spanOf c.nframes.toNat

/-- `C`, the ring-buffer capacity. -/
def Cfg.capacity (c : Cfg) : Nat := c.rbCap.toNat

/-- `NC`, the class count. -/
def Cfg.classes (c : Cfg) : Nat := c.nclasses.toNat

/-- `K`, the median length. -/
def Cfg.medianLen (c : Cfg) : Nat := c.medianK.toNat

/-- `F`, the codec frame length. -/
def Cfg.frame (c : Cfg) : Nat := c.codecLen.toNat

/-- The words of one packet's payload: `ceil(F/4)` (R322). -/
def Cfg.frameWords (c : Cfg) : Nat := (c.codecLen.toNat + 3) / 4

/-- The fields of CFG_FEAT_CTRL (R32). -/
def Cfg.padEn (c : Cfg) : Bool := c.featCtrl.getLsbD 0
def Cfg.preemphEn (c : Cfg) : Bool := c.featCtrl.getLsbD 1
def Cfg.agcEn (c : Cfg) : Bool := c.featCtrl.getLsbD 2
def Cfg.gateEn (c : Cfg) : Bool := c.featCtrl.getLsbD 3

/-- The scratch buffer of a channel (R42). -/
def scratchOf : Chan → Arr
  | .ch0 => .scratch0
  | .ch1 => .scratch1

/-- `sext_32` of a sample (R42, R49). -/
def sampleWord (x : Sample) : Word := x.signExtend 32

/-- The sample a ring-buffer word holds. -/
def wordSample (w : Word) : Sample := w.setWidth 16

/-- The slot of position `p`: `p mod C` (R25). -/
def slotOf (c : Cfg) (p : Nat) : Nat := p % c.capacity

/-- The sample at position `P0 + i`, from the BEGIN snapshot's slots (R90, R172). -/
def Snapshot.sample (sn : Snapshot) (c : Cfg) (i : Nat) : Except Fault Sample :=
  match load .rbram (slotOf c (sn.rpos.toNat + i)) sn.ring with
  | .ok w => .ok (wordSample w)
  | .error f => .error f

end Sys2Proof.Machine
end

