-- ==== Sys2Proof/Machine/Checks.lean ====
section
/-!
DEFINITION. The error checks of every command, which its BEGIN step evaluates (spec/40_control.md R141, R143,
spec/60_exceptions.md R350, R351): the named preconditions in the order the command's pseudocode lists them, then the
operand checks, then the state checks. The decode checks of R110 stand in Decode.lean and come before all of these.
-/

namespace Sys2Proof.Machine

/-- `needcfg` (R141). -/
def State.needcfg (s : State) : Option ErrCode := if s.cfgValid then none else some .noConfig

/-- `needrun` (R141). -/
def State.needrun (s : State) : Option ErrCode := if s.run then none else some .notRunning

/-- `needstop` (R141). -/
def State.needstop (s : State) : Option ErrCode := if s.run then some .running else none

/-- `needidle1` (R141). -/
def State.needidle1 (s : State) : Option ErrCode := if s.busy .ch1 then some .otherBusy else none

/-- The first error of two checks made in order (R351). -/
def thenCheck (a b : Option ErrCode) : Option ErrCode :=
  match a with
  | some e => some e
  | none => b

/-- `1 ≤ v ≤ hi`. -/
def inRange (v hi : Nat) : Bool := decide (1 ≤ v) && decide (v ≤ hi)

/-- `0 ≤ a ≤ 1`, false of a NaN (R9). -/
def f32Unit (a : Word) : Bool := fge a f32Zero && fle a f32One

/-- `0 < a ≤ 1`, false of a NaN (R9). -/
def f32PosUnit (a : Word) : Bool := fgt a f32Zero && fle a f32One

/-- `0 < a` and finite. -/
def f32PosFinite (a : Word) : Bool := fgt a f32Zero && isFinite a

/-- The validation list of R143 in its order: the field index that gives the code 0x40 + i, and whether the check
passes. -/
def Cfg.validation (c : Cfg) (p : Params := aedp1) : List (Nat × Bool) :=
  [(0, decide (c.fs ≠ 0)),
   (1, inRange c.rbCap.toNat p.maxRb),
   (2, inRange c.winLen.toNat p.nMax),
   (3, inRange c.hop.toNat c.winLen.toNat),
   (4, inRange c.nframes.toNat p.maxT),
   (5, inRange c.fftLog2.toNat p.maxFftLog2 && decide (c.winLen.toNat ≤ 2 ^ c.fftLog2.toNat)),
   (6, inRange c.melBands.toNat p.maxMel),
   (7, inRange c.featStride.toNat c.required),
   (8, decide (c.featCtrl.toNat < 16)),
   (9, fge c.dcR f32Zero && flt c.dcR f32One),
   (10, f32Unit c.preemph),
   (11, f32PosUnit c.agcAttack),
   (12, f32PosUnit c.agcRelease),
   (13, f32PosUnit c.agcGsmooth),
   (14, f32PosFinite c.agcTarget),
   (15, f32PosFinite c.agcMaxgain),
   (16, f32PosFinite c.gateThr),
   (17, f32PosFinite c.logEps),
   (18, inRange c.nclasses.toNat p.maxClasses),
   (19, decide (c.target.toNat < c.nclasses.toNat)),
   (20, f32Unit c.threshold),
   (21, f32PosUnit c.emaAlpha),
   (22, decide (c.medianK.toNat % 2 = 1) && inRange c.medianK.toNat p.maxK),
   (25, inRange c.codecLen.toNat p.maxCodecLen),
   (1, decide (c.required ≤ c.rbCap.toNat) && decide (c.codecLen.toNat ≤ c.rbCap.toNat))]

/-- The first failing check of a validation list. -/
def firstFailing : List (Nat × Bool) → Option ErrCode
  | [] => none
  | (i, ok) :: rest => if ok then firstFailing rest else some (.cfgField i)

/-- CFG_COMMIT's validation of a configuration (R142, R143). -/
def Cfg.validate (c : Cfg) (p : Params := aedp1) : Option ErrCode := firstFailing (c.validation p)

/-! ### The checks of each command -/

def checkNop (_ : State) : Option ErrCode := none
def checkCfgCommit (s : State) (p : Params := aedp1) : Option ErrCode :=
  thenCheck s.needstop (thenCheck s.needidle1 (s.shadow.validate p))
def checkStart (s : State) : Option ErrCode := s.needcfg
def checkStop (_ : State) : Option ErrCode := none
def checkResetRt (s : State) : Option ErrCode := thenCheck s.needstop s.needidle1
/-- NCNT ≤ SCRATCH_LEN (R173). -/
def countCheck (ncnt : Nat) (p : Params := aedp1) : Option ErrCode := if ncnt ≤ p.scratchLen then none else some .badArg
def checkRbRead (ncnt : Nat) (s : State) (p : Params := aedp1) : Option ErrCode := thenCheck s.needcfg (countCheck ncnt p)
def checkRbPeek (ncnt : Nat) (s : State) (p : Params := aedp1) : Option ErrCode := thenCheck s.needcfg (countCheck ncnt p)
def checkPreStep (s : State) : Option ErrCode := thenCheck s.needcfg s.needstop
def checkWinApply (s : State) : Option ErrCode := s.needcfg
def checkFftBitrev (s : State) : Option ErrCode := s.needcfg
/-- 1 ≤ S ≤ FFT_LOG2 (R224). -/
def stageCheck (c : Cfg) (stage : Nat) : Option ErrCode :=
  if inRange stage c.fftLog2.toNat then none else some .badArg
def checkFftStage (stage : Nat) (s : State) : Option ErrCode := thenCheck s.needcfg (stageCheck s.act stage)
def checkFftFull (s : State) : Option ErrCode := s.needcfg
def checkFftPower (s : State) : Option ErrCode := s.needcfg
def checkMelApply (s : State) : Option ErrCode := s.needcfg
def checkLogCompress (s : State) : Option ErrCode := s.needcfg
def checkFeatExtract (s : State) : Option ErrCode := thenCheck s.needcfg s.needrun
def checkDecStep (s : State) : Option ErrCode := thenCheck s.needcfg s.needrun
def checkDecReset (_ : State) : Option ErrCode := none
/-- The queue is not empty (R292). -/
def checkEvtPop (s : State) : Option ErrCode := if s.evq.isEmpty then some .evqEmpty else none
def checkAlawEnc (_ : State) : Option ErrCode := none
def checkCodecFrame (s : State) : Option ErrCode := thenCheck s.needcfg s.needrun
/-- A packet is held (R326). -/
def checkPktPop (s : State) : Option ErrCode := if s.pkt.isSome then none else some .pktEmpty

/-- The checks a command's BEGIN step evaluates (R90, R351). -/
def commandCheck (i : Instr) (s : State) (p : Params := aedp1) : Option ErrCode :=
  match i with
  | .nop => checkNop s
  | .cfgCommit => checkCfgCommit s p
  | .start => checkStart s
  | .stop => checkStop s
  | .resetRt => checkResetRt s
  | .rbRead ncnt => checkRbRead ncnt s p
  | .rbPeek ncnt => checkRbPeek ncnt s p
  | .preStep _ => checkPreStep s
  | .winApply => checkWinApply s
  | .fftBitrev => checkFftBitrev s
  | .fftStage stage => checkFftStage stage s
  | .fftFull => checkFftFull s
  | .fftPower => checkFftPower s
  | .melApply => checkMelApply s
  | .logCompress => checkLogCompress s
  | .featExtract => checkFeatExtract s
  | .decStep _ => checkDecStep s
  | .decReset => checkDecReset s
  | .evtPop => checkEvtPop s
  | .alawEnc _ => checkAlawEnc s
  | .codecFrame => checkCodecFrame s
  | .pktPop => checkPktPop s

/-- The commands whose BEGIN and END are one step (R90). -/
def beginIsEnd : Instr → Bool
  | .cfgCommit | .resetRt => true
  | .nop | .start | .stop | .rbRead _ | .rbPeek _ | .preStep _ | .winApply | .fftBitrev | .fftStage _ | .fftFull
  | .fftPower | .melApply | .logCompress | .featExtract | .decStep _ | .decReset | .evtPop | .alawEnc _ | .codecFrame
  | .pktPop => false

end Sys2Proof.Machine
end

