-- ==== Sys2Proof/Machine/Codec.lean ====
section
/-!
DEFINITION. The A-law codec and the packetiser (spec/46_codec.md): ALAW_ENC, CODEC_FRAME, PKT_POP.
-/

namespace Sys2Proof.Machine

/-- The segment ends (R320). -/
def segEnd : List Nat := [0x1F, 0x3F, 0x7F, 0xFF, 0x1FF, 0x3FF, 0x7FF, 0xFFF]

/-- The code of a sign and a 13-bit magnitude, before the toggle mask (R320). -/
def alawCode (sgn mag : Nat) : Nat :=
  match segEnd.findIdx? (fun e => decide (mag ≤ e)) with
  | none => sgn ||| 0x7F
  | some seg => sgn ||| (seg <<< 4) ||| ((if seg < 2 then mag >>> 1 else mag >>> seg) &&& 0x0F)

/-- `alaw(x)` (R320). Division of an integer by 8 is the arithmetic shift right by 3 (R8). -/
def alaw (x : Int) : Byte :=
  let p := x / 8
  let code := if 0 ≤ p then alawCode 0x80 p.toNat else alawCode 0x00 (-p - 1).toNat
  BitVec.ofNat 8 (code ^^^ 0x55)

/-- R321. -/
def execAlawEnc (x : Int) (s : State) : Host.Outcome State Fault Refusal :=
  runCommand (.alawEnc x) checkAlawEnc (fun _ t => .ok (t.setResult ((alaw x).setWidth 32))) s

/-- The payload bytes of a frame (R325). -/
def framePayload (c : Cfg) (sn : Snapshot) : Except Fault (List Byte) :=
  match collect c.frame (sn.sample c) with
  | .ok xs => .ok (xs.map (fun x => alaw x.toInt))
  | .error f => .error f

/-- Word `j` of a payload, four bytes a word, the unused high bytes 0 (R47, R322). -/
def payloadWord (bytes : List Byte) (j : Nat) : Word :=
  wordOfBytes (bytes.getD (4 * j) 0) (bytes.getD (4 * j + 1) 0) (bytes.getD (4 * j + 2) 0) (bytes.getD (4 * j + 3) 0)

/-- Write a payload to PKT_PAY (R325). -/
def storePayload (c : Cfg) (bytes : List Byte) (m : Memory) : Memory :=
  loopUpTo c.frameWords (fun j t => store .pktPay j (payloadWord bytes j) t) m

/-- A cycle skipped because the packet buffer is full (R324). -/
def codecSkipped (s : State) : State := ((s.setCounters Counters.bumpPktSkip).setIrq .pktSkip).setResult 0

/-- A cycle skipped for lack of samples (R324). -/
def codecUnderrun (s : State) : State := ((s.setCounters Counters.bumpUnderrun).setIrq .underrun).setResult 0

/-- The packet emitted once its payload stands in PKT_PAY (R323, R325). -/
def emitPacket (sn : Snapshot) (s : State) : State :=
  let c := s.act
  let t := s.advance .ch1 sn.rpos c.frame
  let t : State :=
    { t with
      pkt := some { seq := s.pktSeqNext, ts := s.pktTsNext, len := c.codecLen }
      pktSeqNext := s.pktSeqNext + 1
      pktTsNext := s.pktTsNext + c.codecLen }
  ((t.setCounters Counters.bumpPkt).setIrq .pktReady).setResult c.codecLen

/-- The effect of CODEC_FRAME (R325). The payload is free when a sample was evicted meanwhile (R90). -/
def effectCodecFrame (sn : Snapshot) (s : State) : Except Fault State :=
  if s.pkt.isSome then .ok (codecSkipped s)
  else if sn.avail < s.act.frame then .ok (codecUnderrun s)
  else
    match framePayload s.act sn with
    | .error f => .error f
    | .ok bytes =>
      let t : State := { s with mem := storePayload s.act bytes s.mem }
      .ok (emitPacket sn (if s.evicted sn then t.drawArray .pktPay s.act.frameWords else t))

/-- R325. -/
def execCodecFrame (s : State) : Host.Outcome State Fault Refusal :=
  runCommand .codecFrame checkCodecFrame effectCodecFrame s

/-- The header the packet registers show; 0 when no packet is held (R37). -/
def State.headPacket (s : State) : PktHeader := s.pkt.getD { seq := 0, ts := 0, len := 0 }

/-- The effect of PKT_POP (R326). -/
def effectPktPop (s : State) : State := { s.setResult s.headPacket.seq with pkt := none }

/-- R326. -/
def execPktPop (s : State) : Host.Outcome State Fault Refusal :=
  runCommand .pktPop checkPktPop (fun _ t => .ok (effectPktPop t)) s

end Sys2Proof.Machine
end

