-- ==== Sys2Proof/Machine/Control.lean ====
section
/-!
DEFINITION. The control commands (spec/40_control.md): NOP, CFG_COMMIT, START, STOP, RESET_RT.
-/

namespace Sys2Proof.Machine

/-- `dec_clear()` (R293). -/
def State.decClear (s : State) : State :=
  { s with ema := zeros8, smooth := zeros8, hist := zeros64, dec := Decision.reset }

/-- `runtime_clear()` (R144). -/
def State.runtimeClear (s : State) : State :=
  { ({ s with rpos0 := s.sclk, rpos1 := s.sclk, pp := PrepState.reset } : State).decClear with featValid := false }

/-- R140. -/
def execNop (s : State) : Host.Outcome State Fault Refusal :=
  runCommand .nop checkNop (fun _ t => .ok t) s

/-- The effect of CFG_COMMIT (R142): all 26 fields at once. -/
def effectCfgCommit (s : State) : State :=
  ({ s with act := s.shadow, cfgValid := true } : State).runtimeClear

/-- CFG_COMMIT on the block with the parameters `p` (R142). -/
def cfgCommitWith (p : Params) (s : State) : Host.Outcome State Fault Refusal :=
  runAtomic .cfgCommit (fun t => checkCfgCommit t p) (fun t => .ok (effectCfgCommit t)) s

/-- R142. -/
def execCfgCommit (s : State) : Host.Outcome State Fault Refusal := cfgCommitWith aedp1 s

/-- R145. -/
def execStart (s : State) : Host.Outcome State Fault Refusal :=
  runCommand .start checkStart (fun _ t => .ok { t with run := true }) s

/-- R146. -/
def execStop (s : State) : Host.Outcome State Fault Refusal :=
  runCommand .stop checkStop (fun _ t => .ok { t with run := false }) s

/-- The effect of RESET_RT (R147). -/
def effectResetRt (s : State) : State := { s.runtimeClear with evq := [], pkt := none }

/-- R147. -/
def execResetRt (s : State) : Host.Outcome State Fault Refusal :=
  runAtomic .resetRt checkResetRt (fun t => .ok (effectResetRt t)) s

end Sys2Proof.Machine
end

