-- ==== Sys2Proof/Machine/Decision.lean ====
section
/-!
DEFINITION. The decision engine (spec/45_decision.md): DEC_STEP, DEC_RESET, EVT_POP.
-/

namespace Sys2Proof.Machine

/-! ### Smoothing -/

/-- Every PROB[c] with c < NC lies in [0, 1] (R283). -/
def probsValid (s : State) : Bool := (List.range s.act.classes).all (fun c => f32Unit (at8 s.prob c))

/-- One EMA update (R282). -/
def emaNext (alpha p e : Word) : Word := fadd (fmul alpha p) (fmul (fsub f32One alpha) e)

/-- The EMA update of the classes below NC (R282). -/
def State.emaUpdate (s : State) : State :=
  { s with ema := tab8 (fun c =>
      if c < s.act.classes then emaNext s.act.emaAlpha (at8 s.prob c) (at8 s.ema c) else at8 s.ema c) }

/-- Insert into a list sorted ascending under `fle`. -/
def insertF32 (x : Word) : List Word → List Word
  | [] => [x]
  | y :: ys => if fle x y then x :: y :: ys else y :: insertF32 x ys

/-- Sort ascending (R284). -/
def sortF32 : List Word → List Word
  | [] => []
  | x :: xs => insertF32 x (sortF32 xs)

/-- Element (K-1)/2 of the first K entries sorted ascending (R284). -/
def median (k : Nat) (row : List Word) : Word := (sortF32 (row.take k)).getD ((k - 1) / 2) f32Zero

/-- Row `c` of HIST. -/
def histRow (v : Vector (Vector Word 8) 8) (c : Nat) : Vector Word 8 := v.toList.getD c zeros8

/-- The median stage after the EMA update (R284). -/
def State.medianUpdate (s : State) : State :=
  let h := s.dec.hpos.toNat
  let hist := tab8 (fun c =>
    if c < s.act.classes then tab8 (fun k => if k = h then at8 s.ema c else at64 s.hist c k) else histRow s.hist c)
  { s with
    hist := hist
    smooth := tab8 (fun c =>
      if c < s.act.classes then median s.act.medianLen (histRow hist c).toList else at8 s.smooth c)
    dec := { s.dec with hpos := BitVec.ofNat 32 ((h + 1) % s.act.medianLen) } }

/-- The smallest class below `nc` whose SMOOTH is maximal (R285). -/
def argmaxOf (nc : Nat) (v : Vector Word 8) : Nat :=
  loopUpTo (nc - 1) (fun k a => if fgt (at8 v (k + 1)) (at8 v a) then k + 1 else a) 0

/-- EMA, median and argmax of one valid cycle (R282, R284, R285). -/
def State.smoothStep (s : State) : State :=
  let t := s.emaUpdate.medianUpdate
  let a := argmaxOf t.act.classes t.smooth
  { t with dec := { t.dec with argmax := BitVec.ofNat 32 a, conf := at8 t.smooth a } }

/-- SMOOTH[TGT]. -/
def State.targetConf (s : State) : Word := at8 s.smooth s.act.target.toNat

/-- The cycle is other-dominant (R285). -/
def State.otherDominant (s : State) : Bool := decide (s.dec.argmax ≠ s.act.target)

/-- The cycle is above (R285). -/
def State.above (s : State) : Bool := decide (s.dec.argmax = s.act.target) && fge s.targetConf s.act.threshold

/-! ### The state machine -/

/-- IDLE to EVENT_ACTIVE (R286). -/
def State.enterEvent (s : State) : State :=
  { s with dec := { s.dec with
      state := .eventActive, start := s.cycleTs, last := s.cycleTs, peakconf := s.targetConf, rmsmax := s.levelRms,
      peakmax := s.levelPeak } }

/-- The larger of a maximum so far and a new value, under `fgt` (R287). -/
def maxSoFar (v mx : Word) : Word := if fgt v mx then v else mx

/-- An above cycle in EVENT_ACTIVE (R287). -/
def State.stayEvent (s : State) : State :=
  { s with dec := { s.dec with
      last := s.cycleTs, peakconf := maxSoFar s.targetConf s.dec.peakconf,
      rmsmax := maxSoFar s.levelRms s.dec.rmsmax, peakmax := maxSoFar s.levelPeak s.dec.peakmax } }

/-- The exit condition of a cycle that is not above (R288). -/
def State.exits (s : State) : Bool :=
  s.otherDominant || decide (s.act.quiet.toNat ≤ (s.cycleTs - s.dec.last).toNat)

/-- `dur` (R289). -/
def State.eventDur (s : State) : Nat := min (s.dec.last - s.dec.start).toNat 0xFFFFFFFF

/-- The record `emit` builds (R290). -/
def State.eventRec (s : State) : EventRec :=
  { cls := s.act.target, seq := s.evtSeqNext, start := s.dec.start, dur := BitVec.ofNat 32 s.eventDur,
    peakconf := s.dec.peakconf, rms := s.dec.rmsmax, peak := s.dec.peakmax }

/-- The queue has room for one more record (R290). -/
def State.queueHasRoom (s : State) (p : Params := aedp1) : Bool := decide (s.evq.length < p.evqDepth)

/-- `emit()` (R290). -/
def State.emit (s : State) (p : Params := aedp1) : State :=
  let t : State := { s with evtSeqNext := s.evtSeqNext + 1 }
  if s.queueHasRoom p then ({ t with evq := t.evq ++ [s.eventRec] } : State).setIrq .event
  else (t.setCounters Counters.bumpEvtDrop).setIrq .evtDrop

/-- The exit: IDLE, and the record when the event was long enough; the result bits EXIT, EMIT and DROP (R288, R289,
R291). -/
def State.exitEvent (s : State) (p : Params := aedp1) : State × Word :=
  let t : State := { s with dec := { s.dec with state := .idle } }
  if s.act.minDur.toNat ≤ s.eventDur then (t.emit p, if s.queueHasRoom p then 0xD else 0x15) else (t, 0x5)

/-- The state machine on a valid cycle after smoothing, with the result bits (R291). -/
def State.cycleOutcome (s : State) (p : Params := aedp1) : State × Word :=
  match s.dec.state with
  | .idle => if s.above then (s.enterEvent, 0x3) else (s, 0x1)
  | .eventActive => if s.above then (s.stayEvent, 0x1) else if s.exits then s.exitEvent p else (s, 0x1)

/-- A no-detection cycle (R283). -/
def State.noDetection (s : State) : State := (s.setCounters Counters.bumpNodet).setResult 0

/-- The effect of DEC_STEP (R291). -/
def effectDecStep (v : Bool) (s : State) (p : Params := aedp1) : State :=
  if v then
    if probsValid s then (s.smoothStep.cycleOutcome p).1.setResult (s.smoothStep.cycleOutcome p).2
    else s.noDetection.setIrq .probBad
  else s.noDetection

/-- DEC_STEP on the block with the parameters `p` (R291). -/
def decStepWith (p : Params) (v : Bool) (s : State) : Host.Outcome State Fault Refusal :=
  runCommand (.decStep v) checkDecStep (fun _ t => .ok (effectDecStep v t p)) s

/-- R291. -/
def execDecStep (v : Bool) (s : State) : Host.Outcome State Fault Refusal := decStepWith aedp1 v s

/-- R293. -/
def execDecReset (s : State) : Host.Outcome State Fault Refusal :=
  runCommand .decReset checkDecReset (fun _ t => .ok t.decClear) s

/-- The record the head registers show; all 0 when EVQ is empty (R36). -/
def State.headEvent (s : State) : EventRec :=
  s.evq.headD { cls := 0, seq := 0, start := 0, dur := 0, peakconf := 0, rms := 0, peak := 0 }

/-- The effect of EVT_POP (R292). -/
def effectEvtPop (s : State) : State := { s.setResult s.headEvent.seq with evq := s.evq.tail }

/-- R292. -/
def execEvtPop (s : State) : Host.Outcome State Fault Refusal :=
  runCommand .evtPop checkEvtPop (fun _ t => .ok (effectEvtPop t)) s

end Sys2Proof.Machine
end

