-- ==== Sys2Proof/Machine/Preprocess.lean ====
section
/-!
DEFINITION. The preprocessor (spec/42_preprocess.md): the four stages of `pp_step`, the window stage, PRE_STEP and
WIN_APPLY.
-/

namespace Sys2Proof.Machine

/-- Stage 1, the DC block (R191). -/
def dcblock (c : Cfg) (p : PrepState) (xf : Word) : PrepState × Word :=
  let d := fadd (fsub xf p.x1) (fmul c.dcR p.y1)
  ({ p with x1 := xf, y1 := d }, d)

/-- Stage 2, pre-emphasis (R192). -/
def preemphasis (c : Cfg) (p : PrepState) (d : Word) : PrepState × Word :=
  ({ p with p1 := d }, if c.preemphEn then fsub d (fmul c.preemph p.p1) else d)

/-- Stage 3, automatic gain control (R193). -/
def agc (c : Cfg) (p : PrepState) (e : Word) : PrepState × Word :=
  if c.agcEn then
    let pw := fmul e e
    let k := if fgt pw p.env then c.agcAttack else c.agcRelease
    let env := fadd p.env (fmul k (fsub pw p.env))
    let lvl := if fgt env f32Zero then fsqrt env else f32Zero
    let gd := if feq lvl f32Zero then c.agcMaxgain else fmin (fdiv c.agcTarget lvl) c.agcMaxgain
    let g := fadd p.gain (fmul c.agcGsmooth (fsub gd p.gain))
    ({ p with env := env, gain := g }, fmul e g)
  else (p, e)

/-- Stage 4, the noise gate (R194). -/
def gate (c : Cfg) (a : Word) : Word :=
  if c.gateEn && flt (fabs a) c.gateThr then fmul a (fdiv (fabs a) c.gateThr) else a

/-- `pp_step` (R190). -/
def ppStep (c : Cfg) (p : PrepState) (x : Int) : PrepState × Word :=
  let d := dcblock c p (f32OfInt x)
  let e := preemphasis c d.1 d.2
  let a := agc c e.1 e.2
  (a.1, gate c a.2)

/-- The stage-4 outputs of consecutive samples (R190, R198). -/
def ppOutputs (c : Cfg) (p : PrepState) : List Int → List Word
  | [] => []
  | x :: xs => (ppStep c p x).2 :: ppOutputs c (ppStep c p x).1 xs

/-- The preprocessor state after consecutive samples (R190, R258). -/
def ppAfter (c : Cfg) (p : PrepState) : List Int → PrepState
  | [] => p
  | x :: xs => ppAfter c (ppStep c p x).1 xs

/-- The effect of PRE_STEP (R196). -/
def effectPreStep (x : Int) (s : State) : State :=
  let r := ppStep s.act s.pp x
  ({ s with pp := r.1 } : State).setResult r.2

/-- R196. -/
def execPreStep (x : Int) (s : State) : Host.Outcome State Fault Refusal :=
  runCommand (.preStep x) checkPreStep (fun _ t => .ok (effectPreStep x t)) s

/-- `WORK_RE[n] <- +0.0; WORK_IM[n] <- +0.0` for n in L .. N-1 (R195). -/
def zeroPad (c : Cfg) (m : Memory) : Memory :=
  loopUpTo (c.fftSize - c.window)
    (fun k t => store .workIm (c.window + k) f32Zero (store .workRe (c.window + k) f32Zero t)) m

/-- Stage 5 on the stage-4 outputs `v` (R195). -/
def windowStage (c : Cfg) (v : Nat → Word) (m : Memory) : Except Fault Memory :=
  match forUpTo c.window (fun n t =>
      match load .win n t with
      | .ok w => .ok (store .workIm n f32Zero (store .workRe n (fmul (v n) w) t))
      | .error f => .error f) m with
  | .ok t => .ok (zeroPad c t)
  | .error f => .error f

/-- The body of WIN_APPLY (R197). -/
def winApply (c : Cfg) (m : Memory) : Except Fault Memory :=
  match forUpTo c.window (fun n t =>
      match load .workRe n t, load .win n t with
      | .ok v, .ok w => .ok (store .workIm n f32Zero (store .workRe n (fmul v w) t))
      | .error f, _ => .error f
      | _, .error f => .error f) m with
  | .ok t => .ok (zeroPad c t)
  | .error f => .error f

/-- A command whose only effect is on the arrays. -/
def onMemory (f : Memory → Except Fault Memory) (s : State) : Except Fault State :=
  match f s.mem with
  | .ok m => .ok { s with mem := m }
  | .error e => .error e

/-- R197. -/
def execWinApply (s : State) : Host.Outcome State Fault Refusal :=
  runCommand .winApply checkWinApply (fun _ t => onMemory (winApply t.act) t) s

end Sys2Proof.Machine
end

