-- ==== Sys2Proof/Machine/Fft.lean ====
section
/-!
DEFINITION. The FFT pipeline (spec/43_fft.md): FFT_BITREV, FFT_STAGE, FFT_FULL, FFT_POWER.
-/

namespace Sys2Proof.Machine

/-- `rev_B(i)`: the `B` low bits of `i` reversed (R223). -/
def revBits : Nat → Nat → Nat
  | 0, _ => 0
  | b + 1, i => (i % 2) * 2 ^ b + revBits b (i / 2)

/-- `swap(a[i], a[j])` (R223). -/
def swapWords (a : Arr) (i j : Nat) (m : Memory) : Except Fault Memory :=
  match load a i m, load a j m with
  | .ok x, .ok y => .ok (store a j x (store a i y m))
  | .error f, _ => .error f
  | _, .error f => .error f

/-- The swap of one index of the permutation, where `i < rev_B(i)` (R223). -/
def bitrevAt (b i : Nat) (m : Memory) : Except Fault Memory :=
  if i < revBits b i then
    match swapWords .workRe i (revBits b i) m with
    | .ok t => swapWords .workIm i (revBits b i) t
    | .error f => .error f
  else .ok m

/-- The body of FFT_BITREV (R223). -/
def fftBitrev (c : Cfg) (m : Memory) : Except Fault Memory :=
  forUpTo c.fftSize (bitrevAt c.fftLog2.toNat) m

/-- The product `w·b` of the butterfly, four products rounded separately (R222). -/
def twiddleRe (wr wi br bi : Word) : Word := fsub (fmul wr br) (fmul wi bi)
def twiddleIm (wr wi br bi : Word) : Word := fadd (fmul wr bi) (fmul wi br)

/-- `bfly(p, q, k)` (R222). -/
def bfly (p q k : Nat) (m : Memory) : Except Fault Memory := do
  let wr ← load .twRe k m
  let wi ← load .twIm k m
  let br ← load .workRe q m
  let bi ← load .workIm q m
  let ur ← load .workRe p m
  let ui ← load .workIm p m
  let tr := twiddleRe wr wi br bi
  let ti := twiddleIm wr wi br bi
  let m := store .workIm q (fsub ui ti) (store .workRe q (fsub ur tr) m)
  .ok (store .workIm p (fadd ui ti) (store .workRe p (fadd ur tr) m))

/-- The body of FFT_STAGE S (R224): `m = 2^S`, `half = m/2`, `step = N/m`. -/
def fftStage (c : Cfg) (stage : Nat) (m : Memory) : Except Fault Memory :=
  let span := 2 ^ stage
  let half := span / 2
  let step := c.fftSize / span
  forUpTo step (fun b t => forUpTo half (fun j u => bfly (b * span + j) (b * span + j + half) (j * step) u) t) m

/-- The body of FFT_FULL (R225). -/
def fftFull (c : Cfg) (m : Memory) : Except Fault Memory :=
  match fftBitrev c m with
  | .ok t => forUpTo c.fftLog2.toNat (fun k u => fftStage c (k + 1) u) t
  | .error f => .error f

/-- `|X|²` of one bin (R226). -/
def binPower (re im : Word) : Word := fadd (fmul re re) (fmul im im)

/-- The body of FFT_POWER (R226). -/
def fftPower (c : Cfg) (m : Memory) : Except Fault Memory :=
  forUpTo c.bins (fun k t => do
    let re ← load .workRe k t
    let im ← load .workIm k t
    .ok (store .pow k (binPower re im) t)) m

/-- R223. -/
def execFftBitrev (s : State) : Host.Outcome State Fault Refusal :=
  runCommand .fftBitrev checkFftBitrev (fun _ t => onMemory (fftBitrev t.act) t) s

/-- R224. -/
def execFftStage (stage : Nat) (s : State) : Host.Outcome State Fault Refusal :=
  runCommand (.fftStage stage) (checkFftStage stage) (fun _ t => onMemory (fftStage t.act stage) t) s

/-- R225. -/
def execFftFull (s : State) : Host.Outcome State Fault Refusal :=
  runCommand .fftFull checkFftFull (fun _ t => onMemory (fftFull t.act) t) s

/-- R226. -/
def execFftPower (s : State) : Host.Outcome State Fault Refusal :=
  runCommand .fftPower checkFftPower (fun _ t => onMemory (fftPower t.act) t) s

end Sys2Proof.Machine
end

