-- ==== Sys2Proof/Machine/RingBuffer.lean ====
section
/-!
DEFINITION. The ring buffer (spec/41_ringbuffer.md): the producer's `accept`, RB_READ and RB_PEEK.
-/

namespace Sys2Proof.Machine

/-- `accept` evicts reader `r`'s oldest sample where the reader is full (R170, R171). -/
def State.evictIfFull (s : State) (r : Chan) : State :=
  if s.avail r = s.act.capacity then
    ((s.setRpos r (s.rpos r + 1)).setCounters (Counters.bumpOvr r)).setIrq .overrun
  else s

/-- `accept(x)` (R170). -/
def State.accept (s : State) (x : Sample) : State :=
  if s.run then
    let t := (s.evictIfFull .ch0).evictIfFull .ch1
    { t with mem := store .rbram (slotOf t.act t.sclk.toNat) (sampleWord x) t.mem, sclk := t.sclk + 1 }
  else (s.setCounters Counters.bumpDiscard).setIrq .discard

/-- `cnt = min(NCNT, A0)` (R173). -/
def copyCount (ncnt : Nat) (sn : Snapshot) : Nat := min ncnt sn.avail

/-- Copy the samples at positions `P0 .. P0 + cnt - 1` to the channel's scratch buffer and write the result `cnt`
(R173, R174). The copied words are free values when a sample was evicted meanwhile (R90). -/
def copyOut (ncnt : Nat) (sn : Snapshot) (s : State) : Except Fault State :=
  let cnt := copyCount ncnt sn
  let dst := scratchOf s.active
  match forUpTo cnt (fun i m =>
      match sn.sample s.act i with
      | .ok x => .ok (store dst i (sampleWord x) m)
      | .error f => .error f) s.mem with
  | .error f => .error f
  | .ok m =>
    let t : State := { s with mem := m }
    .ok ((if s.evicted sn then t.drawArray dst cnt else t).setResult (BitVec.ofNat 32 cnt))

/-- The effect of RB_PEEK (R174). -/
def effectRbPeek (ncnt : Nat) (sn : Snapshot) (s : State) : Except Fault State := copyOut ncnt sn s

/-- The effect of RB_READ (R173): the copy, and the cursor. -/
def effectRbRead (ncnt : Nat) (sn : Snapshot) (s : State) : Except Fault State :=
  match copyOut ncnt sn s with
  | .ok t => .ok (t.advance t.active sn.rpos (copyCount ncnt sn))
  | .error f => .error f

/-- RB_READ on the block with the parameters `p` (R173). -/
def rbReadWith (p : Params) (ncnt : Nat) (s : State) : Host.Outcome State Fault Refusal :=
  runCommand (.rbRead ncnt) (fun t => checkRbRead ncnt t p) (effectRbRead ncnt) s

/-- R173. -/
def execRbRead (ncnt : Nat) (s : State) : Host.Outcome State Fault Refusal := rbReadWith aedp1 ncnt s

/-- RB_PEEK on the block with the parameters `p` (R174). -/
def rbPeekWith (p : Params) (ncnt : Nat) (s : State) : Host.Outcome State Fault Refusal :=
  runCommand (.rbPeek ncnt) (fun t => checkRbPeek ncnt t p) (effectRbPeek ncnt) s

/-- R174. -/
def execRbPeek (ncnt : Nat) (s : State) : Host.Outcome State Fault Refusal := rbPeekWith aedp1 ncnt s

end Sys2Proof.Machine
end

