-- ==== Sys2Proof/Machine/Bus.lean ====
section
/-!
DEFINITION. The host's side of the block: the register and array map (spec/10_state.md R23), reads and writes of every
offset (spec/20_memory.md R80-R86), the footprints of pending commands (spec/70_reset_and_hazards.md R387) and the
words a command writes (R386).
-/

namespace Sys2Proof.Machine

/-- A record's two halves of a 64-bit quantity (R82). -/
def lowWord (p : Pos) : Word := p.extractLsb' 0 32
def highWord (p : Pos) : Word := p.extractLsb' 32 32

/-- `p` with its low half replaced, and with its high half replaced. -/
def withLow (p : Pos) (v : Word) : Pos := highWord p ++ v
def withHigh (p : Pos) (v : Word) : Pos := v ++ lowWord p

/-- The single registers of R23, by name. -/
inductive Reg where
  | id | version | param0 | param1 | param2 | param3 | status | err (n : Chan) | irqStatus | irqEnable | cmd (n : Chan)
  | result (n : Chan) | sampleIn | sclkLo | sclkHi | rdAvail (r : Chan) | rdPosLo (r : Chan) | rdPosHi (r : Chan)
  | ovrCnt (r : Chan) | featFailCnt | nodetCnt | underrunCnt | pktSkipCnt | evtDropCnt | discardCnt | featOkCnt | pktCnt
  | cycleTsLo | cycleTsHi | levelRms | levelPeak | decArgmax | decConf | decStartLo | decStartHi | decLastLo | decLastHi
  | decPeakconf | decRmsmax | decPeakmax | evtSeqNext | decHpos | featMin
  | evtClass | evtSeq | evtStartLo | evtStartHi | evtDur | evtPeakconf | evtRms | evtPeak
  | pktSeq | pktTs | pktLen | pktSeqNext | pktTsNext | ppX1 | ppY1 | ppP1 | ppEnv | ppGain
deriving DecidableEq, Repr

/-- The offset of each single register (R23, R29, R34, R36-R38). -/
def regTable : List (Nat × Reg) :=
  [(0x000, .id), (0x004, .version), (0x008, .param0), (0x00C, .param1), (0x010, .param2), (0x014, .param3),
   (0x020, .status), (0x024, .err .ch0), (0x028, .err .ch1), (0x02C, .irqStatus), (0x030, .irqEnable),
   (0x040, .cmd .ch0), (0x044, .cmd .ch1), (0x048, .result .ch0), (0x04C, .result .ch1), (0x050, .sampleIn),
   (0x054, .sclkLo), (0x058, .sclkHi), (0x05C, .rdAvail .ch0), (0x060, .rdAvail .ch1), (0x064, .rdPosLo .ch0),
   (0x068, .rdPosHi .ch0), (0x06C, .rdPosLo .ch1), (0x070, .rdPosHi .ch1),
   (0x080, .ovrCnt .ch0), (0x084, .ovrCnt .ch1), (0x088, .featFailCnt), (0x08C, .nodetCnt), (0x090, .underrunCnt),
   (0x094, .pktSkipCnt), (0x098, .evtDropCnt), (0x09C, .discardCnt), (0x0A0, .featOkCnt), (0x0A4, .pktCnt),
   (0x300, .cycleTsLo), (0x304, .cycleTsHi), (0x308, .levelRms), (0x30C, .levelPeak), (0x310, .decArgmax),
   (0x314, .decConf), (0x318, .decStartLo), (0x31C, .decStartHi), (0x320, .decLastLo), (0x324, .decLastHi),
   (0x328, .decPeakconf), (0x32C, .decRmsmax), (0x330, .decPeakmax), (0x334, .evtSeqNext), (0x338, .decHpos),
   (0x33C, .featMin),
   (0x3A0, .evtClass), (0x3A4, .evtSeq), (0x3A8, .evtStartLo), (0x3AC, .evtStartHi), (0x3B0, .evtDur),
   (0x3B4, .evtPeakconf), (0x3B8, .evtRms), (0x3BC, .evtPeak),
   (0x3C0, .pktSeq), (0x3C4, .pktTs), (0x3C8, .pktLen), (0x3CC, .pktSeqNext), (0x3D0, .pktTsNext),
   (0x3E0, .ppX1), (0x3E4, .ppY1), (0x3E8, .ppP1), (0x3EC, .ppEnv), (0x3F0, .ppGain)]

/-- What stands at a mapped offset (R23). -/
inductive Loc where
  | reg (r : Reg)
  /-- CFG_* field `i` (R30). -/
  | shadow (i : Nat)
  /-- ACT_* field `i` (R30). -/
  | active (i : Nat)
  | prob (c : Nat)
  | ema (c : Nat)
  | smooth (c : Nat)
  /-- HIST[c][k] at word `8c + k` (R35). -/
  | hist (c k : Nat)
  /-- Word `i` of an array (R40-R49). -/
  | word (a : Arr) (i : Nat)
deriving DecidableEq, Repr

/-- The words of a block of the map that starts at `base` and has `n` words. -/
def inBlock (base n off : Nat) : Bool := decide (base ≤ off) && decide (off < base + 4 * n)

/-- What stands at an aligned offset; `none` where R23 lists nothing. The per-class blocks and the arrays have the lengths
that the parameters give them (R35, R40-R49). -/
def locAligned (off : Nat) (p : Params := aedp1) : Option Loc :=
  match regTable.lookup off with
  | some r => some (.reg r)
  | none =>
    if inBlock 0x100 26 off then some (.shadow ((off - 0x100) / 4))
    else if inBlock 0x200 26 off then some (.active ((off - 0x200) / 4))
    else if inBlock 0x340 p.maxClasses off then some (.prob ((off - 0x340) / 4))
    else if inBlock 0x360 p.maxClasses off then some (.ema ((off - 0x360) / 4))
    else if inBlock 0x380 p.maxClasses off then some (.smooth ((off - 0x380) / 4))
    else if inBlock 0x400 (8 * p.maxClasses) off then some (.hist ((off - 0x400) / 32) ((off - 0x400) / 4 % 8))
    else
      match Arr.all.find? (fun a => inBlock a.base (a.len p) off) with
      | some a => some (.word a ((off - a.base) / 4))
      | none => none

/-- The register map (R23); `none` on an unmapped or misaligned offset (R83, R84). -/
def locOf (off : Nat) (p : Params := aedp1) : Option Loc := if off % 4 = 0 then locAligned off p else none

/-- Field `i` of a configuration, in the index order of R31. -/
def Cfg.get (c : Cfg) (i : Nat) : Word :=
  [c.fs, c.rbCap, c.winLen, c.hop, c.nframes, c.fftLog2, c.melBands, c.featStride, c.featCtrl, c.dcR, c.preemph,
   c.agcAttack, c.agcRelease, c.agcGsmooth, c.agcTarget, c.agcMaxgain, c.gateThr, c.logEps, c.nclasses, c.target,
   c.threshold, c.emaAlpha, c.medianK, c.minDur, c.quiet, c.codecLen].getD i 0

/-- Write field `i` of a configuration (R31). -/
def Cfg.set (c : Cfg) (i : Nat) (v : Word) : Cfg :=
  match i with
  | 0 => { c with fs := v }
  | 1 => { c with rbCap := v }
  | 2 => { c with winLen := v }
  | 3 => { c with hop := v }
  | 4 => { c with nframes := v }
  | 5 => { c with fftLog2 := v }
  | 6 => { c with melBands := v }
  | 7 => { c with featStride := v }
  | 8 => { c with featCtrl := v }
  | 9 => { c with dcR := v }
  | 10 => { c with preemph := v }
  | 11 => { c with agcAttack := v }
  | 12 => { c with agcRelease := v }
  | 13 => { c with agcGsmooth := v }
  | 14 => { c with agcTarget := v }
  | 15 => { c with agcMaxgain := v }
  | 16 => { c with gateThr := v }
  | 17 => { c with logEps := v }
  | 18 => { c with nclasses := v }
  | 19 => { c with target := v }
  | 20 => { c with threshold := v }
  | 21 => { c with emaAlpha := v }
  | 22 => { c with medianK := v }
  | 23 => { c with minDur := v }
  | 24 => { c with quiet := v }
  | 25 => { c with codecLen := v }
  | _ => c

/-- PARAM0..PARAM3 (R22), from the parameters. -/
def param0Word (p : Params := aedp1) : Word :=
  BitVec.ofNat 32 (p.maxFftLog2 + p.maxK * 2 ^ 4 + p.maxClasses * 2 ^ 8 + p.evqDepth * 2 ^ 12 + p.maxT * 2 ^ 16)
def param1Word (p : Params := aedp1) : Word := BitVec.ofNat 32 (p.maxMel + p.maxCodecLen * 2 ^ 16)
def param2Word (p : Params := aedp1) : Word := BitVec.ofNat 32 p.maxRb
def param3Word (p : Params := aedp1) : Word := BitVec.ofNat 32 (p.scratchLen + p.melStride * 2 ^ 16)

/-- `ERRn` as a read shows it: CODE in [7:0], OPC in [15:8], [31:16] = 0 (R27). -/
def Channel.errWord (c : Channel) : Word := (c.errOpc ++ c.errCode).setWidth 32

/-- What a read of a register returns; a write-only register reads 0 (R23, R86). -/
def State.readReg (s : State) (r : Reg) (p : Params := aedp1) : Word :=
  match r with
  | .id => Config.idWord
  | .version => Config.versionWord
  | .param0 => param0Word p
  | .param1 => param1Word p
  | .param2 => param2Word p
  | .param3 => param3Word p
  | .status => s.statusWord
  | .err n => (s.chan n).errWord
  | .irqStatus => s.irqStatus.setWidth 32
  | .irqEnable => s.irqEnable.setWidth 32
  | .cmd _ => 0
  | .result n => (s.chan n).result
  | .sampleIn => 0
  | .sclkLo => lowWord s.sclk
  | .sclkHi => highWord s.sclk
  | .rdAvail r => BitVec.ofNat 32 (s.avail r)
  | .rdPosLo r => lowWord (s.rpos r)
  | .rdPosHi r => highWord (s.rpos r)
  | .ovrCnt .ch0 => s.counters.ovr0
  | .ovrCnt .ch1 => s.counters.ovr1
  | .featFailCnt => s.counters.featFail
  | .nodetCnt => s.counters.nodet
  | .underrunCnt => s.counters.underrun
  | .pktSkipCnt => s.counters.pktSkip
  | .evtDropCnt => s.counters.evtDrop
  | .discardCnt => s.counters.discard
  | .featOkCnt => s.counters.featOk
  | .pktCnt => s.counters.pkt
  | .cycleTsLo => lowWord s.cycleTs
  | .cycleTsHi => highWord s.cycleTs
  | .levelRms => s.levelRms
  | .levelPeak => s.levelPeak
  | .decArgmax => s.dec.argmax
  | .decConf => s.dec.conf
  | .decStartLo => lowWord s.dec.start
  | .decStartHi => highWord s.dec.start
  | .decLastLo => lowWord s.dec.last
  | .decLastHi => highWord s.dec.last
  | .decPeakconf => s.dec.peakconf
  | .decRmsmax => s.dec.rmsmax
  | .decPeakmax => s.dec.peakmax
  | .evtSeqNext => s.evtSeqNext
  | .decHpos => s.dec.hpos
  | .featMin => s.featMin
  | .evtClass => s.headEvent.cls
  | .evtSeq => s.headEvent.seq
  | .evtStartLo => lowWord s.headEvent.start
  | .evtStartHi => highWord s.headEvent.start
  | .evtDur => s.headEvent.dur
  | .evtPeakconf => s.headEvent.peakconf
  | .evtRms => s.headEvent.rms
  | .evtPeak => s.headEvent.peak
  | .pktSeq => s.headPacket.seq
  | .pktTs => s.headPacket.ts
  | .pktLen => s.headPacket.len
  | .pktSeqNext => s.pktSeqNext
  | .pktTsNext => s.pktTsNext
  | .ppX1 => s.pp.x1
  | .ppY1 => s.pp.y1
  | .ppP1 => s.pp.p1
  | .ppEnv => s.pp.env
  | .ppGain => s.pp.gain

/-- What a read of a mapped location returns (R23); UNINIT_READ on an unwritten array word (R50). -/
def State.readLoc (s : State) (l : Loc) (p : Params := aedp1) : Except Fault Word :=
  match l with
  | .reg r => .ok (s.readReg r p)
  | .shadow i => .ok (s.shadow.get i)
  | .active i => .ok (s.act.get i)
  | .prob c => .ok (at8 s.prob c)
  | .ema c => .ok (at8 s.ema c)
  | .smooth c => .ok (at8 s.smooth c)
  | .hist c k => .ok (at64 s.hist c k)
  | .word a i => load a i s.mem

/-- A write of the command word `w` to CMDn (R26): latched on an idle channel, else discarded with CMD_LOST. -/
def State.writeCmd (s : State) (n : Chan) (w : Word) : State :=
  if s.busy n then s.setIrq .cmdLost else s.latch n w

/-- The effect of a write to a register (R86): a read-only register ignores it. -/
def State.writeReg (s : State) (r : Reg) (v : Word) : State :=
  match r with
  | .irqStatus => s.clearIrq v
  | .irqEnable => s.setIrqEnable v
  | .cmd n => s.writeCmd n v
  | .sampleIn => s.accept (v.setWidth 16)
  | .cycleTsLo => { s with cycleTs := withLow s.cycleTs v }
  | .cycleTsHi => { s with cycleTs := withHigh s.cycleTs v }
  | .levelRms => { s with levelRms := v }
  | .levelPeak => { s with levelPeak := v }
  | .id | .version | .param0 | .param1 | .param2 | .param3 | .status | .err _ | .result _ | .sclkLo | .sclkHi
  | .rdAvail _ | .rdPosLo _ | .rdPosHi _ | .ovrCnt _ | .featFailCnt | .nodetCnt | .underrunCnt | .pktSkipCnt
  | .evtDropCnt | .discardCnt | .featOkCnt | .pktCnt | .decArgmax | .decConf | .decStartLo | .decStartHi | .decLastLo
  | .decLastHi | .decPeakconf | .decRmsmax | .decPeakmax | .evtSeqNext | .decHpos | .featMin | .evtClass | .evtSeq
  | .evtStartLo | .evtStartHi | .evtDur | .evtPeakconf | .evtRms | .evtPeak | .pktSeq | .pktTs | .pktLen | .pktSeqNext
  | .pktTsNext | .ppX1 | .ppY1 | .ppP1 | .ppEnv | .ppGain => s

/-- The effect of a write to a mapped location (R23, R86). -/
def State.writeLoc (s : State) (l : Loc) (v : Word) : State :=
  match l with
  | .reg r => s.writeReg r v
  | .shadow i => { s with shadow := s.shadow.set i v }
  | .active _ | .ema _ | .smooth _ | .hist _ _ => s
  | .prob c => { s with prob := tab8 (fun j => if j = c then v else at8 s.prob j) }
  | .word a i => if a.writable then { s with mem := store a i v s.mem } else s

/-! ### Footprints and written words, as blocks of words: a first offset and a count -/

/-- An offset lies in one of the blocks. -/
def inBlocks (bs : List (Nat × Nat)) (off : Nat) : Bool := bs.any (fun b => inBlock b.1 b.2 off)

/-- The first `n` words of an array. -/
def Arr.first (a : Arr) (n : Nat) : Nat × Nat := (a.base, n)

/-- WORK_RE[0..n-1] and WORK_IM[0..n-1]. -/
def workBlocks (n : Nat) : List (Nat × Nat) := [Arr.workRe.first n, Arr.workIm.first n]

/-- The footprints of R387, each of its commands apart. -/
def footWinApply (c : Cfg) : List (Nat × Nat) := Arr.win.first c.window :: workBlocks c.fftSize
def footFft (c : Cfg) : List (Nat × Nat) :=
  Arr.twRe.first (c.fftSize / 2) :: Arr.twIm.first (c.fftSize / 2) :: workBlocks c.fftSize
def footPower (c : Cfg) : List (Nat × Nat) := Arr.pow.first c.bins :: workBlocks c.bins
def footMel (c : Cfg) (p : Params := aedp1) : List (Nat × Nat) :=
  Arr.pow.first c.bins :: Arr.melE.first c.bands
    :: (List.range c.bands).map (fun m => (Arr.melW.off (m * p.melStride), c.bins))
def footLog (c : Cfg) : List (Nat × Nat) := [Arr.melE.first c.bands, Arr.melLog.first c.bands]
/-- CYCLE_TS_LO/HI, LEVEL_RMS, LEVEL_PEAK. -/
def cycleBlocks : List (Nat × Nat) := [(0x300, 4)]

/-- The host-writable words a command reads or writes (R387). -/
def footprint (c : Cfg) (i : Instr) (p : Params := aedp1) : List (Nat × Nat) :=
  match i with
  | .winApply => footWinApply c
  | .fftBitrev => workBlocks c.fftSize
  | .fftStage _ | .fftFull => footFft c
  | .fftPower => footPower c
  | .melApply => footMel c p
  | .logCompress => footLog c
  | .featExtract =>
    footWinApply c ++ footFft c ++ footPower c ++ footMel c p ++ footLog c ++ [Arr.feat.first (c.frames * c.bands)]
      ++ cycleBlocks
  | .decStep _ => (0x340, c.classes) :: cycleBlocks
  | .nop | .cfgCommit | .start | .stop | .resetRt | .preStep _ | .rbRead _ | .rbPeek _ | .decReset | .evtPop | .alawEnc _
  | .codecFrame | .pktPop => []

/-- The command word a channel holds, while BUSYn = 1. -/
def Pending.word? : Pending → Option Word
  | .idle => none
  | .latched w => some w
  | .begun w _ _ => some w

/-- The offset lies in the footprint of channel `n`'s pending command (R387); a word that does not decode has none. -/
def State.hazardOn (s : State) (n : Chan) (off : Nat) (p : Params := aedp1) : Bool :=
  match (s.chan n).pending.word? with
  | none => false
  | some w =>
    match decodeOn n w with
    | .ok i => inBlocks (footprint s.act i p) off
    | .error _ => false

/-- A host write to the offset is the hazard of R387. -/
def State.hazard (s : State) (off : Nat) (p : Params := aedp1) : Bool := s.hazardOn .ch0 off p || s.hazardOn .ch1 off p

/-- IRQ_STATUS, ERRn and RESULTn. -/
def irqBlock : Nat × Nat := (0x02C, 1)
def errBlock : Chan → Nat × Nat
  | .ch0 => (0x024, 1)
  | .ch1 => (0x028, 1)
def resultBlock : Chan → Nat × Nat
  | .ch0 => (0x048, 1)
  | .ch1 => (0x04C, 1)

/-- RDr_AVAIL and RDr_POS_LO/HI. -/
def readerBlocks : Chan → List (Nat × Nat)
  | .ch0 => [(0x05C, 1), (0x064, 2)]
  | .ch1 => [(0x060, 1), (0x06C, 2)]

/-- EMA, SMOOTH, HIST, DEC_ARGMAX .. DEC_PEAKMAX and DEC_HPOS: what `dec_clear` writes (R293). -/
def decBlocks : List (Nat × Nat) := [(0x360, 8), (0x380, 8), (0x400, 64), (0x310, 9), (0x338, 1)]
/-- PP_X1 .. PP_GAIN. -/
def ppBlock : Nat × Nat := (0x3E0, 5)
/-- The event head registers. -/
def evtBlock : Nat × Nat := (0x3A0, 8)
/-- PKT_SEQ, PKT_TS, PKT_LEN. -/
def pktBlock : Nat × Nat := (0x3C0, 3)
/-- What `runtime_clear` writes besides STATUS (R144). -/
def clearBlocks : List (Nat × Nat) := ppBlock :: readerBlocks .ch0 ++ readerBlocks .ch1 ++ decBlocks

/-- The WORK entries FFT_BITREV swaps: those that bit reversal moves (R223). -/
def bitrevBlocks (c : Cfg) : List (Nat × Nat) :=
  ((List.range c.fftSize).filter (fun i => decide (revBits c.fftLog2.toNat i ≠ i))).flatMap
    (fun i => [(Arr.workRe.off i, 1), (Arr.workIm.off i, 1)])

/-- RESULTn and the scratch entries of a copy of at most `ncnt` samples; no reader holds more than C (R173, R25). -/
def copyBlocks (c : Cfg) (n : Chan) (ncnt : Nat) : List (Nat × Nat) :=
  [resultBlock n, (scratchOf n).first (min ncnt c.capacity)]

/-- What a valid cycle of DEC_STEP may write besides RESULTn and NODET_CNT: EMA, SMOOTH and the history slot `hpos` of the
classes below NC, DEC_ARGMAX .. DEC_PEAKMAX, DEC_HPOS, and what an emission writes (R291). -/
def cycleWrites (c : Cfg) (hpos : Nat) (p : Params := aedp1) : List (Nat × Nat) :=
  let nc := min c.classes p.maxClasses
  evtBlock :: (0x334, 1) :: (0x098, 1) :: (0x310, 9) :: (0x338, 1) :: (0x360, nc) :: (0x380, nc)
    :: (if hpos < 8 then (List.range nc).map (fun k => (0x400 + 4 * (8 * k + hpos), 1)) else [])

/-- The words the command `i`, issued as `e` on channel `n`, writes, apart from IRQ_STATUS and ERRn, which every completion
writes, and from STATUS, by which the completion is observed (R92, R386). An operand that always fails its check writes none
of them; where only the outcome decides, the largest one (log entry 10). -/
def writtenBlocks (e : Issued) (n : Chan) (i : Instr) (p : Params := aedp1) : List (Nat × Nat) :=
  let c := e.cfg
  match i with
  | .nop | .start | .stop => []
  | .cfgCommit => (0x200, 26) :: clearBlocks
  | .resetRt => evtBlock :: pktBlock :: clearBlocks
  | .rbRead ncnt => if ncnt ≤ p.scratchLen then copyBlocks c n ncnt ++ readerBlocks n else []
  | .rbPeek ncnt => if ncnt ≤ p.scratchLen then copyBlocks c n ncnt else []
  | .preStep _ => [resultBlock n, ppBlock]
  | .winApply | .fftFull => workBlocks c.fftSize
  | .fftBitrev => bitrevBlocks c
  | .fftStage stage => if inRange stage c.fftLog2.toNat then workBlocks c.fftSize else []
  | .fftPower => [Arr.pow.first c.bins]
  | .melApply => [Arr.melE.first c.bands]
  | .logCompress => [Arr.melLog.first c.bands]
  | .featExtract =>
    resultBlock n :: ppBlock :: workBlocks c.fftSize
      ++ Arr.pow.first c.bins :: Arr.melE.first c.bands :: Arr.melLog.first c.bands
        :: Arr.feat.first (c.frames * c.bands) :: (0x33C, 1) :: (0x0A0, 1) :: (0x088, 1) :: cycleBlocks
      ++ readerBlocks .ch0
  | .decStep v => resultBlock n :: (0x08C, 1) :: (if v then cycleWrites c e.hpos.toNat p else [])
  | .decReset => decBlocks
  | .evtPop => [resultBlock n, evtBlock]
  | .alawEnc _ => [resultBlock n]
  | .codecFrame =>
    resultBlock n :: Arr.pktPay.first c.frameWords :: pktBlock :: (0x3CC, 2) :: (0x090, 2) :: (0x0A4, 1)
      :: readerBlocks .ch1
  | .pktPop => [resultBlock n, pktBlock]

/-- The words that a command issued on channel `n` writes, as it was issued (R386). -/
def writtenByIssued (n : Chan) (e : Issued) (p : Params := aedp1) : List (Nat × Nat) :=
  match decodeOn n e.word with
  | .ok i => irqBlock :: errBlock n :: writtenBlocks e n i p
  | .error _ => [irqBlock, errBlock n]

/-- A command of channel `n` whose completion the host has not observed writes the offset (R386). -/
def State.staleOn (s : State) (n : Chan) (off : Nat) (p : Params := aedp1) : Bool :=
  (s.chan n).unobserved.any (fun e => inBlocks (writtenByIssued n e p) off)

/-- A host read of the offset is STALE_CMD (R357, R386). -/
def State.stale (s : State) (off : Nat) (p : Params := aedp1) : Bool := s.staleOn .ch0 off p || s.staleOn .ch1 off p

/-- The host has read STATUS with BUSYn = 0: the commands of channel `n` are observed complete (R92). -/
def State.observe (s : State) (n : Chan) : State :=
  if s.busy n then s else s.setChan n { s.chan n with unobserved := [] }

/-- A read of STATUS observes both channels. -/
def State.observeStatus (s : State) (l : Loc) : State :=
  if l = .reg .status then (s.observe .ch0).observe .ch1 else s

/-! ### The host's accesses -/

/-- The location of an access that is no bus error: 32 bits wide, aligned and mapped (R82-R84). -/
def busLoc (width off : Nat) (p : Params := aedp1) : Option Loc := if width = 4 then locOf off p else none

/-- `MemRead(BASE + off, width)` (R82-R86): the value goes to the host's bus; the block's own state is unchanged
(R85). DESIGN CHOICE: a read of an array word that is both unwritten (UNINIT_READ, R50) and written by a command not yet
observed complete (STALE_CMD, R386) is named STALE_CMD; the spec gives neither fault precedence. Log entry 20. -/
def State.hostRead (s : State) (width off : Nat) (p : Params := aedp1) : Host.Outcome State Fault Refusal :=
  match busLoc width off p with
  | none => .fault (.busError off)
  | some l =>
    if s.stale off p then .fault (.staleCmd off)
    else
      match s.readLoc l p with
      | .ok v => .next { s.observeStatus l with busData := v }
      | .error f => .fault f

/-- `MemWrite(BASE + off, width, v)` (R82-R86). -/
def State.hostWrite (s : State) (width off : Nat) (v : Word) (p : Params := aedp1) : Host.Outcome State Fault Refusal :=
  match busLoc width off p with
  | none => .fault (.busError off)
  | some l => if s.hazard off p then .fault (.hazardRw off) else .next (s.writeLoc l v)

/-- The reset input is asserted and released (R380, R381): a pending command is abandoned and every written-bit is 0.
What the other agents do next, and the count of free values drawn, are not the block's state. -/
def State.resetInput (s : State) : State := { State.reset with inputs := s.inputs, draws := s.draws }

end Sys2Proof.Machine
end

