-- ==== Sys2Proof/Machine/Mel.lean ====
section
/-!
DEFINITION. The Mel filterbank, the log compression and the feature extraction (spec/44_mel.md): MEL_APPLY,
LOG_COMPRESS, FEAT_EXTRACT.
-/

namespace Sys2Proof.Machine

/-- The energy of band `band`: increasing bins, every bin (R252). -/
def bandEnergy (c : Cfg) (band : Nat) (m : Memory) (p : Params := aedp1) : Except Fault Word :=
  forUpTo c.bins (fun k acc => do
    let w ← load .melW (band * p.melStride + k) m
    let power ← load .pow k m
    .ok (fadd acc (fmul w power))) f32Zero

/-- The body of MEL_APPLY (R252). -/
def melApply (c : Cfg) (m : Memory) (p : Params := aedp1) : Except Fault Memory :=
  forUpTo c.bands (fun band t => do
    let e ← bandEnergy c band t p
    .ok (store .melE band e t)) m

/-- The value of `logc(e)` for a base-10 logarithm `lg` (R253); 10.0 is 0x41200000. -/
def logcOf (lg : Word → Word) (eps e : Word) : Word := fmul 0x41200000 (lg (fmaxe e eps))

/-- The value of `logc(e)` (R253), by the parameter LOG10 (R12). -/
def logc (c : Cfg) (e : Word) (p : Params := aedp1) : Word := logcOf p.log10 c.logEps e

/-- The body of LOG_COMPRESS, and whether some MEL_E[m] is not finite, which sets FEAT_OVF (R253, R254). -/
def logCompress (c : Cfg) (m : Memory) (p : Params := aedp1) : Except Fault (Memory × Bool) :=
  forUpTo c.bands (fun band t => do
    let e ← load .melE band t.1
    .ok (store .melLog band (logc c e p) t.1, t.2 || !isFinite e)) (m, false)

/-- MEL_APPLY on the block with the parameters `p` (R252). -/
def melApplyWith (p : Params) (s : State) : Host.Outcome State Fault Refusal :=
  runCommand .melApply checkMelApply (fun _ t => onMemory (fun m => melApply t.act m p) t) s

/-- R252. -/
def execMelApply (s : State) : Host.Outcome State Fault Refusal := melApplyWith aedp1 s

/-- The effect of LOG_COMPRESS (R254). -/
def effectLogCompress (s : State) (p : Params := aedp1) : Except Fault State :=
  match logCompress s.act s.mem p with
  | .ok r => .ok (({ s with mem := r.1 } : State).setIrqIf r.2 .featOvf)
  | .error f => .error f

/-- LOG_COMPRESS on the block with the parameters `p` (R254). -/
def logCompressWith (p : Params) (s : State) : Host.Outcome State Fault Refusal :=
  runCommand .logCompress checkLogCompress (fun _ t => effectLogCompress t p) s

/-- R254. -/
def execLogCompress (s : State) : Host.Outcome State Fault Refusal := logCompressWith aedp1 s

/-! ### Feature extraction -/

/-- The outcome of an extraction (R256). -/
inductive FeatMode where
  | full
  | pad
  | fail
deriving DecidableEq, Repr

/-- The outcome by availability `a` (R256). -/
def featMode (c : Cfg) (a : Nat) : FeatMode :=
  if c.required ≤ a then .full else if c.padEn && decide (c.window ≤ a) then .pad else .fail

/-- The windows of a PAD extraction: `floor((A - L)/H) + 1` (R256). -/
def padWindows (c : Cfg) (a : Nat) : Nat := (a - c.window) / c.hop.toNat + 1

/-- One window of an extraction: stage 5, FFT_FULL, FFT_POWER, MEL_APPLY and LOG_COMPRESS, and its row of FEAT; the
flag collects FEAT_OVF (R260). -/
def featWindow (c : Cfg) (v : List Word) (nwin w : Nat) (t : Memory × Bool) (p : Params := aedp1) :
    Except Fault (Memory × Bool) := do
  let m ← windowStage c (fun n => v.getD (w * c.hop.toNat + n) f32Zero) t.1
  let m ← fftFull c m
  let m ← fftPower c m
  let m ← melApply c m p
  let r ← logCompress c m p
  let m ← forUpTo c.bands (fun band u => do
    let e ← load .melLog band u
    .ok (store .feat ((c.frames - nwin + w) * c.bands + band) e u)) r.1
  .ok (m, t.2 || r.2)

/-- The smallest of a list, keeping the first occurrence under `flt` (R257). -/
def minF32 : List Word → Word
  | [] => f32Zero
  | x :: xs => xs.foldl (fun mn v => if flt v mn then v else mn) x

/-- `Q`, the sum of squares of the raw samples (R261). -/
def sumSquares (xs : List Int) : Nat := xs.foldl (fun q x => q + x.natAbs * x.natAbs) 0

/-- The largest magnitude of the raw samples (R261). -/
def peakMag (xs : List Int) : Nat := xs.foldl (fun p x => max p x.natAbs) 0

/-- LEVEL_RMS of `levels` (R261); 32768.0 is 0x47000000. -/
def levelRmsOf (xs : List Int) : Word :=
  fdiv (fsqrt (fdiv (f32OfInt (sumSquares xs)) (f32OfInt xs.length))) 0x47000000

/-- LEVEL_PEAK of `levels` (R261). -/
def levelPeakOf (xs : List Int) : Word := fdiv (f32OfInt (peakMag xs)) 0x47000000

/-- What the arrays hold and what an extraction finds: the memory, FEAT_OVF, and the minimum of its rows (R260). -/
structure FeatResult where
  mem : Memory
  ovf : Bool
  mn : Word

/-- The windows of an extraction, the minimum of their rows, and the padding of the rows before them (R257, R260). -/
def featRows (c : Cfg) (v : List Word) (nwin : Nat) (m : Memory) (p : Params := aedp1) : Except Fault FeatResult := do
  let r ← forUpTo nwin (fun w t => featWindow c v nwin w t p) (m, false)
  let first := (c.frames - nwin) * c.bands
  let vals ← collect (nwin * c.bands) (fun j => load .feat (first + j) r.1)
  let mn := minF32 vals
  .ok { mem := loopUpTo first (fun j t => store .feat j mn t) r.1, ovf := r.2, mn := mn }

/-- Some band energy of the windows is not finite, where the energies are the free values drawn for MEL_E (the newest
window) and the `(nwin - 1)·M` free values from `s.draws` on (the windows before it): the flag of R253 computed from
them. `before` is the state whose next draws were given to WORK_RE, WORK_IM, POW and then MEL_E. -/
def freeOverflow (c : Cfg) (nwin : Nat) (before s : State) : Bool :=
  (List.range c.bands).any (fun j => !isFinite (before.freeAt (2 * c.fftSize + c.bins + j)))
    || (List.range ((nwin - 1) * c.bands)).any (fun j => !isFinite (s.freeAt j))

/-- Every data word an extraction writes is a free value, because a sample it read was evicted before its END (R90);
FEAT_OVF follows from the free energies. Log entry 3. -/
def State.drawFeatures (s : State) (nwin : Nat) (full : Bool) : State :=
  let c := s.act
  let a := (((((s.drawArray .workRe c.fftSize).drawArray .workIm c.fftSize).drawArray .pow c.bins).drawArray .melE
    c.bands).drawArray .melLog c.bands).drawArray .feat (c.frames * c.bands)
  let b : State := { a with featMin := a.freeAt 0, levelRms := a.freeAt 1, levelPeak := a.freeAt 2, draws := a.draws + 3 }
  let d : State :=
    if full then
      { b with
        pp := { x1 := b.freeAt 0, y1 := b.freeAt 1, p1 := b.freeAt 2, env := b.freeAt 3, gain := b.freeAt 4 }
        draws := b.draws + 5 }
    else b
  ({ d with draws := d.draws + (nwin - 1) * c.bands } : State).setIrqIf (freeOverflow c nwin s d) .featOvf

/-- A FAIL extraction (R260). -/
def featFailed (s : State) : State :=
  (({ s with featValid := false } : State).setCounters Counters.bumpFeatFail |>.setIrq .featFail).setResult 0

/-- A FULL (`full`) or PAD extraction of `nwin` windows (R260). -/
def featDone (full : Bool) (nwin : Nat) (sn : Snapshot) (s : State) (p : Params := aedp1) : Except Fault State := do
  let c := s.act
  let span := c.spanOf nwin
  let samples ← collect span (sn.sample c)
  let xs := samples.map BitVec.toInt
  let r ← featRows c (ppOutputs c s.pp xs) nwin s.mem p
  let t : State :=
    { s with
      mem := r.mem
      featMin := r.mn
      levelRms := levelRmsOf xs
      levelPeak := levelPeakOf xs
      pp := if full then ppAfter c s.pp (xs.take c.featStride.toNat) else s.pp }
  let t := if s.evicted sn then t.drawFeatures nwin full else t.setIrqIf r.ovf .featOvf
  let t := ({ t with cycleTs := BitVec.ofNat 64 (sn.rpos.toNat + span), featValid := true } : State).setCounters
    Counters.bumpFeatOk
  let t := if full then t.advance .ch0 sn.rpos c.featStride.toNat else t
  .ok (t.setResult (if full then 1 else 2))

/-- The effect of FEAT_EXTRACT (R260). -/
def effectFeatExtract (sn : Snapshot) (s : State) (p : Params := aedp1) : Except Fault State :=
  match featMode s.act sn.avail with
  | .full => featDone true s.act.frames sn s p
  | .pad => featDone false (padWindows s.act sn.avail) sn s p
  | .fail => .ok (featFailed s)

/-- FEAT_EXTRACT on the block with the parameters `p` (R260). -/
def featExtractWith (p : Params) (s : State) : Host.Outcome State Fault Refusal :=
  runCommand .featExtract checkFeatExtract (fun sn t => effectFeatExtract sn t p) s

/-- R260. -/
def execFeatExtract (s : State) : Host.Outcome State Fault Refusal := featExtractWith aedp1 s

end Sys2Proof.Machine
end

