-- ==== Sys2Proof/Machine/Dispatch.lean ====
section
/-!
DEFINITION. The meaning of each command (spec/30_encoding.md R113): what the engine of the active channel does with it.
-/

namespace Sys2Proof.Machine

def exec (i : Instr) (s : State) : Host.Outcome State Fault Refusal :=
  match i with
  -- control (spec/40_control.md)
  | .nop => Sys2Proof.Machine.execNop s
  | .cfgCommit => Sys2Proof.Machine.execCfgCommit s
  | .start => Sys2Proof.Machine.execStart s
  | .stop => Sys2Proof.Machine.execStop s
  | .resetRt => Sys2Proof.Machine.execResetRt s
  -- ring buffer (spec/41_ringbuffer.md)
  | .rbRead ncnt => Sys2Proof.Machine.execRbRead ncnt s
  | .rbPeek ncnt => Sys2Proof.Machine.execRbPeek ncnt s
  -- preprocessor (spec/42_preprocess.md)
  | .preStep x => Sys2Proof.Machine.execPreStep x s
  | .winApply => Sys2Proof.Machine.execWinApply s
  -- FFT (spec/43_fft.md)
  | .fftBitrev => Sys2Proof.Machine.execFftBitrev s
  | .fftStage stage => Sys2Proof.Machine.execFftStage stage s
  | .fftFull => Sys2Proof.Machine.execFftFull s
  | .fftPower => Sys2Proof.Machine.execFftPower s
  -- Mel, log, features (spec/44_mel.md)
  | .melApply => Sys2Proof.Machine.execMelApply s
  | .logCompress => Sys2Proof.Machine.execLogCompress s
  | .featExtract => Sys2Proof.Machine.execFeatExtract s
  -- decision engine (spec/45_decision.md)
  | .decStep v => Sys2Proof.Machine.execDecStep v s
  | .decReset => Sys2Proof.Machine.execDecReset s
  | .evtPop => Sys2Proof.Machine.execEvtPop s
  -- codec (spec/46_codec.md)
  | .alawEnc x => Sys2Proof.Machine.execAlawEnc x s
  | .codecFrame => Sys2Proof.Machine.execCodecFrame s
  | .pktPop => Sys2Proof.Machine.execPktPop s

end Sys2Proof.Machine
end

