-- ==== Sys2Proof/Machine/Engine.lean ====
section
/-!
DEFINITION. The agents' steps (spec/20_memory.md R88-R90): the two channel engines, the sample producer and the host,
one step of the total order of R89 at a time.
-/

namespace Sys2Proof.Machine

/-- What runs a command: its meaning. -/
abbrev Executor := Instr → State → Host.Outcome State Fault Refusal

/-- The meaning of each command on the block with the parameters `p` (R6); `execWith aedp1` is `exec`. -/
def execWith (p : Params) : Executor := fun i s =>
  match i with
  | .cfgCommit => cfgCommitWith p s
  | .rbRead ncnt => rbReadWith p ncnt s
  | .rbPeek ncnt => rbPeekWith p ncnt s
  | .melApply => melApplyWith p s
  | .logCompress => logCompressWith p s
  | .featExtract => featExtractWith p s
  | .decStep v => decStepWith p v s
  | .nop | .start | .stop | .resetRt | .preStep _ | .winApply | .fftBitrev | .fftStage _ | .fftFull | .fftPower
  | .decReset | .evtPop | .alawEnc _ | .codecFrame | .pktPop => exec i s

/-- The engine of the active channel takes its END step, after BEGIN if that is still to come (R90): it decodes the
pending word and runs the command. A word that does not decode completes with its decode error (R110); an idle engine
has no step to take. -/
def State.engineRun (s : State) (run : Executor := exec) : Host.Outcome State Fault Refusal :=
  match (s.chan s.active).pending.word? with
  | none => .next s
  | some w =>
    match decodeOn s.active w with
    | .ok i => run i s
    | .error e => .next (s.complete (opcodeByte w) (some (ErrCode.ofDecode e)))

/-- The engine of the active channel takes its BEGIN step alone (R90). CFG_COMMIT and RESET_RT take both steps at once;
an engine that is idle, or has begun, has no BEGIN step to take. -/
def State.engineBegin (s : State) (p : Params := aedp1) (run : Executor := exec) :
    Host.Outcome State Fault Refusal :=
  match (s.chan s.active).pending with
  | .latched w =>
    match decodeOn s.active w with
    | .ok i => if beginIsEnd i then run i s else .next (s.begin w (commandCheck i s p))
    | .error e => .next (s.begin w (some (ErrCode.ofDecode e)))
  | .idle => .next s
  | .begun _ _ _ => .next s

/-- The engine of channel `n` is the one that steps. -/
def State.activate (s : State) (n : Chan) : State := { s with active := n }

/-- One step of another agent, or of the engine it lets run. -/
def State.inputStep (s : State) (e : Input) (p : Params := aedp1) (run : Executor := exec) :
    Host.Outcome State Fault Refusal :=
  match e with
  | .hostRead width off => s.hostRead width off p
  | .hostWrite width off v => s.hostWrite width off v p
  | .sample x => .next (s.accept x)
  | .begin n => (s.activate n).engineBegin p run
  | .run n => (s.activate n).engineRun run
  | .resetInput => .next s.resetInput

/-- With nothing else scheduled, a busy engine takes its steps (R392: it eventually does), the active channel's first;
with both channels idle nothing happens (R394). Log entry 8. -/
def State.quietStep (s : State) (run : Executor := exec) : Host.Outcome State Fault Refusal :=
  if s.busy s.active then s.engineRun run
  else if s.busy (otherChan s.active) then (s.activate (otherChan s.active)).engineRun run
  else .next s

/-- The channel on which the host would write a word: channel 0, unless its opcode is legal on channel 1 only (R113). -/
def homeChan (w : Word) : Chan :=
  match Opcode.ofByte (opcodeByte w) with
  | some op => if op.legalOn .ch0 then .ch0 else .ch1
  | none => .ch0

end Sys2Proof.Machine
end

