-- ==== Sys2Proof/Machine/Step.lean ====
section
/-!
DEFINITION. One step of the block (spec/20_memory.md R89): the next of the scheduled steps of its agents, or, with
nothing scheduled, a step of a busy channel engine.
-/

namespace Sys2Proof.Machine

/-- One step of the block with the parameters `p`, whose commands `run` gives their meaning. -/
def stepWith (p : Params) (run : Executor) (s : State) : Host.Outcome State Fault Refusal :=
  match s.inputs with
  | e :: rest => ({ s with inputs := rest } : State).inputStep e p run
  | [] => s.quietStep run

/-- One step of AEDP-1. -/
def step (s : State) : Host.Outcome State Fault Refusal := stepWith aedp1 exec s

/-- One step of the block with the parameters `p` (R6); `stepAt aedp1` is `step`. -/
def stepAt (p : Params) (s : State) : Host.Outcome State Fault Refusal := stepWith p (execWith p) s

/-- The state in which the next step runs the command word of an opcode-table row: the word is latched as its home
channel's pending command (R26), that channel's engine is the one that steps, and no other agent's step is scheduled
before it. It stands for the host's write of the word to CMDn (log entry 9). -/
def State.withFetchWord (s : State) (nbits w : Nat) : State :=
  let word := wordOfBytes (tableByte nbits w 0) (tableByte nbits w 1) (tableByte nbits w 2) (tableByte nbits w 3)
  { s.latch (homeChan word) word with active := homeChan word, inputs := [] }

end Sys2Proof.Machine
end

