-- ==== Sys2Proof/Safety.lean ====
section
/-!
DEFINITION. What counts as a safe outcome, in the terms claims use: what a claim assumes of a channel engine and of
memory, what a completion writes, which configurations are legal, which words are a command's footprint, which words it
writes, and the invariants of the block's state. Each is written from the spec's tables, apart from the functions of the machine.
-/

namespace Sys2Proof.Machine

/-- The step answered a next state. -/
def Answers (o : Host.Outcome State Fault Refusal) (t : State) : Prop := o = .next t

/-- The step ran: no model fault and no refusal (spec/70_reset_and_hazards.md R394). -/
def Runs (o : Host.Outcome State Fault Refusal) : Prop := ∃ t, o = .next t

/-! ### Memory -/

/-- Every byte of memory outside the words `lo .. lo + n - 1` (as offsets `lo`, `lo + 4`, ..) reads as before. -/
def SameOutside (blocks : List (Nat × Nat)) (m m' : Memory) : Prop :=
  ∀ off, inBlocks blocks off = false → m'.readByte off = m.readByte off

/-- Words `0 .. n-1` of an array have been written since reset (R50), so that reading them is no model fault. -/
def Written (a : Arr) (n : Nat) (m : Memory) : Prop := ∀ i, i < n → (m.readWord (a.off i)).isSome

/-- Word `i` of an array; `none` when it was never written (R50). -/
def Memory.word (m : Memory) (a : Arr) (i : Nat) : Option Word := m.readWord (a.off i)

/-- The value of a written word of an array. -/
def Memory.val (m : Memory) (a : Arr) (i : Nat) : Word := (m.word a i).getD 0

/-- The value at position `P0 + i`, the oldest available sample first, in the BEGIN snapshot's slots (R90, R172). -/
def Snapshot.value (sn : Snapshot) (c : Cfg) (i : Nat) : Sample :=
  (sn.ring.val .rbram ((sn.rpos.toNat + i) % c.rbCap.toNat)).setWidth 16

/-- The slots of the first `n` available positions of the BEGIN snapshot have been written. -/
def Snapshot.covers (sn : Snapshot) (c : Cfg) (n : Nat) : Prop :=
  ∀ i, i < n → (sn.ring.word .rbram ((sn.rpos.toNat + i) % c.rbCap.toNat)).isSome

/-! ### Commands -/

/-- No BEGIN step of the active channel's command has been recorded, so BEGIN falls in the step that runs it (R90). -/
def State.fresh (s : State) : Prop := ∀ w v sn, (s.chan s.active).pending ≠ .begun w v sn

/-- The active channel's command stands before an END step with its checks passed and BEGIN snapshot `sn`: either BEGIN
was recorded without an error, or BEGIN falls in this step and `ready`, the command's own conditions, holds now
(R90, R351). -/
def AtEnd (s : State) (ready : Prop) (sn : Snapshot) : Prop :=
  (∃ w, (s.chan s.active).pending = .begun w none sn) ∨ (s.fresh ∧ ready ∧ sn = s.snapshot)

/-- DONEn and ERRn's bit of IRQ_STATUS: bits 0 and 1, and bits 2 and 3 (R28). -/
def doneBit : Chan → BitVec 15
  | .ch0 => 0x0001
  | .ch1 => 0x0002
def errBit : Chan → BitVec 15
  | .ch0 => 0x0004
  | .ch1 => 0x0008

/-- What a completion of the active channel's command with CODE 0 leaves in the channels and in IRQ_STATUS: BUSYn = 0,
ERRn = {OPC, 0}, RESULTn, and DONEn beside the command's own events (R26, R27, R353, R356). -/
def Completed (s t : State) (opc : Byte) (result : Word) (events : BitVec 15) : Prop :=
  t.chan s.active = { s.chan s.active with pending := .idle, errOpc := opc, errCode := 0, result := result } ∧
  t.chan (otherChan s.active) = s.chan (otherChan s.active) ∧
  t.irqStatus = s.irqStatus ||| events ||| doneBit s.active

/-- RESULTn of the active channel, which a command that writes no result leaves alone (R27). -/
def State.oldResult (s : State) : Word := (s.chan s.active).result

/-- `t` is `s` after the active channel's command has completed with an error: ERRn = {OPC, CODE}, BUSYn = 0, DONEn and
ERRn's bit are set, and nothing else changes (R352, R353). -/
def FailedWith (s t : State) (opc code : Byte) : Prop :=
  t = { s with chan0 := t.chan0, chan1 := t.chan1, irqStatus := t.irqStatus } ∧
  t.chan s.active = { s.chan s.active with pending := .idle, errOpc := opc, errCode := code } ∧
  t.chan (otherChan s.active) = s.chan (otherChan s.active) ∧
  t.irqStatus = s.irqStatus ||| doneBit s.active ||| errBit s.active

/-- Run commands one after another on the active channel, each from BEGIN to END. -/
def runAll : List Instr → State → Host.Outcome State Fault Refusal
  | [], s => .next s
  | i :: rest, s =>
    match exec i s with
    | .next t => runAll rest t
    | .fault f => .fault f
    | .refused r => .refused r

/-- One window of an extraction on its own: stage 5 on the stage-4 outputs `v`, then the FFT, the power spectrum, the
Mel bands and the log compression (R195, R260). -/
def windowChain (c : Cfg) (v : Nat → Word) (m : Memory) : Except Fault Memory := do
  let m ← windowStage c v m
  let m ← fftFull c m
  let m ← fftPower c m
  let m ← melApply c m
  let r ← logCompress c m
  .ok r.1

/-! ### Configurations (R143) -/

/-- RQ, the samples one full extraction needs (R11, R143). -/
def Cfg.rq (c : Cfg) : Nat := c.winLen.toNat + (c.nframes.toNat - 1) * c.hop.toNat

/-- The validation list of R143: each check's completion code and what it requires, in order. -/
def Cfg.checks (c : Cfg) : List (Byte × Prop) :=
  [(0x40, c.fs ≠ 0),
   (0x41, 1 ≤ c.rbCap.toNat ∧ c.rbCap.toNat ≤ 32768),
   (0x42, 1 ≤ c.winLen.toNat ∧ c.winLen.toNat ≤ 1024),
   (0x43, 1 ≤ c.hop.toNat ∧ c.hop.toNat ≤ c.winLen.toNat),
   (0x44, 1 ≤ c.nframes.toNat ∧ c.nframes.toNat ≤ 128),
   (0x45, 1 ≤ c.fftLog2.toNat ∧ c.fftLog2.toNat ≤ 10 ∧ c.winLen.toNat ≤ 2 ^ c.fftLog2.toNat),
   (0x46, 1 ≤ c.melBands.toNat ∧ c.melBands.toNat ≤ 64),
   (0x47, 1 ≤ c.featStride.toNat ∧ c.featStride.toNat ≤ c.rq),
   (0x48, c.featCtrl &&& 0xFFFFFFF0 = 0),
   (0x49, fge c.dcR f32Zero = true ∧ flt c.dcR f32One = true),
   (0x4A, fge c.preemph f32Zero = true ∧ fle c.preemph f32One = true),
   (0x4B, fgt c.agcAttack f32Zero = true ∧ fle c.agcAttack f32One = true),
   (0x4C, fgt c.agcRelease f32Zero = true ∧ fle c.agcRelease f32One = true),
   (0x4D, fgt c.agcGsmooth f32Zero = true ∧ fle c.agcGsmooth f32One = true),
   (0x4E, fgt c.agcTarget f32Zero = true ∧ isFinite c.agcTarget = true),
   (0x4F, fgt c.agcMaxgain f32Zero = true ∧ isFinite c.agcMaxgain = true),
   (0x50, fgt c.gateThr f32Zero = true ∧ isFinite c.gateThr = true),
   (0x51, fgt c.logEps f32Zero = true ∧ isFinite c.logEps = true),
   (0x52, 1 ≤ c.nclasses.toNat ∧ c.nclasses.toNat ≤ 8),
   (0x53, c.target.toNat < c.nclasses.toNat),
   (0x54, fge c.threshold f32Zero = true ∧ fle c.threshold f32One = true),
   (0x55, fgt c.emaAlpha f32Zero = true ∧ fle c.emaAlpha f32One = true),
   (0x56, c.medianK.toNat % 2 = 1 ∧ 1 ≤ c.medianK.toNat ∧ c.medianK.toNat ≤ 7),
   (0x59, 1 ≤ c.codecLen.toNat ∧ c.codecLen.toNat ≤ 1024),
   (0x41, c.rq ≤ c.rbCap.toNat ∧ c.codecLen.toNat ≤ c.rbCap.toNat)]

/-- A configuration that passes every check of R143. -/
def Cfg.Legal (c : Cfg) : Prop := ∀ check ∈ c.checks, check.2

/-! ### Footprints (R387) -/

/-- The offset is a word of `a[0 .. n-1]`. -/
def InArray (a : Arr) (n off : Nat) : Prop := ∃ i, i < n ∧ off = a.off i

/-- The table of R387: the words of a pending command that the host must not write. -/
def InFootprint (c : Cfg) (i : Instr) (off : Nat) : Prop :=
  let work := InArray .workRe c.fftSize off ∨ InArray .workIm c.fftSize off
  let windows := InArray .win c.window off ∨ work
  let fft := work ∨ InArray .twRe (c.fftSize / 2) off ∨ InArray .twIm (c.fftSize / 2) off
  let power := InArray .workRe c.bins off ∨ InArray .workIm c.bins off ∨ InArray .pow c.bins off
  let mel := InArray .pow c.bins off ∨ InArray .melE c.bands off ∨
    ∃ m k, m < c.bands ∧ k < c.bins ∧ off = Arr.melW.off (m * 1024 + k)
  let logs := InArray .melE c.bands off ∨ InArray .melLog c.bands off
  let cycle := off = 0x300 ∨ off = 0x304 ∨ off = 0x308 ∨ off = 0x30C
  match i with
  | .winApply => windows
  | .fftBitrev => work
  | .fftStage _ | .fftFull => fft
  | .fftPower => power
  | .melApply => mel
  | .logCompress => logs
  | .featExtract => windows ∨ fft ∨ power ∨ mel ∨ logs ∨ InArray .feat (c.frames * c.bands) off ∨ cycle
  | .decStep _ => (∃ k, k < c.classes ∧ off = 0x340 + 4 * k) ∨ cycle
  | .nop | .cfgCommit | .start | .stop | .resetRt | .preStep _ | .rbRead _ | .rbPeek _ | .decReset | .evtPop
  | .alawEnc _ | .codecFrame | .pktPop => False

/-! ### The words a command writes (R386) -/

/-- The aligned offset lies between two offsets, both included. -/
def Between (lo hi off : Nat) : Prop := lo ≤ off ∧ off ≤ hi

/-- RESULTn. -/
def IsResult (n : Chan) (off : Nat) : Prop := off = match n with | .ch0 => 0x048 | .ch1 => 0x04C

/-- ERRn. -/
def IsErr (n : Chan) (off : Nat) : Prop := off = match n with | .ch0 => 0x024 | .ch1 => 0x028

/-- RDr_AVAIL, RDr_POS_LO and RDr_POS_HI. -/
def IsReader (r : Chan) (off : Nat) : Prop :=
  match r with
  | .ch0 => off = 0x05C ∨ off = 0x064 ∨ off = 0x068
  | .ch1 => off = 0x060 ∨ off = 0x06C ∨ off = 0x070

/-- The words that a command of channel `n` may write, apart from ERRn and IRQ_STATUS, which each of them writes, and from
STATUS: by the effect each command's rule gives it, taken at its largest where only the outcome decides (log entry 10).
`off` is an aligned offset. -/
def InWritten (e : Issued) (n : Chan) (i : Instr) (off : Nat) : Prop :=
  let c := e.cfg
  let work := InArray .workRe c.fftSize off ∨ InArray .workIm c.fftSize off
  let committed := Between 0x3E0 0x3F0 off
  let eventHead := Between 0x3A0 0x3BC off
  let packet := Between 0x3C0 0x3C8 off
  let smoothing := Between 0x360 0x39C off ∨ Between 0x400 0x4FC off
  let decision := smoothing ∨ Between 0x310 0x330 off ∨ off = 0x338
  let runtime := committed ∨ IsReader .ch0 off ∨ IsReader .ch1 off ∨ decision
  let scratch (k : Nat) : Prop := ∃ j, j < k ∧ j < c.capacity ∧ off = (scratchOf n).off j
  let ofClass (k : Nat) : Prop :=
    off = 0x360 + 4 * k ∨ off = 0x380 + 4 * k ∨ (e.hpos.toNat < 8 ∧ off = 0x400 + 4 * (8 * k + e.hpos.toNat))
  match i with
  | .nop | .start | .stop => False
  | .cfgCommit => Between 0x200 0x264 off ∨ runtime
  | .resetRt => eventHead ∨ packet ∨ runtime
  | .rbRead k => k ≤ 1024 ∧ (IsResult n off ∨ scratch k ∨ IsReader n off)
  | .rbPeek k => k ≤ 1024 ∧ (IsResult n off ∨ scratch k)
  | .preStep _ => IsResult n off ∨ committed
  | .winApply | .fftFull => work
  | .fftBitrev =>
    ∃ j, j < c.fftSize ∧ revBits c.fftLog2.toNat j ≠ j ∧ (off = Arr.workRe.off j ∨ off = Arr.workIm.off j)
  | .fftStage stage => 1 ≤ stage ∧ stage ≤ c.fftLog2.toNat ∧ work
  | .fftPower => InArray .pow c.bins off
  | .melApply => InArray .melE c.bands off
  | .logCompress => InArray .melLog c.bands off
  | .featExtract =>
    IsResult n off ∨ committed ∨ work ∨ InArray .pow c.bins off ∨ InArray .melE c.bands off ∨
      InArray .melLog c.bands off ∨ InArray .feat (c.frames * c.bands) off ∨ off = 0x33C ∨ off = 0x0A0 ∨ off = 0x088 ∨
      Between 0x300 0x30C off ∨ IsReader .ch0 off
  | .decStep v =>
    IsResult n off ∨ off = 0x08C ∨
      v = true ∧ (eventHead ∨ off = 0x334 ∨ off = 0x098 ∨ Between 0x310 0x330 off ∨ off = 0x338 ∨
        ∃ k, k < c.classes ∧ k < 8 ∧ ofClass k)
  | .decReset => decision
  | .evtPop => IsResult n off ∨ eventHead
  | .alawEnc _ => IsResult n off
  | .codecFrame =>
    IsResult n off ∨ InArray .pktPay c.frameWords off ∨ packet ∨ off = 0x3CC ∨ off = 0x3D0 ∨ off = 0x090 ∨
      off = 0x094 ∨ off = 0x0A4 ∨ IsReader .ch1 off
  | .pktPop => IsResult n off ∨ packet

/-- A command issued on channel `n` writes the word at the aligned offset: IRQ_STATUS (DONEn) and ERRn whatever it is, and
the words of its own effect when it decodes (R353, R386). -/
def Issued.Writes (e : Issued) (n : Chan) (off : Nat) : Prop :=
  off = 0x02C ∨ IsErr n off ∨ ∃ i, decodeOn n e.word = .ok i ∧ InWritten e n i off

/-! ### Invariants -/

/-- A word is a binary32 number in [0, 1], and neither a NaN nor -0.0: the patterns up to that of 1.0. -/
def UnitWord (a : Word) : Prop := a.toNat ≤ 0x3F800000

/-- EMA, SMOOTH and HIST lie in [0, 1] and are never NaN or -0.0 (R284). -/
def State.Smoothed (s : State) : Prop :=
  ∀ k, k < 8 → UnitWord (at8 s.ema k) ∧ UnitWord (at8 s.smooth k) ∧ ∀ j, j < 8 → UnitWord (at64 s.hist k j)

/-- What holds of the block apart from its ring buffer: memory stands in its canonical form, EVQ holds at most EVQ_DEPTH
records (R36), RUN implies CFG_VALID (R170), an active configuration that CFG_VALID vouches for is legal (R142), DEC_HPOS
is below K (R34), the smoothing state lies in [0, 1] (R284), and a START or DEC_STEP that has begun without an error found
a configuration (R145, R291). -/
structure State.Sound (s : State) : Prop where
  memory : s.mem.wf = true
  queue : s.evq.length ≤ 4
  running : s.run = true → s.cfgValid = true
  legal : s.cfgValid = true → s.act.Legal
  history : s.dec.hpos.toNat < s.act.medianK.toNat
  smoothed : s.Smoothed
  starting : ∀ n w sn i, (s.chan n).pending = .begun w none sn → decodeOn n w = .ok i →
    (i = .start ∨ ∃ v, i = .decStep v) → s.cfgValid = true

/-- A reader's range is sound against the sample clock: `SCLK - C ≤ RPOS ≤ SCLK` (R25), and the slot of every available
position has been written (R172). -/
structure State.ReaderSound (s : State) (r : Chan) : Prop where
  behind : (s.rpos r).toNat ≤ s.sclk.toNat
  within : s.sclk.toNat ≤ (s.rpos r).toNat + s.act.rbCap.toNat
  written : ∀ p, (s.rpos r).toNat ≤ p → p < s.sclk.toNat → (s.mem.word .rbram (p % s.act.rbCap.toNat)).isSome

/-- A recorded BEGIN snapshot is one the block could have taken: its reader stood at or before its sample clock, which
stood at or before the present one, and its available slots had been written (R90). -/
structure State.SnapshotSound (s : State) (sn : Snapshot) : Prop where
  behind : sn.rpos.toNat ≤ sn.sclk.toNat
  past : sn.sclk.toNat ≤ s.sclk.toNat
  written : ∀ p, sn.rpos.toNat ≤ p → p < sn.sclk.toNat → (sn.ring.word .rbram (p % s.act.rbCap.toNat)).isSome

/-- The ring buffer is sound whenever CFG_VALID = 1 (R25). -/
def State.RingSound (s : State) : Prop :=
  s.cfgValid = true →
    (∀ r, s.ReaderSound r) ∧ ∀ n w sn, (s.chan n).pending = .begun w none sn → s.SnapshotSound sn

end Sys2Proof.Machine
end

