-- ==== Sys2Proof/Certificates/Slice0/Obligations.lean ====
section
/-!
DEFINITION. The statements for the provers: what the numbered rules of spec/ say the block does. `chan0`, `chan1` and
`irqStatus` of a next state stand under `Completed` or `FailedWith`; a record update of `s` that lists the fields which
may differ is the frame: every field it does not list is unchanged.
-/

open Sys2Proof Sys2Proof.Machine

/-! ### Encoding (spec/30_encoding.md) -/

/-- Decoding the encoding of a well-formed command gives the command back, operand included, on every channel of its
row (R111, R112, R113). -/
def Obligations.DecodeOfEncodeIsTheCommand : Prop :=
  ∀ (i : Instr) (n : Chan), i.wellFormed = true →
    decode (encode i) = .ok i ∧ (i.opcode.legalOn n = true → decodeOn n (encode i) = .ok i)

/-- A word that decodes is the encoding of the command it decodes to, and that command is well formed: no two words
decode to one command (R111, R114). -/
def Obligations.EncodeOfDecodeIsTheWord : Prop :=
  ∀ (w : Word) (i : Instr), decode w = .ok i → encode i = w ∧ i.wellFormed = true

/-- The rows of the opcode map: each word, with its operand at every value of its field, decodes to its command on the
channels of its row, and to WRONG_CHANNEL on another channel (R112, R113). -/
def Obligations.OpcodeMapWordsDecodeAsListed : Prop :=
  (∀ n, decodeOn n 0x00000000 = .ok .nop) ∧
  decodeOn .ch0 0x00000001 = .ok .cfgCommit ∧ decodeOn .ch0 0x00000002 = .ok .start ∧
  decodeOn .ch0 0x00000003 = .ok .stop ∧ decodeOn .ch0 0x00000004 = .ok .resetRt ∧
  (∀ n k, k < 65536 → decodeOn n (BitVec.ofNat 32 (k * 65536 + 0x10)) = .ok (.rbRead k)) ∧
  (∀ n k, k < 65536 → decodeOn n (BitVec.ofNat 32 (k * 65536 + 0x11)) = .ok (.rbPeek k)) ∧
  (∀ x : Sample, decodeOn .ch0 (x ++ 0x0020#16) = .ok (.preStep x.toInt)) ∧
  decodeOn .ch0 0x00000021 = .ok .winApply ∧ decodeOn .ch0 0x00000028 = .ok .fftBitrev ∧
  (∀ k, k < 16 → decodeOn .ch0 (BitVec.ofNat 32 (k * 256 + 0x29)) = .ok (.fftStage k)) ∧
  decodeOn .ch0 0x0000002A = .ok .fftFull ∧ decodeOn .ch0 0x0000002B = .ok .fftPower ∧
  decodeOn .ch0 0x00000030 = .ok .melApply ∧ decodeOn .ch0 0x00000031 = .ok .logCompress ∧
  decodeOn .ch0 0x00000038 = .ok .featExtract ∧
  decodeOn .ch0 0x00000040 = .ok (.decStep false) ∧ decodeOn .ch0 0x00000140 = .ok (.decStep true) ∧
  decodeOn .ch0 0x00000041 = .ok .decReset ∧ decodeOn .ch0 0x00000042 = .ok .evtPop ∧
  (∀ x : Sample, decodeOn .ch1 (x ++ 0x0050#16) = .ok (.alawEnc x.toInt)) ∧
  decodeOn .ch1 0x00000051 = .ok .codecFrame ∧ decodeOn .ch1 0x00000052 = .ok .pktPop ∧
  (∀ w : Word, opcodeByte w ∈ [0x01, 0x02, 0x03, 0x04, 0x20, 0x21, 0x28, 0x29, 0x2A, 0x2B, 0x30, 0x31, 0x38, 0x40, 0x41,
    0x42] → decodeOn .ch1 w = .error .wrongChannel) ∧
  (∀ w : Word, opcodeByte w ∈ [0x50, 0x51, 0x52] → decodeOn .ch0 w = .error .wrongChannel)

/-- Which words R110 refuses, and as what: the reserved opcode bytes of R114, then the channel, then the bits that
R111 reserves in the opcode's format (the reading of log entry 6). -/
def Obligations.EveryWordHasOneDecodeOutcome : Prop :=
  ∀ (n : Chan) (w : Word),
    let opc := w.toNat % 256
    let reserved := (0x05 ≤ opc ∧ opc ≤ 0x0F) ∨ (0x12 ≤ opc ∧ opc ≤ 0x1F) ∨ (0x22 ≤ opc ∧ opc ≤ 0x27) ∨
      (0x2C ≤ opc ∧ opc ≤ 0x2F) ∨ (0x32 ≤ opc ∧ opc ≤ 0x37) ∨ (0x39 ≤ opc ∧ opc ≤ 0x3F) ∨
      (0x43 ≤ opc ∧ opc ≤ 0x4F) ∨ (0x53 ≤ opc ∧ opc ≤ 0xFF)
    let legalHere := opc = 0x00 ∨ opc = 0x10 ∨ opc = 0x11 ∨ (n = .ch1 ↔ (0x50 ≤ opc ∧ opc ≤ 0x52))
    let mask : Word :=
      if opc = 0x10 ∨ opc = 0x11 ∨ opc = 0x20 ∨ opc = 0x50 then 0x0000FF00
      else if opc = 0x29 then 0xFFFFF000 else if opc = 0x40 then 0xFFFFFE00 else 0xFFFFFF00
    (decodeOn n w = .error .badOpcode ↔ reserved) ∧
    (decodeOn n w = .error .wrongChannel ↔ ¬reserved ∧ ¬legalHere) ∧
    (decodeOn n w = .error .reservedBit ↔ ¬reserved ∧ legalHere ∧ w &&& mask ≠ 0)

/-- A few words written out from R113: `C1 ALAW_ENC 32767` is 0x7FFF0050 (R321), `RB_READ 8`, `FFT_STAGE 2`,
`PRE_STEP -32`, `DEC_STEP 1`; 0x00000100 is a NOP with a reserved bit set (R140). -/
def Obligations.SampleWordsDecodeToTheirCommands : Prop :=
  decodeOn .ch1 0x7FFF0050 = .ok (.alawEnc 32767) ∧ decodeOn .ch0 0x00080010 = .ok (.rbRead 8) ∧
  decodeOn .ch0 0x00000229 = .ok (.fftStage 2) ∧ decodeOn .ch0 0xFFE00020 = .ok (.preStep (-32)) ∧
  decodeOn .ch0 0x00000140 = .ok (.decStep true) ∧ decodeOn .ch0 0x00000038 = .ok .featExtract ∧
  decodeOn .ch1 0x00000100 = .error .reservedBit

/-! ### The engines (spec/20_memory.md R88-R90, spec/60_exceptions.md) -/

/-- A step runs the decoded command: a scheduled run of channel `n` whose pending word decodes to `i` is `exec i` on that
channel, and so is a scheduled BEGIN step of a latched CFG_COMMIT or RESET_RT. With nothing scheduled the active channel
runs if it is busy, else the other (log entry 8, the model's choice). -/
def Obligations.StepRunsTheDecodedCommand : Prop :=
  ∀ (s : State) (n : Chan) (rest : List Input) (w : Word) (i : Instr), decodeOn n w = .ok i →
    (s.inputs = .run n :: rest → (s.chan n).pending.word? = some w →
      step s = exec i { s with inputs := rest, active := n }) ∧
    (s.inputs = .begin n :: rest → (s.chan n).pending = .latched w → i = .cfgCommit ∨ i = .resetRt →
      step s = exec i { s with inputs := rest, active := n }) ∧
    (s.inputs = [] → n = s.active → (s.chan n).pending.word? = some w → step s = exec i s) ∧
    (s.inputs = [] → n = otherChan s.active → s.busy s.active = false → (s.chan n).pending.word? = some w →
      step s = exec i { s with active := n })

/-- A pending word that does not decode completes with code 0x01, 0x02 or 0x03 and no other effect (R110, R114). -/
def Obligations.UndecodableCommandsCompleteWithTheirCode : Prop :=
  ∀ (s : State) (n : Chan) (rest : List Input) (w : Word), s.inputs = .run n :: rest →
    (s.chan n).pending.word? = some w →
    let u : State := { s with inputs := rest, active := n }
    let opc := w.toNat % 256
    ((0x05 ≤ opc ∧ opc ≤ 0x0F) ∨ (0x12 ≤ opc ∧ opc ≤ 0x1F) ∨ (0x22 ≤ opc ∧ opc ≤ 0x27) ∨ (0x2C ≤ opc ∧ opc ≤ 0x2F) ∨
      (0x32 ≤ opc ∧ opc ≤ 0x37) ∨ (0x39 ≤ opc ∧ opc ≤ 0x3F) ∨ (0x43 ≤ opc ∧ opc ≤ 0x4F) ∨ (0x53 ≤ opc ∧ opc ≤ 0xFF) →
      ∃ t, step s = .next t ∧ FailedWith u t (opcodeByte w) 0x01) ∧
    (decodeOn n w = .error .wrongChannel → ∃ t, step s = .next t ∧ FailedWith u t (opcodeByte w) 0x02) ∧
    (decodeOn n w = .error .reservedBit → ∃ t, step s = .next t ∧ FailedWith u t (opcodeByte w) 0x03)

/-- A BEGIN step records the verdict of the command's checks on the state at BEGIN and the snapshot of SCLK, the reader's
position and the ring-buffer slots, and changes nothing else (R90). That a command whose verdict is an error stays pending,
with ERRn unchanged, until its END step is the model's choice: R90 does not say at which step it completes (log entry 1,
DEDUCED). -/
def Obligations.BeginRecordsTheVerdictAndSnapshot : Prop :=
  ∀ (s : State) (n : Chan) (rest : List Input) (w : Word) (i : Instr), s.inputs = .begin n :: rest →
    (s.chan n).pending = .latched w → decodeOn n w = .ok i → i ≠ .cfgCommit → i ≠ .resetRt →
    ∃ t sn, step s = .next t ∧
      t = { s with inputs := rest, active := n, chan0 := t.chan0, chan1 := t.chan1 } ∧
      t.chan n = { s.chan n with pending := .begun w (commandCheck i s) sn } ∧
      t.chan (otherChan n) = s.chan (otherChan n) ∧
      sn.sclk = s.sclk ∧ sn.rpos = s.rpos n ∧ ∀ j, j < 32768 → sn.ring.word .rbram j = s.mem.word .rbram j

/-- A BEGIN step followed at once by the channel's END step does what the fused step does: the order of steps that the
model's `run` stands for when nothing falls between (R90; log entry 1). -/
def Obligations.BeginThenRunEqualsRun : Prop :=
  ∀ (s u : State) (n : Chan) (rest : List Input), s.inputs = .begin n :: .run n :: rest → step s = .next u →
    step u = step { s with inputs := .run n :: rest }

/-- The verdict of BEGIN stands whatever happens before END: a command that passed its checks completes with CODE 0 if it
completes (R351), so STOP does not fail a command that began before it (R146, R385). A command that failed them at BEGIN
completes with that error at its END step: this second clause is the model's choice, for R90 does not say at which step a
failed command completes (log entry 1, DEDUCED). -/
def Obligations.CommandsThatBeganDoNotFailLater : Prop :=
  ∀ (i : Instr) (s : State) (w : Word) (sn : Snapshot), i ≠ .cfgCommit → i ≠ .resetRt →
    ((s.chan s.active).pending = .begun w none sn → ∀ t, exec i s = .next t →
      (t.chan s.active).errCode = 0 ∧ (t.chan s.active).errOpc = i.opcode.byte) ∧
    (∀ e : ErrCode, e.code ≠ 0 → (s.chan s.active).pending = .begun w (some e) sn →
      ∃ t, exec i s = .next t ∧ FailedWith s t i.opcode.byte e.code)

/-- Each command's precondition, operand and state checks, with the code of the first that fails (R141, R350, R351). -/
def Obligations.RefusedCommandsReportTheirFirstError : Prop :=
  ∀ s : State,
    let refused (i : Instr) (code : Byte) : Prop := ∃ t, exec i s = .next t ∧ FailedWith s t i.opcode.byte code
    (∀ i, i = .cfgCommit ∨ i = .resetRt →
      (s.run = true → refused i 0x06) ∧ (s.run = false → s.busy .ch1 = true → refused i 0x07)) ∧
    (s.fresh →
      (s.cfgValid = false →
        (∀ i ∈ [Instr.start, .winApply, .fftBitrev, .fftFull, .fftPower, .melApply, .logCompress, .featExtract,
          .decStep true, .decStep false, .codecFrame], refused i 0x04) ∧
        (∀ k, refused (.rbRead k) 0x04 ∧ refused (.rbPeek k) 0x04 ∧ refused (.fftStage k) 0x04) ∧
        ∀ x, refused (.preStep x) 0x04) ∧
      (s.cfgValid = true →
        (∀ x, s.run = true → refused (.preStep x) 0x06) ∧
        (∀ i ∈ [Instr.featExtract, .decStep true, .decStep false, .codecFrame], s.run = false → refused i 0x05) ∧
        (∀ k, 1024 < k → refused (.rbRead k) 0x03 ∧ refused (.rbPeek k) 0x03) ∧
        ∀ k, k = 0 ∨ s.act.fftLog2.toNat < k → refused (.fftStage k) 0x03) ∧
      (s.evq = [] → refused .evtPop 0x08) ∧ (s.pkt = none → refused .pktPop 0x09))

/-- A failed command changes no state except ERRn, BUSYn, IRQ_STATUS.DONEn and IRQ_STATUS.ERRn, whether it fails its own
checks or its word does not decode (R352, R353). -/
def Obligations.FailedCommandChangesOnlyItsCompletion : Prop :=
  (∀ (i : Instr) (s t : State), exec i s = .next t → (t.chan s.active).errCode ≠ 0 →
    FailedWith s t i.opcode.byte (t.chan s.active).errCode) ∧
  ∀ (s : State) (n : Chan) (rest : List Input) (w : Word) (e : DecodeRefusal), s.inputs = .run n :: rest →
    (s.chan n).pending.word? = some w → decodeOn n w = .error e →
    ∃ t, step s = .next t ∧
      FailedWith { s with inputs := rest, active := n } t (opcodeByte w) (ErrCode.ofDecode e).code

/-- Every completion, a successful one included, frees its channel, writes ERRn, sets DONEn, and sets ERRn's bit exactly
when CODE is not 0; no event bit is cleared, and the other channel is untouched. DONE0, DONE1, ERR0 and ERR1 are bits 0,
1, 2 and 3 of IRQ_STATUS (R26, R27, R28, R353). -/
def Obligations.EveryCompletionIsRecordedOnItsChannel : Prop :=
  ∀ (i : Instr) (s t : State), exec i s = .next t →
    let done : Nat := match s.active with | .ch0 => 0 | .ch1 => 1
    let err : Nat := match s.active with | .ch0 => 2 | .ch1 => 3
    t.busy s.active = false ∧ (t.chan s.active).errOpc = i.opcode.byte ∧
    t.irqStatus.getLsbD done = true ∧
    (t.irqStatus.getLsbD err = true ↔ s.irqStatus.getLsbD err = true ∨ (t.chan s.active).errCode ≠ 0) ∧
    (∀ b, s.irqStatus.getLsbD b = true → t.irqStatus.getLsbD b = true) ∧
    t.chan (otherChan s.active) = s.chan (otherChan s.active) ∧ t.irqEnable = s.irqEnable ∧
    ((t.chan s.active).errCode ≠ 0 → (t.chan s.active).result = s.oldResult)

/-- No command is refused as not modelled, and a command stops only on an array word that was never written: the word at
the offset its fault names has no value in memory, or, for a ring-buffer slot, had none at the BEGIN step recorded before
(R50, R90, R357). -/
def Obligations.CommandsOnlyFaultOnUnwrittenWords : Prop :=
  (∀ (i : Instr) (s : State), (∀ r, exec i s ≠ .refused r) ∧
    ∀ f, exec i s = .fault f → ∃ off, f = .uninitRead off ∧
      (s.mem.readWord off = none ∨
        ∃ w v sn, (s.chan s.active).pending = .begun w v sn ∧ 0x80000 ≤ off ∧ sn.ring.readWord off = none)) ∧
  ∀ (s : State) (r : Refusal), step s ≠ .refused r

/-- The channels do not disturb each other (R388): a channel-1 command leaves the detection path's state alone, and a
channel-0 command other than CFG_COMMIT and RESET_RT leaves the streaming path's. (An RB_READ or RB_PEEK that has begun
passed its check NCNT ≤ SCRATCH_LEN.) -/
def Obligations.ChannelsDoNotDisturbEachOther : Prop :=
  ∀ (i : Instr) (s t : State), exec i s = .next t → s.act.Legal → i.opcode.legalOn s.active = true →
    (∀ k, i = .rbRead k ∨ i = .rbPeek k → k ≤ 1024) →
    (s.active = .ch1 →
      t = { s with
        chan1 := t.chan1, irqStatus := t.irqStatus, rpos1 := t.rpos1, pkt := t.pkt, pktSeqNext := t.pktSeqNext
        pktTsNext := t.pktTsNext, mem := t.mem, draws := t.draws
        counters := { s.counters with
          underrun := t.counters.underrun, pktSkip := t.counters.pktSkip, pkt := t.counters.pkt } } ∧
      SameOutside [(0x10000, 1024), (0x11000, 256)] s.mem t.mem) ∧
    (s.active = .ch0 → i ≠ .cfgCommit → i ≠ .resetRt →
      t.chan1 = s.chan1 ∧ t.rpos1 = s.rpos1 ∧ t.pkt = s.pkt ∧ t.pktSeqNext = s.pktSeqNext ∧
      t.pktTsNext = s.pktTsNext ∧ t.counters.underrun = s.counters.underrun ∧
      t.counters.pktSkip = s.counters.pktSkip ∧ t.counters.pkt = s.counters.pkt ∧ t.sclk = s.sclk ∧
      ∀ off, inBlocks [(0x10000, 1024), (0x11000, 256)] off = true → t.mem.readByte off = s.mem.readByte off)

/-! ### Control commands (spec/40_control.md) -/

/-- NOP completes and does nothing; START, once configured, sets RUN; STOP clears it; none of the three writes RESULTn
(R140, R145, R146). -/
def Obligations.NopStartAndStopComplete : Prop :=
  ∀ (s : State) (sn : Snapshot),
    (AtEnd s True sn → ∃ t, exec .nop s = .next t ∧ Completed s t 0x00 s.oldResult 0 ∧
      t = { s with chan0 := t.chan0, chan1 := t.chan1, irqStatus := t.irqStatus }) ∧
    (AtEnd s (s.cfgValid = true) sn → ∃ t, exec .start s = .next t ∧ Completed s t 0x02 s.oldResult 0 ∧
      t = { s with chan0 := t.chan0, chan1 := t.chan1, irqStatus := t.irqStatus, run := true }) ∧
    (AtEnd s True sn → ∃ t, exec .stop s = .next t ∧ Completed s t 0x03 s.oldResult 0 ∧
      t = { s with chan0 := t.chan0, chan1 := t.chan1, irqStatus := t.irqStatus, run := false })

/-- CFG_COMMIT of a legal configuration makes all 26 fields active at once, and with RESET_RT clears the runtime state;
RESET_RT also empties the event queue and the packet buffer. What `runtime_clear` does not name is unchanged
(R142, R144, R147). -/
def Obligations.CommitAndResetRtClearTheRuntimeState : Prop :=
  ∀ s : State, s.run = false → s.busy .ch1 = false →
    let cleared (t : State) : State :=
      { s with
        chan0 := t.chan0, chan1 := t.chan1, irqStatus := t.irqStatus, rpos0 := s.sclk, rpos1 := s.sclk
        pp := { x1 := 0, y1 := 0, p1 := 0, env := 0, gain := 0x3F800000 }, ema := zeros8, smooth := zeros8
        hist := zeros64, featValid := false
        dec := { state := .idle, argmax := 0, conf := 0, start := 0, last := 0, peakconf := 0, rmsmax := 0, peakmax := 0,
                 hpos := 0 } }
    (s.shadow.Legal → ∃ t, exec .cfgCommit s = .next t ∧ Completed s t 0x01 s.oldResult 0 ∧
      t = { cleared t with act := s.shadow, cfgValid := true }) ∧
    ∃ t, exec .resetRt s = .next t ∧ Completed s t 0x04 s.oldResult 0 ∧ t = { cleared t with evq := [], pkt := none }

/-- CFG_COMMIT succeeds on a configuration that passes every check of the validation list, and otherwise reports the code
of the first failing check and applies nothing (R142, R143). -/
def Obligations.CommitReportsTheFirstFailingCheck : Prop :=
  ∀ s : State, s.run = false → s.busy .ch1 = false →
    (s.shadow.Legal → ∃ t, exec .cfgCommit s = .next t ∧ (t.chan s.active).errCode = 0) ∧
    ∀ (k : Nat) (code : Byte) (p : Prop), s.shadow.checks[k]? = some (code, p) → ¬p →
      (∀ j q, j < k → s.shadow.checks[j]? = some q → q.2) →
      ∃ t, exec .cfgCommit s = .next t ∧ FailedWith s t 0x01 code

/-! ### The ring buffer (spec/41_ringbuffer.md) -/

/-- A sample from the producer's port, or written to SAMPLE_IN, is accepted: discarded and counted while stopped; while
running, stored in slot SCLK mod C with SCLK advanced, each full reader losing its oldest sample with its counter and
OVERRUN (R170, R171). -/
def Obligations.AcceptStoresOneSampleAndDropsTheOldest : Prop :=
  ∀ (s : State) (rest : List Input) (x : Sample) (v : Word),
    s.inputs = .sample x :: rest ∨ (s.inputs = .hostWrite 4 0x050 v :: rest ∧ x = v.extractLsb' 0 16) →
    (s.run = false → step s = .next { s with
      inputs := rest, counters := { s.counters with discard := s.counters.discard + 1 }
      irqStatus := s.irqStatus ||| 0x4000#15 }) ∧
    (s.run = true →
      let full0 : Prop := (s.sclk - s.rpos0).toNat = s.act.rbCap.toNat
      let full1 : Prop := (s.sclk - s.rpos1).toNat = s.act.rbCap.toNat
      let slot := s.sclk.toNat % s.act.rbCap.toNat
      ∃ t, step s = .next t ∧
        t = { s with
          inputs := rest, mem := t.mem, sclk := s.sclk + 1, rpos0 := t.rpos0, rpos1 := t.rpos1, irqStatus := t.irqStatus
          counters := { s.counters with ovr0 := t.counters.ovr0, ovr1 := t.counters.ovr1 } } ∧
        (full0 → t.rpos0 = s.rpos0 + 1 ∧ t.counters.ovr0 = s.counters.ovr0 + 1) ∧
        (¬full0 → t.rpos0 = s.rpos0 ∧ t.counters.ovr0 = s.counters.ovr0) ∧
        (full1 → t.rpos1 = s.rpos1 + 1 ∧ t.counters.ovr1 = s.counters.ovr1 + 1) ∧
        (¬full1 → t.rpos1 = s.rpos1 ∧ t.counters.ovr1 = s.counters.ovr1) ∧
        (full0 ∨ full1 → t.irqStatus = s.irqStatus ||| 0x0040#15) ∧ (¬full0 ∧ ¬full1 → t.irqStatus = s.irqStatus) ∧
        t.mem.word .rbram slot = some (x.signExtend 32) ∧ SameOutside [(0x80000 + 4 * slot, 1)] s.mem t.mem)

/-- What a reader can read after a sample is accepted is what it could read before, in the same order, with the new
sample last; the oldest is dropped only when the reader was full (R91, R171, R172). -/
def Obligations.AcceptedSamplesStayInOrder : Prop :=
  ∀ (s : State) (x : Sample) (r : Chan), s.run = true → 1 ≤ s.act.rbCap.toNat → s.act.rbCap.toNat ≤ 32768 →
    (∀ r, s.ReaderSound r) → s.sclk.toNat + 1 < 2 ^ 64 →
    let t := s.accept x
    t.ReaderSound r ∧
    (t.avail r = s.avail r + 1 ∧ t.rpos r = s.rpos r ∨
      s.avail r = s.act.rbCap.toNat ∧ t.avail r = s.avail r ∧ t.rpos r = s.rpos r + 1) ∧
    (∀ p, (t.rpos r).toNat ≤ p → p < s.sclk.toNat →
      t.mem.word .rbram (p % s.act.rbCap.toNat) = s.mem.word .rbram (p % s.act.rbCap.toNat)) ∧
    t.mem.word .rbram (s.sclk.toNat % s.act.rbCap.toNat) = some (x.signExtend 32)

/-- RB_PEEK copies the oldest min(NCNT, A0) available samples to the channel's scratch buffer and returns the count;
RB_READ does that and moves the channel's own cursor past them. If a sample was evicted since BEGIN the copied words are
not fixed, and the count and the cursor still are (R90, R173, R174). -/
def Obligations.RbReadAndRbPeekCopySamples : Prop :=
  ∀ (s : State) (sn : Snapshot) (k : Nat), k ≤ 1024 → AtEnd s (s.cfgValid = true) sn →
    let cnt := min k (sn.sclk - sn.rpos).toNat
    sn.covers s.act cnt →
    let copied (t : State) : Prop :=
      SameOutside [((scratchOf s.active).base, cnt)] s.mem t.mem ∧
      (∀ i, i < cnt → (t.mem.word (scratchOf s.active) i).isSome) ∧
      (s.sclk.toNat ≤ sn.rpos.toNat + s.act.rbCap.toNat → t.draws = s.draws ∧
        ∀ i, i < cnt → t.mem.word (scratchOf s.active) i = some ((sn.value s.act i).signExtend 32))
    (∃ t, exec (.rbPeek k) s = .next t ∧ Completed s t 0x11 (BitVec.ofNat 32 cnt) 0 ∧ copied t ∧
      t = { s with chan0 := t.chan0, chan1 := t.chan1, irqStatus := t.irqStatus, mem := t.mem, draws := t.draws }) ∧
    (∃ t, exec (.rbRead k) s = .next t ∧ Completed s t 0x10 (BitVec.ofNat 32 cnt) 0 ∧ copied t ∧
      t = { s with
        chan0 := t.chan0, chan1 := t.chan1, irqStatus := t.irqStatus, mem := t.mem, draws := t.draws, rpos0 := t.rpos0
        rpos1 := t.rpos1 } ∧
      t.rpos s.active = BitVec.ofNat 64 (max (sn.rpos.toNat + cnt) (s.rpos s.active).toNat) ∧
      t.rpos (otherChan s.active) = s.rpos (otherChan s.active))

/-! ### The preprocessor (spec/42_preprocess.md) -/

/-- PRE_STEP runs one sample through the DC block, the pre-emphasis, the AGC and the gate on the committed state, and
returns the output's pattern (R190-R194, R196). -/
def Obligations.PreStepRunsTheFourStages : Prop :=
  ∀ (s : State) (sn : Snapshot) (x : Int), AtEnd s (s.cfgValid = true ∧ s.run = false) sn →
    let c := s.act
    let xf := f32OfInt x
    let d := fadd (fsub xf s.pp.x1) (fmul c.dcR s.pp.y1)
    let e := if c.featCtrl.getLsbD 1 then fsub d (fmul c.preemph s.pp.p1) else d
    let p := fmul e e
    let rate := if fgt p s.pp.env then c.agcAttack else c.agcRelease
    let env := if c.featCtrl.getLsbD 2 then fadd s.pp.env (fmul rate (fsub p s.pp.env)) else s.pp.env
    let lvl := if fgt env f32Zero then fsqrt env else f32Zero
    let gd := if feq lvl f32Zero then c.agcMaxgain else fmin (fdiv c.agcTarget lvl) c.agcMaxgain
    let g := if c.featCtrl.getLsbD 2 then fadd s.pp.gain (fmul c.agcGsmooth (fsub gd s.pp.gain)) else s.pp.gain
    let a := if c.featCtrl.getLsbD 2 then fmul e g else e
    let v := if c.featCtrl.getLsbD 3 && flt (fabs a) c.gateThr then fmul a (fdiv (fabs a) c.gateThr) else a
    ∃ t, exec (.preStep x) s = .next t ∧ Completed s t 0x20 v 0 ∧
      t = { s with
        chan0 := t.chan0, chan1 := t.chan1, irqStatus := t.irqStatus
        pp := { x1 := xf, y1 := d, p1 := d, env := env, gain := g } }

/-- Stream consistency: the stage-4 output of a sample is what PRE_STEP gives when it is applied to the samples before it
and to it, in order; and a run of PRE_STEP commands does exactly that (R190, R198). -/
def Obligations.PreprocessorStreamIsConsistent : Prop :=
  (∀ (c : Cfg) (p : PrepState) (xs : List Int) (i : Nat) (x : Int), xs[i]? = some x →
    (ppOutputs c p xs)[i]? = some (ppStep c (ppAfter c p (xs.take i)) x).2) ∧
  (∀ (c : Cfg) (p : PrepState) (xs ys : List Int),
    ppOutputs c p (xs ++ ys) = ppOutputs c p xs ++ ppOutputs c (ppAfter c p xs) ys ∧
    ppAfter c p (xs ++ ys) = ppAfter c (ppAfter c p xs) ys) ∧
  ∀ (s : State) (xs : List Int) (x : Int), s.fresh → s.cfgValid = true → s.run = false →
    ∃ t, runAll ((xs ++ [x]).map Instr.preStep) s = .next t ∧ t.pp = ppAfter s.act s.pp (xs ++ [x]) ∧
      some (t.chan s.active).result = (ppOutputs s.act s.pp (xs ++ [x]))[xs.length]?

/-- WIN_APPLY multiplies the first L words of WORK_RE by the window, pads with +0.0 up to N and clears WORK_IM
(R195, R197). -/
def Obligations.WinApplyWindowsAndPads : Prop :=
  ∀ (s : State) (sn : Snapshot), AtEnd s (s.cfgValid = true) sn → s.act.Legal →
    Written .workRe s.act.winLen.toNat s.mem → Written .win s.act.winLen.toNat s.mem →
    let n := 2 ^ s.act.fftLog2.toNat
    ∃ t, exec .winApply s = .next t ∧ Completed s t 0x21 s.oldResult 0 ∧
      t = { s with chan0 := t.chan0, chan1 := t.chan1, irqStatus := t.irqStatus, mem := t.mem } ∧
      (∀ i, i < s.act.winLen.toNat → t.mem.word .workRe i = some (fmul (s.mem.val .workRe i) (s.mem.val .win i))) ∧
      (∀ i, s.act.winLen.toNat ≤ i → i < n → t.mem.word .workRe i = some f32Zero) ∧
      (∀ i, i < n → t.mem.word .workIm i = some f32Zero) ∧
      SameOutside [(0x04000, n), (0x05000, n)] s.mem t.mem

/-! ### The FFT (spec/43_fft.md) -/

/-- FFT_BITREV moves word i of WORK to the index with i's B low bits reversed, for every i below N, and touches no other
byte; reversing twice is the identity (R223). -/
def Obligations.FftBitrevPermutesWork : Prop :=
  (∀ b i, i < 2 ^ b → revBits b i < 2 ^ b ∧ revBits b (revBits b i) = i ∧
    ∀ j, j < b → (revBits b i).testBit j = i.testBit (b - 1 - j)) ∧
  ∀ (s : State) (sn : Snapshot), AtEnd s (s.cfgValid = true) sn → s.act.Legal →
    let n := 2 ^ s.act.fftLog2.toNat
    Written .workRe n s.mem → Written .workIm n s.mem →
    ∃ t, exec .fftBitrev s = .next t ∧ Completed s t 0x28 s.oldResult 0 ∧
      t = { s with chan0 := t.chan0, chan1 := t.chan1, irqStatus := t.irqStatus, mem := t.mem } ∧
      (∀ i, i < n →
        t.mem.word .workRe (revBits s.act.fftLog2.toNat i) = s.mem.word .workRe i ∧
        t.mem.word .workIm (revBits s.act.fftLog2.toNat i) = s.mem.word .workIm i) ∧
      SameOutside [(0x04000, n), (0x05000, n)] s.mem t.mem

/-- FFT_STAGE S does the butterfly of R222 on each of its pairs, each on the words WORK held before the command: the pairs
are disjoint (R222, R224). -/
def Obligations.FftStageDoesItsButterflies : Prop :=
  ∀ (s : State) (sn : Snapshot) (stage : Nat), AtEnd s (s.cfgValid = true) sn → s.act.Legal → 1 ≤ stage →
    stage ≤ s.act.fftLog2.toNat →
    let n := 2 ^ s.act.fftLog2.toNat
    Written .workRe n s.mem → Written .workIm n s.mem → Written .twRe (n / 2) s.mem → Written .twIm (n / 2) s.mem →
    ∃ t, exec (.fftStage stage) s = .next t ∧ Completed s t 0x29 s.oldResult 0 ∧
      t = { s with chan0 := t.chan0, chan1 := t.chan1, irqStatus := t.irqStatus, mem := t.mem } ∧
      (∀ b j, b < n / 2 ^ stage → j < 2 ^ stage / 2 →
        let p := b * 2 ^ stage + j
        let q := p + 2 ^ stage / 2
        let wr := s.mem.val .twRe (j * (n / 2 ^ stage))
        let wi := s.mem.val .twIm (j * (n / 2 ^ stage))
        let br := s.mem.val .workRe q
        let bi := s.mem.val .workIm q
        let tr := fsub (fmul wr br) (fmul wi bi)
        let ti := fadd (fmul wr bi) (fmul wi br)
        t.mem.word .workRe q = some (fsub (s.mem.val .workRe p) tr) ∧
        t.mem.word .workIm q = some (fsub (s.mem.val .workIm p) ti) ∧
        t.mem.word .workRe p = some (fadd (s.mem.val .workRe p) tr) ∧
        t.mem.word .workIm p = some (fadd (s.mem.val .workIm p) ti)) ∧
      SameOutside [(0x04000, n), (0x05000, n)] s.mem t.mem

/-- FFT_FULL leaves in memory exactly what FFT_BITREV followed by FFT_STAGE 1, .., FFT_STAGE log2 N leave (R225). -/
def Obligations.FftFullIsBitrevThenAllStages : Prop :=
  ∀ (s : State) (sn : Snapshot), AtEnd s True sn → s.cfgValid = true → s.act.Legal →
    let n := 2 ^ s.act.fftLog2.toNat
    Written .workRe n s.mem → Written .workIm n s.mem → Written .twRe (n / 2) s.mem → Written .twIm (n / 2) s.mem →
    ∃ t u, exec .fftFull s = .next t ∧ Completed s t 0x2A s.oldResult 0 ∧
      t = { s with chan0 := t.chan0, chan1 := t.chan1, irqStatus := t.irqStatus, mem := t.mem } ∧
      runAll (.fftBitrev :: (List.range s.act.fftLog2.toNat).map (fun k => .fftStage (k + 1))) s = .next u ∧
      t.mem = u.mem ∧ SameOutside [(0x04000, n), (0x05000, n)] s.mem t.mem

/-- FFT_POWER writes the squared magnitude of each non-negative bin (R226). -/
def Obligations.FftPowerSquaresTheBins : Prop :=
  ∀ (s : State) (sn : Snapshot), AtEnd s (s.cfgValid = true) sn → s.act.Legal →
    let nb := 2 ^ s.act.fftLog2.toNat / 2 + 1
    Written .workRe nb s.mem → Written .workIm nb s.mem →
    ∃ t, exec .fftPower s = .next t ∧ Completed s t 0x2B s.oldResult 0 ∧
      t = { s with chan0 := t.chan0, chan1 := t.chan1, irqStatus := t.irqStatus, mem := t.mem } ∧
      (∀ k, k < nb → t.mem.word .pow k = some
        (fadd (fmul (s.mem.val .workRe k) (s.mem.val .workRe k)) (fmul (s.mem.val .workIm k) (s.mem.val .workIm k)))) ∧
      SameOutside [(0x06000, nb)] s.mem t.mem

/-! ### Mel, log, features (spec/44_mel.md) -/

/-- MEL_APPLY writes each band's weighted sum over every bin, in increasing bin order from +0.0 (R252). -/
def Obligations.MelApplySumsEveryBin : Prop :=
  ∀ (s : State) (sn : Snapshot), AtEnd s (s.cfgValid = true) sn → s.act.Legal →
    let nb := 2 ^ s.act.fftLog2.toNat / 2 + 1
    Written .pow nb s.mem →
    (∀ m k, m < s.act.melBands.toNat → k < nb → (s.mem.word .melW (m * 1024 + k)).isSome) →
    ∃ t, exec .melApply s = .next t ∧ Completed s t 0x30 s.oldResult 0 ∧
      t = { s with chan0 := t.chan0, chan1 := t.chan1, irqStatus := t.irqStatus, mem := t.mem } ∧
      (∀ m, m < s.act.melBands.toNat → t.mem.word .melE m = some ((List.range nb).foldl
        (fun acc k => fadd acc (fmul (s.mem.val .melW (m * 1024 + k)) (s.mem.val .pow k))) f32Zero)) ∧
      SameOutside [(0x07000, s.act.melBands.toNat)] s.mem t.mem

/-- LOG_COMPRESS writes 10 times the logarithm of each energy or of the epsilon, whichever is larger, and sets FEAT_OVF
exactly when some energy is not finite (R253, R254). -/
def Obligations.LogCompressTakesLogarithms : Prop :=
  ∀ (s : State) (sn : Snapshot), AtEnd s (s.cfgValid = true) sn → s.act.Legal →
    Written .melE s.act.melBands.toNat s.mem →
    let energy (m : Nat) : Word := s.mem.val .melE m
    let overflow : Bool := (List.range s.act.melBands.toNat).any (fun m => !isFinite (energy m))
    ∃ t, exec .logCompress s = .next t ∧
      Completed s t 0x31 s.oldResult (if overflow then 0x1000#15 else 0) ∧
      t = { s with chan0 := t.chan0, chan1 := t.chan1, irqStatus := t.irqStatus, mem := t.mem } ∧
      (∀ m, m < s.act.melBands.toNat → t.mem.word .melLog m = some
        (fmul 0x41200000 (log10 (if fgt (energy m) s.act.logEps then energy m else s.act.logEps)))) ∧
      SameOutside [(0x07100, s.act.melBands.toNat)] s.mem t.mem

/-- For every LOG10 with the properties of R12 and every legal epsilon, the log compression of an energy is never NaN, is
at least its value at the epsilon, and is +infinity for an infinite energy (R12, R253). -/
def Obligations.LogOfAnEnergyIsNeverNaN : Prop :=
  ∀ (lg : Word → Word) (eps e : Word), lg f32Inf = f32Inf →
    (∀ x, fgt x f32Zero = true → isFinite x = true → isFinite (lg x) = true) →
    (∀ x y, fgt x f32Zero = true → fle x y = true → fle (lg x) (lg y) = true) →
    fgt eps f32Zero = true → isFinite eps = true →
    isNaN (logcOf lg eps e) = false ∧ fge (logcOf lg eps e) (logcOf lg eps eps) = true ∧
    (e = f32Inf → logcOf lg eps e = f32Inf)

/-- FEAT_EXTRACT with too few samples, and no padding possible, fails its cycle: it counts it, clears FEAT_VALID, returns
0 and changes nothing else (R256, R260). -/
def Obligations.FeatExtractFailSkipsTheCycle : Prop :=
  ∀ (s : State) (sn : Snapshot), AtEnd s (s.cfgValid = true ∧ s.run = true) sn →
    (sn.sclk - sn.rpos).toNat < s.act.rq →
    (s.act.featCtrl.getLsbD 0 = false ∨ (sn.sclk - sn.rpos).toNat < s.act.winLen.toNat) →
    ∃ t, exec .featExtract s = .next t ∧ Completed s t 0x38 0 0x0100#15 ∧
      t = { s with
        chan0 := t.chan0, chan1 := t.chan1, irqStatus := t.irqStatus, featValid := false
        counters := { s.counters with featFail := s.counters.featFail + 1 } }

/-- What a successful FEAT_EXTRACT writes: a FULL extraction when RQ samples are available, else a PAD extraction of the
windows that fit; the result, the timestamp, the counters, the cursor, the committed preprocessor state, the audio
levels, FEAT_MIN and the padding; and nothing else (R256-R261). FEAT_OVF is set exactly when some band energy of some
window is not finite (R253, R260). If a sample was evicted since BEGIN the data words are not fixed (R90). -/
def Obligations.FeatExtractFullAndPadOutcomes : Prop :=
  ∀ (s : State) (sn : Snapshot), AtEnd s (s.cfgValid = true ∧ s.run = true) sn → s.act.Legal →
    let c := s.act
    let a := (sn.sclk - sn.rpos).toNat
    let full : Bool := decide (c.rq ≤ a)
    let nwin := if full then c.nframes.toNat else (a - c.winLen.toNat) / c.hop.toNat + 1
    let span := c.winLen.toNat + (nwin - 1) * c.hop.toNat
    let n := 2 ^ c.fftLog2.toNat
    let m := c.melBands.toNat
    let x (i : Nat) : Int := (sn.value c i).toInt
    let v := ppOutputs c s.pp ((List.range span).map x)
    let overflow : Bool := (List.range nwin).any fun w =>
      match windowChain c (fun i => v.getD (w * c.hop.toNat + i) f32Zero) s.mem with
      | .ok u => (List.range m).any fun b => !isFinite (u.val .melE b)
      | .error _ => false
    full = true ∨ (c.featCtrl.getLsbD 0 = true ∧ c.winLen.toNat ≤ a) → sn.covers c span →
    Written .win c.winLen.toNat s.mem → Written .twRe (n / 2) s.mem → Written .twIm (n / 2) s.mem →
    (∀ b k, b < m → k < n / 2 + 1 → (s.mem.word .melW (b * 1024 + k)).isSome) →
    ∃ t events, exec .featExtract s = .next t ∧ (events = 0 ∨ events = 0x1000#15) ∧
      Completed s t 0x38 (if full then 1 else 2) events ∧
      t = { s with
        chan0 := t.chan0, chan1 := t.chan1, irqStatus := t.irqStatus, mem := t.mem, draws := t.draws, featValid := true
        counters := { s.counters with featOk := s.counters.featOk + 1 }
        cycleTs := BitVec.ofNat 64 (sn.rpos.toNat + span), featMin := t.featMin, levelRms := t.levelRms
        levelPeak := t.levelPeak, pp := t.pp
        rpos0 := if full then BitVec.ofNat 64 (max (sn.rpos.toNat + c.featStride.toNat) s.rpos0.toNat) else s.rpos0 } ∧
      SameOutside [(0x04000, n), (0x05000, n), (0x06000, n / 2 + 1), (0x07000, m), (0x07100, m),
        (0x08000, c.nframes.toNat * m)] s.mem t.mem ∧
      (full = false → t.pp = s.pp) ∧
      (s.sclk.toNat ≤ sn.rpos.toNat + c.rbCap.toNat →
        t.draws = s.draws ∧ events = (if overflow then 0x1000#15 else 0) ∧
        (full = true → t.pp = ppAfter c s.pp ((List.range c.featStride.toNat).map x)) ∧
        t.levelRms = fdiv (fsqrt (fdiv (f32OfInt (((List.range span).map fun i => x i * x i).sum)) (f32OfInt span)))
          0x47000000 ∧
        t.levelPeak = fdiv (f32OfInt ((List.range span).foldl (fun p i => max p (x i).natAbs) 0 : Nat)) 0x47000000 ∧
        t.featMin = minF32 ((List.range (nwin * m)).map fun j =>
          t.mem.val .feat ((c.nframes.toNat - nwin) * m + j)) ∧
        ∀ j, j < (c.nframes.toNat - nwin) * m → t.mem.word .feat j = some t.featMin)

/-- Stage 5 leaves the windowed outputs in WORK_RE, +0.0 from L to N - 1, and +0.0 in WORK_IM (R195). Each row of the
feature matrix is its own window's: running stage 5, the FFT, the power spectrum, the Mel bands and the log compression on
that window alone, from the memory before the command, gives it, whatever the other windows left in the work arrays; and
the work arrays hold the newest window's values afterwards (R255, R260). -/
def Obligations.FeatureRowsAreTheirOwnWindows : Prop :=
  (∀ (c : Cfg) (v : Nat → Word) (m : Memory), c.Legal → Written .win c.winLen.toNat m →
    let n := 2 ^ c.fftLog2.toNat
    ∃ u, windowStage c v m = .ok u ∧
      (∀ i, i < c.winLen.toNat → u.word .workRe i = some (fmul (v i) (m.val .win i))) ∧
      (∀ i, c.winLen.toNat ≤ i → i < n → u.word .workRe i = some f32Zero) ∧
      (∀ i, i < n → u.word .workIm i = some f32Zero) ∧ SameOutside [(0x04000, n), (0x05000, n)] m u) ∧
  ∀ (s : State) (sn : Snapshot) (t : State), AtEnd s (s.cfgValid = true ∧ s.run = true) sn → s.act.Legal →
    let c := s.act
    let a := (sn.sclk - sn.rpos).toNat
    let nwin := if c.rq ≤ a then c.nframes.toNat else (a - c.winLen.toNat) / c.hop.toNat + 1
    let span := c.winLen.toNat + (nwin - 1) * c.hop.toNat
    let v := ppOutputs c s.pp ((List.range span).map fun i => (sn.value c i).toInt)
    c.rq ≤ a ∨ (c.featCtrl.getLsbD 0 = true ∧ c.winLen.toNat ≤ a) →
    s.sclk.toNat ≤ sn.rpos.toNat + c.rbCap.toNat → exec .featExtract s = .next t →
    ∀ w, w < nwin → ∃ u, windowChain c (fun i => v.getD (w * c.hop.toNat + i) f32Zero) s.mem = .ok u ∧
      (∀ b, b < c.melBands.toNat →
        t.mem.word .feat ((c.nframes.toNat - nwin + w) * c.melBands.toNat + b) = u.word .melLog b) ∧
      (w + 1 = nwin →
        (∀ i, i < 2 ^ c.fftLog2.toNat → t.mem.word .workRe i = u.word .workRe i ∧ t.mem.word .workIm i = u.word .workIm i) ∧
        (∀ k, k < 2 ^ c.fftLog2.toNat / 2 + 1 → t.mem.word .pow k = u.word .pow k) ∧
        ∀ b, b < c.melBands.toNat → t.mem.word .melE b = u.word .melE b ∧ t.mem.word .melLog b = u.word .melLog b)

/-- The padding value is the smallest of the values scanned, the first occurrence where several are equal (R257). -/
def Obligations.PaddingValueIsTheFirstMinimum : Prop :=
  ∀ xs : List Word, xs ≠ [] → (∀ x ∈ xs, isNaN x = false) →
    ∃ i, xs[i]? = some (minF32 xs) ∧ (∀ y ∈ xs, flt y (minF32 xs) = false) ∧
      ∀ (j : Nat) (y : Word), j < i → xs[j]? = some y → flt (minF32 xs) y = true

/-! ### The decision engine (spec/45_decision.md) -/

/-- A no-detection cycle, whether the host says so or some probability lies outside [0, 1], counts itself, returns 0 and
changes nothing else; a bad probability also sets PROB_BAD (R283, R291). -/
def Obligations.NoDetectionCycleFreezesTheEngine : Prop :=
  ∀ (s : State) (sn : Snapshot), AtEnd s (s.cfgValid = true ∧ s.run = true) sn →
    let frozen (t : State) : Prop := t = { s with
      chan0 := t.chan0, chan1 := t.chan1, irqStatus := t.irqStatus
      counters := { s.counters with nodet := s.counters.nodet + 1 } }
    (∃ t, exec (.decStep false) s = .next t ∧ Completed s t 0x40 0 0 ∧ frozen t) ∧
    ∀ k, k < s.act.nclasses.toNat →
      (fge (at8 s.prob k) f32Zero && fle (at8 s.prob k) f32One) = false →
      ∃ t, exec (.decStep true) s = .next t ∧ Completed s t 0x40 0 0x0200#15 ∧ frozen t

/-- A valid cycle completes; it updates EMA, the history slot DEC_HPOS and SMOOTH of the classes below NC and no other
entry, and SMOOTH becomes the middle of the last K values in ascending order. From EMA, SMOOTH and HIST in [0, 1], never
NaN or -0.0, they stay so, and the order is then always defined (R282, R284, R291). -/
def Obligations.DecStepSmoothsItsClasses : Prop :=
  ∀ (s : State) (sn : Snapshot), AtEnd s (s.cfgValid = true ∧ s.run = true) sn → s.act.Legal →
    let c := s.act
    (∀ k, k < c.nclasses.toNat → fge (at8 s.prob k) f32Zero = true ∧ fle (at8 s.prob k) f32One = true) →
    ∃ t, exec (.decStep true) s = .next t ∧
      t.dec.hpos.toNat = (s.dec.hpos.toNat + 1) % c.medianK.toNat ∧ (s.Smoothed → t.Smoothed) ∧
      ∀ k, k < 8 →
        at8 t.ema k = (if k < c.nclasses.toNat then
          fadd (fmul c.emaAlpha (at8 s.prob k)) (fmul (fsub f32One c.emaAlpha) (at8 s.ema k)) else at8 s.ema k) ∧
        (∀ j, j < 8 → at64 t.hist k j =
          if k < c.nclasses.toNat ∧ j = s.dec.hpos.toNat then at8 t.ema k else at64 s.hist k j) ∧
        (c.nclasses.toNat ≤ k → at8 t.smooth k = at8 s.smooth k) ∧
        (k < c.nclasses.toNat → (s.Smoothed ∨ ∀ j, j < c.medianK.toNat → isNaN (at64 t.hist k j) = false) →
          ∃ sorted : List Word, sorted.Perm ((List.range c.medianK.toNat).map (at64 t.hist k)) ∧
            sorted.Pairwise (fun x y => fle x y = true) ∧
            sorted[(c.medianK.toNat - 1) / 2]? = some (at8 t.smooth k))

/-- After a valid cycle DEC_ARGMAX is the smallest class whose SMOOTH is maximal, and DEC_CONF is its SMOOTH: whenever EMA,
SMOOTH and HIST lay in [0, 1] before it, as R284 says they do, and whenever the new SMOOTH holds no NaN (R284, R285). -/
def Obligations.ArgmaxIsTheSmallestMaximalClass : Prop :=
  ∀ (s : State) (sn : Snapshot), AtEnd s (s.cfgValid = true ∧ s.run = true) sn → s.act.Legal →
    (∀ k, k < s.act.nclasses.toNat → fge (at8 s.prob k) f32Zero = true ∧ fle (at8 s.prob k) f32One = true) →
    ∃ t, exec (.decStep true) s = .next t ∧
      (s.Smoothed ∨ (∀ k, k < s.act.nclasses.toNat → isNaN (at8 t.smooth k) = false) →
        t.dec.argmax.toNat < s.act.nclasses.toNat ∧ t.dec.conf = at8 t.smooth t.dec.argmax.toNat ∧
        (∀ k, k < s.act.nclasses.toNat → fgt (at8 t.smooth k) t.dec.conf = false) ∧
        ∀ k, k < t.dec.argmax.toNat → fgt t.dec.conf (at8 t.smooth k) = true)

/-- The state machine on a valid cycle that does not end an event: an above cycle enters from IDLE, or extends the event;
any other cycle in IDLE, and one in EVENT_ACTIVE that neither is above nor exits, changes only the smoothing state
(R286, R287, R288, R291). -/
def Obligations.DecisionMachineEntersAndStays : Prop :=
  ∀ (s t : State) (sn : Snapshot), AtEnd s (s.cfgValid = true ∧ s.run = true) sn → s.act.Legal →
    (∀ k, k < s.act.nclasses.toNat → fge (at8 s.prob k) f32Zero = true ∧ fle (at8 s.prob k) f32One = true) →
    exec (.decStep true) s = .next t →
    let tgt := at8 t.smooth s.act.target.toNat
    let above : Prop := t.dec.argmax = s.act.target ∧ fge tgt s.act.threshold = true
    let exits : Prop := t.dec.argmax ≠ s.act.target ∨ s.act.quiet.toNat ≤ (s.cycleTs - s.dec.last).toNat
    let frame : Prop := t = { s with
      chan0 := t.chan0, chan1 := t.chan1, irqStatus := t.irqStatus, ema := t.ema, smooth := t.smooth, hist := t.hist
      dec := t.dec }
    let smoothed : Decision := { s.dec with argmax := t.dec.argmax, conf := t.dec.conf, hpos := t.dec.hpos }
    (s.dec.state = .idle → above → Completed s t 0x40 0x3 0 ∧ frame ∧
      t.dec = { smoothed with
        state := .eventActive, start := s.cycleTs, last := s.cycleTs, peakconf := tgt, rmsmax := s.levelRms
        peakmax := s.levelPeak }) ∧
    (s.dec.state = .idle → ¬above → Completed s t 0x40 0x1 0 ∧ frame ∧ t.dec = smoothed) ∧
    (s.dec.state = .eventActive → above → Completed s t 0x40 0x1 0 ∧ frame ∧
      t.dec = { smoothed with
        last := s.cycleTs
        peakconf := if fgt tgt s.dec.peakconf then tgt else s.dec.peakconf
        rmsmax := if fgt s.levelRms s.dec.rmsmax then s.levelRms else s.dec.rmsmax
        peakmax := if fgt s.levelPeak s.dec.peakmax then s.levelPeak else s.dec.peakmax }) ∧
    (s.dec.state = .eventActive → ¬above → ¬exits → Completed s t 0x40 0x1 0 ∧ frame ∧ t.dec = smoothed)

/-- The exit of an event: the state is IDLE again and the current-event registers keep their values; an event shorter
than MIN_DUR leaves no trace; a longer one takes the next sequence number and is queued, or is dropped and counted when
EVQ is full (R288-R291, R294). -/
def Obligations.EventExitEmitsOrDrops : Prop :=
  ∀ (s t : State) (sn : Snapshot), AtEnd s (s.cfgValid = true ∧ s.run = true) sn → s.act.Legal →
    (∀ k, k < s.act.nclasses.toNat → fge (at8 s.prob k) f32Zero = true ∧ fle (at8 s.prob k) f32One = true) →
    exec (.decStep true) s = .next t → s.dec.state = .eventActive →
    (t.dec.argmax ≠ s.act.target ∨
      fge (at8 t.smooth s.act.target.toNat) s.act.threshold = false ∧
        s.act.quiet.toNat ≤ (s.cycleTs - s.dec.last).toNat) →
    let dur := min (s.dec.last - s.dec.start).toNat 0xFFFFFFFF
    let record : EventRec :=
      { cls := s.act.target, seq := s.evtSeqNext, start := s.dec.start, dur := BitVec.ofNat 32 dur
        peakconf := s.dec.peakconf, rms := s.dec.rmsmax, peak := s.dec.peakmax }
    let frame : State := { s with
      chan0 := t.chan0, chan1 := t.chan1, irqStatus := t.irqStatus, ema := t.ema, smooth := t.smooth, hist := t.hist
      dec := { s.dec with state := .idle, argmax := t.dec.argmax, conf := t.dec.conf, hpos := t.dec.hpos } }
    (dur < s.act.minDur.toNat → Completed s t 0x40 0x5 0 ∧ t = frame) ∧
    (s.act.minDur.toNat ≤ dur → s.evq.length < 4 → Completed s t 0x40 0xD 0x0010#15 ∧
      t = { frame with evtSeqNext := s.evtSeqNext + 1, evq := s.evq ++ [record] }) ∧
    (s.act.minDur.toNat ≤ dur → 4 ≤ s.evq.length → Completed s t 0x40 0x15 0x0800#15 ∧
      t = { frame with
        evtSeqNext := s.evtSeqNext + 1, counters := { s.counters with evtDrop := s.counters.evtDrop + 1 } })

/-- DEC_RESET clears the decision state and nothing else; EVT_POP returns the head's sequence number and removes the head
(R292, R293). -/
def Obligations.DecResetAndEvtPopComplete : Prop :=
  ∀ (s : State) (sn : Snapshot),
    (AtEnd s True sn → ∃ t, exec .decReset s = .next t ∧ Completed s t 0x41 s.oldResult 0 ∧
      t = { s with
        chan0 := t.chan0, chan1 := t.chan1, irqStatus := t.irqStatus, ema := zeros8, smooth := zeros8, hist := zeros64
        dec := { state := .idle, argmax := 0, conf := 0, start := 0, last := 0, peakconf := 0, rmsmax := 0, peakmax := 0,
                 hpos := 0 } }) ∧
    ∀ head rest, s.evq = head :: rest → AtEnd s True sn →
      ∃ t, exec .evtPop s = .next t ∧ Completed s t 0x42 head.seq 0 ∧
        t = { s with chan0 := t.chan0, chan1 := t.chan1, irqStatus := t.irqStatus, evq := rest }

/-! ### The codec (spec/46_codec.md) -/

/-- The A-law byte of every sample: the sign, the smallest segment whose end is at least the magnitude (there is one for
every sample, so the clip is never taken), the step within it, and the toggle mask (R320). -/
def Obligations.AlawIsTheSegmentCode : Prop :=
  ∀ x : Sample,
    let p := (x.sshiftRight 3).toInt
    let mag := (if 0 ≤ p then p else -p - 1).toNat
    let ends : List Nat := [0x1F, 0x3F, 0x7F, 0xFF, 0x1FF, 0x3FF, 0x7FF, 0xFFF]
    ∃ seg, seg < 8 ∧ mag ≤ ends.getD seg 0 ∧ (∀ j, j < seg → ends.getD j 0 < mag) ∧
      alaw x.toInt = BitVec.ofNat 8
        (((if 0 ≤ p then 0x80 else 0x00) ||| (seg <<< 4) ||| ((if seg < 2 then mag >>> 1 else mag >>> seg) &&& 0x0F))
          ^^^ 0x55)

/-- The document's golden bytes and the further values of R320; a sample and its one's complement differ in the sign bit
of their codes only. -/
def Obligations.AlawGoldenBytes : Prop :=
  alaw 0 = 0xD5 ∧ alaw 32767 = 0xAA ∧ alaw (-1) = 0x55 ∧ alaw 16 = 0xD4 ∧ alaw (-17) = 0x54 ∧ alaw 1000 = 0xFA ∧
  alaw (-1000) = 0x7A ∧ alaw 4096 = 0x85 ∧ alaw (-32768) = 0x2A ∧
  ∀ x : Int, 0 ≤ x → x < 32768 → alaw (-x - 1) = alaw x ^^^ 0x80

/-- ALAW_ENC returns the code of its operand and touches nothing else; PKT_POP releases the packet and returns its
sequence number (R321, R326). -/
def Obligations.AlawEncAndPktPopComplete : Prop :=
  ∀ (s : State) (sn : Snapshot), AtEnd s True sn →
    (∀ x : Int, ∃ t, exec (.alawEnc x) s = .next t ∧ Completed s t 0x50 ((alaw x).setWidth 32) 0 ∧
      t = { s with chan0 := t.chan0, chan1 := t.chan1, irqStatus := t.irqStatus }) ∧
    ∀ header, s.pkt = some header →
      ∃ t, exec .pktPop s = .next t ∧ Completed s t 0x52 header.seq 0 ∧
        t = { s with chan0 := t.chan0, chan1 := t.chan1, irqStatus := t.irqStatus, pkt := none }

/-- A codec cycle is skipped, with its counter and its event bit and result 0, while a packet is held, else while fewer
than F samples are available; it consumes nothing (R324, R325). -/
def Obligations.CodecFrameSkipsACycle : Prop :=
  ∀ (s : State) (sn : Snapshot), AtEnd s (s.cfgValid = true ∧ s.run = true) sn →
    (∀ header, s.pkt = some header → ∃ t, exec .codecFrame s = .next t ∧ Completed s t 0x51 0 0x2000#15 ∧
      t = { s with
        chan0 := t.chan0, chan1 := t.chan1, irqStatus := t.irqStatus
        counters := { s.counters with pktSkip := s.counters.pktSkip + 1 } }) ∧
    (s.pkt = none → (sn.sclk - sn.rpos).toNat < s.act.codecLen.toNat →
      ∃ t, exec .codecFrame s = .next t ∧ Completed s t 0x51 0 0x0080#15 ∧
        t = { s with
          chan0 := t.chan0, chan1 := t.chan1, irqStatus := t.irqStatus
          counters := { s.counters with underrun := s.counters.underrun + 1 } })

/-- A codec cycle with a free packet buffer and F samples emits one packet: its header, its payload bytes with the unused
high bytes 0, the next numbers, the cursor and the counter (R322, R323, R325). If a sample was evicted since BEGIN the
payload is not fixed (R90). -/
def Obligations.CodecFrameEmitsOnePacket : Prop :=
  ∀ (s : State) (sn : Snapshot), AtEnd s (s.cfgValid = true ∧ s.run = true) sn → s.act.Legal → s.pkt = none →
    let f := s.act.codecLen.toNat
    f ≤ (sn.sclk - sn.rpos).toNat → sn.covers s.act f →
    ∃ t, exec .codecFrame s = .next t ∧ Completed s t 0x51 s.act.codecLen 0x0020#15 ∧
      t = { s with
        chan0 := t.chan0, chan1 := t.chan1, irqStatus := t.irqStatus, mem := t.mem, draws := t.draws
        pkt := some { seq := s.pktSeqNext, ts := s.pktTsNext, len := s.act.codecLen }
        pktSeqNext := s.pktSeqNext + 1, pktTsNext := s.pktTsNext + s.act.codecLen
        counters := { s.counters with pkt := s.counters.pkt + 1 }
        rpos1 := BitVec.ofNat 64 (max (sn.rpos.toNat + f) s.rpos1.toNat) } ∧
      SameOutside [(0x11000, (f + 3) / 4)] s.mem t.mem ∧
      (s.sclk.toNat ≤ sn.rpos.toNat + s.act.rbCap.toNat →
        t.draws = s.draws ∧
        (∀ i, i < f → t.mem.readByte (0x11000 + i) = some (alaw (sn.value s.act i).toInt)) ∧
        ∀ i, f ≤ i → i < 4 * ((f + 3) / 4) → t.mem.readByte (0x11000 + i) = some 0)

/-! ### The host's accesses (spec/10_state.md, spec/20_memory.md, spec/70_reset_and_hazards.md) -/

/-- A read changes no state of the block: only the word on the host's bus, and the model's record of which completions
the host has observed (R85). -/
def Obligations.ReadsChangeNothing : Prop :=
  ∀ (s t : State) (rest : List Input) (width off : Nat), s.inputs = .hostRead width off :: rest → step s = .next t →
    t = { s with
      inputs := rest, busData := t.busData, chan0 := { s.chan0 with unobserved := t.chan0.unobserved }
      chan1 := { s.chan1 with unobserved := t.chan1.unobserved } }

/-- What a read of each register returns: the value the register holds; the halves of a 64-bit quantity at two offsets;
0 at a write-only register; a word of an array (R21-R38, R81, R82, R86). -/
def Obligations.ReadsShowTheRegisters : Prop :=
  ∀ (s : State) (rest : List Input) (off : Nat) (v : Word), s.inputs = .hostRead 4 off :: rest → s.stale off = false →
    let fields (c : Cfg) : List Word :=
      [c.fs, c.rbCap, c.winLen, c.hop, c.nframes, c.fftLog2, c.melBands, c.featStride, c.featCtrl, c.dcR, c.preemph,
       c.agcAttack, c.agcRelease, c.agcGsmooth, c.agcTarget, c.agcMaxgain, c.gateThr, c.logEps, c.nclasses, c.target,
       c.threshold, c.emaAlpha, c.medianK, c.minDur, c.quiet, c.codecLen]
    (off, v) ∈ ([(0x000, 0x41454450), (0x004, 0x00010000), (0x008, 0x0080487A), (0x00C, 0x04000040), (0x010, 0x00008000),
        (0x014, 0x04000400), (0x020, s.statusWord), (0x02C, s.irqStatus.setWidth 32), (0x030, s.irqEnable.setWidth 32), (0x040, 0), (0x044, 0),
        (0x024, (s.chan0.errOpc ++ s.chan0.errCode).setWidth 32), (0x028, (s.chan1.errOpc ++ s.chan1.errCode).setWidth 32),
        (0x048, s.chan0.result), (0x04C, s.chan1.result), (0x050, 0), (0x054, s.sclk.extractLsb' 0 32),
        (0x058, s.sclk.extractLsb' 32 32), (0x05C, (s.sclk - s.rpos0).setWidth 32), (0x060, (s.sclk - s.rpos1).setWidth 32),
        (0x064, s.rpos0.extractLsb' 0 32), (0x068, s.rpos0.extractLsb' 32 32), (0x06C, s.rpos1.extractLsb' 0 32),
        (0x070, s.rpos1.extractLsb' 32 32)] ++
      [(0x080, s.counters.ovr0), (0x084, s.counters.ovr1), (0x088, s.counters.featFail), (0x08C, s.counters.nodet),
        (0x090, s.counters.underrun), (0x094, s.counters.pktSkip), (0x098, s.counters.evtDrop),
        (0x09C, s.counters.discard), (0x0A0, s.counters.featOk), (0x0A4, s.counters.pkt),
        (0x300, s.cycleTs.extractLsb' 0 32), (0x304, s.cycleTs.extractLsb' 32 32), (0x308, s.levelRms),
        (0x30C, s.levelPeak), (0x310, s.dec.argmax), (0x314, s.dec.conf), (0x318, s.dec.start.extractLsb' 0 32),
        (0x31C, s.dec.start.extractLsb' 32 32), (0x320, s.dec.last.extractLsb' 0 32),
        (0x324, s.dec.last.extractLsb' 32 32), (0x328, s.dec.peakconf), (0x32C, s.dec.rmsmax), (0x330, s.dec.peakmax),
        (0x334, s.evtSeqNext), (0x338, s.dec.hpos), (0x33C, s.featMin), (0x3CC, s.pktSeqNext), (0x3D0, s.pktTsNext),
        (0x3E0, s.pp.x1), (0x3E4, s.pp.y1), (0x3E8, s.pp.p1), (0x3EC, s.pp.env), (0x3F0, s.pp.gain)] ++
      (fields s.shadow).mapIdx (fun k x => (0x100 + 4 * k, x)) ++ (fields s.act).mapIdx (fun k x => (0x200 + 4 * k, x)) ++
      (List.range 8).flatMap (fun k => [(0x340 + 4 * k, at8 s.prob k), (0x360 + 4 * k, at8 s.ema k),
        (0x380 + 4 * k, at8 s.smooth k)] ++
        (List.range 8).map (fun j => (0x400 + 4 * (8 * k + j), at64 s.hist k j))) ++
      (match s.evq with
        | [] => (List.range 8).map (fun k => (0x3A0 + 4 * k, 0))
        | e :: _ => [(0x3A0, e.cls), (0x3A4, e.seq), (0x3A8, e.start.extractLsb' 0 32),
          (0x3AC, e.start.extractLsb' 32 32), (0x3B0, e.dur), (0x3B4, e.peakconf), (0x3B8, e.rms), (0x3BC, e.peak)]) ++
      (match s.pkt with
        | none => [(0x3C0, 0), (0x3C4, 0), (0x3C8, 0)]
        | some h => [(0x3C0, h.seq), (0x3C4, h.ts), (0x3C8, h.len)]) : List (Nat × Word)) →
    ∃ t, step s = .next t ∧ t.busData = v

/-- A host access is a bus error exactly when it is not a 32-bit access, is misaligned, or names an offset that the map
does not list (R23, R82, R83, R84). -/
def Obligations.BusErrorsAreExactlyOffTheMap : Prop :=
  ∀ (s : State) (rest : List Input) (width off : Nat) (v : Word),
    let listed := off ≤ 0x014 ∨ (0x020 ≤ off ∧ off ≤ 0x030) ∨ (0x040 ≤ off ∧ off ≤ 0x070) ∨
      (0x080 ≤ off ∧ off ≤ 0x0A4) ∨ (0x100 ≤ off ∧ off ≤ 0x164) ∨ (0x200 ≤ off ∧ off ≤ 0x264) ∨
      (0x300 ≤ off ∧ off ≤ 0x3D0) ∨ (0x3E0 ≤ off ∧ off ≤ 0x3F0) ∨ (0x400 ≤ off ∧ off ≤ 0x4FC) ∨
      (0x01000 ≤ off ∧ off ≤ 0x01FFC) ∨ (0x02000 ≤ off ∧ off ≤ 0x02FFC) ∨ (0x03000 ≤ off ∧ off ≤ 0x03FFC) ∨
      (0x04000 ≤ off ∧ off ≤ 0x05FFC) ∨ (0x06000 ≤ off ∧ off ≤ 0x06800) ∨ (0x07000 ≤ off ∧ off ≤ 0x071FC) ∨
      (0x08000 ≤ off ∧ off ≤ 0x10FFC) ∨ (0x11000 ≤ off ∧ off ≤ 0x113FC) ∨ (0x40000 ≤ off ∧ off ≤ 0x9FFFC)
    (s.inputs = .hostRead width off :: rest ∨ s.inputs = .hostWrite width off v :: rest) →
    (step s = .fault (.busError off) ↔ ¬(width = 4 ∧ off % 4 = 0 ∧ listed))

/-- The effect of a write that is no hazard, by access type: a read-only word ignores it; a read-write register or array
word takes the value; IRQ_STATUS clears the bits written as 1; IRQ_ENABLE drops its reserved bits. Nothing else changes
(R28, R30, R33, R35, R86). -/
def Obligations.WritesTakeEffectByAccessType : Prop :=
  ∀ (s : State) (rest : List Input) (off : Nat) (v : Word), s.inputs = .hostWrite 4 off v :: rest → off % 4 = 0 →
    s.hazard off = false →
    let u : State := { s with inputs := rest }
    (off ≤ 0x014 ∨ (0x020 ≤ off ∧ off ≤ 0x028) ∨ (0x048 ≤ off ∧ off ≤ 0x04C) ∨ (0x054 ≤ off ∧ off ≤ 0x070) ∨
      (0x080 ≤ off ∧ off ≤ 0x0A4) ∨ (0x200 ≤ off ∧ off ≤ 0x264) ∨ (0x310 ≤ off ∧ off ≤ 0x33C) ∨
      (0x360 ≤ off ∧ off ≤ 0x3D0) ∨ (0x3E0 ≤ off ∧ off ≤ 0x3F0) ∨ (0x400 ≤ off ∧ off ≤ 0x4FC) ∨
      (0x03000 ≤ off ∧ off ≤ 0x03FFC) ∨ (0x10000 ≤ off ∧ off ≤ 0x10FFC) ∨ (0x11000 ≤ off ∧ off ≤ 0x113FC) ∨
      (0x80000 ≤ off ∧ off ≤ 0x9FFFC) → step s = .next u) ∧
    (off = 0x02C → step s = .next { u with irqStatus := s.irqStatus &&& ~~~(v.extractLsb' 0 15) }) ∧
    (off = 0x030 → step s = .next { u with irqEnable := v.extractLsb' 0 15 }) ∧
    (∀ i, i < 26 → off = 0x100 + 4 * i →
      ∃ t, step s = .next t ∧ t = { u with shadow := t.shadow } ∧ ∀ j, j < 26 →
        t.shadow.get j = if j = i then v else s.shadow.get j) ∧
    (off = 0x300 → step s = .next { u with cycleTs := s.cycleTs.extractLsb' 32 32 ++ v }) ∧
    (off = 0x304 → step s = .next { u with cycleTs := v ++ s.cycleTs.extractLsb' 0 32 }) ∧
    (off = 0x308 → step s = .next { u with levelRms := v }) ∧
    (off = 0x30C → step s = .next { u with levelPeak := v }) ∧
    (∀ k, k < 8 → off = 0x340 + 4 * k →
      ∃ t, step s = .next t ∧ t = { u with prob := t.prob } ∧ ∀ j, j < 8 → at8 t.prob j = if j = k then v else at8 s.prob j) ∧
    (∀ a i, a ∈ [Arr.win, .twRe, .twIm, .workRe, .workIm, .pow, .melE, .melLog, .feat, .melW] → i < a.len → off = a.off i →
      ∃ t, step s = .next t ∧ t = { u with mem := t.mem } ∧ t.mem.word a i = some v ∧
        SameOutside [(off, 1)] s.mem t.mem)

/-- A write to CMDn latches the word on an idle channel; on a busy one it is discarded with CMD_LOST and the pending
command is unaffected (R26, R391). -/
def Obligations.CommandWritesLatchOrAreLost : Prop :=
  ∀ (s : State) (rest : List Input) (n : Chan) (w : Word),
    s.inputs = .hostWrite 4 (match n with | .ch0 => 0x040 | .ch1 => 0x044) w :: rest →
    (s.busy n = false → ∃ t, step s = .next t ∧
      t = { s with inputs := rest, chan0 := t.chan0, chan1 := t.chan1 } ∧ t.busy n = true ∧
      t.chan n = { s.chan n with pending := .latched w, unobserved := (t.chan n).unobserved } ∧
      t.chan (otherChan n) = s.chan (otherChan n)) ∧
    (s.busy n = true → step s = .next { s with inputs := rest, irqStatus := s.irqStatus ||| 0x0400#15 })

/-- A host write is the fault HAZARD_RW exactly when it names a word in the footprint of a pending command (R387). That a
command has its table row whatever it will find, and an undecodable word none, is the model's choice (log entry 12,
DEDUCED). -/
def Obligations.HazardsAreExactlyTheFootprints : Prop :=
  ∀ (s : State) (rest : List Input) (off : Nat) (v : Word), s.inputs = .hostWrite 4 off v :: rest →
    (locOf off).isSome = true →
    (step s = .fault (.hazardRw off) ↔
      ∃ n w i, (s.chan n).pending.word? = some w ∧ decodeOn n w = .ok i ∧ InFootprint s.act i off)

/-- A host read is the fault STALE_CMD exactly when some command, as it was issued (its operands, the configuration and the
history slot), writes the word and the host has not observed its completion: a write to CMDn on an idle channel issues a command, a read of STATUS
with BUSYn = 0 observes those of channel n, and no command's own steps do (R357, R386). The tracking, and the table of the
words a command writes, are the model's choice (log entry 10, DESIGN CHOICE). -/
def Obligations.ResultReadsAreStaleUntilObserved : Prop :=
  ∀ (s : State) (rest : List Input),
    (∀ off, s.inputs = .hostRead 4 off :: rest → (locOf off).isSome = true →
      (step s = .fault (.staleCmd off) ↔ ∃ n e, e ∈ (s.chan n).unobserved ∧ e.Writes n off)) ∧
    (∀ n w, s.inputs = .hostWrite 4 (match n with | .ch0 => 0x040 | .ch1 => 0x044) w :: rest → s.busy n = false →
      ∃ t, step s = .next t ∧
        (t.chan n).unobserved = { word := w, cfg := s.act, hpos := s.dec.hpos } :: (s.chan n).unobserved) ∧
    (s.inputs = .hostRead 4 0x020 :: rest →
      ∃ t, step s = .next t ∧ ∀ n, (t.chan n).unobserved = if s.busy n then (s.chan n).unobserved else []) ∧
    ∀ i t, exec i s = .next t → ∀ n, (t.chan n).unobserved = (s.chan n).unobserved

/-- A host read of an array word never written since reset is the fault UNINIT_READ; once written, the word reads back
(R50, R86). -/
def Obligations.UnwrittenWordsFaultUntilWritten : Prop :=
  ∀ (s : State) (rest : List Input) (a : Arr) (i : Nat), i < a.len → s.inputs = .hostRead 4 (a.off i) :: rest →
    s.stale (a.off i) = false →
    (s.mem.word a i = none → step s = .fault (.uninitRead (a.off i))) ∧
    ∀ v, s.mem.word a i = some v → ∃ t, step s = .next t ∧ t.busData = v

/-- STATUS shows each flag at its bit, the event count at [10:8], and 0 elsewhere (R24); each of the 15 sources has its bit
of IRQ_STATUS (R28), and the interrupt line is active exactly while some bit is set there and in IRQ_ENABLE (R355). -/
def Obligations.StatusAndInterruptLineShowTheirSources : Prop :=
  ∀ s : State,
    (s.evq.length ≤ 4 →
      let w := s.statusWord
      w.getLsbD 0 = s.cfgValid ∧ w.getLsbD 1 = s.run ∧ w.getLsbD 2 = s.busy .ch0 ∧ w.getLsbD 3 = s.busy .ch1 ∧
      w.getLsbD 4 = s.featValid ∧ w.getLsbD 5 = decide (s.dec.state = .eventActive) ∧ w.getLsbD 6 = s.pkt.isSome ∧
      w.getLsbD 7 = false ∧ (w.extractLsb' 8 3).toNat = s.evq.length ∧ w.extractLsb' 11 21 = 0) ∧
    ([Irq.done0, .done1, .err0, .err1, .event, .pktReady, .overrun, .underrun, .featFail, .probBad, .cmdLost, .evtDrop,
        .featOvf, .pktSkip, .discard].map s.irqPending = (List.range 15).map s.irqStatus.getLsbD) ∧
    (s.irqLine = true ↔ ∃ b, b < 15 ∧ s.irqStatus.getLsbD b = true ∧ s.irqEnable.getLsbD b = true)

/-- After reset every register reads its reset value, and no array word has been written; the reset input brings the
block there from any state, abandoning pending commands (R380, R381). What the other agents do next and the count of free
draws are not the block's: they are kept (log entry 15, the model's choice). -/
def Obligations.ResetStateReadsAsListed : Prop :=
  (∀ (off : Nat) (v : Word),
    (off, v) ∈ ([(0x020, 0), (0x024, 0), (0x028, 0), (0x02C, 0), (0x030, 0), (0x048, 0), (0x04C, 0), (0x054, 0), (0x058, 0),
      (0x05C, 0), (0x060, 0), (0x064, 0), (0x068, 0), (0x06C, 0), (0x070, 0), (0x3E0, 0), (0x3E4, 0), (0x3E8, 0),
      (0x3EC, 0), (0x3F0, 0x3F800000)] ++
      (List.range 10).map (fun k => (0x080 + 4 * k, 0)) ++ (List.range 53).map (fun k => (0x300 + 4 * k, 0)) ++
      (List.range 64).map (fun k => (0x400 + 4 * k, 0)) ++
      ([0x00003E80, 0x00003E80, 0x00000190, 0x000000A0, 0x00000031, 0x00000009, 0x00000028, 0x000000A0, 0x0000000C,
        0x3F7EB852, 0x3F7851EC, 0x3C23D70A, 0x38D1B717, 0x3A83126F, 0x454CCCCD, 0x41200000, 0x42800000, 0x2EDBE6FF,
        0x00000004, 0x00000000, 0x3F4CCCCD, 0x3F333333, 0x00000003, 0x000012C0, 0x000012C0, 0x000000A0].mapIdx
          (fun k v => [(0x100 + 4 * k, v), (0x200 + 4 * k, v)])).flatten : List (Nat × Word)) →
    ∃ t, State.reset.hostRead 4 off = .next t ∧ t.busData = v) ∧
  (∀ off, State.reset.mem.readByte off = none) ∧ State.reset.irqLine = false ∧
  ∀ (s : State) (rest : List Input), s.inputs = .resetInput :: rest →
    step s = .next { State.reset with inputs := rest, draws := s.draws }

/-! ### Invariants -/

/-- The state after reset is sound, its ring buffer included (R25, R380). -/
def Obligations.ResetIsSound : Prop := State.reset.Sound ∧ State.reset.RingSound

/-- Every step of every agent keeps the block sound: the canonical form of memory, the bound of EVQ, RUN implying
CFG_VALID, a legal active configuration, DEC_HPOS below K, and EMA, SMOOTH and HIST in [0, 1], never NaN or -0.0 (R34, R36,
R142, R170, R284). -/
def Obligations.EveryStepKeepsTheBlockSound : Prop :=
  ∀ s t : State, s.Sound → step s = .next t → t.Sound

/-- Every step of every agent keeps the ring buffer sound: `SCLK - C ≤ RPOS[r] ≤ SCLK` whenever CFG_VALID = 1, and the
slots of the available samples written; until the 64-bit sample clock would wrap (R25, R172). -/
def Obligations.EveryStepKeepsTheRingBufferSound : Prop :=
  ∀ s t : State, s.Sound → s.RingSound → s.sclk.toNat + 1 < 2 ^ 64 → step s = .next t → t.RingSound

/-- In a sound, configured block the commands that only read samples never stop on a model fault (R172, R394). -/
def Obligations.ReaderCommandsRunInSoundStates : Prop :=
  ∀ (s : State) (i : Instr), s.Sound → s.RingSound → s.cfgValid = true → i.opcode.legalOn s.active = true →
    (i = .codecFrame ∨ ∃ k, i = .rbRead k ∨ i = .rbPeek k) → Runs (exec i s)
end

