-- ==== Sys2Proof/Laws/Params.lean ====
section
/-!
SUPPORT. The parameters of AEDP-1, one lemma each, the lengths its arrays have, and that the block with those parameters
is the machine of `step` (spec/00_scope.md R6).
-/

namespace Sys2Proof.Machine

@[simp] theorem aedp1_maxFftLog2 : aedp1.maxFftLog2 = 10 := rfl
@[simp] theorem aedp1_nMax : aedp1.nMax = 1024 := rfl
@[simp] theorem aedp1_nbMax : aedp1.nbMax = 513 := rfl
@[simp] theorem aedp1_maxMel : aedp1.maxMel = 64 := rfl
@[simp] theorem aedp1_maxT : aedp1.maxT = 128 := rfl
@[simp] theorem aedp1_maxFeat : aedp1.maxFeat = 8192 := rfl
@[simp] theorem aedp1_maxRb : aedp1.maxRb = 32768 := rfl
@[simp] theorem aedp1_maxClasses : aedp1.maxClasses = 8 := rfl
@[simp] theorem aedp1_maxK : aedp1.maxK = 7 := rfl
@[simp] theorem aedp1_evqDepth : aedp1.evqDepth = 4 := rfl
@[simp] theorem aedp1_maxCodecLen : aedp1.maxCodecLen = 1024 := rfl
@[simp] theorem aedp1_scratchLen : aedp1.scratchLen = 1024 := rfl
@[simp] theorem aedp1_melStride : aedp1.melStride = 1024 := rfl
@[simp] theorem aedp1_log10 : aedp1.log10 = log10 := rfl

/-- The lengths that the map of R23 lists. -/
theorem Arr.len_aedp1 (a : Arr) :
    a.len = match a with
      | .win | .workRe | .workIm | .scratch0 | .scratch1 => 1024
      | .twRe | .twIm => 512
      | .pow => 513
      | .melE | .melLog => 64
      | .feat => 8192
      | .pktPay => 256
      | .melW => 65536
      | .rbram => 32768 := by cases a <;> rfl

/-! ### The machine with AEDP-1's parameters is the machine -/

@[simp] theorem execWith_aedp1 : execWith aedp1 = exec := by funext i s; cases i <;> rfl

@[simp] theorem stepAt_aedp1 : stepAt aedp1 = step := by funext s; simp only [stepAt, execWith_aedp1, step]

/-- A step is the next input's, or with none scheduled the engines' (R89). -/
theorem step_cons {s : State} {e : Input} {rest : List Input} (h : s.inputs = e :: rest) :
    step s = ({ s with inputs := rest } : State).inputStep e := by simp only [step, stepWith, h]

theorem step_nil {s : State} (h : s.inputs = []) : step s = s.quietStep := by simp only [step, stepWith, h]

end Sys2Proof.Machine
end

