-- ==== Sys2Proof/Laws/State.lean ====
section
/-!
SUPPORT. One lemma per field per update of the state, each true by rfl, so that no proof unfolds a record update.
-/

namespace Sys2Proof.Machine

variable (s : State)

/-! ### setChan -/

@[simp] theorem State.setChan_cfgValid (n : Chan) (c : Channel) : (s.setChan n c).cfgValid = s.cfgValid := rfl
@[simp] theorem State.setChan_run (n : Chan) (c : Channel) : (s.setChan n c).run = s.run := rfl
@[simp] theorem State.setChan_featValid (n : Chan) (c : Channel) : (s.setChan n c).featValid = s.featValid := rfl
@[simp] theorem State.setChan_irqStatus (n : Chan) (c : Channel) : (s.setChan n c).irqStatus = s.irqStatus := rfl
@[simp] theorem State.setChan_irqEnable (n : Chan) (c : Channel) : (s.setChan n c).irqEnable = s.irqEnable := rfl
@[simp] theorem State.setChan_sclk (n : Chan) (c : Channel) : (s.setChan n c).sclk = s.sclk := rfl
@[simp] theorem State.setChan_rpos0 (n : Chan) (c : Channel) : (s.setChan n c).rpos0 = s.rpos0 := rfl
@[simp] theorem State.setChan_rpos1 (n : Chan) (c : Channel) : (s.setChan n c).rpos1 = s.rpos1 := rfl
@[simp] theorem State.setChan_counters (n : Chan) (c : Channel) : (s.setChan n c).counters = s.counters := rfl
@[simp] theorem State.setChan_shadow (n : Chan) (c : Channel) : (s.setChan n c).shadow = s.shadow := rfl
@[simp] theorem State.setChan_act (n : Chan) (c : Channel) : (s.setChan n c).act = s.act := rfl
@[simp] theorem State.setChan_cycleTs (n : Chan) (c : Channel) : (s.setChan n c).cycleTs = s.cycleTs := rfl
@[simp] theorem State.setChan_levelRms (n : Chan) (c : Channel) : (s.setChan n c).levelRms = s.levelRms := rfl
@[simp] theorem State.setChan_levelPeak (n : Chan) (c : Channel) : (s.setChan n c).levelPeak = s.levelPeak := rfl
@[simp] theorem State.setChan_dec (n : Chan) (c : Channel) : (s.setChan n c).dec = s.dec := rfl
@[simp] theorem State.setChan_evtSeqNext (n : Chan) (c : Channel) : (s.setChan n c).evtSeqNext = s.evtSeqNext := rfl
@[simp] theorem State.setChan_featMin (n : Chan) (c : Channel) : (s.setChan n c).featMin = s.featMin := rfl
@[simp] theorem State.setChan_prob (n : Chan) (c : Channel) : (s.setChan n c).prob = s.prob := rfl
@[simp] theorem State.setChan_ema (n : Chan) (c : Channel) : (s.setChan n c).ema = s.ema := rfl
@[simp] theorem State.setChan_smooth (n : Chan) (c : Channel) : (s.setChan n c).smooth = s.smooth := rfl
@[simp] theorem State.setChan_hist (n : Chan) (c : Channel) : (s.setChan n c).hist = s.hist := rfl
@[simp] theorem State.setChan_evq (n : Chan) (c : Channel) : (s.setChan n c).evq = s.evq := rfl
@[simp] theorem State.setChan_pkt (n : Chan) (c : Channel) : (s.setChan n c).pkt = s.pkt := rfl
@[simp] theorem State.setChan_pktSeqNext (n : Chan) (c : Channel) : (s.setChan n c).pktSeqNext = s.pktSeqNext := rfl
@[simp] theorem State.setChan_pktTsNext (n : Chan) (c : Channel) : (s.setChan n c).pktTsNext = s.pktTsNext := rfl
@[simp] theorem State.setChan_pp (n : Chan) (c : Channel) : (s.setChan n c).pp = s.pp := rfl
@[simp] theorem State.setChan_mem (n : Chan) (c : Channel) : (s.setChan n c).mem = s.mem := rfl
@[simp] theorem State.setChan_inputs (n : Chan) (c : Channel) : (s.setChan n c).inputs = s.inputs := rfl
@[simp] theorem State.setChan_active (n : Chan) (c : Channel) : (s.setChan n c).active = s.active := rfl
@[simp] theorem State.setChan_draws (n : Chan) (c : Channel) : (s.setChan n c).draws = s.draws := rfl
@[simp] theorem State.setChan_busData (n : Chan) (c : Channel) : (s.setChan n c).busData = s.busData := rfl

/-! ### setIrq -/

@[simp] theorem State.setIrq_cfgValid (q : Irq) : (s.setIrq q).cfgValid = s.cfgValid := rfl
@[simp] theorem State.setIrq_run (q : Irq) : (s.setIrq q).run = s.run := rfl
@[simp] theorem State.setIrq_featValid (q : Irq) : (s.setIrq q).featValid = s.featValid := rfl
@[simp] theorem State.setIrq_chan0 (q : Irq) : (s.setIrq q).chan0 = s.chan0 := rfl
@[simp] theorem State.setIrq_chan1 (q : Irq) : (s.setIrq q).chan1 = s.chan1 := rfl
@[simp] theorem State.setIrq_irqEnable (q : Irq) : (s.setIrq q).irqEnable = s.irqEnable := rfl
@[simp] theorem State.setIrq_sclk (q : Irq) : (s.setIrq q).sclk = s.sclk := rfl
@[simp] theorem State.setIrq_rpos0 (q : Irq) : (s.setIrq q).rpos0 = s.rpos0 := rfl
@[simp] theorem State.setIrq_rpos1 (q : Irq) : (s.setIrq q).rpos1 = s.rpos1 := rfl
@[simp] theorem State.setIrq_counters (q : Irq) : (s.setIrq q).counters = s.counters := rfl
@[simp] theorem State.setIrq_shadow (q : Irq) : (s.setIrq q).shadow = s.shadow := rfl
@[simp] theorem State.setIrq_act (q : Irq) : (s.setIrq q).act = s.act := rfl
@[simp] theorem State.setIrq_cycleTs (q : Irq) : (s.setIrq q).cycleTs = s.cycleTs := rfl
@[simp] theorem State.setIrq_levelRms (q : Irq) : (s.setIrq q).levelRms = s.levelRms := rfl
@[simp] theorem State.setIrq_levelPeak (q : Irq) : (s.setIrq q).levelPeak = s.levelPeak := rfl
@[simp] theorem State.setIrq_dec (q : Irq) : (s.setIrq q).dec = s.dec := rfl
@[simp] theorem State.setIrq_evtSeqNext (q : Irq) : (s.setIrq q).evtSeqNext = s.evtSeqNext := rfl
@[simp] theorem State.setIrq_featMin (q : Irq) : (s.setIrq q).featMin = s.featMin := rfl
@[simp] theorem State.setIrq_prob (q : Irq) : (s.setIrq q).prob = s.prob := rfl
@[simp] theorem State.setIrq_ema (q : Irq) : (s.setIrq q).ema = s.ema := rfl
@[simp] theorem State.setIrq_smooth (q : Irq) : (s.setIrq q).smooth = s.smooth := rfl
@[simp] theorem State.setIrq_hist (q : Irq) : (s.setIrq q).hist = s.hist := rfl
@[simp] theorem State.setIrq_evq (q : Irq) : (s.setIrq q).evq = s.evq := rfl
@[simp] theorem State.setIrq_pkt (q : Irq) : (s.setIrq q).pkt = s.pkt := rfl
@[simp] theorem State.setIrq_pktSeqNext (q : Irq) : (s.setIrq q).pktSeqNext = s.pktSeqNext := rfl
@[simp] theorem State.setIrq_pktTsNext (q : Irq) : (s.setIrq q).pktTsNext = s.pktTsNext := rfl
@[simp] theorem State.setIrq_pp (q : Irq) : (s.setIrq q).pp = s.pp := rfl
@[simp] theorem State.setIrq_mem (q : Irq) : (s.setIrq q).mem = s.mem := rfl
@[simp] theorem State.setIrq_inputs (q : Irq) : (s.setIrq q).inputs = s.inputs := rfl
@[simp] theorem State.setIrq_active (q : Irq) : (s.setIrq q).active = s.active := rfl
@[simp] theorem State.setIrq_draws (q : Irq) : (s.setIrq q).draws = s.draws := rfl
@[simp] theorem State.setIrq_busData (q : Irq) : (s.setIrq q).busData = s.busData := rfl

/-! ### setIrqIf -/

@[simp] theorem State.setIrqIf_cfgValid (b : Bool) (q : Irq) : (s.setIrqIf b q).cfgValid = s.cfgValid := rfl
@[simp] theorem State.setIrqIf_run (b : Bool) (q : Irq) : (s.setIrqIf b q).run = s.run := rfl
@[simp] theorem State.setIrqIf_featValid (b : Bool) (q : Irq) : (s.setIrqIf b q).featValid = s.featValid := rfl
@[simp] theorem State.setIrqIf_chan0 (b : Bool) (q : Irq) : (s.setIrqIf b q).chan0 = s.chan0 := rfl
@[simp] theorem State.setIrqIf_chan1 (b : Bool) (q : Irq) : (s.setIrqIf b q).chan1 = s.chan1 := rfl
@[simp] theorem State.setIrqIf_irqEnable (b : Bool) (q : Irq) : (s.setIrqIf b q).irqEnable = s.irqEnable := rfl
@[simp] theorem State.setIrqIf_sclk (b : Bool) (q : Irq) : (s.setIrqIf b q).sclk = s.sclk := rfl
@[simp] theorem State.setIrqIf_rpos0 (b : Bool) (q : Irq) : (s.setIrqIf b q).rpos0 = s.rpos0 := rfl
@[simp] theorem State.setIrqIf_rpos1 (b : Bool) (q : Irq) : (s.setIrqIf b q).rpos1 = s.rpos1 := rfl
@[simp] theorem State.setIrqIf_counters (b : Bool) (q : Irq) : (s.setIrqIf b q).counters = s.counters := rfl
@[simp] theorem State.setIrqIf_shadow (b : Bool) (q : Irq) : (s.setIrqIf b q).shadow = s.shadow := rfl
@[simp] theorem State.setIrqIf_act (b : Bool) (q : Irq) : (s.setIrqIf b q).act = s.act := rfl
@[simp] theorem State.setIrqIf_cycleTs (b : Bool) (q : Irq) : (s.setIrqIf b q).cycleTs = s.cycleTs := rfl
@[simp] theorem State.setIrqIf_levelRms (b : Bool) (q : Irq) : (s.setIrqIf b q).levelRms = s.levelRms := rfl
@[simp] theorem State.setIrqIf_levelPeak (b : Bool) (q : Irq) : (s.setIrqIf b q).levelPeak = s.levelPeak := rfl
@[simp] theorem State.setIrqIf_dec (b : Bool) (q : Irq) : (s.setIrqIf b q).dec = s.dec := rfl
@[simp] theorem State.setIrqIf_evtSeqNext (b : Bool) (q : Irq) : (s.setIrqIf b q).evtSeqNext = s.evtSeqNext := rfl
@[simp] theorem State.setIrqIf_featMin (b : Bool) (q : Irq) : (s.setIrqIf b q).featMin = s.featMin := rfl
@[simp] theorem State.setIrqIf_prob (b : Bool) (q : Irq) : (s.setIrqIf b q).prob = s.prob := rfl
@[simp] theorem State.setIrqIf_ema (b : Bool) (q : Irq) : (s.setIrqIf b q).ema = s.ema := rfl
@[simp] theorem State.setIrqIf_smooth (b : Bool) (q : Irq) : (s.setIrqIf b q).smooth = s.smooth := rfl
@[simp] theorem State.setIrqIf_hist (b : Bool) (q : Irq) : (s.setIrqIf b q).hist = s.hist := rfl
@[simp] theorem State.setIrqIf_evq (b : Bool) (q : Irq) : (s.setIrqIf b q).evq = s.evq := rfl
@[simp] theorem State.setIrqIf_pkt (b : Bool) (q : Irq) : (s.setIrqIf b q).pkt = s.pkt := rfl
@[simp] theorem State.setIrqIf_pktSeqNext (b : Bool) (q : Irq) : (s.setIrqIf b q).pktSeqNext = s.pktSeqNext := rfl
@[simp] theorem State.setIrqIf_pktTsNext (b : Bool) (q : Irq) : (s.setIrqIf b q).pktTsNext = s.pktTsNext := rfl
@[simp] theorem State.setIrqIf_pp (b : Bool) (q : Irq) : (s.setIrqIf b q).pp = s.pp := rfl
@[simp] theorem State.setIrqIf_mem (b : Bool) (q : Irq) : (s.setIrqIf b q).mem = s.mem := rfl
@[simp] theorem State.setIrqIf_inputs (b : Bool) (q : Irq) : (s.setIrqIf b q).inputs = s.inputs := rfl
@[simp] theorem State.setIrqIf_active (b : Bool) (q : Irq) : (s.setIrqIf b q).active = s.active := rfl
@[simp] theorem State.setIrqIf_draws (b : Bool) (q : Irq) : (s.setIrqIf b q).draws = s.draws := rfl
@[simp] theorem State.setIrqIf_busData (b : Bool) (q : Irq) : (s.setIrqIf b q).busData = s.busData := rfl

/-! ### setCounters -/

@[simp] theorem State.setCounters_cfgValid (f : Counters → Counters) : (s.setCounters f).cfgValid = s.cfgValid := rfl
@[simp] theorem State.setCounters_run (f : Counters → Counters) : (s.setCounters f).run = s.run := rfl
@[simp] theorem State.setCounters_featValid (f : Counters → Counters) : (s.setCounters f).featValid = s.featValid := rfl
@[simp] theorem State.setCounters_chan0 (f : Counters → Counters) : (s.setCounters f).chan0 = s.chan0 := rfl
@[simp] theorem State.setCounters_chan1 (f : Counters → Counters) : (s.setCounters f).chan1 = s.chan1 := rfl
@[simp] theorem State.setCounters_irqStatus (f : Counters → Counters) : (s.setCounters f).irqStatus = s.irqStatus := rfl
@[simp] theorem State.setCounters_irqEnable (f : Counters → Counters) : (s.setCounters f).irqEnable = s.irqEnable := rfl
@[simp] theorem State.setCounters_sclk (f : Counters → Counters) : (s.setCounters f).sclk = s.sclk := rfl
@[simp] theorem State.setCounters_rpos0 (f : Counters → Counters) : (s.setCounters f).rpos0 = s.rpos0 := rfl
@[simp] theorem State.setCounters_rpos1 (f : Counters → Counters) : (s.setCounters f).rpos1 = s.rpos1 := rfl
@[simp] theorem State.setCounters_shadow (f : Counters → Counters) : (s.setCounters f).shadow = s.shadow := rfl
@[simp] theorem State.setCounters_act (f : Counters → Counters) : (s.setCounters f).act = s.act := rfl
@[simp] theorem State.setCounters_cycleTs (f : Counters → Counters) : (s.setCounters f).cycleTs = s.cycleTs := rfl
@[simp] theorem State.setCounters_levelRms (f : Counters → Counters) : (s.setCounters f).levelRms = s.levelRms := rfl
@[simp] theorem State.setCounters_levelPeak (f : Counters → Counters) : (s.setCounters f).levelPeak = s.levelPeak := rfl
@[simp] theorem State.setCounters_dec (f : Counters → Counters) : (s.setCounters f).dec = s.dec := rfl
@[simp] theorem State.setCounters_evtSeqNext (f : Counters → Counters) : (s.setCounters f).evtSeqNext = s.evtSeqNext := rfl
@[simp] theorem State.setCounters_featMin (f : Counters → Counters) : (s.setCounters f).featMin = s.featMin := rfl
@[simp] theorem State.setCounters_prob (f : Counters → Counters) : (s.setCounters f).prob = s.prob := rfl
@[simp] theorem State.setCounters_ema (f : Counters → Counters) : (s.setCounters f).ema = s.ema := rfl
@[simp] theorem State.setCounters_smooth (f : Counters → Counters) : (s.setCounters f).smooth = s.smooth := rfl
@[simp] theorem State.setCounters_hist (f : Counters → Counters) : (s.setCounters f).hist = s.hist := rfl
@[simp] theorem State.setCounters_evq (f : Counters → Counters) : (s.setCounters f).evq = s.evq := rfl
@[simp] theorem State.setCounters_pkt (f : Counters → Counters) : (s.setCounters f).pkt = s.pkt := rfl
@[simp] theorem State.setCounters_pktSeqNext (f : Counters → Counters) : (s.setCounters f).pktSeqNext = s.pktSeqNext := rfl
@[simp] theorem State.setCounters_pktTsNext (f : Counters → Counters) : (s.setCounters f).pktTsNext = s.pktTsNext := rfl
@[simp] theorem State.setCounters_pp (f : Counters → Counters) : (s.setCounters f).pp = s.pp := rfl
@[simp] theorem State.setCounters_mem (f : Counters → Counters) : (s.setCounters f).mem = s.mem := rfl
@[simp] theorem State.setCounters_inputs (f : Counters → Counters) : (s.setCounters f).inputs = s.inputs := rfl
@[simp] theorem State.setCounters_active (f : Counters → Counters) : (s.setCounters f).active = s.active := rfl
@[simp] theorem State.setCounters_draws (f : Counters → Counters) : (s.setCounters f).draws = s.draws := rfl
@[simp] theorem State.setCounters_busData (f : Counters → Counters) : (s.setCounters f).busData = s.busData := rfl

/-! ### setRpos -/

@[simp] theorem State.setRpos_cfgValid (r : Chan) (p : Pos) : (s.setRpos r p).cfgValid = s.cfgValid := rfl
@[simp] theorem State.setRpos_run (r : Chan) (p : Pos) : (s.setRpos r p).run = s.run := rfl
@[simp] theorem State.setRpos_featValid (r : Chan) (p : Pos) : (s.setRpos r p).featValid = s.featValid := rfl
@[simp] theorem State.setRpos_chan0 (r : Chan) (p : Pos) : (s.setRpos r p).chan0 = s.chan0 := rfl
@[simp] theorem State.setRpos_chan1 (r : Chan) (p : Pos) : (s.setRpos r p).chan1 = s.chan1 := rfl
@[simp] theorem State.setRpos_irqStatus (r : Chan) (p : Pos) : (s.setRpos r p).irqStatus = s.irqStatus := rfl
@[simp] theorem State.setRpos_irqEnable (r : Chan) (p : Pos) : (s.setRpos r p).irqEnable = s.irqEnable := rfl
@[simp] theorem State.setRpos_sclk (r : Chan) (p : Pos) : (s.setRpos r p).sclk = s.sclk := rfl
@[simp] theorem State.setRpos_counters (r : Chan) (p : Pos) : (s.setRpos r p).counters = s.counters := rfl
@[simp] theorem State.setRpos_shadow (r : Chan) (p : Pos) : (s.setRpos r p).shadow = s.shadow := rfl
@[simp] theorem State.setRpos_act (r : Chan) (p : Pos) : (s.setRpos r p).act = s.act := rfl
@[simp] theorem State.setRpos_cycleTs (r : Chan) (p : Pos) : (s.setRpos r p).cycleTs = s.cycleTs := rfl
@[simp] theorem State.setRpos_levelRms (r : Chan) (p : Pos) : (s.setRpos r p).levelRms = s.levelRms := rfl
@[simp] theorem State.setRpos_levelPeak (r : Chan) (p : Pos) : (s.setRpos r p).levelPeak = s.levelPeak := rfl
@[simp] theorem State.setRpos_dec (r : Chan) (p : Pos) : (s.setRpos r p).dec = s.dec := rfl
@[simp] theorem State.setRpos_evtSeqNext (r : Chan) (p : Pos) : (s.setRpos r p).evtSeqNext = s.evtSeqNext := rfl
@[simp] theorem State.setRpos_featMin (r : Chan) (p : Pos) : (s.setRpos r p).featMin = s.featMin := rfl
@[simp] theorem State.setRpos_prob (r : Chan) (p : Pos) : (s.setRpos r p).prob = s.prob := rfl
@[simp] theorem State.setRpos_ema (r : Chan) (p : Pos) : (s.setRpos r p).ema = s.ema := rfl
@[simp] theorem State.setRpos_smooth (r : Chan) (p : Pos) : (s.setRpos r p).smooth = s.smooth := rfl
@[simp] theorem State.setRpos_hist (r : Chan) (p : Pos) : (s.setRpos r p).hist = s.hist := rfl
@[simp] theorem State.setRpos_evq (r : Chan) (p : Pos) : (s.setRpos r p).evq = s.evq := rfl
@[simp] theorem State.setRpos_pkt (r : Chan) (p : Pos) : (s.setRpos r p).pkt = s.pkt := rfl
@[simp] theorem State.setRpos_pktSeqNext (r : Chan) (p : Pos) : (s.setRpos r p).pktSeqNext = s.pktSeqNext := rfl
@[simp] theorem State.setRpos_pktTsNext (r : Chan) (p : Pos) : (s.setRpos r p).pktTsNext = s.pktTsNext := rfl
@[simp] theorem State.setRpos_pp (r : Chan) (p : Pos) : (s.setRpos r p).pp = s.pp := rfl
@[simp] theorem State.setRpos_mem (r : Chan) (p : Pos) : (s.setRpos r p).mem = s.mem := rfl
@[simp] theorem State.setRpos_inputs (r : Chan) (p : Pos) : (s.setRpos r p).inputs = s.inputs := rfl
@[simp] theorem State.setRpos_active (r : Chan) (p : Pos) : (s.setRpos r p).active = s.active := rfl
@[simp] theorem State.setRpos_draws (r : Chan) (p : Pos) : (s.setRpos r p).draws = s.draws := rfl
@[simp] theorem State.setRpos_busData (r : Chan) (p : Pos) : (s.setRpos r p).busData = s.busData := rfl

/-! ### advance -/

@[simp] theorem State.advance_cfgValid (r : Chan) (p : Pos) (k : Nat) : (s.advance r p k).cfgValid = s.cfgValid := rfl
@[simp] theorem State.advance_run (r : Chan) (p : Pos) (k : Nat) : (s.advance r p k).run = s.run := rfl
@[simp] theorem State.advance_featValid (r : Chan) (p : Pos) (k : Nat) : (s.advance r p k).featValid = s.featValid := rfl
@[simp] theorem State.advance_chan0 (r : Chan) (p : Pos) (k : Nat) : (s.advance r p k).chan0 = s.chan0 := rfl
@[simp] theorem State.advance_chan1 (r : Chan) (p : Pos) (k : Nat) : (s.advance r p k).chan1 = s.chan1 := rfl
@[simp] theorem State.advance_irqStatus (r : Chan) (p : Pos) (k : Nat) : (s.advance r p k).irqStatus = s.irqStatus := rfl
@[simp] theorem State.advance_irqEnable (r : Chan) (p : Pos) (k : Nat) : (s.advance r p k).irqEnable = s.irqEnable := rfl
@[simp] theorem State.advance_sclk (r : Chan) (p : Pos) (k : Nat) : (s.advance r p k).sclk = s.sclk := rfl
@[simp] theorem State.advance_counters (r : Chan) (p : Pos) (k : Nat) : (s.advance r p k).counters = s.counters := rfl
@[simp] theorem State.advance_shadow (r : Chan) (p : Pos) (k : Nat) : (s.advance r p k).shadow = s.shadow := rfl
@[simp] theorem State.advance_act (r : Chan) (p : Pos) (k : Nat) : (s.advance r p k).act = s.act := rfl
@[simp] theorem State.advance_cycleTs (r : Chan) (p : Pos) (k : Nat) : (s.advance r p k).cycleTs = s.cycleTs := rfl
@[simp] theorem State.advance_levelRms (r : Chan) (p : Pos) (k : Nat) : (s.advance r p k).levelRms = s.levelRms := rfl
@[simp] theorem State.advance_levelPeak (r : Chan) (p : Pos) (k : Nat) : (s.advance r p k).levelPeak = s.levelPeak := rfl
@[simp] theorem State.advance_dec (r : Chan) (p : Pos) (k : Nat) : (s.advance r p k).dec = s.dec := rfl
@[simp] theorem State.advance_evtSeqNext (r : Chan) (p : Pos) (k : Nat) : (s.advance r p k).evtSeqNext = s.evtSeqNext := rfl
@[simp] theorem State.advance_featMin (r : Chan) (p : Pos) (k : Nat) : (s.advance r p k).featMin = s.featMin := rfl
@[simp] theorem State.advance_prob (r : Chan) (p : Pos) (k : Nat) : (s.advance r p k).prob = s.prob := rfl
@[simp] theorem State.advance_ema (r : Chan) (p : Pos) (k : Nat) : (s.advance r p k).ema = s.ema := rfl
@[simp] theorem State.advance_smooth (r : Chan) (p : Pos) (k : Nat) : (s.advance r p k).smooth = s.smooth := rfl
@[simp] theorem State.advance_hist (r : Chan) (p : Pos) (k : Nat) : (s.advance r p k).hist = s.hist := rfl
@[simp] theorem State.advance_evq (r : Chan) (p : Pos) (k : Nat) : (s.advance r p k).evq = s.evq := rfl
@[simp] theorem State.advance_pkt (r : Chan) (p : Pos) (k : Nat) : (s.advance r p k).pkt = s.pkt := rfl
@[simp] theorem State.advance_pktSeqNext (r : Chan) (p : Pos) (k : Nat) : (s.advance r p k).pktSeqNext = s.pktSeqNext := rfl
@[simp] theorem State.advance_pktTsNext (r : Chan) (p : Pos) (k : Nat) : (s.advance r p k).pktTsNext = s.pktTsNext := rfl
@[simp] theorem State.advance_pp (r : Chan) (p : Pos) (k : Nat) : (s.advance r p k).pp = s.pp := rfl
@[simp] theorem State.advance_mem (r : Chan) (p : Pos) (k : Nat) : (s.advance r p k).mem = s.mem := rfl
@[simp] theorem State.advance_inputs (r : Chan) (p : Pos) (k : Nat) : (s.advance r p k).inputs = s.inputs := rfl
@[simp] theorem State.advance_active (r : Chan) (p : Pos) (k : Nat) : (s.advance r p k).active = s.active := rfl
@[simp] theorem State.advance_draws (r : Chan) (p : Pos) (k : Nat) : (s.advance r p k).draws = s.draws := rfl
@[simp] theorem State.advance_busData (r : Chan) (p : Pos) (k : Nat) : (s.advance r p k).busData = s.busData := rfl

/-! ### setResult -/

@[simp] theorem State.setResult_cfgValid (v : Word) : (s.setResult v).cfgValid = s.cfgValid := rfl
@[simp] theorem State.setResult_run (v : Word) : (s.setResult v).run = s.run := rfl
@[simp] theorem State.setResult_featValid (v : Word) : (s.setResult v).featValid = s.featValid := rfl
@[simp] theorem State.setResult_irqStatus (v : Word) : (s.setResult v).irqStatus = s.irqStatus := rfl
@[simp] theorem State.setResult_irqEnable (v : Word) : (s.setResult v).irqEnable = s.irqEnable := rfl
@[simp] theorem State.setResult_sclk (v : Word) : (s.setResult v).sclk = s.sclk := rfl
@[simp] theorem State.setResult_rpos0 (v : Word) : (s.setResult v).rpos0 = s.rpos0 := rfl
@[simp] theorem State.setResult_rpos1 (v : Word) : (s.setResult v).rpos1 = s.rpos1 := rfl
@[simp] theorem State.setResult_counters (v : Word) : (s.setResult v).counters = s.counters := rfl
@[simp] theorem State.setResult_shadow (v : Word) : (s.setResult v).shadow = s.shadow := rfl
@[simp] theorem State.setResult_act (v : Word) : (s.setResult v).act = s.act := rfl
@[simp] theorem State.setResult_cycleTs (v : Word) : (s.setResult v).cycleTs = s.cycleTs := rfl
@[simp] theorem State.setResult_levelRms (v : Word) : (s.setResult v).levelRms = s.levelRms := rfl
@[simp] theorem State.setResult_levelPeak (v : Word) : (s.setResult v).levelPeak = s.levelPeak := rfl
@[simp] theorem State.setResult_dec (v : Word) : (s.setResult v).dec = s.dec := rfl
@[simp] theorem State.setResult_evtSeqNext (v : Word) : (s.setResult v).evtSeqNext = s.evtSeqNext := rfl
@[simp] theorem State.setResult_featMin (v : Word) : (s.setResult v).featMin = s.featMin := rfl
@[simp] theorem State.setResult_prob (v : Word) : (s.setResult v).prob = s.prob := rfl
@[simp] theorem State.setResult_ema (v : Word) : (s.setResult v).ema = s.ema := rfl
@[simp] theorem State.setResult_smooth (v : Word) : (s.setResult v).smooth = s.smooth := rfl
@[simp] theorem State.setResult_hist (v : Word) : (s.setResult v).hist = s.hist := rfl
@[simp] theorem State.setResult_evq (v : Word) : (s.setResult v).evq = s.evq := rfl
@[simp] theorem State.setResult_pkt (v : Word) : (s.setResult v).pkt = s.pkt := rfl
@[simp] theorem State.setResult_pktSeqNext (v : Word) : (s.setResult v).pktSeqNext = s.pktSeqNext := rfl
@[simp] theorem State.setResult_pktTsNext (v : Word) : (s.setResult v).pktTsNext = s.pktTsNext := rfl
@[simp] theorem State.setResult_pp (v : Word) : (s.setResult v).pp = s.pp := rfl
@[simp] theorem State.setResult_mem (v : Word) : (s.setResult v).mem = s.mem := rfl
@[simp] theorem State.setResult_inputs (v : Word) : (s.setResult v).inputs = s.inputs := rfl
@[simp] theorem State.setResult_active (v : Word) : (s.setResult v).active = s.active := rfl
@[simp] theorem State.setResult_draws (v : Word) : (s.setResult v).draws = s.draws := rfl
@[simp] theorem State.setResult_busData (v : Word) : (s.setResult v).busData = s.busData := rfl

/-! ### latch -/

@[simp] theorem State.latch_cfgValid (n : Chan) (w : Word) : (s.latch n w).cfgValid = s.cfgValid := rfl
@[simp] theorem State.latch_run (n : Chan) (w : Word) : (s.latch n w).run = s.run := rfl
@[simp] theorem State.latch_featValid (n : Chan) (w : Word) : (s.latch n w).featValid = s.featValid := rfl
@[simp] theorem State.latch_irqStatus (n : Chan) (w : Word) : (s.latch n w).irqStatus = s.irqStatus := rfl
@[simp] theorem State.latch_irqEnable (n : Chan) (w : Word) : (s.latch n w).irqEnable = s.irqEnable := rfl
@[simp] theorem State.latch_sclk (n : Chan) (w : Word) : (s.latch n w).sclk = s.sclk := rfl
@[simp] theorem State.latch_rpos0 (n : Chan) (w : Word) : (s.latch n w).rpos0 = s.rpos0 := rfl
@[simp] theorem State.latch_rpos1 (n : Chan) (w : Word) : (s.latch n w).rpos1 = s.rpos1 := rfl
@[simp] theorem State.latch_counters (n : Chan) (w : Word) : (s.latch n w).counters = s.counters := rfl
@[simp] theorem State.latch_shadow (n : Chan) (w : Word) : (s.latch n w).shadow = s.shadow := rfl
@[simp] theorem State.latch_act (n : Chan) (w : Word) : (s.latch n w).act = s.act := rfl
@[simp] theorem State.latch_cycleTs (n : Chan) (w : Word) : (s.latch n w).cycleTs = s.cycleTs := rfl
@[simp] theorem State.latch_levelRms (n : Chan) (w : Word) : (s.latch n w).levelRms = s.levelRms := rfl
@[simp] theorem State.latch_levelPeak (n : Chan) (w : Word) : (s.latch n w).levelPeak = s.levelPeak := rfl
@[simp] theorem State.latch_dec (n : Chan) (w : Word) : (s.latch n w).dec = s.dec := rfl
@[simp] theorem State.latch_evtSeqNext (n : Chan) (w : Word) : (s.latch n w).evtSeqNext = s.evtSeqNext := rfl
@[simp] theorem State.latch_featMin (n : Chan) (w : Word) : (s.latch n w).featMin = s.featMin := rfl
@[simp] theorem State.latch_prob (n : Chan) (w : Word) : (s.latch n w).prob = s.prob := rfl
@[simp] theorem State.latch_ema (n : Chan) (w : Word) : (s.latch n w).ema = s.ema := rfl
@[simp] theorem State.latch_smooth (n : Chan) (w : Word) : (s.latch n w).smooth = s.smooth := rfl
@[simp] theorem State.latch_hist (n : Chan) (w : Word) : (s.latch n w).hist = s.hist := rfl
@[simp] theorem State.latch_evq (n : Chan) (w : Word) : (s.latch n w).evq = s.evq := rfl
@[simp] theorem State.latch_pkt (n : Chan) (w : Word) : (s.latch n w).pkt = s.pkt := rfl
@[simp] theorem State.latch_pktSeqNext (n : Chan) (w : Word) : (s.latch n w).pktSeqNext = s.pktSeqNext := rfl
@[simp] theorem State.latch_pktTsNext (n : Chan) (w : Word) : (s.latch n w).pktTsNext = s.pktTsNext := rfl
@[simp] theorem State.latch_pp (n : Chan) (w : Word) : (s.latch n w).pp = s.pp := rfl
@[simp] theorem State.latch_mem (n : Chan) (w : Word) : (s.latch n w).mem = s.mem := rfl
@[simp] theorem State.latch_inputs (n : Chan) (w : Word) : (s.latch n w).inputs = s.inputs := rfl
@[simp] theorem State.latch_active (n : Chan) (w : Word) : (s.latch n w).active = s.active := rfl
@[simp] theorem State.latch_draws (n : Chan) (w : Word) : (s.latch n w).draws = s.draws := rfl
@[simp] theorem State.latch_busData (n : Chan) (w : Word) : (s.latch n w).busData = s.busData := rfl

/-! ### begin -/

@[simp] theorem State.begin_cfgValid (w : Word) (e : Option ErrCode) : (s.begin w e).cfgValid = s.cfgValid := rfl
@[simp] theorem State.begin_run (w : Word) (e : Option ErrCode) : (s.begin w e).run = s.run := rfl
@[simp] theorem State.begin_featValid (w : Word) (e : Option ErrCode) : (s.begin w e).featValid = s.featValid := rfl
@[simp] theorem State.begin_irqStatus (w : Word) (e : Option ErrCode) : (s.begin w e).irqStatus = s.irqStatus := rfl
@[simp] theorem State.begin_irqEnable (w : Word) (e : Option ErrCode) : (s.begin w e).irqEnable = s.irqEnable := rfl
@[simp] theorem State.begin_sclk (w : Word) (e : Option ErrCode) : (s.begin w e).sclk = s.sclk := rfl
@[simp] theorem State.begin_rpos0 (w : Word) (e : Option ErrCode) : (s.begin w e).rpos0 = s.rpos0 := rfl
@[simp] theorem State.begin_rpos1 (w : Word) (e : Option ErrCode) : (s.begin w e).rpos1 = s.rpos1 := rfl
@[simp] theorem State.begin_counters (w : Word) (e : Option ErrCode) : (s.begin w e).counters = s.counters := rfl
@[simp] theorem State.begin_shadow (w : Word) (e : Option ErrCode) : (s.begin w e).shadow = s.shadow := rfl
@[simp] theorem State.begin_act (w : Word) (e : Option ErrCode) : (s.begin w e).act = s.act := rfl
@[simp] theorem State.begin_cycleTs (w : Word) (e : Option ErrCode) : (s.begin w e).cycleTs = s.cycleTs := rfl
@[simp] theorem State.begin_levelRms (w : Word) (e : Option ErrCode) : (s.begin w e).levelRms = s.levelRms := rfl
@[simp] theorem State.begin_levelPeak (w : Word) (e : Option ErrCode) : (s.begin w e).levelPeak = s.levelPeak := rfl
@[simp] theorem State.begin_dec (w : Word) (e : Option ErrCode) : (s.begin w e).dec = s.dec := rfl
@[simp] theorem State.begin_evtSeqNext (w : Word) (e : Option ErrCode) : (s.begin w e).evtSeqNext = s.evtSeqNext := rfl
@[simp] theorem State.begin_featMin (w : Word) (e : Option ErrCode) : (s.begin w e).featMin = s.featMin := rfl
@[simp] theorem State.begin_prob (w : Word) (e : Option ErrCode) : (s.begin w e).prob = s.prob := rfl
@[simp] theorem State.begin_ema (w : Word) (e : Option ErrCode) : (s.begin w e).ema = s.ema := rfl
@[simp] theorem State.begin_smooth (w : Word) (e : Option ErrCode) : (s.begin w e).smooth = s.smooth := rfl
@[simp] theorem State.begin_hist (w : Word) (e : Option ErrCode) : (s.begin w e).hist = s.hist := rfl
@[simp] theorem State.begin_evq (w : Word) (e : Option ErrCode) : (s.begin w e).evq = s.evq := rfl
@[simp] theorem State.begin_pkt (w : Word) (e : Option ErrCode) : (s.begin w e).pkt = s.pkt := rfl
@[simp] theorem State.begin_pktSeqNext (w : Word) (e : Option ErrCode) : (s.begin w e).pktSeqNext = s.pktSeqNext := rfl
@[simp] theorem State.begin_pktTsNext (w : Word) (e : Option ErrCode) : (s.begin w e).pktTsNext = s.pktTsNext := rfl
@[simp] theorem State.begin_pp (w : Word) (e : Option ErrCode) : (s.begin w e).pp = s.pp := rfl
@[simp] theorem State.begin_mem (w : Word) (e : Option ErrCode) : (s.begin w e).mem = s.mem := rfl
@[simp] theorem State.begin_inputs (w : Word) (e : Option ErrCode) : (s.begin w e).inputs = s.inputs := rfl
@[simp] theorem State.begin_active (w : Word) (e : Option ErrCode) : (s.begin w e).active = s.active := rfl
@[simp] theorem State.begin_draws (w : Word) (e : Option ErrCode) : (s.begin w e).draws = s.draws := rfl
@[simp] theorem State.begin_busData (w : Word) (e : Option ErrCode) : (s.begin w e).busData = s.busData := rfl

/-! ### complete -/

@[simp] theorem State.complete_cfgValid (opc : Byte) (e : Option ErrCode) : (s.complete opc e).cfgValid = s.cfgValid := rfl
@[simp] theorem State.complete_run (opc : Byte) (e : Option ErrCode) : (s.complete opc e).run = s.run := rfl
@[simp] theorem State.complete_featValid (opc : Byte) (e : Option ErrCode) : (s.complete opc e).featValid = s.featValid := rfl
@[simp] theorem State.complete_irqEnable (opc : Byte) (e : Option ErrCode) : (s.complete opc e).irqEnable = s.irqEnable := rfl
@[simp] theorem State.complete_sclk (opc : Byte) (e : Option ErrCode) : (s.complete opc e).sclk = s.sclk := rfl
@[simp] theorem State.complete_rpos0 (opc : Byte) (e : Option ErrCode) : (s.complete opc e).rpos0 = s.rpos0 := rfl
@[simp] theorem State.complete_rpos1 (opc : Byte) (e : Option ErrCode) : (s.complete opc e).rpos1 = s.rpos1 := rfl
@[simp] theorem State.complete_counters (opc : Byte) (e : Option ErrCode) : (s.complete opc e).counters = s.counters := rfl
@[simp] theorem State.complete_shadow (opc : Byte) (e : Option ErrCode) : (s.complete opc e).shadow = s.shadow := rfl
@[simp] theorem State.complete_act (opc : Byte) (e : Option ErrCode) : (s.complete opc e).act = s.act := rfl
@[simp] theorem State.complete_cycleTs (opc : Byte) (e : Option ErrCode) : (s.complete opc e).cycleTs = s.cycleTs := rfl
@[simp] theorem State.complete_levelRms (opc : Byte) (e : Option ErrCode) : (s.complete opc e).levelRms = s.levelRms := rfl
@[simp] theorem State.complete_levelPeak (opc : Byte) (e : Option ErrCode) : (s.complete opc e).levelPeak = s.levelPeak := rfl
@[simp] theorem State.complete_dec (opc : Byte) (e : Option ErrCode) : (s.complete opc e).dec = s.dec := rfl
@[simp] theorem State.complete_evtSeqNext (opc : Byte) (e : Option ErrCode) : (s.complete opc e).evtSeqNext = s.evtSeqNext := rfl
@[simp] theorem State.complete_featMin (opc : Byte) (e : Option ErrCode) : (s.complete opc e).featMin = s.featMin := rfl
@[simp] theorem State.complete_prob (opc : Byte) (e : Option ErrCode) : (s.complete opc e).prob = s.prob := rfl
@[simp] theorem State.complete_ema (opc : Byte) (e : Option ErrCode) : (s.complete opc e).ema = s.ema := rfl
@[simp] theorem State.complete_smooth (opc : Byte) (e : Option ErrCode) : (s.complete opc e).smooth = s.smooth := rfl
@[simp] theorem State.complete_hist (opc : Byte) (e : Option ErrCode) : (s.complete opc e).hist = s.hist := rfl
@[simp] theorem State.complete_evq (opc : Byte) (e : Option ErrCode) : (s.complete opc e).evq = s.evq := rfl
@[simp] theorem State.complete_pkt (opc : Byte) (e : Option ErrCode) : (s.complete opc e).pkt = s.pkt := rfl
@[simp] theorem State.complete_pktSeqNext (opc : Byte) (e : Option ErrCode) : (s.complete opc e).pktSeqNext = s.pktSeqNext := rfl
@[simp] theorem State.complete_pktTsNext (opc : Byte) (e : Option ErrCode) : (s.complete opc e).pktTsNext = s.pktTsNext := rfl
@[simp] theorem State.complete_pp (opc : Byte) (e : Option ErrCode) : (s.complete opc e).pp = s.pp := rfl
@[simp] theorem State.complete_mem (opc : Byte) (e : Option ErrCode) : (s.complete opc e).mem = s.mem := rfl
@[simp] theorem State.complete_inputs (opc : Byte) (e : Option ErrCode) : (s.complete opc e).inputs = s.inputs := rfl
@[simp] theorem State.complete_active (opc : Byte) (e : Option ErrCode) : (s.complete opc e).active = s.active := rfl
@[simp] theorem State.complete_draws (opc : Byte) (e : Option ErrCode) : (s.complete opc e).draws = s.draws := rfl
@[simp] theorem State.complete_busData (opc : Byte) (e : Option ErrCode) : (s.complete opc e).busData = s.busData := rfl

/-! ### drawArray -/

@[simp] theorem State.drawArray_cfgValid (a : Arr) (k : Nat) : (s.drawArray a k).cfgValid = s.cfgValid := rfl
@[simp] theorem State.drawArray_run (a : Arr) (k : Nat) : (s.drawArray a k).run = s.run := rfl
@[simp] theorem State.drawArray_featValid (a : Arr) (k : Nat) : (s.drawArray a k).featValid = s.featValid := rfl
@[simp] theorem State.drawArray_chan0 (a : Arr) (k : Nat) : (s.drawArray a k).chan0 = s.chan0 := rfl
@[simp] theorem State.drawArray_chan1 (a : Arr) (k : Nat) : (s.drawArray a k).chan1 = s.chan1 := rfl
@[simp] theorem State.drawArray_irqStatus (a : Arr) (k : Nat) : (s.drawArray a k).irqStatus = s.irqStatus := rfl
@[simp] theorem State.drawArray_irqEnable (a : Arr) (k : Nat) : (s.drawArray a k).irqEnable = s.irqEnable := rfl
@[simp] theorem State.drawArray_sclk (a : Arr) (k : Nat) : (s.drawArray a k).sclk = s.sclk := rfl
@[simp] theorem State.drawArray_rpos0 (a : Arr) (k : Nat) : (s.drawArray a k).rpos0 = s.rpos0 := rfl
@[simp] theorem State.drawArray_rpos1 (a : Arr) (k : Nat) : (s.drawArray a k).rpos1 = s.rpos1 := rfl
@[simp] theorem State.drawArray_counters (a : Arr) (k : Nat) : (s.drawArray a k).counters = s.counters := rfl
@[simp] theorem State.drawArray_shadow (a : Arr) (k : Nat) : (s.drawArray a k).shadow = s.shadow := rfl
@[simp] theorem State.drawArray_act (a : Arr) (k : Nat) : (s.drawArray a k).act = s.act := rfl
@[simp] theorem State.drawArray_cycleTs (a : Arr) (k : Nat) : (s.drawArray a k).cycleTs = s.cycleTs := rfl
@[simp] theorem State.drawArray_levelRms (a : Arr) (k : Nat) : (s.drawArray a k).levelRms = s.levelRms := rfl
@[simp] theorem State.drawArray_levelPeak (a : Arr) (k : Nat) : (s.drawArray a k).levelPeak = s.levelPeak := rfl
@[simp] theorem State.drawArray_dec (a : Arr) (k : Nat) : (s.drawArray a k).dec = s.dec := rfl
@[simp] theorem State.drawArray_evtSeqNext (a : Arr) (k : Nat) : (s.drawArray a k).evtSeqNext = s.evtSeqNext := rfl
@[simp] theorem State.drawArray_featMin (a : Arr) (k : Nat) : (s.drawArray a k).featMin = s.featMin := rfl
@[simp] theorem State.drawArray_prob (a : Arr) (k : Nat) : (s.drawArray a k).prob = s.prob := rfl
@[simp] theorem State.drawArray_ema (a : Arr) (k : Nat) : (s.drawArray a k).ema = s.ema := rfl
@[simp] theorem State.drawArray_smooth (a : Arr) (k : Nat) : (s.drawArray a k).smooth = s.smooth := rfl
@[simp] theorem State.drawArray_hist (a : Arr) (k : Nat) : (s.drawArray a k).hist = s.hist := rfl
@[simp] theorem State.drawArray_evq (a : Arr) (k : Nat) : (s.drawArray a k).evq = s.evq := rfl
@[simp] theorem State.drawArray_pkt (a : Arr) (k : Nat) : (s.drawArray a k).pkt = s.pkt := rfl
@[simp] theorem State.drawArray_pktSeqNext (a : Arr) (k : Nat) : (s.drawArray a k).pktSeqNext = s.pktSeqNext := rfl
@[simp] theorem State.drawArray_pktTsNext (a : Arr) (k : Nat) : (s.drawArray a k).pktTsNext = s.pktTsNext := rfl
@[simp] theorem State.drawArray_pp (a : Arr) (k : Nat) : (s.drawArray a k).pp = s.pp := rfl
@[simp] theorem State.drawArray_inputs (a : Arr) (k : Nat) : (s.drawArray a k).inputs = s.inputs := rfl
@[simp] theorem State.drawArray_active (a : Arr) (k : Nat) : (s.drawArray a k).active = s.active := rfl
@[simp] theorem State.drawArray_busData (a : Arr) (k : Nat) : (s.drawArray a k).busData = s.busData := rfl

/-! ### activate -/

@[simp] theorem State.activate_cfgValid (n : Chan) : (s.activate n).cfgValid = s.cfgValid := rfl
@[simp] theorem State.activate_run (n : Chan) : (s.activate n).run = s.run := rfl
@[simp] theorem State.activate_featValid (n : Chan) : (s.activate n).featValid = s.featValid := rfl
@[simp] theorem State.activate_chan0 (n : Chan) : (s.activate n).chan0 = s.chan0 := rfl
@[simp] theorem State.activate_chan1 (n : Chan) : (s.activate n).chan1 = s.chan1 := rfl
@[simp] theorem State.activate_irqStatus (n : Chan) : (s.activate n).irqStatus = s.irqStatus := rfl
@[simp] theorem State.activate_irqEnable (n : Chan) : (s.activate n).irqEnable = s.irqEnable := rfl
@[simp] theorem State.activate_sclk (n : Chan) : (s.activate n).sclk = s.sclk := rfl
@[simp] theorem State.activate_rpos0 (n : Chan) : (s.activate n).rpos0 = s.rpos0 := rfl
@[simp] theorem State.activate_rpos1 (n : Chan) : (s.activate n).rpos1 = s.rpos1 := rfl
@[simp] theorem State.activate_counters (n : Chan) : (s.activate n).counters = s.counters := rfl
@[simp] theorem State.activate_shadow (n : Chan) : (s.activate n).shadow = s.shadow := rfl
@[simp] theorem State.activate_act (n : Chan) : (s.activate n).act = s.act := rfl
@[simp] theorem State.activate_cycleTs (n : Chan) : (s.activate n).cycleTs = s.cycleTs := rfl
@[simp] theorem State.activate_levelRms (n : Chan) : (s.activate n).levelRms = s.levelRms := rfl
@[simp] theorem State.activate_levelPeak (n : Chan) : (s.activate n).levelPeak = s.levelPeak := rfl
@[simp] theorem State.activate_dec (n : Chan) : (s.activate n).dec = s.dec := rfl
@[simp] theorem State.activate_evtSeqNext (n : Chan) : (s.activate n).evtSeqNext = s.evtSeqNext := rfl
@[simp] theorem State.activate_featMin (n : Chan) : (s.activate n).featMin = s.featMin := rfl
@[simp] theorem State.activate_prob (n : Chan) : (s.activate n).prob = s.prob := rfl
@[simp] theorem State.activate_ema (n : Chan) : (s.activate n).ema = s.ema := rfl
@[simp] theorem State.activate_smooth (n : Chan) : (s.activate n).smooth = s.smooth := rfl
@[simp] theorem State.activate_hist (n : Chan) : (s.activate n).hist = s.hist := rfl
@[simp] theorem State.activate_evq (n : Chan) : (s.activate n).evq = s.evq := rfl
@[simp] theorem State.activate_pkt (n : Chan) : (s.activate n).pkt = s.pkt := rfl
@[simp] theorem State.activate_pktSeqNext (n : Chan) : (s.activate n).pktSeqNext = s.pktSeqNext := rfl
@[simp] theorem State.activate_pktTsNext (n : Chan) : (s.activate n).pktTsNext = s.pktTsNext := rfl
@[simp] theorem State.activate_pp (n : Chan) : (s.activate n).pp = s.pp := rfl
@[simp] theorem State.activate_mem (n : Chan) : (s.activate n).mem = s.mem := rfl
@[simp] theorem State.activate_inputs (n : Chan) : (s.activate n).inputs = s.inputs := rfl
@[simp] theorem State.activate_draws (n : Chan) : (s.activate n).draws = s.draws := rfl
@[simp] theorem State.activate_busData (n : Chan) : (s.activate n).busData = s.busData := rfl

/-! ### decClear -/

@[simp] theorem State.decClear_cfgValid : (s.decClear).cfgValid = s.cfgValid := rfl
@[simp] theorem State.decClear_run : (s.decClear).run = s.run := rfl
@[simp] theorem State.decClear_featValid : (s.decClear).featValid = s.featValid := rfl
@[simp] theorem State.decClear_chan0 : (s.decClear).chan0 = s.chan0 := rfl
@[simp] theorem State.decClear_chan1 : (s.decClear).chan1 = s.chan1 := rfl
@[simp] theorem State.decClear_irqStatus : (s.decClear).irqStatus = s.irqStatus := rfl
@[simp] theorem State.decClear_irqEnable : (s.decClear).irqEnable = s.irqEnable := rfl
@[simp] theorem State.decClear_sclk : (s.decClear).sclk = s.sclk := rfl
@[simp] theorem State.decClear_rpos0 : (s.decClear).rpos0 = s.rpos0 := rfl
@[simp] theorem State.decClear_rpos1 : (s.decClear).rpos1 = s.rpos1 := rfl
@[simp] theorem State.decClear_counters : (s.decClear).counters = s.counters := rfl
@[simp] theorem State.decClear_shadow : (s.decClear).shadow = s.shadow := rfl
@[simp] theorem State.decClear_act : (s.decClear).act = s.act := rfl
@[simp] theorem State.decClear_cycleTs : (s.decClear).cycleTs = s.cycleTs := rfl
@[simp] theorem State.decClear_levelRms : (s.decClear).levelRms = s.levelRms := rfl
@[simp] theorem State.decClear_levelPeak : (s.decClear).levelPeak = s.levelPeak := rfl
@[simp] theorem State.decClear_evtSeqNext : (s.decClear).evtSeqNext = s.evtSeqNext := rfl
@[simp] theorem State.decClear_featMin : (s.decClear).featMin = s.featMin := rfl
@[simp] theorem State.decClear_prob : (s.decClear).prob = s.prob := rfl
@[simp] theorem State.decClear_evq : (s.decClear).evq = s.evq := rfl
@[simp] theorem State.decClear_pkt : (s.decClear).pkt = s.pkt := rfl
@[simp] theorem State.decClear_pktSeqNext : (s.decClear).pktSeqNext = s.pktSeqNext := rfl
@[simp] theorem State.decClear_pktTsNext : (s.decClear).pktTsNext = s.pktTsNext := rfl
@[simp] theorem State.decClear_pp : (s.decClear).pp = s.pp := rfl
@[simp] theorem State.decClear_mem : (s.decClear).mem = s.mem := rfl
@[simp] theorem State.decClear_inputs : (s.decClear).inputs = s.inputs := rfl
@[simp] theorem State.decClear_active : (s.decClear).active = s.active := rfl
@[simp] theorem State.decClear_draws : (s.decClear).draws = s.draws := rfl
@[simp] theorem State.decClear_busData : (s.decClear).busData = s.busData := rfl

/-! ### runtimeClear -/

@[simp] theorem State.runtimeClear_cfgValid : (s.runtimeClear).cfgValid = s.cfgValid := rfl
@[simp] theorem State.runtimeClear_run : (s.runtimeClear).run = s.run := rfl
@[simp] theorem State.runtimeClear_chan0 : (s.runtimeClear).chan0 = s.chan0 := rfl
@[simp] theorem State.runtimeClear_chan1 : (s.runtimeClear).chan1 = s.chan1 := rfl
@[simp] theorem State.runtimeClear_irqStatus : (s.runtimeClear).irqStatus = s.irqStatus := rfl
@[simp] theorem State.runtimeClear_irqEnable : (s.runtimeClear).irqEnable = s.irqEnable := rfl
@[simp] theorem State.runtimeClear_sclk : (s.runtimeClear).sclk = s.sclk := rfl
@[simp] theorem State.runtimeClear_counters : (s.runtimeClear).counters = s.counters := rfl
@[simp] theorem State.runtimeClear_shadow : (s.runtimeClear).shadow = s.shadow := rfl
@[simp] theorem State.runtimeClear_act : (s.runtimeClear).act = s.act := rfl
@[simp] theorem State.runtimeClear_cycleTs : (s.runtimeClear).cycleTs = s.cycleTs := rfl
@[simp] theorem State.runtimeClear_levelRms : (s.runtimeClear).levelRms = s.levelRms := rfl
@[simp] theorem State.runtimeClear_levelPeak : (s.runtimeClear).levelPeak = s.levelPeak := rfl
@[simp] theorem State.runtimeClear_evtSeqNext : (s.runtimeClear).evtSeqNext = s.evtSeqNext := rfl
@[simp] theorem State.runtimeClear_featMin : (s.runtimeClear).featMin = s.featMin := rfl
@[simp] theorem State.runtimeClear_prob : (s.runtimeClear).prob = s.prob := rfl
@[simp] theorem State.runtimeClear_evq : (s.runtimeClear).evq = s.evq := rfl
@[simp] theorem State.runtimeClear_pkt : (s.runtimeClear).pkt = s.pkt := rfl
@[simp] theorem State.runtimeClear_pktSeqNext : (s.runtimeClear).pktSeqNext = s.pktSeqNext := rfl
@[simp] theorem State.runtimeClear_pktTsNext : (s.runtimeClear).pktTsNext = s.pktTsNext := rfl
@[simp] theorem State.runtimeClear_mem : (s.runtimeClear).mem = s.mem := rfl
@[simp] theorem State.runtimeClear_inputs : (s.runtimeClear).inputs = s.inputs := rfl
@[simp] theorem State.runtimeClear_active : (s.runtimeClear).active = s.active := rfl
@[simp] theorem State.runtimeClear_draws : (s.runtimeClear).draws = s.draws := rfl
@[simp] theorem State.runtimeClear_busData : (s.runtimeClear).busData = s.busData := rfl

/-! ### the fields an update does write -/

@[simp] theorem byChan_self {α : Type} (n : Chan) (a : α) : byChan n a a = a := by cases n <;> rfl
@[simp] theorem byChan_ch0 {α : Type} (a b : α) : byChan .ch0 a b = a := rfl
@[simp] theorem byChan_ch1 {α : Type} (a b : α) : byChan .ch1 a b = b := rfl
@[simp] theorem otherChan_ch0 : otherChan .ch0 = .ch1 := rfl
@[simp] theorem otherChan_ch1 : otherChan .ch1 = .ch0 := rfl
@[simp] theorem otherChan_ne (n : Chan) : otherChan n ≠ n := by cases n <;> decide
@[simp] theorem State.chan_ch0 : s.chan .ch0 = s.chan0 := rfl
@[simp] theorem State.chan_ch1 : s.chan .ch1 = s.chan1 := rfl
@[simp] theorem State.rpos_ch0 : s.rpos .ch0 = s.rpos0 := rfl
@[simp] theorem State.rpos_ch1 : s.rpos .ch1 = s.rpos1 := rfl

@[simp] theorem State.setChan_chan (n : Chan) (c : Channel) : (s.setChan n c).chan n = c := by cases n <;> rfl
theorem State.setChan_chan_other {n k : Chan} (h : k ≠ n) (c : Channel) : (s.setChan n c).chan k = s.chan k := by
  cases n <;> cases k <;> first | rfl | exact absurd rfl h
@[simp] theorem Irq.mask_done (n : Chan) : (Irq.done n).mask = doneBit n := by cases n <;> rfl
@[simp] theorem Irq.mask_err (n : Chan) : (Irq.err n).mask = errBit n := by cases n <;> rfl
@[simp] theorem State.setIrq_irqStatus (q : Irq) : (s.setIrq q).irqStatus = s.irqStatus ||| q.mask := rfl
@[simp] theorem State.setIrqIf_irqStatus (b : Bool) (q : Irq) :
    (s.setIrqIf b q).irqStatus = if b then s.irqStatus ||| q.mask else s.irqStatus := rfl
@[simp] theorem State.setCounters_counters (f : Counters → Counters) : (s.setCounters f).counters = f s.counters := rfl
@[simp] theorem State.setRpos_rpos (r : Chan) (p : Pos) : (s.setRpos r p).rpos r = p := by cases r <;> rfl
theorem State.setRpos_rpos_other {r k : Chan} (h : k ≠ r) (p : Pos) : (s.setRpos r p).rpos k = s.rpos k := by
  cases r <;> cases k <;> first | rfl | exact absurd rfl h
@[simp] theorem State.advance_rpos (r : Chan) (p : Pos) (k : Nat) :
    (s.advance r p k).rpos r = BitVec.ofNat 64 (max (p.toNat + k) (s.rpos r).toNat) := by cases r <;> rfl
theorem State.advance_rpos_other {r n : Chan} (h : n ≠ r) (p : Pos) (k : Nat) :
    (s.advance r p k).rpos n = s.rpos n := State.setRpos_rpos_other s h _
@[simp] theorem State.setResult_chan (v : Word) :
    (s.setResult v).chan s.active = { s.chan s.active with result := v } := State.setChan_chan s _ _
theorem State.setResult_chan_other {n : Chan} (h : n ≠ s.active) (v : Word) : (s.setResult v).chan n = s.chan n :=
  State.setChan_chan_other s h _
@[simp] theorem State.latch_chan (n : Chan) (w : Word) :
    (s.latch n w).chan n = { s.chan n with pending := .latched w, unobserved := { word := w, cfg := s.act, hpos := s.dec.hpos } :: (s.chan n).unobserved } :=
  State.setChan_chan s _ _
theorem State.latch_chan_other {n k : Chan} (h : k ≠ n) (w : Word) : (s.latch n w).chan k = s.chan k :=
  State.setChan_chan_other s h _
@[simp] theorem State.begin_chan (w : Word) (e : Option ErrCode) :
    (s.begin w e).chan s.active = { s.chan s.active with pending := .begun w e s.snapshot } := State.setChan_chan s _ _
theorem State.begin_chan_other {n : Chan} (h : n ≠ s.active) (w : Word) (e : Option ErrCode) :
    (s.begin w e).chan n = s.chan n := State.setChan_chan_other s h _
@[simp] theorem State.complete_chan (opc : Byte) (e : Option ErrCode) :
    (s.complete opc e).chan s.active
      = { s.chan s.active with pending := .idle, errOpc := opc, errCode := completionCode e } := by
  show (s.setChan s.active _).chan s.active = _
  exact State.setChan_chan s _ _
theorem State.complete_chan_other {n : Chan} (h : n ≠ s.active) (opc : Byte) (e : Option ErrCode) :
    (s.complete opc e).chan n = s.chan n := by
  show (s.setChan s.active _).chan n = _
  exact State.setChan_chan_other s h _
theorem State.complete_irqStatus (opc : Byte) (e : Option ErrCode) :
    (s.complete opc e).irqStatus
      = if decide (completionCode e ≠ 0) then s.irqStatus ||| doneBit s.active ||| errBit s.active
        else s.irqStatus ||| doneBit s.active := by rw [← Irq.mask_done, ← Irq.mask_err]; rfl
@[simp] theorem State.drawArray_draws (a : Arr) (k : Nat) : (s.drawArray a k).draws = s.draws + k := rfl
theorem State.drawArray_mem (a : Arr) (k : Nat) :
    (s.drawArray a k).mem = loopUpTo k (fun i m => store a i (s.freeAt i) m) s.mem := rfl
@[simp] theorem State.activate_active (n : Chan) : (s.activate n).active = n := rfl
@[simp] theorem State.activate_chan (n k : Chan) : (s.activate n).chan k = s.chan k := rfl
@[simp] theorem State.decClear_dec : s.decClear.dec = Decision.reset := rfl
@[simp] theorem State.decClear_ema : s.decClear.ema = zeros8 := rfl
@[simp] theorem State.decClear_smooth : s.decClear.smooth = zeros8 := rfl
@[simp] theorem State.decClear_hist : s.decClear.hist = zeros64 := rfl
@[simp] theorem State.runtimeClear_dec : s.runtimeClear.dec = Decision.reset := rfl
@[simp] theorem State.runtimeClear_ema : s.runtimeClear.ema = zeros8 := rfl
@[simp] theorem State.runtimeClear_smooth : s.runtimeClear.smooth = zeros8 := rfl
@[simp] theorem State.runtimeClear_hist : s.runtimeClear.hist = zeros64 := rfl
@[simp] theorem State.runtimeClear_rpos0 : s.runtimeClear.rpos0 = s.sclk := rfl
@[simp] theorem State.runtimeClear_rpos1 : s.runtimeClear.rpos1 = s.sclk := rfl
@[simp] theorem State.runtimeClear_pp : s.runtimeClear.pp = PrepState.reset := rfl
@[simp] theorem State.runtimeClear_featValid : s.runtimeClear.featValid = false := rfl

end Sys2Proof.Machine
end

