-- ==== Sys2Proof/Laws/Memory.lean ====
section
/-!
SUPPORT. The laws of memory, of its loops and of the arrays: read after write, the canonical form, and what a loop
keeps.
-/

namespace Sys2Proof.Machine

/-! ### Bytes -/

@[simp] theorem Memory.readByte_nil (off : Nat) : Memory.readByte [] off = none := rfl

theorem Memory.readByte_writeByte (m : Memory) (off k : Nat) (v : Byte) :
    (m.writeByte off v).readByte k = if k = off then some v else m.readByte k := by
  induction m with
  | nil => simp [Memory.writeByte, Memory.readByte]
  | cons c rest ih =>
    obtain ⟨a, b⟩ := c
    simp only [Memory.writeByte]
    split
    · simp [Memory.readByte]
    · split
      · next h => subst h; by_cases hk : k = off <;> simp [Memory.readByte, hk]
      · next h =>
        simp only [Memory.readByte, ih]
        by_cases hk : k = a
        · subst hk; simp [Ne.symm h]
        · simp [hk]

@[simp] theorem Memory.readByte_writeByte_same (m : Memory) (off : Nat) (v : Byte) :
    (m.writeByte off v).readByte off = some v := by simp [Memory.readByte_writeByte]

theorem Memory.readByte_writeByte_other (m : Memory) {off k : Nat} (v : Byte) (h : k ≠ off) :
    (m.writeByte off v).readByte k = m.readByte k := by simp [Memory.readByte_writeByte, h]

/-! ### The canonical form -/

theorem Memory.wf_cons_iff (c : Host.Cell) (m : Memory) :
    Memory.wf (c :: m) = true ↔ (∀ d ∈ m.head?, c.1 < d.1) ∧ Memory.wf m = true := by
  cases m with
  | nil => simp [Memory.wf]
  | cons d rest => simp [Memory.wf]

theorem Memory.head_writeByte (m : Memory) (off : Nat) (v : Byte) (lo : Nat) (hlo : lo < off)
    (h : ∀ d ∈ m.head?, lo < d.1) : ∀ d ∈ (m.writeByte off v).head?, lo < d.1 := by
  cases m with
  | nil => simpa [Memory.writeByte] using hlo
  | cons c rest =>
    obtain ⟨a, b⟩ := c
    simp only [Memory.writeByte]
    split
    · simpa using hlo
    · split
      · simpa using hlo
      · simpa using h

theorem Memory.wf_writeByte (m : Memory) (off : Nat) (v : Byte) (h : m.wf = true) : (m.writeByte off v).wf = true := by
  induction m with
  | nil => rfl
  | cons c rest ih =>
    obtain ⟨a, b⟩ := c
    obtain ⟨h1, h2⟩ := (Memory.wf_cons_iff _ _).1 h
    simp only [Memory.writeByte]
    split
    · next hlt => exact (Memory.wf_cons_iff _ _).2 ⟨by simpa using hlt, h⟩
    · split
      · next heq => subst heq; exact (Memory.wf_cons_iff _ _).2 ⟨h1, h2⟩
      · next hlt hne =>
        exact (Memory.wf_cons_iff _ _).2 ⟨Memory.head_writeByte rest off v a (by omega) h1, ih h2⟩

theorem Memory.wf_writeWord (m : Memory) (off : Nat) (v : Word) (h : m.wf = true) : (m.writeWord off v).wf = true := by
  simp only [Memory.writeWord]
  exact Memory.wf_writeByte _ _ _ (Memory.wf_writeByte _ _ _ (Memory.wf_writeByte _ _ _ (Memory.wf_writeByte _ _ _ h)))

theorem store_wf (a : Arr) (i : Nat) (v : Word) (m : Memory) (h : m.wf = true) : (store a i v m).wf = true :=
  Memory.wf_writeWord m _ v h

/-! ### Words -/

theorem Memory.readByte_writeWord_other (m : Memory) {off k : Nat} (v : Word) (h : k < off ∨ off + 4 ≤ k) :
    (m.writeWord off v).readByte k = m.readByte k := by
  simp only [Memory.writeWord]
  rw [Memory.readByte_writeByte_other _ _ (by omega), Memory.readByte_writeByte_other _ _ (by omega),
    Memory.readByte_writeByte_other _ _ (by omega), Memory.readByte_writeByte_other _ _ (by omega)]

theorem wordOfBytes_lanes (v : Word) :
    wordOfBytes (byteLane v 0) (byteLane v 1) (byteLane v 2) (byteLane v 3) = v := by
  apply BitVec.eq_of_getLsbD_eq
  intro i hi
  simp only [wordOfBytes, byteLane, BitVec.getLsbD_append, BitVec.getLsbD_extractLsb']
  by_cases h1 : i < 8
  · simp [h1]
  · by_cases h2 : i - 8 < 8
    · simp [h1, h2, show 8 + (i - 8) = i by omega]
    · by_cases h3 : i - 8 - 8 < 8
      · simp [h1, h2, h3, show 16 + (i - 8 - 8) = i by omega]
      · simp [h1, h2, h3, show 24 + (i - 8 - 8 - 8) = i by omega]
        omega

@[simp] theorem Memory.readWord_writeWord_same (m : Memory) (off : Nat) (v : Word) :
    (m.writeWord off v).readWord off = some v := by
  simp [Memory.readWord, Memory.writeWord, Memory.readByte_writeByte, wordOfBytes_lanes]

theorem Memory.readWord_congr {m m' : Memory} {off : Nat} (h : ∀ k, off ≤ k → k < off + 4 → m'.readByte k = m.readByte k) :
    m'.readWord off = m.readWord off := by
  simp [Memory.readWord, h off (by omega) (by omega), h (off + 1) (by omega) (by omega),
    h (off + 2) (by omega) (by omega), h (off + 3) (by omega) (by omega)]

theorem Memory.readWord_writeWord_other (m : Memory) {off k : Nat} (v : Word) (h : k + 4 ≤ off ∨ off + 4 ≤ k) :
    (m.writeWord off v).readWord k = m.readWord k :=
  Memory.readWord_congr fun j h1 h2 => Memory.readByte_writeWord_other m v (by omega)

/-! ### Arrays -/

/-- Where each array ends: no word of one array overlaps a word of another (R23). -/
theorem Arr.off_disjoint {a b : Arr} {i j : Nat} (hi : i < a.len) (hj : j < b.len) (h : a ≠ b ∨ i ≠ j) :
    a.off i + 4 ≤ b.off j ∨ b.off j + 4 ≤ a.off i := by
  by_cases hab : a = b
  · subst hab
    have : i ≠ j := by simpa using h
    simp only [Arr.off]
    omega
  · cases a <;> cases b <;> first | exact absurd rfl hab | (simp only [Arr.off, Arr.base, Arr.len_aedp1] at *; omega)

theorem load_ok_iff {a : Arr} {i : Nat} {m : Memory} {v : Word} :
    load a i m = .ok v ↔ m.readWord (a.off i) = some v := by
  unfold load
  split <;> simp_all

@[simp] theorem load_store_same (a : Arr) (i : Nat) (v : Word) (m : Memory) : load a i (store a i v m) = .ok v := by
  simp [load, store]

theorem load_congr {a : Arr} {i : Nat} {m m' : Memory} (h : m'.readWord (a.off i) = m.readWord (a.off i)) :
    load a i m' = load a i m := by simp [load, h]

theorem load_store_other {a b : Arr} {i j : Nat} (v : Word) (m : Memory) (hi : i < a.len) (hj : j < b.len)
    (h : a ≠ b ∨ i ≠ j) : load a i (store b j v m) = load a i m :=
  load_congr (Memory.readWord_writeWord_other m v (Arr.off_disjoint hi hj h))

theorem store_readByte_other {a : Arr} {i k : Nat} (v : Word) (m : Memory) (h : k < a.off i ∨ a.off i + 4 ≤ k) :
    (store a i v m).readByte k = m.readByte k := Memory.readByte_writeWord_other m v h

theorem written_load {a : Arr} {n : Nat} {m : Memory} (h : Written a n m) {i : Nat} (hi : i < n) :
    ∃ v, load a i m = .ok v := by
  obtain ⟨v, hv⟩ := Option.isSome_iff_exists.1 (h i hi)
  exact ⟨v, load_ok_iff.2 hv⟩

theorem store_keeps_written {a b : Arr} {n j : Nat} (v : Word) {m : Memory} (hn : n ≤ a.len) (hj : j < b.len)
    (h : Written a n m) : Written a n (store b j v m) := by
  intro i hi
  by_cases hab : a = b ∧ i = j
  · obtain ⟨rfl, rfl⟩ := hab
    simp [store]
  · have hd : a ≠ b ∨ i ≠ j := by
      by_cases h1 : a = b
      · exact .inr fun h2 => hab ⟨h1, h2⟩
      · exact .inl h1
    have := load_store_other v m (by omega) hj hd
    obtain ⟨w, hw⟩ := written_load h hi
    rw [hw] at this
    exact Option.isSome_iff_exists.2 ⟨w, load_ok_iff.1 this⟩

/-! ### Loops -/

theorem forUpTo_succ {σ : Type} (n : Nat) (body : Nat → σ → Except Fault σ) (x : σ) :
    forUpTo (n + 1) body x = match forUpTo n body x with
      | .ok y => body n y
      | .error f => .error f := rfl

@[simp] theorem forUpTo_zero {σ : Type} (body : Nat → σ → Except Fault σ) (x : σ) : forUpTo 0 body x = .ok x := rfl

/-- What every round of a loop keeps, the loop keeps. -/
theorem forUpTo_keeps {σ : Type} {n : Nat} {body : Nat → σ → Except Fault σ} {x z : σ} (P : Nat → σ → Prop)
    (h0 : P 0 x) (hs : ∀ k y y', k < n → P k y → body k y = .ok y' → P (k + 1) y')
    (h : forUpTo n body x = .ok z) : P n z := by
  induction n generalizing z with
  | zero => rw [forUpTo_zero] at h; cases h; exact h0
  | succ n ih =>
    rw [forUpTo_succ] at h
    split at h
    · next y hy => exact hs n y z (by omega) (ih (fun k y y' hk => hs k y y' (by omega)) hy) h
    · cases h

/-- A loop whose rounds all complete, under what they keep, completes. -/
theorem forUpTo_completes {σ : Type} {n : Nat} {body : Nat → σ → Except Fault σ} {x : σ} (P : Nat → σ → Prop)
    (h0 : P 0 x) (hs : ∀ k y, k < n → P k y → ∃ y', body k y = .ok y' ∧ P (k + 1) y') :
    ∃ z, forUpTo n body x = .ok z ∧ P n z := by
  induction n with
  | zero => exact ⟨x, rfl, h0⟩
  | succ n ih =>
    obtain ⟨y, hy, hp⟩ := ih (fun k y hk => hs k y (by omega))
    obtain ⟨z, hz, hq⟩ := hs n y (by omega) hp
    exact ⟨z, by rw [forUpTo_succ, hy]; exact hz, hq⟩

@[simp] theorem loopUpTo_zero {σ : Type} (body : Nat → σ → σ) (x : σ) : loopUpTo 0 body x = x := rfl

theorem loopUpTo_succ {σ : Type} (n : Nat) (body : Nat → σ → σ) (x : σ) :
    loopUpTo (n + 1) body x = body n (loopUpTo n body x) := rfl

theorem loopUpTo_keeps {σ : Type} {n : Nat} {body : Nat → σ → σ} {x : σ} (P : Nat → σ → Prop)
    (h0 : P 0 x) (hs : ∀ k y, k < n → P k y → P (k + 1) (body k y)) : P n (loopUpTo n body x) := by
  induction n with
  | zero => exact h0
  | succ n ih => exact hs n _ (by omega) (ih fun k y hk => hs k y (by omega))

theorem collect_length {α : Type} {n : Nat} {f : Nat → Except Fault α} {xs : List α} (h : collect n f = .ok xs) :
    xs.length = n := by
  induction n generalizing xs with
  | zero => simp only [collect] at h; cases h; rfl
  | succ n ih =>
    simp only [collect] at h
    split at h
    · next ys hys =>
      split at h
      · cases h; simp [ih hys]
      · cases h
    · cases h

theorem collect_get {α : Type} {n : Nat} {f : Nat → Except Fault α} {xs : List α} (h : collect n f = .ok xs) :
    ∀ i, i < n → ∃ x, xs[i]? = some x ∧ f i = .ok x := by
  induction n generalizing xs with
  | zero => intro i hi; omega
  | succ n ih =>
    have hlen := collect_length h
    simp only [collect] at h
    split at h
    · next ys hys =>
      split at h
      · next x hx =>
        cases h
        have hy := collect_length hys
        intro i hi
        by_cases hin : i < n
        · obtain ⟨v, hv, hf⟩ := ih hys i hin
          exact ⟨v, by rw [List.getElem?_append_left (by omega)]; exact hv, hf⟩
        · have : i = n := by omega
          subst this
          exact ⟨x, by simp [← hy], hx⟩
      · cases h
    · cases h

theorem collect_completes {α : Type} {n : Nat} {f : Nat → Except Fault α} (h : ∀ i, i < n → ∃ x, f i = .ok x) :
    ∃ xs, collect n f = .ok xs := by
  induction n with
  | zero => exact ⟨[], rfl⟩
  | succ n ih =>
    obtain ⟨ys, hys⟩ := ih fun i hi => h i (by omega)
    obtain ⟨x, hx⟩ := h n (by omega)
    exact ⟨ys ++ [x], by simp [collect, hys, hx]⟩

/-- The words of `a[0 .. n-1]` stored one after another, read back. -/
theorem load_storeLoop_same {a : Arr} {n i : Nat} (f : Nat → Word) (m : Memory) (hn : n ≤ a.len) (hi : i < n) :
    load a i (loopUpTo n (fun j t => store a j (f j) t) m) = .ok (f i) := by
  refine loopUpTo_keeps (fun k t => i < k → load a i t = .ok (f i)) (by omega) (fun k t hk ih hik => ?_) hi
  by_cases h : i = k
  · subst h; simp
  · rw [load_store_other _ _ (by omega) (by omega) (.inr h)]
    exact ih (by omega)

/-- A loop of stores to `a[0 .. n-1]` leaves every byte outside them alone. -/
theorem readByte_storeLoop_other {a : Arr} {n off : Nat} (f : Nat → Word) (m : Memory)
    (h : inBlock a.base n off = false) :
    (loopUpTo n (fun j t => store a j (f j) t) m).readByte off = m.readByte off := by
  have hb : off < a.base ∨ a.base + 4 * n ≤ off := by
    simp only [inBlock, Bool.and_eq_false_iff, decide_eq_false_iff_not] at h
    omega
  refine loopUpTo_keeps (fun _ (t : Memory) => t.readByte off = m.readByte off) rfl fun k t hk ih => ?_
  rw [store_readByte_other _ _ (by simp only [Arr.off]; omega), ih]

theorem wf_storeLoop {a : Arr} {n : Nat} (f : Nat → Word) {m : Memory} (h : m.wf = true) :
    (loopUpTo n (fun j t => store a j (f j) t) m).wf = true :=
  loopUpTo_keeps (fun _ (t : Memory) => t.wf = true) h fun k t _ ih => store_wf a k (f k) t ih

end Sys2Proof.Machine
end

