-- ==== Sys2Proof/Laws/Ops.lean ====
section
/-!
SUPPORT. What each shared operation can do, said once: completing a command, the two steps of a command, the copy of
samples, the acceptance of a sample, and the host's accesses.
-/

namespace Sys2Proof.Machine

/-! ### Completion (R26, R27, R353) -/

@[simp] theorem completionCode_none : completionCode none = 0 := rfl
@[simp] theorem completionCode_some (e : ErrCode) : completionCode (some e) = e.code := rfl

theorem State.complete_idle (s : State) (opc : Byte) (e : Option ErrCode) :
    ((s.complete opc e).chan s.active).pending = .idle := by rw [State.complete_chan]

theorem State.complete_not_busy (s : State) (opc : Byte) (e : Option ErrCode) :
    (s.complete opc e).busy s.active = false := by simp [State.busy, State.complete_chan, Pending.busy]

theorem State.complete_busy_other (s : State) {n : Chan} (h : n ≠ s.active) (opc : Byte) (e : Option ErrCode) :
    (s.complete opc e).busy n = s.busy n := by simp [State.busy, State.complete_chan_other s h]

theorem State.complete_ok_irqStatus (s : State) (opc : Byte) :
    (s.complete opc none).irqStatus = s.irqStatus ||| doneBit s.active := by rw [← Irq.mask_done]; rfl

/-! ### The END step and a whole command (R90) -/

/-- Everything an END step can do when it answers a next state. -/
theorem State.finish_next {s t : State} {i : Instr} {verdict : Option ErrCode} {effect : State → Except Fault State}
    (h : s.finish i verdict effect = .next t) :
    (∃ e, verdict = some e ∧ t = s.complete i.opcode.byte (some e)) ∨
    (verdict = none ∧ ∃ u, effect s = .ok u ∧ t = u.complete i.opcode.byte none) := by
  unfold State.finish at h
  split at h
  · next e => cases h; exact .inl ⟨e, rfl, rfl⟩
  · split at h
    · next u hu => cases h; exact .inr ⟨rfl, u, hu, rfl⟩
    · cases h

@[simp] theorem State.finish_error (s : State) (i : Instr) (e : ErrCode) (effect : State → Except Fault State) :
    s.finish i (some e) effect = .next (s.complete i.opcode.byte (some e)) := rfl

theorem State.finish_ok {s u : State} {i : Instr} {effect : State → Except Fault State} (h : effect s = .ok u) :
    s.finish i none effect = .next (u.complete i.opcode.byte none) := by simp [State.finish, h]

theorem State.finish_fault {s : State} {i : Instr} {effect : State → Except Fault State} {f : Fault}
    (h : effect s = .error f) : s.finish i none effect = .fault f := by simp [State.finish, h]

theorem State.finish_never_refuses (s : State) (i : Instr) (v : Option ErrCode) (effect : State → Except Fault State)
    (r : Refusal) : s.finish i v effect ≠ .refused r := by
  unfold State.finish
  split
  · simp
  · split <;> simp

theorem State.beginResult_begun {s : State} {check : State → Option ErrCode} {w : Word} {v : Option ErrCode}
    {sn : Snapshot} (h : (s.chan s.active).pending = .begun w v sn) : s.beginResult check = (v, sn) := by
  simp [State.beginResult, h]

theorem State.beginResult_fresh {s : State} {check : State → Option ErrCode}
    (h : ∀ w v sn, (s.chan s.active).pending ≠ .begun w v sn) : s.beginResult check = (check s, s.snapshot) := by
  unfold State.beginResult
  split
  · next w v sn hp => exact absurd hp (h w v sn)
  · rfl
  · rfl

/-- Everything a command can do when it answers a next state. -/
theorem runCommand_next {i : Instr} {check : State → Option ErrCode} {effect : Snapshot → State → Except Fault State}
    {s t : State} (h : runCommand i check effect s = .next t) :
    (∃ e, (s.beginResult check).1 = some e ∧ t = s.complete i.opcode.byte (some e)) ∨
    ((s.beginResult check).1 = none ∧ ∃ u, effect (s.beginResult check).2 s = .ok u ∧ t = u.complete i.opcode.byte none) :=
  State.finish_next h

/-- A command whose BEGIN finds an error completes with it and has no other effect (R352). -/
theorem runCommand_error {i : Instr} {check : State → Option ErrCode} {effect : Snapshot → State → Except Fault State}
    {s : State} {e : ErrCode} (h : (s.beginResult check).1 = some e) :
    runCommand i check effect s = .next (s.complete i.opcode.byte (some e)) := by
  unfold runCommand; rw [h]; rfl

theorem runCommand_ok {i : Instr} {check : State → Option ErrCode} {effect : Snapshot → State → Except Fault State}
    {s u : State} {sn : Snapshot} (h : s.beginResult check = (none, sn)) (hu : effect sn s = .ok u) :
    runCommand i check effect s = .next (u.complete i.opcode.byte none) := by
  unfold runCommand; rw [h]; exact State.finish_ok hu

/-- Everything an atomic command can do when it answers a next state. -/
theorem runAtomic_next {i : Instr} {check : State → Option ErrCode} {effect : State → Except Fault State}
    {s t : State} (h : runAtomic i check effect s = .next t) :
    (∃ e, check s = some e ∧ t = s.complete i.opcode.byte (some e)) ∨
    (check s = none ∧ ∃ u, effect s = .ok u ∧ t = u.complete i.opcode.byte none) := State.finish_next h

/-! ### Checks (R351) -/

@[simp] theorem thenCheck_none (b : Option ErrCode) : thenCheck none b = b := rfl
@[simp] theorem thenCheck_some (e : ErrCode) (b : Option ErrCode) : thenCheck (some e) b = some e := rfl

theorem thenCheck_eq_none_iff (a b : Option ErrCode) : thenCheck a b = none ↔ a = none ∧ b = none := by
  cases a <;> simp

@[simp] theorem State.needcfg_eq_none_iff (s : State) : s.needcfg = none ↔ s.cfgValid = true := by
  unfold State.needcfg; split <;> simp_all
@[simp] theorem State.needrun_eq_none_iff (s : State) : s.needrun = none ↔ s.run = true := by
  unfold State.needrun; split <;> simp_all
@[simp] theorem State.needstop_eq_none_iff (s : State) : s.needstop = none ↔ s.run = false := by
  unfold State.needstop; split <;> simp_all
@[simp] theorem State.needidle1_eq_none_iff (s : State) : s.needidle1 = none ↔ s.busy .ch1 = false := by
  unfold State.needidle1; split <;> simp_all

theorem inRange_iff (v hi : Nat) : inRange v hi = true ↔ 1 ≤ v ∧ v ≤ hi := by simp [inRange]

theorem firstFailing_eq_none_iff (l : List (Nat × Bool)) : firstFailing l = none ↔ ∀ c ∈ l, c.2 = true := by
  induction l with
  | nil => simp [firstFailing]
  | cons c rest ih =>
    obtain ⟨i, b⟩ := c
    cases b <;> simp [firstFailing, ih]

/-! ### Commands on the arrays only -/

/-- Everything `onMemory` can do when it answers. -/
theorem onMemory_ok {f : Memory → Except Fault Memory} {s u : State} (h : onMemory f s = .ok u) :
    ∃ m, f s.mem = .ok m ∧ u = { s with mem := m } := by
  unfold onMemory at h
  split at h
  · next m hm => cases h; exact ⟨m, hm, rfl⟩
  · cases h

theorem onMemory_of_ok {f : Memory → Except Fault Memory} {s : State} {m : Memory} (h : f s.mem = .ok m) :
    onMemory f s = .ok { s with mem := m } := by simp [onMemory, h]

/-! ### Samples (R170, R173) -/

/-- An eviction changes one cursor, one counter and one event bit; the memory and the sample clock stay (R171). -/
theorem State.evictIfFull_mem (s : State) (r : Chan) : (s.evictIfFull r).mem = s.mem := by
  unfold State.evictIfFull; split <;> rfl
theorem State.evictIfFull_sclk (s : State) (r : Chan) : (s.evictIfFull r).sclk = s.sclk := by
  unfold State.evictIfFull; split <;> rfl
theorem State.evictIfFull_act (s : State) (r : Chan) : (s.evictIfFull r).act = s.act := by
  unfold State.evictIfFull; split <;> rfl

/-- While stopped a sample is discarded and counted (R170). -/
theorem State.accept_stopped {s : State} (h : s.run = false) (x : Sample) :
    s.accept x = (s.setCounters Counters.bumpDiscard).setIrq .discard := by simp [State.accept, h]

/-- The memory a running block has after a sample (R170). -/
theorem State.accept_mem {s : State} (h : s.run = true) (x : Sample) :
    (s.accept x).mem = store .rbram (slotOf s.act s.sclk.toNat) (sampleWord x) s.mem := by
  simp [State.accept, h, State.evictIfFull_mem, State.evictIfFull_sclk, State.evictIfFull_act]

theorem State.accept_sclk {s : State} (h : s.run = true) (x : Sample) : (s.accept x).sclk = s.sclk + 1 := by
  simp [State.accept, h, State.evictIfFull_sclk]

/-- Everything the copy of samples can do when it answers (R173, R174, R90). -/
theorem copyOut_ok {ncnt : Nat} {sn : Snapshot} {s t : State} (h : copyOut ncnt sn s = .ok t) :
    ∃ m, forUpTo (copyCount ncnt sn) (fun i m => match sn.sample s.act i with
        | .ok x => .ok (store (scratchOf s.active) i (sampleWord x) m)
        | .error f => .error f) s.mem = .ok m ∧
      t = ((if s.evicted sn then ({ s with mem := m } : State).drawArray (scratchOf s.active) (copyCount ncnt sn)
        else { s with mem := m }).setResult (BitVec.ofNat 32 (copyCount ncnt sn))) := by
  unfold copyOut at h
  simp only at h
  split at h
  · cases h
  · next m hm => cases h; exact ⟨m, hm, rfl⟩

/-! ### The host's accesses (R82-R86) -/

/-- Everything a host read can do when it is no fault. -/
theorem State.hostRead_next {s t : State} {width off : Nat} (h : s.hostRead width off = .next t) :
    ∃ l v, busLoc width off = some l ∧ s.stale off = false ∧ s.readLoc l = .ok v ∧
      t = { s.observeStatus l with busData := v } := by
  unfold State.hostRead at h
  split at h
  · cases h
  · next l hl =>
    split at h
    · cases h
    · next hs =>
      split at h
      · next v hv => cases h; exact ⟨l, v, hl, by simpa using hs, hv, rfl⟩
      · cases h

/-- Everything a host write can do when it is no fault. -/
theorem State.hostWrite_next {s t : State} {width off : Nat} {v : Word} (h : s.hostWrite width off v = .next t) :
    ∃ l, busLoc width off = some l ∧ s.hazard off = false ∧ t = s.writeLoc l v := by
  unfold State.hostWrite at h
  split at h
  · cases h
  · next l hl =>
    split at h
    · cases h
    · next hs => cases h; exact ⟨l, hl, by simpa using hs, rfl⟩

/-! ### Engines -/

/-- Everything an engine's END can do when it answers a next state (R90, R110). -/
theorem State.engineRun_next {s t : State} (h : s.engineRun = .next t) :
    ((s.chan s.active).pending = .idle ∧ t = s) ∨
    (∃ w e, (s.chan s.active).pending.word? = some w ∧ decodeOn s.active w = .error e ∧
      t = s.complete (opcodeByte w) (some (ErrCode.ofDecode e))) ∨
    (∃ w i, (s.chan s.active).pending.word? = some w ∧ decodeOn s.active w = .ok i ∧ exec i s = .next t) := by
  unfold State.engineRun at h
  split at h
  · next hw =>
    cases h
    refine .inl ⟨?_, rfl⟩
    revert hw
    cases (s.chan s.active).pending <;> simp [Pending.word?]
  · next w hw =>
    split at h
    · next i hi => exact .inr (.inr ⟨w, i, hw, hi, h⟩)
    · next e he => cases h; exact .inr (.inl ⟨w, e, hw, he, rfl⟩)

end Sys2Proof.Machine
end

