-- ==== Sys2Proof/Laws/Bus.lean ====
section
/-!
SUPPORT. The words a command writes (spec/70_reset_and_hazards.md R386): the blocks that a host read is held against are
the table of Safety.lean, and what STALE_CMD says of one issued command.
-/

namespace Sys2Proof.Machine

theorem inBlock_iff (base n off : Nat) : inBlock base n off = true ↔ base ≤ off ∧ off < base + 4 * n := by
  simp only [inBlock, Bool.and_eq_true, decide_eq_true_eq]

theorem inBlocks_iff (bs : List (Nat × Nat)) (off : Nat) :
    inBlocks bs off = true ↔ ∃ b ∈ bs, inBlock b.1 b.2 off = true := by simp only [inBlocks, List.any_eq_true]

@[simp] theorem inBlocks_nil (off : Nat) : inBlocks [] off = false := rfl

theorem inBlocks_cons (b : Nat × Nat) (bs : List (Nat × Nat)) (off : Nat) :
    inBlocks (b :: bs) off = true ↔ inBlock b.1 b.2 off = true ∨ inBlocks bs off = true := by
  simp only [inBlocks, List.any_cons, Bool.or_eq_true]

theorem inBlocks_append (bs cs : List (Nat × Nat)) (off : Nat) :
    inBlocks (bs ++ cs) off = true ↔ inBlocks bs off = true ∨ inBlocks cs off = true := by
  simp only [inBlocks, List.any_append, Bool.or_eq_true]

/-- An aligned offset in the first words of an array is one of them. -/
theorem inBlock_first (a : Arr) (n : Nat) {off : Nat} (h : off % 4 = 0) :
    inBlock (a.first n).1 (a.first n).2 off = true ↔ InArray a n off := by
  have hb : a.base % 4 = 0 := by cases a <;> rfl
  rw [inBlock_iff]
  simp only [Arr.first, InArray, Arr.off]
  constructor
  · intro ⟨h1, h2⟩
    exact ⟨(off - a.base) / 4, by omega, by omega⟩
  · rintro ⟨i, hi, rfl⟩
    omega

/-- An aligned offset in a block of words at an aligned offset is one of its words. -/
theorem inBlock_words {base n off : Nat} (hb : base % 4 = 0) (h : off % 4 = 0) :
    inBlock base n off = true ↔ ∃ k, k < n ∧ off = base + 4 * k := by
  rw [inBlock_iff]
  constructor
  · intro ⟨h1, h2⟩
    exact ⟨(off - base) / 4, by omega, by omega⟩
  · rintro ⟨k, hk, rfl⟩
    omega

theorem inBlocks_bitrev (c : Cfg) {off : Nat} (h : off % 4 = 0) :
    inBlocks (bitrevBlocks c) off = true ↔
      ∃ j, j < c.fftSize ∧ revBits c.fftLog2.toNat j ≠ j ∧ (off = Arr.workRe.off j ∨ off = Arr.workIm.off j) := by
  have hone (a : Arr) (j : Nat) : inBlock (a.off j) 1 off = true ↔ off = a.off j := by
    have hb : a.base % 4 = 0 := by cases a <;> rfl
    rw [inBlock_iff]
    simp only [Arr.off]
    omega
  simp only [inBlocks_iff, bitrevBlocks, List.mem_flatMap, List.mem_filter, List.mem_range, decide_eq_true_eq,
    List.mem_cons, List.not_mem_nil, or_false]
  constructor
  · rintro ⟨b, ⟨j, ⟨hj, hr⟩, rfl | rfl⟩, hb⟩
    · exact ⟨j, hj, hr, .inl ((hone _ _).1 hb)⟩
    · exact ⟨j, hj, hr, .inr ((hone _ _).1 hb)⟩
  · rintro ⟨j, hj, hr, ho | ho⟩
    · exact ⟨_, ⟨j, ⟨hj, hr⟩, .inl rfl⟩, (hone _ _).2 ho⟩
    · exact ⟨_, ⟨j, ⟨hj, hr⟩, .inr rfl⟩, (hone _ _).2 ho⟩

theorem inBlocks_copy (c : Cfg) (n : Chan) (k : Nat) {off : Nat} (h : off % 4 = 0) :
    inBlocks (copyBlocks c n k) off = true ↔
      IsResult n off ∨ ∃ j, j < k ∧ j < c.capacity ∧ off = (scratchOf n).off j := by
  simp only [copyBlocks, inBlocks_cons, inBlocks_nil, inBlock_first _ _ h, InArray, Nat.lt_min, and_assoc,
    Bool.false_eq_true, or_false]
  refine or_congr ?_ Iff.rfl
  cases n <;> simp only [resultBlock, IsResult, inBlock_iff] <;> omega

theorem inBlocks_reader (r : Chan) {off : Nat} (h : off % 4 = 0) :
    inBlocks (readerBlocks r) off = true ↔ IsReader r off := by
  cases r <;> simp only [readerBlocks, inBlocks_cons, inBlocks_nil, inBlock_iff, IsReader, Bool.false_eq_true,
    or_false] <;> omega

/-- What a valid cycle writes besides RESULTn and NODET_CNT, as the table of Safety.lean has it (R291). -/
theorem inBlocks_cycle (e : Issued) {off : Nat} (h : off % 4 = 0) :
    inBlocks (cycleWrites e.cfg e.hpos.toNat) off = true ↔
      Between 0x3A0 0x3BC off ∨ off = 0x334 ∨ off = 0x098 ∨ Between 0x310 0x330 off ∨ off = 0x338 ∨
        ∃ k, k < e.cfg.classes ∧ k < 8 ∧ (off = 0x360 + 4 * k ∨ off = 0x380 + 4 * k ∨
          (e.hpos.toNat < 8 ∧ off = 0x400 + 4 * (8 * k + e.hpos.toNat))) := by
  have hhist : inBlocks (if e.hpos.toNat < 8 then (List.range (min e.cfg.classes 8)).map
        (fun k => (0x400 + 4 * (8 * k + e.hpos.toNat), 1)) else []) off = true ↔
      ∃ k, k < e.cfg.classes ∧ k < 8 ∧ e.hpos.toNat < 8 ∧ off = 0x400 + 4 * (8 * k + e.hpos.toNat) := by
    by_cases hs : e.hpos.toNat < 8
    · rw [if_pos hs, inBlocks_iff]
      simp only [List.mem_map, List.mem_range, Nat.lt_min]
      constructor
      · rintro ⟨b, ⟨k, ⟨h1, h2⟩, rfl⟩, hb⟩
        rw [inBlock_iff] at hb
        exact ⟨k, h1, h2, hs, by omega⟩
      · rintro ⟨k, h1, h2, -, rfl⟩
        exact ⟨_, ⟨k, ⟨h1, h2⟩, rfl⟩, (inBlock_iff _ _ _).2 (by omega)⟩
    · rw [if_neg hs]
      simp [hs]
  simp only [cycleWrites, inBlocks_cons, aedp1_maxClasses, hhist, inBlock_words (show 0x360 % 4 = 0 from rfl) h,
    inBlock_words (show 0x380 % 4 = 0 from rfl) h, Nat.lt_min]
  simp only [evtBlock, inBlock_iff, Between]
  constructor
  · rintro (h1 | h1 | h1 | h1 | h1 | ⟨k, hk, h1⟩ | ⟨k, hk, h1⟩ | ⟨k, hk, h8, h1⟩)
    · exact .inl (by omega)
    · exact .inr (.inl (by omega))
    · exact .inr (.inr (.inl (by omega)))
    · exact .inr (.inr (.inr (.inl (by omega))))
    · exact .inr (.inr (.inr (.inr (.inl (by omega)))))
    · exact .inr (.inr (.inr (.inr (.inr ⟨k, hk.1, hk.2, .inl h1⟩))))
    · exact .inr (.inr (.inr (.inr (.inr ⟨k, hk.1, hk.2, .inr (.inl h1)⟩))))
    · exact .inr (.inr (.inr (.inr (.inr ⟨k, hk, h8, .inr (.inr h1)⟩))))
  · rintro (h1 | h1 | h1 | h1 | h1 | ⟨k, hk, h8, h1 | h1 | h1⟩)
    · exact .inl (by omega)
    · exact .inr (.inl (by omega))
    · exact .inr (.inr (.inl (by omega)))
    · exact .inr (.inr (.inr (.inl (by omega))))
    · exact .inr (.inr (.inr (.inr (.inl (by omega)))))
    · exact .inr (.inr (.inr (.inr (.inr (.inl ⟨k, ⟨hk, h8⟩, h1⟩)))))
    · exact .inr (.inr (.inr (.inr (.inr (.inr (.inl ⟨k, ⟨hk, h8⟩, h1⟩))))))
    · exact .inr (.inr (.inr (.inr (.inr (.inr (.inr ⟨k, hk, h8, h1⟩))))))

/-- The blocks of a command's written words are its row of the table (R386). -/
theorem inBlocks_written (e : Issued) (n : Chan) (i : Instr) {off : Nat} (h : off % 4 = 0) :
    inBlocks (writtenBlocks e n i) off = true ↔ InWritten e n i off := by
  have hres : inBlock (resultBlock n).1 (resultBlock n).2 off = true ↔ IsResult n off := by
    cases n <;> simp only [resultBlock, IsResult, inBlock_iff] <;> omega
  have hpp : inBlock ppBlock.1 ppBlock.2 off = true ↔ Between 0x3E0 0x3F0 off := by
    simp only [ppBlock, inBlock_iff, Between]; omega
  have hevt : inBlock evtBlock.1 evtBlock.2 off = true ↔ Between 0x3A0 0x3BC off := by
    simp only [evtBlock, inBlock_iff, Between]; omega
  have hpkt : inBlock pktBlock.1 pktBlock.2 off = true ↔ Between 0x3C0 0x3C8 off := by
    simp only [pktBlock, inBlock_iff, Between]; omega
  have hdec : inBlocks decBlocks off = true ↔ (Between 0x360 0x39C off ∨ Between 0x400 0x4FC off) ∨
      Between 0x310 0x330 off ∨ off = 0x338 := by
    simp only [decBlocks, inBlocks_cons, inBlocks_nil, inBlock_iff, Between, Bool.false_eq_true, or_false]; omega
  have hclear : inBlocks clearBlocks off = true ↔ Between 0x3E0 0x3F0 off ∨ IsReader .ch0 off ∨ IsReader .ch1 off ∨
      (Between 0x360 0x39C off ∨ Between 0x400 0x4FC off) ∨ Between 0x310 0x330 off ∨ off = 0x338 := by
    simp only [clearBlocks, List.cons_append, inBlocks_cons, inBlocks_append, hpp, inBlocks_reader _ h, hdec, or_assoc]
  have hwork (k : Nat) : inBlocks (workBlocks k) off = true ↔ InArray .workRe k off ∨ InArray .workIm k off := by
    simp only [workBlocks, inBlocks_cons, inBlocks_nil, inBlock_first _ _ h, Bool.false_eq_true, or_false]
  have hcyc : inBlocks cycleBlocks off = true ↔ Between 0x300 0x30C off := by
    simp only [cycleBlocks, inBlocks_cons, inBlocks_nil, inBlock_iff, Between, Bool.false_eq_true, or_false]; omega
  have h1 {b : Nat} (hb : b % 4 = 0) : inBlock b 1 off = true ↔ off = b := by rw [inBlock_iff]; omega
  have h2 {b : Nat} (hb : b % 4 = 0) : inBlock b 2 off = true ↔ off = b ∨ off = b + 4 := by rw [inBlock_iff]; omega
  cases i with
  | cfgCommit =>
    simp only [writtenBlocks, InWritten, inBlocks_cons, hclear]
    refine or_congr ?_ Iff.rfl
    rw [inBlock_iff, Between]; omega
  | resetRt => simp only [writtenBlocks, InWritten, inBlocks_cons, hclear, hevt, hpkt]
  | rbRead k =>
    by_cases hk : k ≤ 1024 <;>
      simp [writtenBlocks, InWritten, hk, inBlocks_append, inBlocks_copy _ _ _ h, inBlocks_reader _ h, or_assoc]
  | rbPeek k => by_cases hk : k ≤ 1024 <;> simp [writtenBlocks, InWritten, hk, inBlocks_copy _ _ _ h]
  | fftBitrev => simp only [writtenBlocks, InWritten, inBlocks_bitrev _ h]
  | fftStage stage =>
    by_cases hr : 1 ≤ stage ∧ stage ≤ e.cfg.fftLog2.toNat
    · simp only [writtenBlocks, InWritten, (inRange_iff _ _).2 hr, if_true, hwork, hr, true_and]
    · have hf : ¬inRange stage e.cfg.fftLog2.toNat = true := fun hc => hr ((inRange_iff _ _).1 hc)
      simp only [writtenBlocks, InWritten, if_neg hf, inBlocks_nil, Bool.false_eq_true, false_iff]
      exact fun hc => hr ⟨hc.1, hc.2.1⟩
  | decStep v =>
    simp only [writtenBlocks, InWritten, inBlocks_cons, hres, h1 (b := 0x08C) rfl]
    cases v
    · simp only [Bool.false_eq_true, if_false, inBlocks_nil, false_and]
    · simp only [if_true, true_and]
      exact or_congr Iff.rfl (or_congr Iff.rfl (inBlocks_cycle e h))
  | featExtract =>
    simp only [writtenBlocks, InWritten, List.cons_append, inBlocks_cons, inBlocks_append, hres, hpp, hwork, hcyc,
      inBlock_first _ _ h, inBlocks_reader _ h, h1 (b := 0x33C) rfl, h1 (b := 0x0A0) rfl, h1 (b := 0x088) rfl, or_assoc]
  | codecFrame =>
    simp only [writtenBlocks, InWritten, inBlocks_cons, hres, hpkt, inBlock_first _ _ h, inBlocks_reader _ h,
      h1 (b := 0x0A4) rfl, h2 (b := 0x3CC) rfl, h2 (b := 0x090) rfl, or_assoc, Nat.reduceAdd]
  | decReset => simp only [writtenBlocks, InWritten, hdec]
  | winApply | fftFull => simp only [writtenBlocks, InWritten, hwork]
  | nop | start | stop | preStep _ | fftPower | melApply | logCompress | evtPop | alawEnc _ | pktPop =>
    simp only [writtenBlocks, InWritten, inBlocks_cons, inBlocks_nil, hres, hpp, hevt, hpkt, inBlock_first _ _ h,
      Bool.false_eq_true, or_false]

/-- What STALE_CMD is held against, for one issued command: the words it writes (R353, R386). -/
theorem inBlocks_issued (e : Issued) (n : Chan) {off : Nat} (h : off % 4 = 0) :
    inBlocks (writtenByIssued n e) off = true ↔ e.Writes n off := by
  have hirq : inBlock irqBlock.1 irqBlock.2 off = true ↔ off = 0x02C := by
    simp only [irqBlock, inBlock_iff]; omega
  have herr : inBlock (errBlock n).1 (errBlock n).2 off = true ↔ IsErr n off := by
    cases n <;> simp only [errBlock, IsErr, inBlock_iff] <;> omega
  unfold writtenByIssued Issued.Writes
  split
  · next i hi => simp [inBlocks_cons, hirq, herr, hi, inBlocks_written e n i h]
  · next f hf => simp [inBlocks_cons, hirq, herr, hf]

/-- When a host read of an aligned offset is STALE_CMD (R357, R386). -/
theorem State.stale_iff (s : State) {off : Nat} (h : off % 4 = 0) :
    s.stale off = true ↔ ∃ n e, e ∈ (s.chan n).unobserved ∧ e.Writes n off := by
  simp only [State.stale, State.staleOn, Bool.or_eq_true, List.any_eq_true, inBlocks_issued _ _ h]
  constructor
  · rintro (⟨e, he, hw⟩ | ⟨e, he, hw⟩)
    · exact ⟨.ch0, e, he, hw⟩
    · exact ⟨.ch1, e, he, hw⟩
  · rintro ⟨n, e, he, hw⟩
    cases n
    · exact .inl ⟨e, he, hw⟩
    · exact .inr ⟨e, he, hw⟩

end Sys2Proof.Machine
end

