-- ==== Sys2Proof/Laws/Commands.lean ====
section
/-!
SUPPORT. What every command has in common: its BEGIN result, its completion with CODE 0 and with an error in the terms
of Safety.lean, and each arm of `exec` as its checks and its effect (spec/20_memory.md R90, spec/60_exceptions.md
R350-R353).
-/

namespace Sys2Proof.Machine

theorem AtEnd.beginResult {s : State} {ready : Prop} {sn : Snapshot} {check : State → Option ErrCode}
    (h : AtEnd s ready sn) (hc : ready → check s = none) : s.beginResult check = (none, sn) := by
  rcases h with ⟨w, hw⟩ | ⟨hf, hr, rfl⟩
  · exact State.beginResult_begun hw
  · rw [State.beginResult_fresh hf, hc hr]

theorem runCommand_atEnd {i : Instr} {check : State → Option ErrCode} {effect : Snapshot → State → Except Fault State}
    {s u : State} {ready : Prop} {sn : Snapshot} (h : AtEnd s ready sn) (hc : ready → check s = none)
    (hu : effect sn s = .ok u) : runCommand i check effect s = .next (u.complete i.opcode.byte none) :=
  runCommand_ok (h.beginResult hc) hu

/-- A completion with CODE 0 after an effect that wrote `result` and set `events`. -/
theorem completed_of {s u : State} {opc : Byte} {result : Word} {events : BitVec 15} (ha : u.active = s.active)
    (hc : u.chan s.active = { s.chan s.active with result := result })
    (ho : u.chan (otherChan s.active) = s.chan (otherChan s.active)) (hi : u.irqStatus = s.irqStatus ||| events) :
    Completed s (u.complete opc none) opc result events := by
  have hne : otherChan s.active ≠ u.active := by rw [ha]; cases s.active <;> decide
  refine ⟨?_, ?_, ?_⟩
  · have := u.complete_chan opc none
    rw [ha] at this
    rw [this, hc]; rfl
  · rw [State.complete_chan_other u hne, ho]
  · rw [State.complete_ok_irqStatus, hi, ha]

theorem failedWith_complete (s : State) (opc : Byte) (e : ErrCode) (h : e.code ≠ 0) :
    FailedWith s (s.complete opc (some e)) opc e.code := by
  have hne : otherChan s.active ≠ s.active := by cases s.active <;> decide
  refine ⟨rfl, ?_, State.complete_chan_other s hne opc _, ?_⟩
  · rw [s.complete_chan]; rfl
  · rw [State.complete_irqStatus, completionCode_some, if_pos (decide_eq_true h)]

theorem runCommand_refused {i : Instr} {check : State → Option ErrCode} {effect : Snapshot → State → Except Fault State}
    {s : State} {e : ErrCode} (hf : s.fresh) (h : check s = some e) (hc : e.code ≠ 0) :
    ∃ t, runCommand i check effect s = .next t ∧ FailedWith s t i.opcode.byte e.code :=
  ⟨_, runCommand_error (by rw [State.beginResult_fresh hf, h]), failedWith_complete s _ e hc⟩

/-! ### Each command as its checks and its effect -/

theorem exec_nop (s : State) : exec .nop s = runCommand .nop checkNop (fun _ t => .ok t) s := rfl
theorem exec_cfgCommit (s : State) :
    exec .cfgCommit s = runAtomic .cfgCommit checkCfgCommit (fun t => .ok (effectCfgCommit t)) s := rfl
theorem exec_start (s : State) :
    exec .start s = runCommand .start checkStart (fun _ t => .ok { t with run := true }) s := rfl
theorem exec_stop (s : State) :
    exec .stop s = runCommand .stop checkStop (fun _ t => .ok { t with run := false }) s := rfl
theorem exec_resetRt (s : State) :
    exec .resetRt s = runAtomic .resetRt checkResetRt (fun t => .ok (effectResetRt t)) s := rfl
theorem exec_rbRead (k : Nat) (s : State) :
    exec (.rbRead k) s = runCommand (.rbRead k) (checkRbRead k) (effectRbRead k) s := rfl
theorem exec_rbPeek (k : Nat) (s : State) :
    exec (.rbPeek k) s = runCommand (.rbPeek k) (checkRbPeek k) (effectRbPeek k) s := rfl
theorem exec_preStep (x : Int) (s : State) :
    exec (.preStep x) s = runCommand (.preStep x) checkPreStep (fun _ t => .ok (effectPreStep x t)) s := rfl
theorem exec_winApply (s : State) :
    exec .winApply s = runCommand .winApply checkWinApply (fun _ t => onMemory (winApply t.act) t) s := rfl
theorem exec_fftBitrev (s : State) :
    exec .fftBitrev s = runCommand .fftBitrev checkFftBitrev (fun _ t => onMemory (fftBitrev t.act) t) s := rfl
theorem exec_fftStage (k : Nat) (s : State) :
    exec (.fftStage k) s
      = runCommand (.fftStage k) (checkFftStage k) (fun _ t => onMemory (fftStage t.act k) t) s := rfl
theorem exec_fftFull (s : State) :
    exec .fftFull s = runCommand .fftFull checkFftFull (fun _ t => onMemory (fftFull t.act) t) s := rfl
theorem exec_fftPower (s : State) :
    exec .fftPower s = runCommand .fftPower checkFftPower (fun _ t => onMemory (fftPower t.act) t) s := rfl
theorem exec_melApply (s : State) :
    exec .melApply s = runCommand .melApply checkMelApply (fun _ t => onMemory (melApply t.act) t) s := rfl
theorem exec_logCompress (s : State) :
    exec .logCompress s = runCommand .logCompress checkLogCompress (fun _ t => effectLogCompress t) s := rfl
theorem exec_featExtract (s : State) :
    exec .featExtract s = runCommand .featExtract checkFeatExtract effectFeatExtract s := rfl
theorem exec_decStep (v : Bool) (s : State) :
    exec (.decStep v) s = runCommand (.decStep v) checkDecStep (fun _ t => .ok (effectDecStep v t)) s := rfl
theorem exec_decReset (s : State) :
    exec .decReset s = runCommand .decReset checkDecReset (fun _ t => .ok t.decClear) s := rfl
theorem exec_evtPop (s : State) :
    exec .evtPop s = runCommand .evtPop checkEvtPop (fun _ t => .ok (effectEvtPop t)) s := rfl
theorem exec_alawEnc (x : Int) (s : State) :
    exec (.alawEnc x) s
      = runCommand (.alawEnc x) checkAlawEnc (fun _ t => .ok (t.setResult ((alaw x).setWidth 32))) s := rfl
theorem exec_codecFrame (s : State) :
    exec .codecFrame s = runCommand .codecFrame checkCodecFrame effectCodecFrame s := rfl
theorem exec_pktPop (s : State) :
    exec .pktPop s = runCommand .pktPop checkPktPop (fun _ t => .ok (effectPktPop t)) s := rfl

theorem State.setResult_chan_otherChan (s : State) (v : Word) :
    (s.setResult v).chan (otherChan s.active) = s.chan (otherChan s.active) :=
  State.setResult_chan_other s (by cases s.active <;> decide) v

/-! ### The validation list (R143) -/

theorem lowNibble_iff (x : Word) : x &&& 0xFFFFFFF0 = 0 ↔ x.toNat < 16 := by
  have mask : ∀ i, i < 32 → (0xFFFFFFF0 : Word).getLsbD i = decide (4 ≤ i) := by decide
  constructor
  · intro h
    refine Nat.lt_pow_two_of_testBit (n := 4) _ fun i hi => ?_
    by_cases hlt : i < 32
    · have hb := congrArg (fun y : Word => y.getLsbD i) h
      rw [BitVec.getLsbD_and, mask i hlt, decide_eq_true hi, Bool.and_true] at hb
      simpa [BitVec.getLsbD] using hb
    · exact Nat.testBit_lt_two_pow (Nat.lt_of_lt_of_le x.isLt (Nat.pow_le_pow_right (by decide) (by omega)))
  · intro h
    refine BitVec.eq_of_getLsbD_eq fun i hi => ?_
    rw [BitVec.getLsbD_and]
    by_cases h4 : 4 ≤ i
    · have : x.getLsbD i = false :=
        Nat.testBit_lt_two_pow (Nat.lt_of_lt_of_le h (Nat.pow_le_pow_right (n := 2) (by decide) h4))
      simp [this]
    · have := mask i hi
      simp [h4] at this; simp [this]

/-- CFG_COMMIT finds no error exactly on a legal configuration. -/
theorem Cfg.validate_eq_none_iff (c : Cfg) : c.validate = none ↔ c.Legal := by
  simp only [Cfg.validate, firstFailing_eq_none_iff, Cfg.validation, Cfg.Legal, Cfg.checks, List.forall_mem_cons,
    List.not_mem_nil, false_implies, implies_true, Bool.and_eq_true, decide_eq_true_eq, inRange_iff, f32Unit, f32PosUnit,
    f32PosFinite, lowNibble_iff, and_true, and_assoc]
  rfl
end Sys2Proof.Machine
end

