-- ==== Sys2Proof/Laws/Float.lean ====
section
/-!
SUPPORT. Rounding (spec/00_scope.md R9): how the magnitudes of binary32 patterns are spaced, when a rounded quotient lies
at or below a pattern, and from these that one EMA update stays in [0, 1] (spec/45_decision.md R282, R284).
-/

namespace Sys2Proof.Machine

/-! ### Patterns and magnitudes -/

/-- The magnitude of a pattern without its sign bit, in multiples of 2^-149. -/
def magOf (b : Nat) : Nat := if b / 2 ^ 23 = 0 then b % 2 ^ 23 else (b % 2 ^ 23 + 2 ^ 23) * 2 ^ (b / 2 ^ 23 - 1)

theorem f32Mag_eq (a : Word) : f32Mag a = magOf (f32Abs a) := rfl

/-- The pattern at place `r` of binade `k` has magnitude `r * 2^k`. -/
theorem magOf_place {k r : Nat} (h : k = 0 ∨ 2 ^ 23 ≤ r) (hr : r ≤ 2 ^ 24) : magOf (k * 2 ^ 23 + r) = r * 2 ^ k := by
  by_cases h1 : r < 2 ^ 23
  · have hk : k = 0 := by omega
    subst hk
    rw [Nat.zero_mul, Nat.zero_add, magOf, Nat.div_eq_of_lt h1, if_pos rfl, Nat.mod_eq_of_lt h1, Nat.pow_zero, Nat.mul_one]
  · by_cases h2 : r = 2 ^ 24
    · subst h2
      have hd : (k * 2 ^ 23 + 2 ^ 24) / 2 ^ 23 = k + 2 := by omega
      have hm : (k * 2 ^ 23 + 2 ^ 24) % 2 ^ 23 = 0 := by omega
      rw [magOf, hd, hm, if_neg (by omega), show k + 2 - 1 = k + 1 by omega, Nat.pow_succ]
      omega
    · have hd : (k * 2 ^ 23 + r) / 2 ^ 23 = k + 1 := by omega
      have hm : (k * 2 ^ 23 + r) % 2 ^ 23 = r - 2 ^ 23 := by omega
      rw [magOf, hd, hm, if_neg (by omega), Nat.sub_add_cancel (by omega)]
      rfl

/-- Every pattern has its place in a binade, not the last of it. -/
theorem exists_place (b : Nat) : ∃ k r, b = k * 2 ^ 23 + r ∧ (k = 0 ∨ 2 ^ 23 ≤ r) ∧ r < 2 ^ 24 := by
  by_cases h : b / 2 ^ 23 = 0
  · exact ⟨0, b, by omega, .inl rfl, by omega⟩
  · exact ⟨b / 2 ^ 23 - 1, b % 2 ^ 23 + 2 ^ 23, by omega, .inr (by omega), by omega⟩

theorem magOf_lt_succ (b : Nat) : magOf b < magOf (b + 1) := by
  obtain ⟨k, r, rfl, h, hr⟩ := exists_place b
  rw [magOf_place h (by omega), show k * 2 ^ 23 + r + 1 = k * 2 ^ 23 + (r + 1) by omega, magOf_place (by omega) (by omega)]
  exact Nat.mul_lt_mul_of_pos_right (by omega) (Nat.two_pow_pos k)

theorem magOf_lt {a b : Nat} (h : a < b) : magOf a < magOf b := by
  induction h with
  | refl => exact magOf_lt_succ a
  | step _ ih => exact Nat.lt_trans ih (magOf_lt_succ _)

theorem magOf_le {a b : Nat} (h : a ≤ b) : magOf a ≤ magOf b := by
  rcases Nat.lt_or_eq_of_le h with h | rfl
  · exact Nat.le_of_lt (magOf_lt h)
  · exact Nat.le_refl _

/-! ### Rounding -/

/-- The rounded quotient lies within half of the exact one, on the even side of a tie. -/
theorem roundNE_spec (num : Nat) {den : Nat} (hd : 0 < den) :
    2 * num ≤ 2 * (den * roundNE num den) + den ∧ 2 * (den * roundNE num den) ≤ 2 * num + den ∧
    (2 * (den * roundNE num den) = 2 * num + den → roundNE num den % 2 = 0) := by
  have h := Nat.div_add_mod num den
  have hr := Nat.mod_lt num hd
  simp only [roundNE]
  split
  · next hc => rw [Nat.mul_add, Nat.mul_one]; omega
  · next hc => omega

/-- Where a rounded quotient falls: its binade and its place there, exactly rounded. -/
theorem roundMag_place (num : Nat) {den : Nat} (hd : 0 < den) :
    ∃ k r, (k = 0 ∨ 2 ^ 23 ≤ r) ∧ r ≤ 2 ^ 24 ∧ roundMag num den ≤ k * 2 ^ 23 + r ∧
      (1 ≤ k → den * 2 ^ (k + 23) ≤ num) ∧ 2 * (den * 2 ^ k * r) ≤ 2 * num + den * 2 ^ k ∧
      (2 * (den * 2 ^ k * r) = 2 * num + den * 2 ^ k → r % 2 = 0) := by
  have hD : 0 < den * 2 ^ ((num / den).log2 - 23) := Nat.mul_pos hd (Nat.two_pow_pos _)
  obtain ⟨h1, h2, h3⟩ := roundNE_spec num hD
  have hq : den * (num / den) ≤ num := Nat.mul_div_le num den
  have hlow : 1 ≤ (num / den).log2 - 23 → den * 2 ^ ((num / den).log2 - 23 + 23) ≤ num := fun hk => by
    have hne : num / den ≠ 0 := by intro h0; rw [h0] at hk; simp at hk
    have hp := Nat.log2_self_le hne
    rw [show (num / den).log2 - 23 + 23 = (num / den).log2 by omega]
    exact Nat.le_trans (Nat.mul_le_mul_left den hp) hq
  have hup : num < den * 2 ^ ((num / den).log2 - 23) * 2 ^ 24 := by
    have ha : num < den * (num / den + 1) := by
      have := Nat.div_add_mod num den
      have := Nat.mod_lt num hd
      rw [Nat.mul_add]; omega
    have hb : num / den + 1 ≤ 2 ^ ((num / den).log2 - 23 + 24) := by
      have h4 : num / den < 2 ^ ((num / den).log2 + 1) := Nat.lt_log2_self
      have h5 := Nat.pow_le_pow_right (n := 2) (by omega)
        (show (num / den).log2 + 1 ≤ (num / den).log2 - 23 + 24 by omega)
      omega
    rw [Nat.mul_assoc, ← Nat.pow_add]
    exact Nat.lt_of_lt_of_le ha (Nat.mul_le_mul_left den hb)
  refine ⟨(num / den).log2 - 23, roundNE num (den * 2 ^ ((num / den).log2 - 23)), ?_, ?_, ?_, hlow, h2, h3⟩
  · by_cases hk : (num / den).log2 - 23 = 0
    · exact .inl hk
    · refine .inr ?_
      have h4 := hlow (by omega)
      rw [Nat.pow_add, ← Nat.mul_assoc] at h4
      refine Decidable.byContradiction fun hlt => ?_
      have h5 : den * 2 ^ ((num / den).log2 - 23) * (roundNE num (den * 2 ^ ((num / den).log2 - 23)) + 1)
          ≤ den * 2 ^ ((num / den).log2 - 23) * 2 ^ 23 := Nat.mul_le_mul_left _ (by omega)
      rw [Nat.mul_add, Nat.mul_one] at h5
      omega
  · refine Decidable.byContradiction fun hgt => ?_
    have h5 : den * 2 ^ ((num / den).log2 - 23) * (2 ^ 24 + 1)
        ≤ den * 2 ^ ((num / den).log2 - 23) * roundNE num (den * 2 ^ ((num / den).log2 - 23)) :=
      Nat.mul_le_mul_left _ (by omega)
    rw [Nat.mul_add, Nat.mul_one] at h5
    omega
  · simp only [roundMag]
    split <;> omega

/-- A quotient at or below the midpoint of a pattern and the next one (below it, when the pattern is odd) rounds to the
pattern or lower. -/
theorem roundMag_le {num den x : Nat} (hd : 0 < den) (h : 2 * num + x % 2 ≤ den * (magOf x + magOf (x + 1))) :
    roundMag num den ≤ x := by
  obtain ⟨k, r, hk, hr, hle, hlow, hhi, heven⟩ := roundMag_place num hd
  refine Decidable.byContradiction fun hgt => ?_
  have hx : x + 1 ≤ k * 2 ^ 23 + r := by omega
  have hmag := magOf_place hk hr
  have hmono : magOf (x + 1) ≤ r * 2 ^ k := hmag ▸ magOf_le hx
  by_cases hplace : k = 0 ∨ 2 ^ 23 < r
  · have hpred : magOf (k * 2 ^ 23 + (r - 1)) = (r - 1) * 2 ^ k := magOf_place (by omega) (by omega)
    have hxp : x ≤ k * 2 ^ 23 + (r - 1) := by omega
    have hmono' : magOf x ≤ (r - 1) * 2 ^ k := hpred ▸ magOf_le hxp
    obtain ⟨r, rfl⟩ : ∃ j, r = j + 1 := ⟨r - 1, by omega⟩
    simp only [Nat.add_sub_cancel] at hpred hxp hmono'
    have e1 : den * (r * 2 ^ k + (r + 1) * 2 ^ k) + den * 2 ^ k = 2 * (den * 2 ^ k * (r + 1)) := by
      rw [Nat.mul_assoc den, Nat.mul_comm (2 ^ k), Nat.mul_add, Nat.add_mul, Nat.one_mul, Nat.mul_add]
      omega
    have hb : den * (magOf x + magOf (x + 1)) ≤ den * (r * 2 ^ k + (r + 1) * 2 ^ k) :=
      Nat.mul_le_mul_left den (by omega)
    have hreven := heven (by omega)
    have hsum : den * (magOf x + magOf (x + 1)) = den * (r * 2 ^ k + (r + 1) * 2 ^ k) := by omega
    have hsum' := Nat.eq_of_mul_eq_mul_left hd hsum
    have hxe : x = k * 2 ^ 23 + r := by
      refine Nat.le_antisymm hxp (Nat.not_lt.1 fun hlt => ?_)
      have := magOf_lt hlt
      omega
    omega
  · have hr' : r = 2 ^ 23 := by omega
    have h1 := hlow (by omega)
    have e1 : den * 2 ^ (k + 23) = den * (r * 2 ^ k) := by rw [hr', Nat.pow_add, Nat.mul_comm (2 ^ k)]
    have h2 := magOf_lt_succ x
    have h3 : den * (magOf x + magOf (x + 1) + 1) ≤ den * (2 * (r * 2 ^ k)) := Nat.mul_le_mul_left den (by omega)
    have e2 : den * (2 * (r * 2 ^ k)) = 2 * (den * (r * 2 ^ k)) := Nat.mul_left_comm _ _ _
    rw [Nat.mul_add, Nat.mul_one] at h3
    omega

/-- A quotient at or below a pattern's magnitude rounds to the pattern or lower. -/
theorem roundMag_le_of_le {num den x : Nat} (hd : 0 < den) (h : num ≤ den * magOf x) : roundMag num den ≤ x := by
  refine roundMag_le hd ?_
  have h1 : den * (magOf x + 1) ≤ den * magOf (x + 1) := Nat.mul_le_mul_left den (magOf_lt_succ x)
  rw [Nat.mul_add, Nat.mul_one] at h1
  rw [Nat.mul_add]
  omega

/-- Below 1.0 a whole number of multiples of 2^-149 rounds up by at most 2^-25. -/
theorem magOf_roundMag_le {n : Nat} (h : n < 2 ^ 149) : magOf (roundMag n 1) ≤ n + 2 ^ 124 := by
  obtain ⟨k, r, hk, hr, hle, hlow, hhi, -⟩ := roundMag_place n Nat.one_pos
  have h1 : magOf (roundMag n 1) ≤ r * 2 ^ k := magOf_place hk hr ▸ magOf_le hle
  have hk' : 2 ^ k ≤ 2 ^ 125 := by
    refine Nat.pow_le_pow_right (by omega) ?_
    refine Decidable.byContradiction fun hgt => ?_
    have h2 := hlow (by omega)
    have h3 := Nat.pow_le_pow_right (n := 2) (by omega) (show 149 ≤ k + 23 by omega)
    omega
  rw [Nat.one_mul, Nat.mul_comm (2 ^ k)] at hhi
  omega

/-! ### Words in [0, 1] -/

theorem magOf_one : magOf 0x3F800000 = 2 ^ 149 := by decide +kernel
theorem magOf_after_one : magOf 0x3F800001 = 2 ^ 149 + 2 ^ 126 := by decide +kernel

theorem UnitWord.abs {a : Word} (h : UnitWord a) : f32Abs a = a.toNat := by
  unfold UnitWord at h
  exact Nat.mod_eq_of_lt (by omega)

theorem f32Neg_iff (a : Word) : f32Neg a = true ↔ 2 ^ 31 ≤ a.toNat := by
  have := a.isLt
  rw [f32Neg, BitVec.getLsbD, Nat.testBit_eq_decide_div_mod_eq, decide_eq_true_iff]
  omega

theorem UnitWord.neg {a : Word} (h : UnitWord a) : f32Neg a = false := by
  unfold UnitWord at h
  exact Bool.eq_false_iff.2 fun hn => by have := (f32Neg_iff a).1 hn; omega

theorem UnitWord.notNaN {a : Word} (h : UnitWord a) : isNaN a = false := by
  have := h.abs
  unfold UnitWord at h
  exact decide_eq_false (by omega)

theorem UnitWord.notInf {a : Word} (h : UnitWord a) : isInf a = false := by
  have := h.abs
  unfold UnitWord at h
  exact decide_eq_false (by omega)

theorem UnitWord.mag_le {a : Word} (h : UnitWord a) : f32Mag a ≤ 2 ^ 149 := by
  rw [f32Mag_eq, h.abs, ← magOf_one]
  exact magOf_le h

theorem UnitWord.int {a : Word} (h : UnitWord a) : f32Int a = f32Mag a := by simp [f32Int, h.neg]

theorem unitWord_zero : UnitWord f32Zero := show f32Zero.toNat ≤ 0x3F800000 by decide
theorem unitWord_one : UnitWord f32One := show f32One.toNat ≤ 0x3F800000 by decide

theorem roundMag_lt (num den : Nat) : roundMag num den ≤ 0x7F800000 := by
  simp only [roundMag]
  split <;> omega

theorem packRat_toNat (num den : Nat) : (packRat false num den).toNat = roundMag num den := by
  have := roundMag_lt num den
  simp only [packRat, signBit, BitVec.toNat_ofNat]
  rw [if_neg (by simp)]
  omega

/-- The product of two words in [0, 1] is at or below the first. -/
theorem fmul_unit {a b : Word} (ha : UnitWord a) (hb : UnitWord b) : (fmul a b).toNat ≤ a.toNat := by
  have h : fmul a b = packRat false (f32Mag a * f32Mag b) (2 ^ 149) := by
    simp [fmul, ha.notNaN, hb.notNaN, ha.notInf, hb.notInf, ha.neg, hb.neg]
  rw [h, packRat_toNat]
  refine roundMag_le_of_le (Nat.two_pow_pos _) ?_
  rw [← ha.abs, ← f32Mag_eq, Nat.mul_comm]
  exact Nat.mul_le_mul_right _ hb.mag_le

theorem packInt_toNat (n : Nat) : (packInt n).toNat = roundMag n 1 := by
  have hn : ¬((n : Int) < 0) := by omega
  simp only [packInt, hn, decide_false, Int.natAbs_natCast, packRat_toNat]

/-- A sum of a finite word with a word in [0, 1] whose exact value is not negative and at most half a unit above 1.0 is in
[0, 1]. -/
theorem fadd_unit {a b : Word} {n : Nat} (hnan : isNaN a = false) (hinf : isInf a = false) (hb : UnitWord b)
    (hs : f32Int a + f32Int b = n) (h : n ≤ 2 ^ 149 + 2 ^ 125) : UnitWord (fadd a b) := by
  simp only [fadd, hnan, hb.notNaN, hinf, hb.notInf, hb.neg, hs, Bool.or_self, Bool.and_false, if_neg Bool.false_ne_true]
  split
  · exact unitWord_zero
  · rw [UnitWord, packInt_toNat]
    refine roundMag_le Nat.one_pos ?_
    rw [magOf_one, magOf_after_one]
    omega

/-- 1 - α for α in (0, 1]: in [0, 1], and at most 2^-25 above the exact difference. -/
theorem one_sub_unit {a : Word} (ha : UnitWord a) (hpos : 0 < f32Mag a) :
    UnitWord (fsub f32One a) ∧ f32Mag (fsub f32One a) + f32Mag a ≤ 2 ^ 149 + 2 ^ 124 := by
  have hle := ha.mag_le
  have h1 : f32Mag f32One = 2 ^ 149 := by rw [f32Mag_eq]; exact magOf_one
  have habs : f32Abs (fneg a) = a.toNat := by
    have h : a.toNat ≤ 0x3F800000 := ha
    rw [f32Abs, fneg, show (0x80000000 : Word) = 1#32 <<< 31 by decide]
    rw [BitVec.toNat_xor, Nat.xor_mod_two_pow]
    simp
    omega
  have hneg : f32Neg (fneg a) = true := by
    have := ha.neg
    simp only [f32Neg, BitVec.getLsbD_eq_getElem (show 31 < 32 by decide)] at this
    simp [f32Neg, fneg, this]
  have hmag : f32Mag (fneg a) = f32Mag a := by rw [f32Mag_eq, f32Mag_eq, habs, ha.abs]
  have hsum : f32Int f32One + f32Int (fneg a) = ((2 ^ 149 - f32Mag a : Nat) : Int) := by
    rw [unitWord_one.int, h1]
    simp only [f32Int, hneg, hmag, if_true]
    omega
  have hu : a.toNat ≤ 0x3F800000 := ha
  have hnan : isNaN (fneg a) = false := decide_eq_false (by omega)
  have hinf : isInf (fneg a) = false := decide_eq_false (by omega)
  simp only [fsub, fadd, unitWord_one.notNaN, unitWord_one.notInf, unitWord_one.neg, hnan, hinf, hsum, Bool.or_self,
    Bool.false_and, if_neg Bool.false_ne_true]
  split
  · refine ⟨unitWord_zero, ?_⟩
    have : f32Mag f32Zero = 0 := by decide +kernel
    omega
  · have hp := packInt_toNat (2 ^ 149 - f32Mag a)
    have hun : UnitWord (packInt ((2 ^ 149 - f32Mag a : Nat) : Int)) := by
      rw [UnitWord, hp]
      exact roundMag_le_of_le Nat.one_pos (by rw [magOf_one]; omega)
    refine ⟨hun, ?_⟩
    rw [f32Mag_eq (packInt _), hun.abs, hp]
    have := magOf_roundMag_le (n := 2 ^ 149 - f32Mag a) (by omega)
    omega

/-- What a comparison says of the places of its operands (R9). -/
theorem fle_iff (a b : Word) : fle a b = true ↔ (isNaN a = false ∧ isNaN b = false) ∧ f32Key a ≤ f32Key b := by
  simp [fle, ordered]

theorem flt_iff (a b : Word) : flt a b = true ↔ (isNaN a = false ∧ isNaN b = false) ∧ f32Key a < f32Key b := by
  simp [flt, ordered]

theorem UnitWord.key {a : Word} (h : UnitWord a) : f32Key a = a.toNat := by
  rw [f32Key, h.neg, if_neg Bool.false_ne_true, h.abs]

theorem unitWord_of_key {a : Word} (hn : f32Neg a = false) (h : f32Key a ≤ f32Key f32One) : UnitWord a := by
  have h31 : a.toNat < 2 ^ 31 := Nat.lt_of_not_le fun h' => by rw [(f32Neg_iff a).2 h'] at hn; cases hn
  rw [unitWord_one.key, f32Key, hn, if_neg Bool.false_ne_true, f32Abs, Nat.mod_eq_of_lt h31] at h
  exact Int.ofNat_le.1 h

/-- A probability that the check of R283 accepts lies in [0, 1], or is -0.0 (R9). -/
theorem unit_of_f32Unit {a : Word} (h0 : fge a f32Zero = true) (h1 : fle a f32One = true) :
    UnitWord a ∨ a = 0x80000000 := by
  have hk0 := ((fle_iff _ _).1 h0).2
  have hk1 := ((fle_iff _ _).1 h1).2
  cases hn : f32Neg a with
  | false => exact .inl (unitWord_of_key hn hk1)
  | true =>
    refine .inr (BitVec.eq_of_toNat_eq ?_)
    have h31 := (f32Neg_iff a).1 hn
    have hlt := a.isLt
    rw [unitWord_zero.key, show f32Zero.toNat = 0 from rfl, f32Key, hn, if_pos rfl, f32Abs] at hk0
    rw [show (0x80000000 : Word).toNat = 2 ^ 31 from rfl]
    omega

/-- A coefficient in (0, 1] (R9, R143). -/
theorem unit_of_f32PosUnit {a : Word} (h0 : fgt a f32Zero = true) (h1 : fle a f32One = true) :
    UnitWord a ∧ 0 < f32Mag a := by
  have hk0 := ((flt_iff _ _).1 h0).2
  have hk1 := ((fle_iff _ _).1 h1).2
  have hn : f32Neg a = false := Bool.eq_false_iff.2 fun hn => by
    rw [unitWord_zero.key, f32Key, hn, if_pos rfl] at hk0
    omega
  have hu := unitWord_of_key hn hk1
  refine ⟨hu, ?_⟩
  rw [unitWord_zero.key, hu.key] at hk0
  rw [f32Mag_eq, hu.abs, show 0 = magOf 0 from rfl]
  exact magOf_lt (Int.ofNat_lt.1 hk0)

/-- One EMA update of a probability in [0, 1], or -0.0, and an EMA value in [0, 1] stays in [0, 1] (R282, R284). -/
theorem emaNext_unit {alpha p e : Word} (ha : UnitWord alpha) (hpos : 0 < f32Mag alpha)
    (hp : UnitWord p ∨ p = 0x80000000) (he : UnitWord e) : UnitWord (emaNext alpha p e) := by
  obtain ⟨hb, hsum⟩ := one_sub_unit ha hpos
  have hv := fmul_unit hb he
  have hvu : UnitWord (fmul (fsub f32One alpha) e) := Nat.le_trans hv hb
  have hvm : f32Mag (fmul (fsub f32One alpha) e) ≤ f32Mag (fsub f32One alpha) := by
    rw [f32Mag_eq, f32Mag_eq, hvu.abs, hb.abs]; exact magOf_le hv
  unfold emaNext
  rcases hp with hp | rfl
  · have hu := fmul_unit ha hp
    have huu : UnitWord (fmul alpha p) := Nat.le_trans hu ha
    have hum : f32Mag (fmul alpha p) ≤ f32Mag alpha := by
      rw [f32Mag_eq, f32Mag_eq, huu.abs, ha.abs]; exact magOf_le hu
    exact fadd_unit (n := f32Mag (fmul alpha p) + f32Mag (fmul (fsub f32One alpha) e)) huu.notNaN huu.notInf hvu
      (by rw [huu.int, hvu.int]; rfl) (by omega)
  · have hz : fmul alpha 0x80000000 = 0x80000000 := by
      have h1 : f32Neg 0x80000000 = true := by decide
      have h2 : isNaN 0x80000000 = false := by decide
      have h3 : isInf 0x80000000 = false := by decide
      have h4 : f32Mag 0x80000000 = 0 := by decide
      simp only [fmul, ha.notNaN, ha.notInf, ha.neg, h1, h2, h3, h4, Nat.mul_zero, Bool.or_self, if_neg Bool.false_ne_true]
      decide +kernel
    have hi : f32Int 0x80000000 = 0 := by decide
    rw [hz]
    refine fadd_unit (n := f32Mag (fmul (fsub f32One alpha) e)) (by decide) (by decide) hvu ?_ ?_
    · rw [hvu.int, hi, Int.zero_add]
    · have := hvu.mag_le
      omega

end Sys2Proof.Machine
end

