-- ==== Sys2Proof/Laws/Decision.lean ====
section
/-!
SUPPORT. The smoothing state (spec/45_decision.md R282, R284): the per-class arrays read back, the median is one of the
values it is taken over, and a valid cycle keeps EMA, SMOOTH and HIST in [0, 1].
-/

namespace Sys2Proof.Machine

/-! ### Per-class arrays -/

theorem forall_lt_eight {P : Nat → Prop} (h : P 0 ∧ P 1 ∧ P 2 ∧ P 3 ∧ P 4 ∧ P 5 ∧ P 6 ∧ P 7) {k : Nat} (hk : k < 8) : P k := by
  obtain ⟨h0, h1, h2, h3, h4, h5, h6, h7⟩ := h
  match k with
  | 0 => exact h0
  | 1 => exact h1
  | 2 => exact h2
  | 3 => exact h3
  | 4 => exact h4
  | 5 => exact h5
  | 6 => exact h6
  | 7 => exact h7
  | _ + 8 => omega

theorem at8_tab8 (f : Nat → Word) {k : Nat} (hk : k < 8) : at8 (tab8 f) k = f k :=
  forall_lt_eight (P := fun k => at8 (tab8 f) k = f k) ⟨rfl, rfl, rfl, rfl, rfl, rfl, rfl, rfl⟩ hk

theorem histRow_tab8 (f : Nat → Vector Word 8) {k : Nat} (hk : k < 8) : histRow (tab8 f) k = f k :=
  forall_lt_eight (P := fun k => histRow (tab8 f) k = f k) ⟨rfl, rfl, rfl, rfl, rfl, rfl, rfl, rfl⟩ hk

/-- An element of HIST is an element of its row. -/
theorem at64_eq (v : Vector (Vector Word 8) 8) (c k : Nat) : at64 v c k = at8 (histRow v c) k := rfl

theorem at8_of_mem {v : Vector Word 8} {x : Word} (h : x ∈ v.toList) : ∃ k, k < 8 ∧ at8 v k = x := by
  obtain ⟨k, hk, hx⟩ := List.mem_iff_getElem.1 h
  have h8 : k < 8 := by simpa using hk
  exact ⟨k, h8, by rw [at8, List.getD_eq_getElem?_getD, List.getElem?_eq_getElem hk, hx]; rfl⟩

/-! ### The median -/

theorem mem_insertF32 {x y : Word} {l : List Word} : y ∈ insertF32 x l ↔ y = x ∨ y ∈ l := by
  induction l with
  | nil => simp [insertF32]
  | cons z zs ih =>
    simp only [insertF32]
    split
    · simp
    · simp only [List.mem_cons, ih]
      exact ⟨fun h => by rcases h with h | h | h <;> simp [h], fun h => by rcases h with h | h | h <;> simp [h]⟩

theorem mem_sortF32 {y : Word} {l : List Word} : y ∈ sortF32 l ↔ y ∈ l := by
  induction l with
  | nil => simp [sortF32]
  | cons x xs ih => simp [sortF32, mem_insertF32, ih]

/-- The median is one of the values it is taken over (R284); of no values, +0.0. -/
theorem median_mem (k : Nat) (row : List Word) : median k row ∈ row ∨ median k row = f32Zero := by
  unfold median
  rw [List.getD_eq_getElem?_getD]
  cases h : (sortF32 (row.take k))[(k - 1) / 2]? with
  | none => exact .inr rfl
  | some x => exact .inl (List.mem_of_mem_take (mem_sortF32.1 (List.mem_of_getElem? h)))

/-! ### A valid cycle keeps the smoothing state in [0, 1] (R284) -/

theorem State.smoothStep_smoothed {s : State} (hs : s.Smoothed)
    (ha : fgt s.act.emaAlpha f32Zero = true ∧ fle s.act.emaAlpha f32One = true)
    (hp : ∀ k, k < s.act.classes → fge (at8 s.prob k) f32Zero = true ∧ fle (at8 s.prob k) f32One = true) :
    s.smoothStep.Smoothed := by
  obtain ⟨hau, hapos⟩ := unit_of_f32PosUnit ha.1 ha.2
  have hema : ∀ k, k < 8 → UnitWord (at8 s.emaUpdate.ema k) := fun k hk => by
    rw [State.emaUpdate, at8_tab8 _ hk]
    split
    · next hc => exact emaNext_unit hau hapos (unit_of_f32Unit (hp k hc).1 (hp k hc).2) (hs k hk).1
    · exact (hs k hk).1
  have hrow : ∀ k, k < 8 → ∀ j, j < 8 → UnitWord (at8 (histRow s.emaUpdate.medianUpdate.hist k) j) := fun k hk j hj => by
    simp only [State.medianUpdate]
    rw [histRow_tab8 _ hk]
    split
    · rw [at8_tab8 _ hj]
      split
      · exact hema k hk
      · exact (hs k hk).2.2 j hj
    · exact (hs k hk).2.2 j hj
  refine fun k hk => ⟨hema k hk, ?_, hrow k hk⟩
  show UnitWord (at8 s.emaUpdate.medianUpdate.smooth k)
  simp only [State.medianUpdate]
  rw [at8_tab8 _ hk]
  split
  · rcases median_mem s.emaUpdate.act.medianLen (histRow s.emaUpdate.medianUpdate.hist k).toList with h | h
    · obtain ⟨j, hj, he⟩ := at8_of_mem h
      have := hrow k hk j hj
      rw [he] at this
      exact this
    · have := unitWord_zero
      rw [← h] at this
      exact this
  · exact (hs k hk).2.1

end Sys2Proof.Machine
end

