-- ==== Sys2Proof/Laws/Grows.lean ====
section
/-!
SUPPORT. What every change of memory by a command keeps: the canonical form, and each written byte stays written
(spec/10_state.md R50).
-/

namespace Sys2Proof.Machine

/-- What every change of memory by a command keeps: the canonical form, and each written byte stays written. -/
def Memory.Grows (m m' : Memory) : Prop :=
  (m.wf = true → m'.wf = true) ∧ ∀ off, (m.readByte off).isSome → (m'.readByte off).isSome

theorem Memory.Grows.refl (m : Memory) : m.Grows m := ⟨id, fun _ => id⟩
theorem Memory.Grows.trans {a b c : Memory} (h : a.Grows b) (k : b.Grows c) : a.Grows c :=
  ⟨k.1 ∘ h.1, fun off => k.2 off ∘ h.2 off⟩

theorem Memory.grows_writeByte (m : Memory) (off : Nat) (v : Byte) : m.Grows (m.writeByte off v) :=
  ⟨Memory.wf_writeByte m off v, fun k h => by rw [Memory.readByte_writeByte]; split <;> simp_all⟩

theorem Memory.grows_writeWord (m : Memory) (off : Nat) (v : Word) : m.Grows (m.writeWord off v) :=
  (((Memory.grows_writeByte _ _ _).trans (Memory.grows_writeByte _ _ _)).trans (Memory.grows_writeByte _ _ _)).trans
    (Memory.grows_writeByte _ _ _)

theorem store_grows (a : Arr) (i : Nat) (v : Word) (m : Memory) : m.Grows (store a i v m) := m.grows_writeWord _ v

theorem Memory.Grows.word {m m' : Memory} (h : m.Grows m') {a : Arr} {i : Nat} (hw : (m.word a i).isSome) :
    (m'.word a i).isSome := by
  unfold Memory.word Memory.readWord at *
  have h0 := h.2 (a.off i); have h1 := h.2 (a.off i + 1); have h2 := h.2 (a.off i + 2); have h3 := h.2 (a.off i + 3)
  cases e0 : m.readByte (a.off i) <;> cases e1 : m.readByte (a.off i + 1) <;> cases e2 : m.readByte (a.off i + 2) <;>
    cases e3 : m.readByte (a.off i + 3) <;> simp [e0, e1, e2, e3] at hw h0 h1 h2 h3
  obtain ⟨b0, hb0⟩ := Option.isSome_iff_exists.1 h0
  obtain ⟨b1, hb1⟩ := Option.isSome_iff_exists.1 h1
  obtain ⟨b2, hb2⟩ := Option.isSome_iff_exists.1 h2
  obtain ⟨b3, hb3⟩ := Option.isSome_iff_exists.1 h3
  simp [hb0, hb1, hb2, hb3]

theorem forUpTo_grows {n : Nat} {body : Nat → Memory → Except Fault Memory} {m m' : Memory}
    (hs : ∀ k y y', body k y = .ok y' → y.Grows y') (h : forUpTo n body m = .ok m') : m.Grows m' :=
  forUpTo_keeps (fun _ y => m.Grows y) (.refl m) (fun k y y' _ hy hb => hy.trans (hs k y y' hb)) h

theorem loopUpTo_grows {n : Nat} {body : Nat → Memory → Memory} (m : Memory)
    (hs : ∀ (k : Nat) (y : Memory), y.Grows (body k y)) :
    m.Grows (loopUpTo n body m) :=
  loopUpTo_keeps (fun _ y => m.Grows y) (.refl m) fun k y _ hy => hy.trans (hs k y)

theorem zeroPad_grows (c : Cfg) (m : Memory) : m.Grows (zeroPad c m) :=
  loopUpTo_grows m fun _ _ => (store_grows _ _ _ _).trans (store_grows _ _ _ _)

theorem windowStage_grows {c : Cfg} {v : Nat → Word} {m m' : Memory} (h : windowStage c v m = .ok m') : m.Grows m' := by
  unfold windowStage at h
  split at h
  · next t ht =>
    cases h
    refine (forUpTo_grows (fun k y y' hb => ?_) ht).trans (zeroPad_grows c t)
    split at hb
    · cases hb; exact (store_grows _ _ _ _).trans (store_grows _ _ _ _)
    · cases hb
  · cases h

theorem winApply_grows {c : Cfg} {m m' : Memory} (h : winApply c m = .ok m') : m.Grows m' := by
  unfold winApply at h
  split at h
  · next t ht =>
    cases h
    refine (forUpTo_grows (fun k y y' hb => ?_) ht).trans (zeroPad_grows c t)
    split at hb
    · cases hb; exact (store_grows _ _ _ _).trans (store_grows _ _ _ _)
    · cases hb
    · cases hb
  · cases h

theorem swapWords_grows {a : Arr} {i j : Nat} {m m' : Memory} (h : swapWords a i j m = .ok m') : m.Grows m' := by
  unfold swapWords at h
  split at h
  · cases h; exact (store_grows _ _ _ _).trans (store_grows _ _ _ _)
  · cases h
  · cases h

theorem fftBitrev_grows {c : Cfg} {m m' : Memory} (h : fftBitrev c m = .ok m') : m.Grows m' := by
  refine forUpTo_grows (fun k y y' hb => ?_) h
  unfold bitrevAt at hb
  split at hb
  · split at hb
    · next t ht => exact (swapWords_grows ht).trans (swapWords_grows hb)
    · cases hb
  · cases hb; exact .refl y

/-- What a chain of two steps that may fault answers. -/
theorem bind_ok {α β : Type} {x : Except Fault α} {f : α → Except Fault β} {b : β} (h : x >>= f = .ok b) :
    ∃ a, x = .ok a ∧ f a = .ok b := by
  cases x with
  | ok a => exact ⟨a, rfl, h⟩
  | error e => cases h

theorem bfly_grows {p q k : Nat} {m m' : Memory} (h : bfly p q k m = .ok m') : m.Grows m' := by
  unfold bfly at h
  obtain ⟨_, -, h⟩ := bind_ok h
  obtain ⟨_, -, h⟩ := bind_ok h
  obtain ⟨_, -, h⟩ := bind_ok h
  obtain ⟨_, -, h⟩ := bind_ok h
  obtain ⟨_, -, h⟩ := bind_ok h
  obtain ⟨_, -, h⟩ := bind_ok h
  cases h
  exact (((store_grows _ _ _ _).trans (store_grows _ _ _ _)).trans (store_grows _ _ _ _)).trans (store_grows _ _ _ _)

theorem fftStage_grows {c : Cfg} {k : Nat} {m m' : Memory} (h : fftStage c k m = .ok m') : m.Grows m' :=
  forUpTo_grows (fun _ _ _ hb => forUpTo_grows (fun _ _ _ hc => bfly_grows hc) hb) h

theorem fftFull_grows {c : Cfg} {m m' : Memory} (h : fftFull c m = .ok m') : m.Grows m' := by
  unfold fftFull at h
  split at h
  · next t ht => exact (fftBitrev_grows ht).trans (forUpTo_grows (fun _ _ _ hb => fftStage_grows hb) h)
  · cases h

theorem fftPower_grows {c : Cfg} {m m' : Memory} (h : fftPower c m = .ok m') : m.Grows m' := by
  refine forUpTo_grows (fun k y y' hb => ?_) h
  obtain ⟨_, -, hb⟩ := bind_ok hb
  obtain ⟨_, -, hb⟩ := bind_ok hb
  cases hb
  exact store_grows _ _ _ _

theorem melApply_grows {c : Cfg} {m m' : Memory} (h : melApply c m = .ok m') : m.Grows m' := by
  refine forUpTo_grows (fun k y y' hb => ?_) h
  obtain ⟨_, -, hb⟩ := bind_ok hb
  cases hb
  exact store_grows _ _ _ _

theorem logCompress_grows {c : Cfg} {m : Memory} {r : Memory × Bool} (h : logCompress c m = .ok r) : m.Grows r.1 := by
  refine forUpTo_keeps (fun _ y => m.Grows y.1) (.refl m) (fun k y y' _ hy hb => ?_) h
  obtain ⟨_, -, hb⟩ := bind_ok hb
  cases hb
  exact hy.trans (store_grows _ _ _ _)

theorem featWindow_grows {c : Cfg} {v : List Word} {nwin w : Nat} {t r : Memory × Bool}
    (h : featWindow c v nwin w t = .ok r) : t.1.Grows r.1 := by
  unfold featWindow at h
  obtain ⟨m1, h1, h⟩ := bind_ok h
  obtain ⟨m2, h2, h⟩ := bind_ok h
  obtain ⟨m3, h3, h⟩ := bind_ok h
  obtain ⟨m4, h4, h⟩ := bind_ok h
  obtain ⟨m5, h5, h⟩ := bind_ok h
  obtain ⟨m6, h6, h⟩ := bind_ok h
  cases h
  refine (windowStage_grows h1).trans ((fftFull_grows h2).trans ((fftPower_grows h3).trans ((melApply_grows h4).trans
    ((logCompress_grows h5).trans (forUpTo_grows (fun k y y' hb => ?_) h6)))))
  obtain ⟨_, -, hb⟩ := bind_ok hb
  cases hb
  exact store_grows _ _ _ _

theorem featRows_grows {c : Cfg} {v : List Word} {nwin : Nat} {m : Memory} {r : FeatResult}
    (h : featRows c v nwin m = .ok r) : m.Grows r.mem := by
  unfold featRows at h
  obtain ⟨r1, h1, h⟩ := bind_ok h
  obtain ⟨vals, -, h⟩ := bind_ok h
  cases h
  refine Memory.Grows.trans (b := r1.1) ?_ (loopUpTo_grows _ fun _ _ => store_grows _ _ _ _)
  exact forUpTo_keeps (fun _ y => m.Grows y.1) (.refl m) (fun k y y' _ hy hb => hy.trans (featWindow_grows hb)) h1

theorem drawArray_grows (s : State) (a : Arr) (n : Nat) : s.mem.Grows (s.drawArray a n).mem :=
  loopUpTo_grows _ fun _ _ => store_grows _ _ _ _

theorem storePayload_grows (c : Cfg) (bytes : List Byte) (m : Memory) : m.Grows (storePayload c bytes m) :=
  loopUpTo_grows _ fun _ _ => store_grows _ _ _ _

end Sys2Proof.Machine
end

