-- ==== Sys2Proof/Laws/PerInstr.lean ====
section
/-!
SUPPORT. Facts about every command as syntax, one lemma per constructor: the opcode byte of its encoding
(family OpcodeByte), and the fields an encoding leaves 0 (family ReservedClear).
-/

namespace Sys2Proof.Laws

/-- The low byte of a command's encoding is its opcode (R113). -/
def OpcodeByte.Statement (i : Instr) : Prop := opcodeByte (encode i) = i.opcode.byte

/-- An encoding sets no reserved bit of its format (R111). -/
def ReservedClear.Statement (i : Instr) : Prop := encode i &&& i.opcode.format.reservedBits = 0

/-- The low byte of a word whose operand bits lie above it. -/
theorem opcodeByte_or (x : Word) (b : Byte) (h : ∀ k, k < 8 → x.getLsbD k = false) :
    opcodeByte (x ||| b.setWidth 32) = b := by
  apply BitVec.eq_of_getLsbD_eq
  intro k hk
  rw [opcodeByte, BitVec.getLsbD_extractLsb', Nat.zero_add, BitVec.getLsbD_or, BitVec.getLsbD_setWidth, h k hk]
  simp [hk, show k < 32 by omega]

theorem shifted_low {n : Nat} (x : BitVec n) (sh k : Nat) (h : k < sh) :
    ((x.setWidth 32 <<< sh : Word)).getLsbD k = false := by simp [BitVec.getLsbD_shiftLeft, h]

/-- A word that ors an operand field in bits `sh ..` with an opcode byte has none of the bits of a mask that lies in
neither. -/
theorem reserved_or {n : Nat} (x : BitVec n) (sh : Nat) (b : Byte) (m : Word)
    (hx : ∀ k, k < 32 → m.getLsbD k = true → 8 ≤ k ∧ (k < sh ∨ sh + n ≤ k)) :
    (x.setWidth 32 <<< sh ||| b.setWidth 32 : Word) &&& m = 0 := by
  apply BitVec.eq_of_getLsbD_eq
  intro k hk
  by_cases hm : m.getLsbD k = true
  · obtain ⟨h8, h⟩ := hx k hk hm
    have hb : b.getLsbD k = false := BitVec.getLsbD_of_ge b k h8
    rcases h with h | h
    · simp [BitVec.getLsbD_and, BitVec.getLsbD_or, BitVec.getLsbD_shiftLeft, BitVec.getLsbD_setWidth, h, hb]
    · have hxk : x.getLsbD (k - sh) = false := BitVec.getLsbD_of_ge x _ (by omega)
      simp [BitVec.getLsbD_and, BitVec.getLsbD_or, BitVec.getLsbD_shiftLeft, BitVec.getLsbD_setWidth, hxk, hb]
  · simp [BitVec.getLsbD_and, hm]

theorem OpcodeByte.nop : OpcodeByte.Statement .nop := rfl
theorem OpcodeByte.cfgCommit : OpcodeByte.Statement .cfgCommit := rfl
theorem OpcodeByte.start : OpcodeByte.Statement .start := rfl
theorem OpcodeByte.stop : OpcodeByte.Statement .stop := rfl
theorem OpcodeByte.resetRt : OpcodeByte.Statement .resetRt := rfl
theorem OpcodeByte.rbRead (n : Nat) : OpcodeByte.Statement (.rbRead n) :=
  opcodeByte_or _ _ fun k h => shifted_low _ _ k (by omega)
theorem OpcodeByte.rbPeek (n : Nat) : OpcodeByte.Statement (.rbPeek n) :=
  opcodeByte_or _ _ fun k h => shifted_low _ _ k (by omega)
theorem OpcodeByte.preStep (x : Int) : OpcodeByte.Statement (.preStep x) :=
  opcodeByte_or _ _ fun k h => shifted_low _ _ k (by omega)
theorem OpcodeByte.winApply : OpcodeByte.Statement .winApply := rfl
theorem OpcodeByte.fftBitrev : OpcodeByte.Statement .fftBitrev := rfl
theorem OpcodeByte.fftStage (n : Nat) : OpcodeByte.Statement (.fftStage n) :=
  opcodeByte_or _ _ fun k h => shifted_low _ _ k (by omega)
theorem OpcodeByte.fftFull : OpcodeByte.Statement .fftFull := rfl
theorem OpcodeByte.fftPower : OpcodeByte.Statement .fftPower := rfl
theorem OpcodeByte.melApply : OpcodeByte.Statement .melApply := rfl
theorem OpcodeByte.logCompress : OpcodeByte.Statement .logCompress := rfl
theorem OpcodeByte.featExtract : OpcodeByte.Statement .featExtract := rfl
theorem OpcodeByte.decStep (v : Bool) : OpcodeByte.Statement (.decStep v) :=
  opcodeByte_or _ _ fun k h => shifted_low _ _ k (by omega)
theorem OpcodeByte.decReset : OpcodeByte.Statement .decReset := rfl
theorem OpcodeByte.evtPop : OpcodeByte.Statement .evtPop := rfl
theorem OpcodeByte.alawEnc (x : Int) : OpcodeByte.Statement (.alawEnc x) :=
  opcodeByte_or _ _ fun k h => shifted_low _ _ k (by omega)
theorem OpcodeByte.codecFrame : OpcodeByte.Statement .codecFrame := rfl
theorem OpcodeByte.pktPop : OpcodeByte.Statement .pktPop := rfl

theorem ReservedClear.nop : ReservedClear.Statement .nop := rfl
theorem ReservedClear.cfgCommit : ReservedClear.Statement .cfgCommit := rfl
theorem ReservedClear.start : ReservedClear.Statement .start := rfl
theorem ReservedClear.stop : ReservedClear.Statement .stop := rfl
theorem ReservedClear.resetRt : ReservedClear.Statement .resetRt := rfl
theorem ReservedClear.rbRead (n : Nat) : ReservedClear.Statement (.rbRead n) :=
  reserved_or _ _ _ (Format.reservedBits .cc) (by decide)
theorem ReservedClear.rbPeek (n : Nat) : ReservedClear.Statement (.rbPeek n) :=
  reserved_or _ _ _ (Format.reservedBits .cc) (by decide)
theorem ReservedClear.preStep (x : Int) : ReservedClear.Statement (.preStep x) :=
  reserved_or _ _ _ (Format.reservedBits .cx) (by decide)
theorem ReservedClear.winApply : ReservedClear.Statement .winApply := rfl
theorem ReservedClear.fftBitrev : ReservedClear.Statement .fftBitrev := rfl
theorem ReservedClear.fftStage (n : Nat) : ReservedClear.Statement (.fftStage n) :=
  reserved_or _ _ _ (Format.reservedBits .cs) (by decide)
theorem ReservedClear.fftFull : ReservedClear.Statement .fftFull := rfl
theorem ReservedClear.fftPower : ReservedClear.Statement .fftPower := rfl
theorem ReservedClear.melApply : ReservedClear.Statement .melApply := rfl
theorem ReservedClear.logCompress : ReservedClear.Statement .logCompress := rfl
theorem ReservedClear.featExtract : ReservedClear.Statement .featExtract := rfl
theorem ReservedClear.decStep (v : Bool) : ReservedClear.Statement (.decStep v) :=
  reserved_or _ _ _ (Format.reservedBits .cv) (by decide)
theorem ReservedClear.decReset : ReservedClear.Statement .decReset := rfl
theorem ReservedClear.evtPop : ReservedClear.Statement .evtPop := rfl
theorem ReservedClear.alawEnc (x : Int) : ReservedClear.Statement (.alawEnc x) :=
  reserved_or _ _ _ (Format.reservedBits .cx) (by decide)
theorem ReservedClear.codecFrame : ReservedClear.Statement .codecFrame := rfl
theorem ReservedClear.pktPop : ReservedClear.Statement .pktPop := rfl

end Sys2Proof.Laws
end

