-- ==== Sys2Proof/Tests/Slice0.lean ====
section
/-!
SUPPORT. Tests of the model on words and small states, and for each statement with hypotheses a witness that meets
them. Expected values come from spec/95_test_vectors.md (the vector is named in the test's comment) or from the
encoding tables of spec/30_encoding.md. A test runs one step.
-/

namespace Sys2Proof.Tests

-- The theorems below are checked one at a time: each has its own evaluation stack.
set_option Elab.async false

open Sys2Proof Sys2Proof.Machine

/-! ### Helpers -/

/-- The answer is a next state. -/
def answered (o : Host.Outcome State Fault Refusal) : Bool :=
  match o with
  | .next _ => true
  | .fault _ => false
  | .refused _ => false

/-- The next state of an answer. -/
def after (o : Host.Outcome State Fault Refusal) : State :=
  match o with
  | .next t => t
  | .fault _ => State.reset
  | .refused _ => State.reset

/-- The command a word decodes to on a channel, and how it is refused there. -/
def readAs (n : Chan) (w : Word) : Option Instr :=
  match decodeOn n w with
  | .ok i => some i
  | .error _ => none
def refusedAs (n : Chan) (w : Word) : Option DecodeRefusal :=
  match decodeOn n w with
  | .ok _ => none
  | .error e => some e

/-- The fault of an answer. -/
def faultOf (o : Host.Outcome State Fault Refusal) : Option Fault :=
  match o with
  | .next _ => none
  | .fault f => some f
  | .refused _ => none

theorem answered_next {o : Host.Outcome State Fault Refusal} (h : answered o = true) : o = .next (after o) := by
  cases o with
  | next t => rfl
  | fault f => cases h
  | refused r => cases h

/-- `a[i], a[i+1], .. <- vs`. -/
def fill (a : Arr) (vs : List Word) (i : Nat) (m : Memory) : Memory :=
  match vs with
  | [] => m
  | v :: rest => fill a rest (i + 1) (store a i v m)

/-- The words `a[0 .. n-1]`. -/
def words (a : Arr) (n : Nat) (m : Memory) : List (Option Word) := (List.range n).map (m.word a)

/-- A channel with the word `w` pending. -/
def latched (w : Word) : Channel := { Channel.reset with pending := .latched w }

/-- A channel whose command `w` has begun without an error. -/
def begun (w : Word) (sn : Snapshot) : Channel := { Channel.reset with pending := .begun w none sn }

theorem fresh_of_idle {s : State} (h : (s.chan s.active).pending = .idle) : s.fresh := by
  intro w v sn hb
  rw [h] at hb
  cases hb

theorem atEnd_fresh {s : State} {p : Prop} (h : (s.chan s.active).pending = .idle) (hp : p) : AtEnd s p s.snapshot :=
  .inr ⟨fresh_of_idle h, hp, rfl⟩

theorem atEnd_begun {s : State} {p : Prop} {w : Word} {sn : Snapshot} (h : (s.chan s.active).pending = .begun w none sn) :
    AtEnd s p sn := .inl ⟨w, h⟩

/-- A small legal configuration: L = H = 1, T = 2, N = 2, M = 1, C = 4, F = 1, NC = 2, K = 1. -/
def tiny : Cfg :=
  { Cfg.reset with
    rbCap := 4, winLen := 1, hop := 1, nframes := 2, fftLog2 := 1, melBands := 1, featStride := 1, featCtrl := 0,
    nclasses := 2, medianK := 1, emaAlpha := 0x3F800000, minDur := 320, quiet := 320, codecLen := 1 }

/-- Every word that the commands read under `tiny`; two samples, 100 and -100, in the ring buffer. -/
def tinyMem : Memory :=
  fill .win [0x3F800000] 0 (fill .twRe [0x3F800000] 0 (fill .twIm [0] 0 (fill .workRe [0x40400000, 0x40A00000] 0
    (fill .workIm [0, 0] 0 (fill .pow [0x42800000, 0x40800000] 0 (fill .melE [0x42D00000] 0
      (fill .melW [0x3F800000, 0x3F000000] 0 (fill .rbram [100, 0xFFFFFF9C] 0 []))))))))

/-- Configured and stopped; reader 0 and reader 1 can read two samples. -/
def stopped : State := { State.reset with cfgValid := true, act := tiny, mem := tinyMem, sclk := 2 }

/-- Configured and running. -/
def running : State := { stopped with run := true }

/-- Running with both readers full. -/
def crowded : State := { running with sclk := 4, mem := fill .rbram [3, 4] 2 tinyMem }

/-- In an event whose last above cycle was at 640, the class 1 dominant now. -/
def inEvent : State :=
  { running with
    cycleTs := 800, prob := #v[0x3DCCCCCD, 0x3F666666, 0, 0, 0, 0, 0, 0]
    dec := { Decision.reset with
      state := .eventActive, start := 160, last := 640, peakconf := 0x3F733333, rmsmax := 0x3E800000
      peakmax := 0x3F400000 } }

/-- A record. -/
def record : EventRec := { cls := 0, seq := 5, start := 0, dur := 0, peakconf := 0, rms := 0, peak := 0 }

/-! ### Well-formed terms -/

theorem test_wellFormed_refuses_count_past_field :
    (Instr.rbRead 65536).wellFormed = false ∧ (Instr.rbPeek 65536).wellFormed = false := by decide
theorem test_wellFormed_refuses_stage_past_field : (Instr.fftStage 16).wellFormed = false := by decide
theorem test_wellFormed_refuses_sample_past_field :
    (Instr.preStep 32768).wellFormed = false ∧ (Instr.preStep (-32769)).wellFormed = false ∧
    (Instr.alawEnc 32768).wellFormed = false ∧ (Instr.alawEnc (-32769)).wellFormed = false := by decide

/-! ### Decoding: every constructor from a word written out of the tables of R111 and R113 -/

theorem test_decode_control :
    readAs .ch1 0x00000000 = some .nop ∧ readAs .ch0 0x00000001 = some .cfgCommit ∧
    readAs .ch0 0x00000002 = some .start ∧ readAs .ch0 0x00000003 = some .stop ∧
    readAs .ch0 0x00000004 = some .resetRt := by decide
theorem test_decode_ringbuffer :
    readAs .ch0 0b00000000000010000000000000010000 = some (.rbRead 8) ∧
    readAs .ch1 0b11111111111111110000000000010001 = some (.rbPeek 65535) := by decide
theorem test_decode_preprocess :
    readAs .ch0 0b10000000000000000000000000100000 = some (.preStep (-32768)) ∧
    readAs .ch0 0b00000000000000000000000000100001 = some .winApply := by decide
theorem test_decode_fft :
    readAs .ch0 0x00000028 = some .fftBitrev ∧
    readAs .ch0 0b00000000000000000000001100101001 = some (.fftStage 3) ∧
    readAs .ch0 0x0000002A = some .fftFull ∧ readAs .ch0 0x0000002B = some .fftPower := by decide
theorem test_decode_mel :
    readAs .ch0 0x00000030 = some .melApply ∧ readAs .ch0 0x00000031 = some .logCompress ∧
    readAs .ch0 0b00000000000000000000000000111000 = some .featExtract := by decide
theorem test_decode_decision :
    readAs .ch0 0b00000000000000000000000101000000 = some (.decStep true) ∧
    readAs .ch0 0x00000040 = some (.decStep false) ∧ readAs .ch0 0x00000041 = some .decReset ∧
    readAs .ch0 0x00000042 = some .evtPop := by decide
theorem test_decode_codec :
    readAs .ch1 0b01111111111111110000000001010000 = some (.alawEnc 32767) ∧
    readAs .ch1 0x00000051 = some .codecFrame ∧ readAs .ch1 0x00000052 = some .pktPop := by decide
/-- Both ends of each reserved range of R114. -/
def reservedEnds : List Word :=
  [0x05, 0x0F, 0x12, 0x1F, 0x22, 0x27, 0x2C, 0x2F, 0x32, 0x37, 0x39, 0x3F, 0x43, 0x4F, 0x53, 0xFF]

theorem test_decode_reserved_ranges :
    reservedEnds.all (fun w => refusedAs .ch0 w == some .badOpcode && refusedAs .ch1 w == some .badOpcode) = true := by
  decide +kernel
/-- V-A3, V-E3, V-E4: the channel is checked before the reserved bits. -/
theorem test_decode_wrong_channel :
    refusedAs .ch0 0x00000050 = some .wrongChannel ∧ refusedAs .ch1 0x00000001 = some .wrongChannel ∧
    refusedAs .ch0 0x00010051 = some .wrongChannel ∧ refusedAs .ch1 0x00010051 = some .reservedBit := by decide
/-- The lowest and highest reserved bits of each format (R111), and the bits beside them. -/
theorem test_decode_reserved_bits :
    refusedAs .ch0 0x00000102 = some .reservedBit ∧ refusedAs .ch0 0x80000002 = some .reservedBit ∧
    refusedAs .ch0 0x00001029 = some .reservedBit ∧ readAs .ch0 0x00000F29 = some (.fftStage 15) ∧
    refusedAs .ch0 0x00000240 = some .reservedBit ∧ refusedAs .ch0 0x00000110 = some .reservedBit ∧
    refusedAs .ch0 0x00008010 = some .reservedBit ∧ readAs .ch0 0x00010010 = some (.rbRead 1) ∧
    refusedAs .ch0 0x00008020 = some .reservedBit ∧ readAs .ch0 0x00010020 = some (.preStep 1) := by decide
theorem test_decodeTableWord : decodeTableWord 32 0x7FFF0050 = some (.alawEnc 32767) := by decide

/-! ### The arithmetic (R9, R12) -/

/-- V-M4, V-M5: the logarithm at 100, at 1, at the epsilon of an argument that is not above it, at infinity. -/
theorem test_log_compression_values :
    logc Cfg.reset 0x42C80000 = 0x41A00000 ∧ logc Cfg.reset 0x3F800000 = 0 ∧ logc Cfg.reset 0 = 0xC2C80000 ∧
    logc Cfg.reset 0x7FC00000 = 0xC2C80000 ∧ logc Cfg.reset 0x7F800000 = 0x7F800000 := by decide +kernel
/-- V-PP5: the gate on its own. -/
theorem test_gate :
    gate Cfg.reset 0x42000000 = 0x41800000 ∧ gate Cfg.reset 0xC2000000 = 0xC1800000 ∧
    gate Cfg.reset 0x42800000 = 0x42800000 := by decide +kernel
/-- V-M8: the levels of one sample -32768. -/
theorem test_levels : levelRmsOf [-32768] = 0x3F800000 ∧ levelPeakOf [-32768] = 0x3F800000 := by decide +kernel

/-! ### One step of each command -/

/-- V-C6. -/
theorem test_nop :
    (after (exec .nop { State.reset with active := .ch1 })).chan1.errWord = 0 ∧
    (after (exec .nop { State.reset with active := .ch1 })).irqStatus = 0x0002 := by decide +kernel
/-- V-C1. -/
theorem test_cfgCommit :
    (after (exec .cfgCommit State.reset)).chan0.errWord = 0x00000100 ∧
    (after (exec .cfgCommit State.reset)).statusWord = 0x00000001 := by decide +kernel
/-- V-C18: the first failing check in order. -/
theorem test_cfgCommit_first_failing :
    (after (exec .cfgCommit { State.reset with shadow := { Cfg.reset with hop := 0, medianK := 4 } })).chan0.errWord
      = 0x00000143 := by decide +kernel
/-- V-C2, V-C5. -/
theorem test_start :
    (after (exec .start { State.reset with cfgValid := true })).statusWord = 0x00000003 ∧
    (after (exec .start State.reset)).chan0.errWord = 0x00000204 := by decide +kernel
/-- V-C4. -/
theorem test_stop :
    (after (exec .stop running)).statusWord = 0x00000001 ∧
    (after (exec .stop running)).chan0.errWord = 0x00000300 := by decide +kernel
/-- V-C20, V-C21. -/
theorem test_resetRt :
    (after (exec .resetRt { stopped with evq := [record, record] })).evq = [] ∧
    (after (exec .resetRt { stopped with evq := [record, record] })).rpos1 = 2 ∧
    (after (exec .resetRt State.reset)).chan0.errWord = 0x00000400 := by decide +kernel

/-- V-RB2: slots 5, 6, 3, 4 and both readers at position 2. -/
def overrun : State := { running with sclk := 6, rpos0 := 2, rpos1 := 2, mem := fill .rbram [5, 6, 3, 4] 0 [] }

/-- V-RB4. -/
theorem test_rbRead :
    (after (exec (.rbRead 8) overrun)).chan0.result = 4 ∧
    words .scratch0 4 (after (exec (.rbRead 8) overrun)).mem = [some 3, some 4, some 5, some 6] ∧
    (after (exec (.rbRead 8) overrun)).avail .ch0 = 0 ∧
    (after (exec (.rbRead 8) overrun)).avail .ch1 = 4 := by decide +kernel
/-- V-RB7, V-RB8. -/
theorem test_rbRead_count :
    (after (exec (.rbRead 1025) overrun)).chan0.errWord = 0x00001003 ∧
    (after (exec (.rbRead 1024) overrun)).chan0.errWord = 0x00001000 := by decide +kernel
/-- V-RB3. -/
theorem test_rbPeek :
    (after (exec (.rbPeek 2) overrun)).chan0.result = 2 ∧
    words .scratch0 2 (after (exec (.rbPeek 2) overrun)).mem = [some 3, some 4] ∧
    (after (exec (.rbPeek 2) overrun)).avail .ch0 = 4 := by decide +kernel
/-- V-PP6, V-PP7, V-PP8. -/
theorem test_preStep :
    (after (exec (.preStep (-32768)) stopped)).chan0.result = 0xC7000000 ∧
    (after (exec (.preStep 1000) stopped)).pp.y1 = 0x447A0000 ∧
    (after (exec (.preStep 1000) running)).chan0.errWord = 0x00002006 := by decide +kernel
/-- V-PP4, the last of its four samples, from the state the first three leave. -/
theorem test_preStep_all_stages :
    (ppOutputs { Cfg.reset with featCtrl := 0xC } PrepState.reset [1000, 1000, 0, -20])
      = [0x447C3FFF, 0x447D39AA, 0xBFD1E15E, 0xC1704320] := by decide +kernel
/-- V-PP9. -/
theorem test_winApply :
    words .workRe 4 (after (exec .winApply { stopped with
      act := { tiny with winLen := 2, fftLog2 := 2 }
      mem := fill .win [0x3F000000, 0x40000000] 0
        (fill .workRe [0x40400000, 0x40A00000, 0x40E00000, 0x41100000] 0 []) })).mem
      = [some 0x3FC00000, some 0x41200000, some 0, some 0] := by decide +kernel

/-- N = 4 with its twiddles and the given WORK_RE. -/
def four (re : List Word) : State :=
  { stopped with
    act := { tiny with fftLog2 := 2 }
    mem := fill .twRe [0x3F800000, 0] 0 (fill .twIm [0, 0xBF800000] 0 (fill .workRe re 0 (fill .workIm [0, 0, 0, 0] 0 []))) }

/-- V-F1. -/
theorem test_fftBitrev :
    words .workRe 8 (after (exec .fftBitrev { stopped with
      act := { tiny with fftLog2 := 3 }
      mem := fill .workRe [0, 1, 2, 3, 4, 5, 6, 7] 0 (fill .workIm [0, 0, 0, 0, 0, 0, 0, 0] 0 []) })).mem
      = [some 0, some 4, some 2, some 6, some 1, some 5, some 3, some 7] := by decide +kernel
/-- V-F4. -/
theorem test_fftStage :
    words .workRe 4 (after (exec (.fftStage 1) (four [0x3F800000, 0x40400000, 0x40000000, 0x40800000]))).mem
      = [some 0x40800000, some 0xC0000000, some 0x40C00000, some 0xC0000000] := by decide +kernel
/-- V-F15, V-F16, V-F17. -/
theorem test_fftStage_operand :
    (after (exec (.fftStage 3) (four []))).chan0.errWord = 0x00002903 ∧
    (after (exec (.fftStage 0) (four []))).chan0.errWord = 0x00002903 ∧
    (after (exec (.fftStage 0) State.reset)).chan0.errWord = 0x00002904 := by decide +kernel
/-- V-F5. -/
theorem test_fftFull :
    words .workRe 4 (after (exec .fftFull (four [0x3F800000, 0x40000000, 0x40400000, 0x40800000]))).mem
      = [some 0x41200000, some 0xC0000000, some 0xC0000000, some 0xC0000000] ∧
    words .workIm 4 (after (exec .fftFull (four [0x3F800000, 0x40000000, 0x40400000, 0x40800000]))).mem
      = [some 0, some 0x40000000, some 0, some 0xC0000000] := by decide +kernel
/-- V-F8. -/
theorem test_fftPower :
    words .pow 2 (after (exec .fftPower { stopped with
      mem := fill .workRe [0x41000000, 0xC0000000] 0 (fill .workIm [0, 0] 0 []) })).mem
      = [some 0x42800000, some 0x40800000] := by decide +kernel

/-- NB = 3, M = 2 with the rows of R252's example. -/
def mel (m : Memory) : State :=
  { stopped with
    act := { tiny with fftLog2 := 2, melBands := 2 }
    mem := fill .melW [0x3F800000, 0x3F000000, 0] 0 (fill .melW [0, 0x3F000000, 0x3F800000] 1024 m) }

/-- V-M1. -/
theorem test_melApply :
    words .melE 2 (after (exec .melApply (mel (fill .pow [0x42C80000, 0x41000000, 0x40800000] 0 [])))).mem
      = [some 0x42D00000, some 0x41000000] := by decide +kernel
/-- V-M3, V-M6. -/
theorem test_logCompress :
    words .melLog 2 (after (exec .logCompress (mel (fill .melE [0x42D00000, 0x41000000] 0 [])))).mem
      = [some 0x41A15CD8, some 0x41107E91] ∧
    (after (exec .logCompress (mel (fill .melE [0x7FC00000, 0x41000000] 0 [])))).irqStatus = 0x1001 := by decide +kernel

/-- The configuration and the samples of R262. -/
def worked262 (xs : List Word) (ctrl : Word) : State :=
  { running with
    sclk := BitVec.ofNat 64 xs.length
    act := { tiny with
      rbCap := 16, winLen := 4, hop := 2, nframes := 3, fftLog2 := 2, melBands := 2, featStride := 2, featCtrl := ctrl
      dcR := 0x3F000000, codecLen := 4 }
    mem := fill .win [0x3F800000, 0x3F800000, 0x3F800000, 0x3F800000] 0
      (fill .twRe [0x3F800000, 0] 0 (fill .twIm [0, 0xBF800000] 0 (fill .rbram xs 0 (mel []).mem))) }

/-- V-M9: a FULL extraction (program P1). -/
theorem test_featExtract_full :
    words .feat 6 (after (exec .featExtract (worked262 [100, 200, 300, 400, 300, 200, 100, 0] 0))).mem
      = [some 0x425F216A, some 0x421AD20F, some 0x424B8ED6, some 0x4240B909, some 0x425460E2, some 0x4231CCC4] ∧
    (after (exec .featExtract (worked262 [100, 200, 300, 400, 300, 200, 100, 0] 0))).pp
      = { x1 := 0x43480000, y1 := 0x43160000, p1 := 0x43160000, env := 0, gain := 0x3F800000 } := by decide +kernel
/-- V-M10, V-M12: a PAD extraction, and a FAIL with fewer than L samples. -/
theorem test_featExtract_pad_and_fail :
    words .feat 6 (after (exec .featExtract (worked262 [100, 200, 300, 400, 300, 200] 1))).mem
      = [some 0x421AD20F, some 0x421AD20F, some 0x425F216A, some 0x421AD20F, some 0x424B8ED6, some 0x4240B909] ∧
    (after (exec .featExtract (worked262 [100, 200, 300, 400, 300, 200] 1))).chan0.result = 2 ∧
    (after (exec .featExtract (worked262 [100, 200, 300] 1))).irqStatus = 0x0101 := by decide +kernel

/-- V-D1, V-D4. -/
theorem test_decStep :
    at8 (after (exec (.decStep true) { running with act := Cfg.reset, prob := #v[0x3F733333, 0, 0, 0, 0, 0, 0, 0] })).ema 0
      = 0x3F2A3D70 ∧
    (after (exec (.decStep true) { running with act := Cfg.reset, prob := #v[0, 0x7FC00000, 0, 0, 0, 0, 0, 0] })).irqStatus
      = 0x0201 := by decide +kernel
/-- V-D8, its sixth cycle: exit and emit. -/
theorem test_decStep_emit :
    (after (exec (.decStep true) inEvent)).chan0.result = 0xD ∧
    (after (exec (.decStep true) inEvent)).evq
      = [{ cls := 0, seq := 0, start := 160, dur := 480, peakconf := 0x3F733333, rms := 0x3E800000, peak := 0x3F400000 }] := by
  decide +kernel
/-- V-D14. -/
theorem test_decReset :
    (after (exec .decReset { inEvent with evtSeqNext := 7 })).statusWord = 0x00000003 ∧
    (after (exec .decReset { inEvent with evtSeqNext := 7 })).evtSeqNext = 7 := by decide +kernel
/-- V-D12, V-D13. -/
theorem test_evtPop :
    (after (exec .evtPop State.reset)).chan0.errWord = 0x00004208 ∧
    (after (exec .evtPop State.reset)).irqStatus = 0x0005 ∧
    (after (exec .evtPop { State.reset with evq := [record] })).chan0.result = 5 ∧
    (after (exec .evtPop { State.reset with evq := [record] })).evq = [] := by decide +kernel
/-- V-A1, V-A2. -/
theorem test_alawEnc :
    (after (exec (.alawEnc 32767) { State.reset with active := .ch1 })).chan1.result = 0x000000AA ∧
    (after (exec (.alawEnc (-32768)) { State.reset with active := .ch1 })).chan1.result = 0x0000002A := by decide +kernel
/-- R320's table: both sides of a segment's end. -/
theorem test_alaw_segments :
    alaw 255 = 0xDA ∧ alaw 256 = 0xC5 ∧ alaw 4095 = 0x9A ∧ alaw 4096 = 0x85 ∧ alaw (-16) = 0x55 ∧
    alaw (-12345) = 0x3D := by decide +kernel

/-- F = 4, reader 1 holding 0, 1000, -1000, 32767. -/
def framed : State :=
  { running with
    active := .ch1, sclk := 4, act := { tiny with codecLen := 4 }
    mem := fill .rbram [0, 1000, 0xFFFFFC18, 0x00007FFF] 0 [] }

/-- V-A4. -/
theorem test_codecFrame :
    (after (exec .codecFrame framed)).mem.word .pktPay 0 = some 0xAA7AFAD5 ∧
    (after (exec .codecFrame framed)).pkt = some { seq := 0, ts := 0, len := 4 } ∧
    (after (exec .codecFrame framed)).pktTsNext = 4 := by decide +kernel
/-- V-A5, V-A8. -/
theorem test_codecFrame_skipped :
    (after (exec .codecFrame { framed with pkt := some { seq := 0, ts := 0, len := 4 } })).irqStatus = 0x2002 ∧
    (after (exec .codecFrame { framed with sclk := 3 })).irqStatus = 0x0082 := by decide +kernel
/-- V-A6, V-A7. -/
theorem test_pktPop :
    (after (exec .pktPop { State.reset with active := .ch1, pkt := some { seq := 9, ts := 0, len := 4 } })).chan1.result
      = 9 ∧
    (after (exec .pktPop { State.reset with active := .ch1 })).chan1.errWord = 0x00005209 := by decide +kernel

/-! ### The agents -/

/-- V-E7, V-E8, V-E9. -/
theorem test_bus_interrupt_registers :
    (after ({ State.reset with irqStatus := 5 }.hostWrite 4 0x02C 4)).irqStatus = 1 ∧
    (after ({ State.reset with irqStatus := 5 }.hostWrite 4 0x02C 0)).irqStatus = 5 ∧
    (after (State.reset.hostWrite 4 0x030 0xFFFFFFFF)).irqEnable = 0x7FFF := by decide +kernel
/-- V-E10, V-E11, V-E13. -/
theorem test_bus_faults :
    faultOf (State.reset.hostRead 4 0x0A8) = some (.busError 0x0A8) ∧
    faultOf (State.reset.hostRead 4 0x01000) = some (.uninitRead 0x01000) ∧
    faultOf (({ stopped with chan0 := latched 0x0000002A } : State).hostWrite 4 0x04000 1) = some (.hazardRw 0x04000) := by
  decide +kernel
/-- V-E12. -/
theorem test_bus_command_lost :
    (after (({ State.reset with chan0 := latched 2 } : State).hostWrite 4 0x040 3)).irqStatus = 0x0400 ∧
    (after (({ State.reset with chan0 := latched 2 } : State).hostWrite 4 0x040 3)).chan0 = latched 2 := by decide +kernel
/-- V-E14. -/
theorem test_bus_identification :
    (after (State.reset.hostRead 4 0x000)).busData = 0x41454450 ∧
    (after (State.reset.hostRead 4 0x004)).busData = 0x00010000 ∧
    (after (State.reset.hostRead 4 0x008)).busData = 0x0080487A ∧
    (after (State.reset.hostRead 4 0x00C)).busData = 0x04000040 ∧
    (after (State.reset.hostRead 4 0x010)).busData = 0x00008000 ∧
    (after (State.reset.hostRead 4 0x014)).busData = 0x04000400 := by decide +kernel
/-- V-RB9: a sample that arrives while stopped is discarded. -/
theorem test_sample_discarded :
    (after (step { stopped with inputs := [.sample 7] })).counters.discard = 1 ∧
    (after (step { stopped with inputs := [.sample 7] })).sclk = 2 := by decide +kernel
/-- V-RB2, its first eviction: the oldest sample is lost to both readers. -/
theorem test_sample_evicts :
    (after (step { crowded with inputs := [.sample 5] })).counters.ovr1 = 1 ∧
    (after (step { crowded with inputs := [.sample 5] })).rpos0 = 1 ∧
    (after (step { crowded with inputs := [.sample 5] })).mem.word .rbram 0 = some 5 := by decide +kernel
/-- V-E1, V-E2: words with a reserved opcode, run from `withFetchWord`. -/
theorem test_step_bad_opcode :
    (after (step (State.reset.withFetchWord 32 0x05))).chan0.errWord = 0x00000501 ∧
    (after (step (State.reset.withFetchWord 32 0xFF))).chan0.errWord = 0x0000FF01 := by decide +kernel
/-- V-A1 from `withFetchWord`. -/
theorem test_step_runs_the_table_word :
    (after (step (State.reset.withFetchWord 32 0x7FFF0050))).chan1.result = 0x000000AA := by decide +kernel

/-- A command issued with N = 512 on channel 0, whose END has since been followed by a CFG_COMMIT to `tiny` (N = 2). -/
def wide (w : Word) : Issued := { word := w, cfg := Cfg.reset, hpos := 1 }
def issuedWide (w : Word) : State := { stopped with chan0 := { Channel.reset with unobserved := [wide w] } }
/-- R386: an FFT_FULL not observed complete keeps its 512 words stale whatever is configured since, and IRQ_STATUS. -/
theorem test_stale_keeps_its_configuration :
    (issuedWide 0x2A).stale (Arr.workRe.off 511) = true ∧ (issuedWide 0x2A).stale (Arr.workRe.off 512) = false ∧
    (issuedWide 0x2A).stale 0x02C = true ∧ (issuedWide 0x2A).stale 0x020 = false := by decide +kernel
/-- R283, R291: under NC = 4 and DEC_HPOS = 1, DEC_STEP 1 writes SMOOTH[3] and HIST[3][1], not SMOOTH[4], EMA[7], HIST[3][0]
or HIST[4][1]; DEC_STEP 0 writes NODET_CNT, and nothing of the decision engine or of EVT. -/
theorem test_stale_of_decStep :
    ([0x38C, 0x464, 0x36C, 0x3A0, 0x310].all (issuedWide 0x140).stale) = true ∧
    ([0x390, 0x37C, 0x460, 0x484].any (issuedWide 0x140).stale) = false ∧
    (issuedWide 0x040).stale 0x08C = true ∧
    ([0x360, 0x380, 0x400, 0x404, 0x310, 0x338, 0x3A0, 0x334, 0x098].any (issuedWide 0x040).stale) = false := by decide +kernel
/-- R173, R223, R224: an operand that fails its check writes no data word; bit reversal leaves WORK[0] where it is. -/
theorem test_stale_of_operands :
    (issuedWide 0x04010010).stale 0x048 = false ∧ (issuedWide 0x04000010).stale 0x048 = true ∧
    (issuedWide 0x0A29).stale 0x04000 = false ∧ (issuedWide 0x0929).stale 0x04000 = true ∧
    (issuedWide 0x28).stale 0x04000 = false ∧ (issuedWide 0x28).stale 0x04004 = true := by decide +kernel
/-- R6: the same block with SCRATCH_LEN = 4 and EVQ_DEPTH = 1 refuses RB_READ 5 and drops the second record. -/
def small : Params := { aedp1 with scratchLen := 4, evqDepth := 1 }
theorem test_parameters_are_arguments :
    (after (rbReadWith small 5 overrun)).chan0.errWord = 0x00001003 ∧
    (after (decStepWith small true { inEvent with evq := [record] })).chan0.result = 0x15 ∧
    (after (State.reset.hostRead 4 0x014 small)).busData = 0x04000004 ∧
    faultOf (State.reset.hostRead 4 0x03010 small) = some (.busError 0x03010) := by decide +kernel
/-- R12: LOG_COMPRESS applies the parameter LOG10; here, the identity. -/
theorem test_log_is_a_parameter :
    words .melLog 1 (after (logCompressWith { aedp1 with log10 := id } (mel (fill .melE [0x40000000, 0x41000000] 0 [])))).mem
      = [some 0x41A00000] := by decide +kernel

/-! ### Witnesses: states and operands that meet the hypotheses of the statements -/

theorem legal_of {c : Cfg} (h : c.validate = none) : c.Legal := c.validate_eq_none_iff.1 h
theorem tiny_legal : tiny.Legal := legal_of (by decide +kernel)

/-- The small block with the word `w` pending on channel 0, and channel 0's engine scheduled. -/
def scheduled (w : Word) : State := { stopped with inputs := [.run .ch0], chan0 := latched w }

/-- A state whose command on channel 0 has begun and read `running`'s samples, after which 5 more have been accepted: the
samples it read have been evicted. -/
def evictedState (w : Word) : State := { running with chan0 := begun w running.snapshot, sclk := 7, rpos0 := 3, rpos1 := 3 }

theorem witness_DecodeOfEncodeIsTheCommand :
    ∀ c ∈ ([(.rbRead 0, .ch1), (.rbRead 65535, .ch0), (.rbPeek 65535, .ch1), (.preStep (-32768), .ch0),
        (.preStep 32767, .ch0), (.fftStage 0, .ch0), (.fftStage 15, .ch0), (.decStep true, .ch0), (.alawEnc (-1), .ch1),
        (.pktPop, .ch1)] : List (Instr × Chan)),
      c.1.wellFormed = true ∧ c.1.opcode.legalOn c.2 = true := by decide +kernel

theorem witness_EncodeOfDecodeIsTheWord : decode 0xFFFF0010 = .ok (.rbRead 65535) ∧ decode 0x00000052 = .ok .pktPop :=
  ⟨rfl, rfl⟩

theorem witness_OpcodeMapWordsDecodeAsListed :
    opcodeByte 0x00000042 ∈ ([0x01, 0x02, 0x03, 0x04, 0x20, 0x21, 0x28, 0x29, 0x2A, 0x2B, 0x30, 0x31, 0x38, 0x40, 0x41,
      0x42] : List Byte) ∧ opcodeByte 0xFFFF0052 ∈ ([0x50, 0x51, 0x52] : List Byte) := by decide +kernel

theorem witness_StepRunsTheDecodedCommand :
    (decodeOn .ch0 0x00000003 = .ok .stop ∧ (scheduled 3).inputs = [.run .ch0] ∧
      ((scheduled 3).chan .ch0).pending.word? = some 3) ∧
    (decodeOn .ch0 0x00000001 = .ok .cfgCommit ∧ ({ stopped with inputs := [.begin .ch0], chan0 := latched 1 } : State).inputs
      = [.begin .ch0] ∧ (({ stopped with inputs := [.begin .ch0], chan0 := latched 1 } : State).chan .ch0).pending
      = .latched 1) ∧
    (({ stopped with chan0 := latched 3 } : State).inputs = [] ∧
      Chan.ch0 = ({ stopped with chan0 := latched 3 } : State).active ∧
      (({ stopped with chan0 := latched 3 } : State).chan .ch0).pending.word? = some 3) ∧
    (({ stopped with active := .ch1, chan0 := latched 3 } : State).inputs = [] ∧
      ({ stopped with active := .ch1, chan0 := latched 3 } : State).busy .ch1 = false ∧
      (({ stopped with active := .ch1, chan0 := latched 3 } : State).chan .ch0).pending.word? = some 3) :=
  ⟨⟨rfl, rfl, rfl⟩, ⟨rfl, rfl, rfl⟩, ⟨rfl, rfl, rfl⟩, ⟨rfl, rfl, rfl⟩⟩

theorem witness_UndecodableCommandsCompleteWithTheirCode :
    (∀ w ∈ reservedEnds, (scheduled w).inputs = [.run .ch0] ∧ ((scheduled w).chan .ch0).pending.word? = some w ∧
      refusedAs .ch0 w = some .badOpcode) ∧
    ((scheduled 0x50).inputs = [.run .ch0] ∧ ((scheduled 0x50).chan .ch0).pending.word? = some 0x50 ∧
      decodeOn .ch0 0x50 = .error .wrongChannel) ∧
    ((scheduled 0x100).inputs = [.run .ch0] ∧ ((scheduled 0x100).chan .ch0).pending.word? = some 0x100 ∧
      decodeOn .ch0 0x100 = .error .reservedBit) :=
  ⟨fun w hw => ⟨rfl, rfl, eq_of_beq (Bool.and_eq_true_iff.1 (List.all_eq_true.1 test_decode_reserved_ranges w hw)).1⟩,
    ⟨rfl, rfl, rfl⟩, ⟨rfl, rfl, rfl⟩⟩

theorem witness_BeginRecordsTheVerdictAndSnapshot :
    ({ running with inputs := [.begin .ch1], chan1 := latched 0x51 } : State).inputs = [.begin .ch1] ∧
    (({ running with inputs := [.begin .ch1], chan1 := latched 0x51 } : State).chan .ch1).pending = .latched 0x51 ∧
    decodeOn .ch1 0x51 = .ok .codecFrame ∧ Instr.codecFrame ≠ .cfgCommit ∧ Instr.codecFrame ≠ .resetRt :=
  ⟨rfl, rfl, rfl, by decide, by decide⟩

theorem witness_BeginThenRunEqualsRun :
    ({ running with inputs := [.begin .ch1, .run .ch1], chan1 := latched 0x51 } : State).inputs
      = [.begin .ch1, .run .ch1] ∧
    ∃ u, step { running with inputs := [.begin .ch1, .run .ch1], chan1 := latched 0x51 } = .next u :=
  ⟨rfl, _, answered_next (by decide +kernel)⟩

theorem witness_CommandsThatBeganDoNotFailLater :
    (Instr.codecFrame ≠ .cfgCommit ∧ Instr.codecFrame ≠ .resetRt ∧
      (({ stopped with chan0 := begun 0x51 running.snapshot } : State).chan .ch0).pending
        = .begun 0x51 none running.snapshot ∧
      ∃ t, exec .codecFrame { stopped with chan0 := begun 0x51 running.snapshot } = .next t) ∧
    (ErrCode.notRunning.code ≠ 0 ∧
      (({ stopped with chan0 := { Channel.reset with pending := .begun 0x51 (some .notRunning) running.snapshot } } :
        State).chan .ch0).pending = .begun 0x51 (some .notRunning) running.snapshot) :=
  ⟨⟨by decide, by decide, rfl, _, answered_next (by decide +kernel)⟩, by decide, rfl⟩

theorem witness_RefusedCommandsReportTheirFirstError :
    running.run = true ∧
    (stopped.run = false ∧ ({ stopped with chan1 := latched 0x51 } : State).busy .ch1 = true) ∧
    (State.reset.fresh ∧ State.reset.cfgValid = false ∧ State.reset.evq = [] ∧ State.reset.pkt = none) ∧
    (running.fresh ∧ running.cfgValid = true ∧ running.run = true) ∧
    (stopped.fresh ∧ stopped.cfgValid = true ∧ stopped.run = false ∧ 1024 < 1025 ∧
      stopped.act.fftLog2.toNat < stopped.act.fftLog2.toNat + 1) :=
  ⟨rfl, ⟨rfl, rfl⟩, ⟨fresh_of_idle rfl, rfl, rfl, rfl⟩, ⟨fresh_of_idle rfl, rfl, rfl⟩,
    ⟨fresh_of_idle rfl, rfl, rfl, by decide, Nat.lt_succ_self _⟩⟩

theorem witness_FailedCommandChangesOnlyItsCompletion :
    (∃ t, exec .start State.reset = .next t ∧ (t.chan State.reset.active).errCode ≠ 0) ∧
    ((scheduled 0xFF).inputs = [.run .ch0] ∧ ((scheduled 0xFF).chan .ch0).pending.word? = some 0xFF ∧
      decodeOn .ch0 0xFF = .error .badOpcode) :=
  ⟨⟨_, answered_next (by decide +kernel), by decide +kernel⟩, rfl, rfl, rfl⟩

theorem witness_EveryCompletionIsRecordedOnItsChannel :
    (∃ t, exec .start State.reset = .next t ∧ (t.chan State.reset.active).errCode ≠ 0) ∧
    ∃ t, exec .codecFrame framed = .next t ∧ (t.chan framed.active).errCode = 0 :=
  ⟨⟨_, answered_next (by decide +kernel), by decide +kernel⟩,
    _, answered_next (by decide +kernel), by decide +kernel⟩

theorem witness_CommandsOnlyFaultOnUnwrittenWords :
    (exec .winApply { stopped with mem := [] } = .fault (.uninitRead 0x04000) ∧
      ({ stopped with mem := [] } : State).mem.readWord 0x04000 = none) ∧
    (let sn : Snapshot := { running.snapshot with ring := [] }
     let s : State := { running with chan0 := begun 0x10010 sn }
     exec (.rbRead 1) s = .fault (.uninitRead 0x80000) ∧ (s.chan s.active).pending = .begun 0x10010 none sn ∧
      sn.ring.readWord 0x80000 = none) := ⟨⟨rfl, rfl⟩, rfl, rfl, rfl⟩

theorem witness_ChannelsDoNotDisturbEachOther :
    (framed.act.Legal ∧ Opcode.legalOn .codecFrame framed.active = true ∧ framed.active = .ch1 ∧
      ∃ t, exec .codecFrame framed = .next t) ∧
    (overrun.act.Legal ∧ Opcode.legalOn .rbRead overrun.active = true ∧ overrun.active = .ch0 ∧
      Instr.rbRead 1024 ≠ .cfgCommit ∧ Instr.rbRead 1024 ≠ .resetRt ∧ ∃ t, exec (.rbRead 1024) overrun = .next t) :=
  ⟨⟨legal_of (by decide +kernel), rfl, rfl, _, answered_next (by decide +kernel)⟩,
    legal_of (by decide +kernel), rfl, rfl, by decide, by decide, _, answered_next (by decide +kernel)⟩

theorem witness_NopStartAndStopComplete :
    AtEnd State.reset True State.reset.snapshot ∧ AtEnd stopped (stopped.cfgValid = true) stopped.snapshot ∧
    AtEnd { stopped with chan0 := begun 2 stopped.snapshot } (stopped.cfgValid = true) stopped.snapshot :=
  ⟨atEnd_fresh rfl trivial, atEnd_fresh rfl rfl, atEnd_begun rfl⟩

theorem witness_CommitAndResetRtClearTheRuntimeState :
    State.reset.run = false ∧ State.reset.busy .ch1 = false ∧ State.reset.shadow.Legal :=
  ⟨rfl, rfl, legal_of (by decide +kernel)⟩

/-- A configuration whose only failing check is the last. -/
def lastFails : Cfg := { Cfg.reset with rbCap := 8079 }

theorem lastFails_checks : ∀ check ∈ lastFails.checks.take 24, check.2 := by
  intro check h
  simp only [Cfg.checks, List.take, List.mem_cons, List.not_mem_nil, or_false] at h
  rcases h with rfl | rfl | rfl | rfl | rfl | rfl | rfl | rfl | rfl | rfl | rfl | rfl | rfl | rfl | rfl | rfl | rfl | rfl |
    rfl | rfl | rfl | rfl | rfl | rfl <;> dsimp only <;> decide +kernel

theorem witness_CommitReportsTheFirstFailingCheck :
    (State.reset.run = false ∧ State.reset.busy .ch1 = false ∧ State.reset.shadow.Legal) ∧
    (({ Cfg.reset with fs := 0 } : Cfg).checks[0]? = some (0x40, ({ Cfg.reset with fs := 0 } : Cfg).fs ≠ 0) ∧
      ¬(({ Cfg.reset with fs := 0 } : Cfg).fs ≠ 0)) ∧
    (lastFails.checks[24]? = some (0x41, lastFails.rq ≤ lastFails.rbCap.toNat ∧
        lastFails.codecLen.toNat ≤ lastFails.rbCap.toNat) ∧
      ¬(lastFails.rq ≤ lastFails.rbCap.toNat ∧ lastFails.codecLen.toNat ≤ lastFails.rbCap.toNat) ∧
      ∀ j q, j < 24 → lastFails.checks[j]? = some q → q.2) := by
  refine ⟨⟨rfl, rfl, legal_of (by decide +kernel)⟩, ⟨rfl, by decide⟩, rfl, by decide +kernel,
    fun j q hj h => lastFails_checks q ?_⟩
  exact List.mem_of_getElem? (i := j) (by rw [List.getElem?_take, if_pos hj, h])

theorem witness_AcceptStoresOneSampleAndDropsTheOldest :
    (({ stopped with inputs := [.sample 7] } : State).inputs = [.sample 7] ∧ stopped.run = false) ∧
    (({ crowded with inputs := [.hostWrite 4 0x050 0xFFFF8000] } : State).inputs = [.hostWrite 4 0x050 0xFFFF8000] ∧
      (0x8000 : Sample) = (0xFFFF8000 : Word).extractLsb' 0 16 ∧ crowded.run = true ∧
      (crowded.sclk - crowded.rpos0).toNat = crowded.act.rbCap.toNat) ∧
    (running.run = true ∧ (running.sclk - running.rpos1).toNat ≠ running.act.rbCap.toNat) := by
  refine ⟨⟨rfl, rfl⟩, ⟨rfl, ?_, rfl, ?_⟩, rfl, ?_⟩ <;> decide +kernel

theorem readerSound_of {s : State} (hb : (s.rpos .ch0).toNat ≤ s.sclk.toNat ∧ (s.rpos .ch1).toNat ≤ s.sclk.toNat)
    (hw : s.sclk.toNat ≤ (s.rpos .ch0).toNat + s.act.rbCap.toNat ∧ s.sclk.toNat ≤ (s.rpos .ch1).toNat + s.act.rbCap.toNat)
    (hs : ∀ p, p < s.sclk.toNat → (s.mem.word .rbram (p % s.act.rbCap.toNat)).isSome) (r : Chan) : s.ReaderSound r := by
  cases r
  · exact ⟨hb.1, hw.1, fun p _ hp => hs p hp⟩
  · exact ⟨hb.2, hw.2, fun p _ hp => hs p hp⟩

theorem running_readers : ∀ r, running.ReaderSound r :=
  readerSound_of (by decide +kernel) (by decide +kernel) (by decide +kernel)
theorem crowded_readers : ∀ r, crowded.ReaderSound r :=
  readerSound_of (by decide +kernel) (by decide +kernel) (by decide +kernel)

theorem witness_AcceptedSamplesStayInOrder :
    (running.run = true ∧ 1 ≤ running.act.rbCap.toNat ∧ running.act.rbCap.toNat ≤ 32768 ∧ (∀ r, running.ReaderSound r) ∧
      running.sclk.toNat + 1 < 2 ^ 64) ∧
    (crowded.run = true ∧ 1 ≤ crowded.act.rbCap.toNat ∧ crowded.act.rbCap.toNat ≤ 32768 ∧
      (∀ r, crowded.ReaderSound r) ∧ crowded.sclk.toNat + 1 < 2 ^ 64) :=
  ⟨⟨rfl, by decide, by decide, running_readers, by decide⟩, rfl, by decide, by decide, crowded_readers, by decide⟩

theorem covers_of {s : State} {c : Cfg} {n : Nat}
    (h : ∀ i, i < n → (s.snapshot.ring.word .rbram ((s.snapshot.rpos.toNat + i) % c.rbCap.toNat)).isSome) :
    s.snapshot.covers c n := h

/-- Both cases of the data words: nothing evicted since BEGIN, and everything evicted. -/
theorem witness_RbReadAndRbPeekCopySamples :
    (1024 ≤ 1024 ∧ AtEnd running (running.cfgValid = true) running.snapshot ∧
      min 1024 (running.snapshot.sclk - running.snapshot.rpos).toNat = 2 ∧ running.snapshot.covers running.act 2 ∧
      running.sclk.toNat ≤ running.snapshot.rpos.toNat + running.act.rbCap.toNat) ∧
    (AtEnd (evictedState 0x10) ((evictedState 0x10).cfgValid = true) running.snapshot ∧
      running.snapshot.covers (evictedState 0x10).act 2 ∧
      ¬(evictedState 0x10).sclk.toNat ≤ running.snapshot.rpos.toNat + (evictedState 0x10).act.rbCap.toNat) :=
  ⟨⟨Nat.le_refl _, atEnd_fresh rfl rfl, by decide +kernel, covers_of (by decide +kernel), by decide +kernel⟩,
    atEnd_begun rfl, covers_of (by decide +kernel), by decide +kernel⟩

theorem witness_PreStepRunsTheFourStages :
    AtEnd stopped (stopped.cfgValid = true ∧ stopped.run = false) stopped.snapshot := atEnd_fresh rfl ⟨rfl, rfl⟩

theorem witness_PreprocessorStreamIsConsistent :
    ([1, 2, 3] : List Int)[2]? = some 3 ∧ stopped.fresh ∧ stopped.cfgValid = true ∧ stopped.run = false :=
  ⟨rfl, fresh_of_idle rfl, rfl, rfl⟩

theorem written_of {a : Arr} {n : Nat} {m : Memory} (h : ∀ i, i < n → (m.readWord (a.off i)).isSome) : Written a n m := h

theorem witness_WinApplyWindowsAndPads :
    AtEnd stopped (stopped.cfgValid = true) stopped.snapshot ∧ stopped.act.Legal ∧
    Written .workRe stopped.act.winLen.toNat stopped.mem ∧ Written .win stopped.act.winLen.toNat stopped.mem :=
  ⟨atEnd_fresh rfl rfl, tiny_legal, written_of (by decide +kernel), written_of (by decide +kernel)⟩

theorem witness_FftBitrevPermutesWork :
    5 < 2 ^ 3 ∧ AtEnd stopped (stopped.cfgValid = true) stopped.snapshot ∧ stopped.act.Legal ∧
    Written .workRe (2 ^ stopped.act.fftLog2.toNat) stopped.mem ∧
    Written .workIm (2 ^ stopped.act.fftLog2.toNat) stopped.mem :=
  ⟨by decide, atEnd_fresh rfl rfl, tiny_legal, written_of (by decide +kernel), written_of (by decide +kernel)⟩

theorem witness_FftStageDoesItsButterflies :
    AtEnd stopped (stopped.cfgValid = true) stopped.snapshot ∧ stopped.act.Legal ∧ 1 ≤ 1 ∧
    1 ≤ stopped.act.fftLog2.toNat ∧
    Written .workRe (2 ^ stopped.act.fftLog2.toNat) stopped.mem ∧
    Written .workIm (2 ^ stopped.act.fftLog2.toNat) stopped.mem ∧
    Written .twRe (2 ^ stopped.act.fftLog2.toNat / 2) stopped.mem ∧
    Written .twIm (2 ^ stopped.act.fftLog2.toNat / 2) stopped.mem :=
  ⟨atEnd_fresh rfl rfl, tiny_legal, Nat.le_refl _, by decide, written_of (by decide +kernel),
    written_of (by decide +kernel), written_of (by decide +kernel), written_of (by decide +kernel)⟩

theorem witness_FftFullIsBitrevThenAllStages :
    AtEnd stopped True stopped.snapshot ∧ stopped.cfgValid = true ∧ stopped.act.Legal ∧
    Written .workRe (2 ^ stopped.act.fftLog2.toNat) stopped.mem ∧
    Written .workIm (2 ^ stopped.act.fftLog2.toNat) stopped.mem ∧
    Written .twRe (2 ^ stopped.act.fftLog2.toNat / 2) stopped.mem ∧
    Written .twIm (2 ^ stopped.act.fftLog2.toNat / 2) stopped.mem :=
  ⟨atEnd_fresh rfl trivial, rfl, tiny_legal, written_of (by decide +kernel),
    written_of (by decide +kernel), written_of (by decide +kernel), written_of (by decide +kernel)⟩

theorem witness_FftPowerSquaresTheBins :
    AtEnd stopped (stopped.cfgValid = true) stopped.snapshot ∧ stopped.act.Legal ∧
    Written .workRe (2 ^ stopped.act.fftLog2.toNat / 2 + 1) stopped.mem ∧
    Written .workIm (2 ^ stopped.act.fftLog2.toNat / 2 + 1) stopped.mem :=
  ⟨atEnd_fresh rfl rfl, tiny_legal, written_of (by decide +kernel), written_of (by decide +kernel)⟩

theorem melW_written : ∀ m k, m < tiny.melBands.toNat → k < 2 ^ tiny.fftLog2.toNat / 2 + 1 →
    (tinyMem.word .melW (m * 1024 + k)).isSome := by
  have h : ∀ m, m < tiny.melBands.toNat → ∀ k, k < 2 ^ tiny.fftLog2.toNat / 2 + 1 →
      (tinyMem.word .melW (m * 1024 + k)).isSome := by decide +kernel
  exact fun m k hm hk => h m hm k hk

theorem witness_MelApplySumsEveryBin :
    AtEnd stopped (stopped.cfgValid = true) stopped.snapshot ∧ stopped.act.Legal ∧
    Written .pow (2 ^ stopped.act.fftLog2.toNat / 2 + 1) stopped.mem ∧
    ∀ m k, m < stopped.act.melBands.toNat → k < 2 ^ stopped.act.fftLog2.toNat / 2 + 1 →
      (stopped.mem.word .melW (m * 1024 + k)).isSome :=
  ⟨atEnd_fresh rfl rfl, tiny_legal, written_of (by decide +kernel), melW_written⟩

theorem witness_LogCompressTakesLogarithms :
    AtEnd stopped (stopped.cfgValid = true) stopped.snapshot ∧ stopped.act.Legal ∧
    Written .melE stopped.act.melBands.toNat stopped.mem :=
  ⟨atEnd_fresh rfl rfl, tiny_legal, written_of (by decide +kernel)⟩

/-- The identity has the properties that R12 gives LOG10 and the statement assumes. -/
theorem witness_LogOfAnEnergyIsNeverNaN :
    (fun x : Word => x) f32Inf = f32Inf ∧
    (∀ x, fgt x f32Zero = true → isFinite x = true → isFinite ((fun x : Word => x) x) = true) ∧
    (∀ x y, fgt x f32Zero = true → fle x y = true → fle ((fun x : Word => x) x) ((fun x : Word => x) y) = true) ∧
    fgt 0x2EDBE6FF f32Zero = true ∧ isFinite 0x2EDBE6FF = true :=
  ⟨rfl, fun _ _ h => h, fun _ _ _ h => h, by decide +kernel, by decide +kernel⟩

theorem witness_FeatExtractFailSkipsTheCycle :
    (AtEnd { running with sclk := 1 } (running.cfgValid = true ∧ running.run = true) ({ running with sclk := 1 } : State).snapshot ∧
      (1 : Pos).toNat < running.act.rq ∧ running.act.featCtrl.getLsbD 0 = false) ∧
    (AtEnd { running with act := { tiny with featCtrl := 1 }, sclk := 0 } (running.cfgValid = true ∧ running.run = true)
        ({ running with act := { tiny with featCtrl := 1 }, sclk := 0 } : State).snapshot ∧
      (0 : Pos).toNat < ({ tiny with featCtrl := 1 } : Cfg).winLen.toNat) :=
  ⟨⟨atEnd_fresh rfl ⟨rfl, rfl⟩, by decide, by decide⟩, atEnd_fresh rfl ⟨rfl, rfl⟩, by decide⟩

/-- The running block that pads, with one sample. -/
def padding : State := { running with act := { tiny with featCtrl := 1 }, sclk := 1 }

theorem witness_FeatExtractFullAndPadOutcomes :
    (AtEnd running (running.cfgValid = true ∧ running.run = true) running.snapshot ∧ running.act.Legal ∧
      running.act.rq ≤ (running.snapshot.sclk - running.snapshot.rpos).toNat ∧ running.snapshot.covers running.act 2 ∧
      Written .win 1 running.mem ∧ Written .twRe 1 running.mem ∧ Written .twIm 1 running.mem ∧
      (∀ b k, b < running.act.melBands.toNat → k < 2 ^ running.act.fftLog2.toNat / 2 + 1 →
        (running.mem.word .melW (b * 1024 + k)).isSome) ∧
      running.sclk.toNat ≤ running.snapshot.rpos.toNat + running.act.rbCap.toNat) ∧
    (AtEnd padding (padding.cfgValid = true ∧ padding.run = true) padding.snapshot ∧ padding.act.Legal ∧
      ¬padding.act.rq ≤ (padding.snapshot.sclk - padding.snapshot.rpos).toNat ∧ padding.act.featCtrl.getLsbD 0 = true ∧
      padding.act.winLen.toNat ≤ (padding.snapshot.sclk - padding.snapshot.rpos).toNat ∧
      padding.snapshot.covers padding.act 1) ∧
    (AtEnd (evictedState 0x38) (running.cfgValid = true ∧ running.run = true) running.snapshot ∧
      ¬(evictedState 0x38).sclk.toNat ≤ running.snapshot.rpos.toNat + (evictedState 0x38).act.rbCap.toNat) :=
  ⟨⟨atEnd_fresh rfl ⟨rfl, rfl⟩, tiny_legal, by decide +kernel, covers_of (by decide +kernel), written_of (by decide +kernel),
      written_of (by decide +kernel), written_of (by decide +kernel), melW_written, by decide +kernel⟩,
    ⟨atEnd_fresh rfl ⟨rfl, rfl⟩, legal_of (by decide +kernel), by decide +kernel, by decide, by decide +kernel,
      covers_of (by decide +kernel)⟩,
    atEnd_begun rfl, by decide +kernel⟩

/-- Both cases of FEAT_OVF: every energy finite, and an infinite weight. -/
theorem witness_FeatExtract_overflow :
    (after (exec .featExtract running)).irqStatus = 0x0001 ∧
    (after (exec .featExtract { running with mem := fill .melW [0x7F800000] 0 tinyMem })).irqStatus = 0x1001 := by
  decide +kernel

theorem witness_FeatureRowsAreTheirOwnWindows :
    (tiny.Legal ∧ Written .win tiny.winLen.toNat tinyMem) ∧
    AtEnd running (running.cfgValid = true ∧ running.run = true) running.snapshot ∧ running.act.Legal ∧
    running.act.rq ≤ (running.snapshot.sclk - running.snapshot.rpos).toNat ∧
    running.sclk.toNat ≤ running.snapshot.rpos.toNat + running.act.rbCap.toNat ∧
    (∃ t, exec .featExtract running = .next t) ∧ ∃ t, exec .featExtract padding = .next t :=
  ⟨⟨tiny_legal, written_of (by decide +kernel)⟩, atEnd_fresh rfl ⟨rfl, rfl⟩, tiny_legal, by decide +kernel,
    by decide +kernel, ⟨_, answered_next (by decide +kernel)⟩, _, answered_next (by decide +kernel)⟩

theorem witness_PaddingValueIsTheFirstMinimum :
    ([0x3F800000, 0x00000000, 0x80000000] : List Word) ≠ [] ∧
    ∀ x ∈ ([0x3F800000, 0x00000000, 0x80000000] : List Word), isNaN x = false :=
  ⟨by decide, List.forall_mem_cons.2 ⟨by decide +kernel, List.forall_mem_cons.2 ⟨by decide +kernel,
    List.forall_mem_singleton.2 (by decide +kernel)⟩⟩⟩

theorem witness_NoDetectionCycleFreezesTheEngine :
    AtEnd running (running.cfgValid = true ∧ running.run = true) running.snapshot ∧
    1 < running.act.nclasses.toNat ∧
    (fge (at8 #v[0, 0x3F800001, 0, 0, 0, 0, 0, 0] 1) f32Zero && fle (at8 #v[0, 0x3F800001, 0, 0, 0, 0, 0, 0] 1) f32One)
      = false :=
  ⟨atEnd_fresh rfl ⟨rfl, rfl⟩, by decide, by decide +kernel⟩

/-- Above in IDLE, above in an event, and neither. -/
def entering : State := { running with prob := #v[0x3F666666, 0x3DCCCCCD, 0, 0, 0, 0, 0, 0], cycleTs := 160 }
def staying : State := { inEvent with prob := #v[0x3F666666, 0x3DCCCCCD, 0, 0, 0, 0, 0, 0] }
def quietEvent (ts : Pos) : State := { inEvent with prob := #v[0x3F000000, 0x3F000000, 0, 0, 0, 0, 0, 0], cycleTs := ts }

theorem smoothed_of {s : State} (h : ∀ k, k < 8 → (at8 s.ema k).toNat ≤ 0x3F800000 ∧ (at8 s.smooth k).toNat ≤ 0x3F800000 ∧
    ∀ j, j < 8 → (at64 s.hist k j).toNat ≤ 0x3F800000) : s.Smoothed := h
/-- After a valid cycle the smoothing state is not all zeros. -/
def smoothing : State := { after (exec (.decStep true) entering) with act := { tiny with emaAlpha := 0x3F333333 } }
theorem witness_Smoothed :
    entering.Smoothed ∧ smoothing.Smoothed ∧ at8 smoothing.smooth 0 = 0x3F666666 ∧
    (after (exec (.decStep true) smoothing)).Smoothed :=
  ⟨smoothed_of (by decide +kernel), smoothed_of (by decide +kernel), by decide +kernel, smoothed_of (by decide +kernel)⟩

theorem witness_DecStepSmoothsItsClasses :
    entering.Smoothed ∧ AtEnd entering (entering.cfgValid = true ∧ entering.run = true) entering.snapshot ∧ entering.act.Legal ∧
    (∀ k, k < entering.act.nclasses.toNat →
      fge (at8 entering.prob k) f32Zero = true ∧ fle (at8 entering.prob k) f32One = true) ∧
    ∀ j, j < entering.act.medianK.toNat → isNaN (at64 (after (exec (.decStep true) entering)).hist 1 j) = false :=
  ⟨witness_Smoothed.1, atEnd_fresh rfl ⟨rfl, rfl⟩, tiny_legal, by decide +kernel, by decide +kernel⟩

theorem witness_ArgmaxIsTheSmallestMaximalClass :
    entering.Smoothed ∧ AtEnd entering (entering.cfgValid = true ∧ entering.run = true) entering.snapshot ∧ entering.act.Legal ∧
    (∀ k, k < entering.act.nclasses.toNat →
      fge (at8 entering.prob k) f32Zero = true ∧ fle (at8 entering.prob k) f32One = true) ∧
    ∀ k, k < entering.act.nclasses.toNat → isNaN (at8 (after (exec (.decStep true) entering)).smooth k) = false :=
  ⟨witness_Smoothed.1, atEnd_fresh rfl ⟨rfl, rfl⟩, tiny_legal, by decide +kernel, by decide +kernel⟩

/-- The state's cycle is above, by the state after it. -/
def isAbove (s : State) : Bool :=
  decide ((after (exec (.decStep true) s)).dec.argmax = s.act.target) &&
    fge (at8 (after (exec (.decStep true) s)).smooth s.act.target.toNat) s.act.threshold

/-- A cycle of each case of the state machine completes. At 959 the quiet period of 320 since 640 is not over; at 960 it
is. -/
theorem witness_DecisionMachineEntersAndStays :
    AtEnd entering (entering.cfgValid = true ∧ entering.run = true) entering.snapshot ∧ entering.act.Legal ∧
    ∀ s ∈ [entering, running, staying, quietEvent 959],
      (∀ k, k < s.act.nclasses.toNat → fge (at8 s.prob k) f32Zero = true ∧ fle (at8 s.prob k) f32One = true) ∧
      exec (.decStep true) s = .next (after (exec (.decStep true) s)) := by
  refine ⟨atEnd_fresh rfl ⟨rfl, rfl⟩, tiny_legal, fun s hs => ?_⟩
  simp only [List.mem_cons, List.not_mem_nil, or_false] at hs
  rcases hs with rfl | rfl | rfl | rfl <;> exact ⟨by decide +kernel, answered_next (by decide +kernel)⟩
theorem witness_DecisionMachine_cases :
    (entering.dec.state = .idle ∧ isAbove entering = true) ∧ (running.dec.state = .idle ∧ isAbove running = false) ∧
    (staying.dec.state = .eventActive ∧ isAbove staying = true) ∧
    ((quietEvent 959).dec.state = .eventActive ∧ isAbove (quietEvent 959) = false ∧
      (after (exec (.decStep true) (quietEvent 959))).dec.argmax = tiny.target ∧
      ¬tiny.quiet.toNat ≤ ((959 : Pos) - 640).toNat) := by decide +kernel

/-- The exit by another class, and the exit by the quiet period. -/
theorem witness_EventExitEmitsOrDrops :
    AtEnd inEvent (inEvent.cfgValid = true ∧ inEvent.run = true) inEvent.snapshot ∧ inEvent.act.Legal ∧
    (∀ k, k < inEvent.act.nclasses.toNat →
      fge (at8 inEvent.prob k) f32Zero = true ∧ fle (at8 inEvent.prob k) f32One = true) ∧
    (∃ t, exec (.decStep true) inEvent = .next t ∧ t.dec.argmax ≠ inEvent.act.target) ∧
    (∃ t, exec (.decStep true) (quietEvent 960) = .next t ∧ fge (at8 t.smooth 0) tiny.threshold = false) ∧
    tiny.quiet.toNat ≤ ((960 : Pos) - 640).toNat ∧ inEvent.dec.state = .eventActive :=
  ⟨atEnd_fresh rfl ⟨rfl, rfl⟩, tiny_legal, by decide +kernel, ⟨_, answered_next (by decide +kernel), by decide +kernel⟩,
    ⟨_, answered_next (by decide +kernel), by decide +kernel⟩, by decide, rfl⟩
/-- A record is emitted with room, and dropped without; an event shorter than MIN_DUR leaves none (480 is its length). -/
theorem witness_EventExit_cases :
    (inEvent.act.minDur.toNat ≤ 480 ∧ inEvent.evq.length < 4) ∧
    4 ≤ ({ inEvent with evq := [record, record, record, record] } : State).evq.length ∧
    480 < ({ inEvent with act := { tiny with minDur := 481 } } : State).act.minDur.toNat ∧
    min (inEvent.dec.last - inEvent.dec.start).toNat 0xFFFFFFFF = 480 := by decide +kernel

theorem witness_DecResetAndEvtPopComplete :
    AtEnd State.reset True State.reset.snapshot ∧
    AtEnd { State.reset with evq := [record] } True ({ State.reset with evq := [record] } : State).snapshot ∧
    ({ State.reset with evq := [record] } : State).evq = record :: [] :=
  ⟨atEnd_fresh rfl trivial, atEnd_fresh rfl trivial, rfl⟩

theorem witness_AlawGoldenBytes : (0 : Int) ≤ 32767 ∧ (32767 : Int) < 32768 := by decide

theorem witness_AlawEncAndPktPopComplete :
    AtEnd { State.reset with active := .ch1, pkt := some { seq := 9, ts := 0, len := 4 } } True
      ({ State.reset with active := .ch1, pkt := some { seq := 9, ts := 0, len := 4 } } : State).snapshot :=
  atEnd_fresh rfl trivial

theorem witness_CodecFrameSkipsACycle :
    AtEnd framed (framed.cfgValid = true ∧ framed.run = true) framed.snapshot ∧
    AtEnd { framed with sclk := 3 } (framed.cfgValid = true ∧ framed.run = true) ({ framed with sclk := 3 } : State).snapshot ∧
    framed.pkt = none ∧ (3 : Pos).toNat < framed.act.codecLen.toNat :=
  ⟨atEnd_fresh rfl ⟨rfl, rfl⟩, atEnd_fresh rfl ⟨rfl, rfl⟩, rfl, by decide⟩

/-- Nothing evicted since BEGIN, with exactly F samples; and everything evicted. -/
theorem witness_CodecFrameEmitsOnePacket :
    (AtEnd framed (framed.cfgValid = true ∧ framed.run = true) framed.snapshot ∧ framed.act.Legal ∧ framed.pkt = none ∧
      framed.act.codecLen.toNat ≤ (framed.snapshot.sclk - framed.snapshot.rpos).toNat ∧
      framed.snapshot.covers framed.act framed.act.codecLen.toNat ∧
      framed.sclk.toNat ≤ framed.snapshot.rpos.toNat + framed.act.rbCap.toNat) ∧
    (AtEnd { framed with chan1 := begun 0x51 framed.snapshot, sclk := 9 } (framed.cfgValid = true ∧ framed.run = true)
        framed.snapshot ∧
      ¬(9 : Pos).toNat ≤ framed.snapshot.rpos.toNat + framed.act.rbCap.toNat) :=
  ⟨⟨atEnd_fresh rfl ⟨rfl, rfl⟩, legal_of (by decide +kernel), rfl, by decide +kernel, covers_of (by decide +kernel),
      by decide +kernel⟩,
    atEnd_begun rfl, by decide +kernel⟩

theorem witness_ReadsChangeNothing :
    ({ stopped with inputs := [.hostRead 4 0x020] } : State).inputs = [.hostRead 4 0x020] ∧
    ∃ t, step { stopped with inputs := [.hostRead 4 0x020] } = .next t := ⟨rfl, _, answered_next (by decide +kernel)⟩

theorem witness_ReadsShowTheRegisters :
    ({ inEvent with inputs := [.hostRead 4 0x3BC], evq := [record] } : State).inputs = [.hostRead 4 0x3BC] ∧
    ({ inEvent with inputs := [.hostRead 4 0x3BC], evq := [record] } : State).stale 0x3BC = false := by decide +kernel

theorem witness_BusErrorsAreExactlyOffTheMap :
    ({ stopped with inputs := [.hostRead 4 0x0A8] } : State).inputs = [.hostRead 4 0x0A8] ∧
    ({ stopped with inputs := [.hostWrite 2 0x0A4 0] } : State).inputs = [.hostWrite 2 0x0A4 0] := ⟨rfl, rfl⟩
/-- The last mapped word of each block of the map and the first offset after it. -/
theorem test_map_boundaries :
    (∀ off ∈ [0x014, 0x030, 0x070, 0x0A4, 0x164, 0x264, 0x3D0, 0x3F0, 0x4FC, 0x01FFC, 0x02FFC, 0x03FFC, 0x05FFC, 0x06800,
        0x071FC, 0x10FFC, 0x113FC, 0x9FFFC], (locOf off).isSome = true) ∧
    ∀ off ∈ [0x016, 0x018, 0x034, 0x074, 0x0A8, 0x168, 0x268, 0x3D4, 0x3F4, 0x500, 0x03001, 0x06804, 0x07200, 0x11400,
        0xA0000], locOf off = none := by decide +kernel

theorem witness_WritesTakeEffectByAccessType :
    ∀ off ∈ [0x014, 0x020, 0x028, 0x02C, 0x030, 0x04C, 0x070, 0x0A4, 0x100, 0x164, 0x200, 0x264, 0x300, 0x304, 0x308, 0x30C,
        0x310, 0x340, 0x35C, 0x360, 0x3D0, 0x3F0, 0x4FC, 0x01000, 0x02800, 0x03FFC, 0x04000, 0x06800, 0x071FC, 0x0FFFC,
        0x10000, 0x113FC, 0x40000, 0x80000, 0x9FFFC],
      ({ stopped with inputs := [.hostWrite 4 off 1] } : State).inputs = [.hostWrite 4 off 1] ∧ off % 4 = 0 ∧
      ({ stopped with inputs := [.hostWrite 4 off 1] } : State).hazard off = false := by decide +kernel

theorem witness_CommandWritesLatchOrAreLost :
    (({ stopped with inputs := [.hostWrite 4 0x044 0x51] } : State).inputs = [.hostWrite 4 0x044 0x51] ∧
      stopped.busy .ch1 = false) ∧
    (({ stopped with inputs := [.hostWrite 4 0x040 3], chan0 := latched 2 } : State).inputs = [.hostWrite 4 0x040 3] ∧
      ({ stopped with inputs := [.hostWrite 4 0x040 3], chan0 := latched 2 } : State).busy .ch0 = true) :=
  ⟨⟨rfl, rfl⟩, rfl, rfl⟩

/-- The first and the last word of a footprint, and the word after it. -/
theorem witness_HazardsAreExactlyTheFootprints :
    (((scheduled 0x2A).chan .ch0).pending.word? = some 0x2A ∧ decodeOn .ch0 0x2A = .ok .fftFull ∧
      InFootprint (scheduled 0x2A).act .fftFull 0x04000 ∧ InFootprint (scheduled 0x2A).act .fftFull 0x05004) ∧
    (locOf 0x04000).isSome = true ∧ (scheduled 0x2A).hazard 0x05004 = true ∧ (scheduled 0x2A).hazard 0x05008 = false :=
  ⟨⟨rfl, rfl, .inl (.inl ⟨0, by decide, rfl⟩), .inl (.inr ⟨1, by decide, rfl⟩)⟩, by decide +kernel, by decide +kernel,
    by decide +kernel⟩

/-- The last word of a stale array and the word after it; an undecodable word's ERRn; each other clause. -/
theorem witness_ResultReadsAreStaleUntilObserved :
    ((locOf (Arr.workRe.off 511)).isSome = true ∧ decodeOn .ch0 0x2A = .ok .fftFull ∧
      InWritten (wide 0x2A) .ch0 .fftFull (Arr.workRe.off 511) ∧
      ¬InWritten (wide 0x2A) .ch0 .fftFull (Arr.workRe.off 512) ∧
      step { issuedWide 0x2A with inputs := [.hostRead 4 (Arr.workRe.off 511)] } = .fault (.staleCmd (Arr.workRe.off 511))) ∧
    (IsErr .ch0 0x024 ∧ step { issuedWide 0xFF with inputs := [.hostRead 4 0x024] } = .fault (.staleCmd 0x024) ∧
      ∃ t, step { issuedWide 0xFF with inputs := [.hostRead 4 0x048] } = .next t) ∧
    (framed.busy .ch1 = false ∧ ∃ t, step { framed with inputs := [.hostWrite 4 0x044 0x51] } = .next t) ∧
    (({ issuedWide 0x2A with inputs := [.hostRead 4 0x020] } : State).busy .ch0 = false ∧
      ({ issuedWide 0x2A with chan1 := latched 0x51 } : State).busy .ch1 = true) ∧
    ∃ t, exec .stop (issuedWide 0x2A) = .next t := by
  refine ⟨⟨by decide +kernel, rfl, .inl ⟨511, by decide +kernel, rfl⟩, ?_, rfl⟩,
    ⟨rfl, rfl, _, answered_next (by decide +kernel)⟩, ⟨rfl, _, answered_next (by decide +kernel)⟩, ⟨rfl, rfl⟩, _,
    answered_next (by decide +kernel)⟩
  rintro (⟨i, hi, h⟩ | ⟨i, hi, h⟩)
  · have hn : (wide 0x2A).cfg.fftSize = 512 := by decide +kernel
    simp only [Arr.off, Arr.base] at h
    omega
  · simp only [Arr.off, Arr.base] at h
    omega

/-- The last word of the last array, unwritten; and a written word. -/
theorem witness_UnwrittenWordsFaultUntilWritten :
    (32767 < Arr.rbram.len ∧ stopped.stale (Arr.rbram.off 32767) = false ∧ stopped.mem.word .rbram 32767 = none) ∧
    (1 < Arr.rbram.len ∧ stopped.stale (Arr.rbram.off 1) = false ∧ stopped.mem.word .rbram 1 = some 0xFFFFFF9C) := by
  decide +kernel

theorem witness_StatusAndInterruptLineShowTheirSources :
    ({ inEvent with evq := [record, record, record, record] } : State).evq.length ≤ 4 := by decide

theorem witness_ResetStateReadsAsListed :
    ({ running with inputs := [.resetInput] } : State).inputs = [.resetInput] := rfl

theorem running_sound : running.Sound where
  memory := by decide +kernel
  queue := by decide
  running := fun _ => rfl
  legal := fun _ => tiny_legal
  history := by decide
  smoothed := smoothed_of (by decide +kernel)
  starting := fun n w sn i h _ _ => by cases n <;> cases h

theorem running_ringSound : running.RingSound :=
  fun _ => ⟨running_readers, fun n w sn h => by cases n <;> cases h⟩

theorem witness_EveryStepKeepsTheBlockSound :
    running.Sound ∧ ∃ t, step running = .next t := ⟨running_sound, _, answered_next (by decide +kernel)⟩

/-- A sample accepted by a sound block. -/
theorem witness_EveryStepKeepsTheRingBufferSound :
    ({ running with inputs := [.sample 7] } : State).Sound ∧ ({ running with inputs := [.sample 7] } : State).RingSound ∧
    ({ running with inputs := [.sample 7] } : State).sclk.toNat + 1 < 2 ^ 64 ∧
    ∃ t, step { running with inputs := [.sample 7] } = .next t :=
  ⟨⟨running_sound.memory, running_sound.queue, fun _ => rfl, fun _ => tiny_legal, running_sound.history,
      running_sound.smoothed, running_sound.starting⟩,
    fun _ => ⟨fun r => ⟨(running_readers r).behind, (running_readers r).within, (running_readers r).written⟩,
      fun n w sn h => by cases n <;> cases h⟩,
    by decide, _, answered_next (by decide +kernel)⟩

theorem witness_ReaderCommandsRunInSoundStates :
    running.Sound ∧ running.RingSound ∧ running.cfgValid = true ∧
    Opcode.legalOn (Instr.rbRead 2).opcode running.active = true ∧
    (Instr.rbRead 2 = .codecFrame ∨ ∃ k, Instr.rbRead 2 = .rbRead k ∨ Instr.rbRead 2 = .rbPeek k) :=
  ⟨running_sound, running_ringSound, rfl, rfl, .inr ⟨2, .inl rfl⟩⟩

end Sys2Proof.Tests
end

section
/-!
The scope rules (spec/00_scope.md R9, R12): rounding is monotone, so multiplying by a positive finite number keeps the
order of the comparisons; and the log compression of an energy, for every LOG10 with the properties of R12.
-/

namespace Sys2Proof.Machine

/-! ### Rounding is monotone (R9) -/

/-- Rounding to a whole number is monotone: quotients with one floor compare by their remainders. -/
theorem roundNE_mono {n n' den : Nat} (h : n ≤ n') : roundNE n den ≤ roundNE n' den := by
  rcases Nat.lt_or_eq_of_le (Nat.div_le_div_right (c := den) h) with hq | hq
  · simp only [roundNE]
    split <;> split <;> omega
  · have hr : n % den ≤ n' % den := by
      have hn := Nat.div_add_mod n den
      have hn' := Nat.div_add_mod n' den
      rw [hq] at hn
      omega
    simp only [roundNE, hq]
    split <;> split <;> omega

theorem roundNE_mul (q : Nat) {den : Nat} (hd : 0 < den) : roundNE (den * q) den = q := by
  simp only [roundNE, Nat.mul_div_cancel_left q hd, Nat.mul_mod_right]
  split <;> omega

/-- The binade in which `roundMag` places a quotient, counted from the subnormal spacing. -/
def binade (num den : Nat) : Nat := (num / den).log2 - 23

/-- The pattern that `roundMag` computes before it replaces what is past the largest finite number by infinity. -/
def roundPlace (num den : Nat) : Nat := binade num den * 2 ^ 23 + roundNE num (den * 2 ^ binade num den)

theorem roundMag_eq_min (num den : Nat) : roundMag num den = min (roundPlace num den) 0x7F800000 := by
  simp only [roundMag, roundPlace, binade]
  split <;> omega

theorem binade_mono {n n' : Nat} (den : Nat) (h : n ≤ n') : binade n den ≤ binade n' den := by
  have hq : n / den ≤ n' / den := Nat.div_le_div_right h
  by_cases h0 : n / den = 0
  · simp [binade, h0]
  · have h0' : n' / den ≠ 0 := Nat.ne_of_gt (Nat.lt_of_lt_of_le (Nat.pos_of_ne_zero h0) hq)
    have hlog : (n / den).log2 ≤ (n' / den).log2 := (Nat.le_log2 h0').2 (Nat.le_trans (Nat.log2_self_le h0) hq)
    exact Nat.sub_le_sub_right hlog 23

/-- Every place fits in 24 bits, with the carry of rounding. -/
theorem roundNE_binade_le (num : Nat) {den : Nat} (hd : 0 < den) :
    roundNE num (den * 2 ^ binade num den) ≤ 2 ^ 24 := by
  have hlog : num / den < 2 ^ (binade num den + 24) :=
    Nat.lt_of_lt_of_le Nat.lt_log2_self (Nat.pow_le_pow_right (by omega) (by unfold binade; omega))
  have hnum : num ≤ den * 2 ^ binade num den * 2 ^ 24 := by
    rw [Nat.mul_assoc, ← Nat.pow_add, Nat.mul_comm]
    exact Nat.le_of_lt ((Nat.div_lt_iff_lt_mul hd).1 hlog)
  exact roundNE_mul (2 ^ 24) (Nat.mul_pos hd (Nat.two_pow_pos _)) ▸ roundNE_mono hnum

/-- Above the subnormal binade the leading bit of every place is set. -/
theorem le_roundNE_binade {num den : Nat} (hd : 0 < den) (hk : 1 ≤ binade num den) :
    2 ^ 23 ≤ roundNE num (den * 2 ^ binade num den) := by
  have hlog : 2 ^ (binade num den + 23) ≤ num / den := by
    have hne : num / den ≠ 0 := fun h0 => by simp [binade, h0] at hk
    rw [show binade num den + 23 = (num / den).log2 by unfold binade at *; omega]
    exact Nat.log2_self_le hne
  have hnum : den * 2 ^ binade num den * 2 ^ 23 ≤ num := by
    rw [Nat.mul_assoc, ← Nat.pow_add, Nat.mul_comm]
    exact (Nat.le_div_iff_mul_le hd).1 hlog
  exact roundNE_mul (2 ^ 23) (Nat.mul_pos hd (Nat.two_pow_pos _)) ▸ roundNE_mono hnum

/-- In one binade the places compare; a higher binade starts where the one below it ends. -/
theorem roundPlace_mono {n n' den : Nat} (hd : 0 < den) (h : n ≤ n') : roundPlace n den ≤ roundPlace n' den := by
  unfold roundPlace
  rcases Nat.lt_or_eq_of_le (binade_mono den h) with hk | hk
  · have hlow := roundNE_binade_le n hd
    have hhigh := le_roundNE_binade (num := n') hd (by omega)
    omega
  · rw [hk]
    exact Nat.add_le_add_left (roundNE_mono h) _

theorem roundMag_mono {n n' den : Nat} (hd : 0 < den) (h : n ≤ n') : roundMag n den ≤ roundMag n' den := by
  have := roundPlace_mono hd h
  rw [roundMag_eq_min, roundMag_eq_min]
  omega

theorem roundMag_zero (den : Nat) : roundMag 0 den = 0 := by
  simp [roundMag, roundNE]

/-! ### A pattern from its sign and its magnitude pattern -/

/-- The word with the given sign and, in its low 31 bits, the pattern `m`. -/
def signed (neg : Bool) (m : Nat) : Word := BitVec.ofNat 32 (signBit neg + m)

theorem packRat_eq (neg : Bool) (num den : Nat) : packRat neg num den = signed neg (roundMag num den) := rfl

theorem signed_toNat (neg : Bool) {m : Nat} (h : m ≤ 0x7F800000) : (signed neg m).toNat = signBit neg + m := by
  rw [signed, BitVec.toNat_ofNat, Nat.mod_eq_of_lt]
  cases neg <;> simp only [signBit] <;> simp <;> omega

theorem f32Abs_signed (neg : Bool) {m : Nat} (h : m ≤ 0x7F800000) : f32Abs (signed neg m) = m := by
  rw [f32Abs, signed_toNat neg h]
  cases neg <;> simp [signBit] <;> omega

theorem f32Neg_signed (neg : Bool) {m : Nat} (h : m ≤ 0x7F800000) : f32Neg (signed neg m) = neg := by
  rw [Bool.eq_iff_iff, f32Neg_iff, signed_toNat neg h]
  cases neg <;> simp [signBit]
  omega

theorem isNaN_signed (neg : Bool) {m : Nat} (h : m ≤ 0x7F800000) : isNaN (signed neg m) = false := by
  rw [isNaN, f32Abs_signed neg h]
  exact decide_eq_false (by omega)

theorem f32Key_signed (neg : Bool) {m : Nat} (h : m ≤ 0x7F800000) :
    f32Key (signed neg m) = if neg then -(m : Int) else (m : Int) := by
  rw [f32Key, f32Neg_signed neg h, f32Abs_signed neg h]

/-! ### The product with a positive finite number (R9) -/

/-- What "positive" says of a pattern. -/
theorem fgt_zero_iff (a : Word) : fgt a f32Zero = true ↔ isNaN a = false ∧ f32Neg a = false ∧ 0 < f32Abs a := by
  have hz : isNaN f32Zero = false := by decide
  have hk : f32Key f32Zero = 0 := by decide
  rw [fgt, flt_iff, hz, hk, f32Key]
  cases f32Neg a <;> simp

/-- The magnitude pattern of the product of the positive finite `c` and `a`. -/
def prodMag (c a : Word) : Nat := if isInf a then 0x7F800000 else roundMag (f32Mag c * f32Mag a) (2 ^ 149)

theorem prodMag_le (c a : Word) : prodMag c a ≤ 0x7F800000 := by
  unfold prodMag
  split
  · exact Nat.le_refl _
  · exact roundMag_lt _ _

theorem prodMag_zero (c : Word) {a : Word} (h : f32Abs a = 0) : prodMag c a = 0 := by
  have hinf : isInf a = false := decide_eq_false (by omega)
  have hmag : f32Mag a = 0 := by rw [f32Mag_eq, h]; rfl
  rw [prodMag, hinf, hmag, Nat.mul_zero, roundMag_zero, if_neg Bool.false_ne_true]

theorem prodMag_mono (c : Word) {a b : Word} (hb : isNaN b = false) (h : f32Abs a ≤ f32Abs b) :
    prodMag c a ≤ prodMag c b := by
  by_cases hbi : isInf b = true
  · exact Nat.le_trans (prodMag_le c a) (by rw [prodMag, if_pos hbi])
  · have hai : ¬ isInf a = true := by
      simp only [isNaN, isInf, decide_eq_true_eq, decide_eq_false_iff_not] at *
      omega
    rw [prodMag, prodMag, if_neg hai, if_neg hbi]
    exact roundMag_mono (Nat.two_pow_pos _) (Nat.mul_le_mul_left _ (magOf_le h))

/-- A positive finite factor keeps the sign, and makes no NaN. -/
theorem fmul_pos {c a : Word} (hc : fgt c f32Zero = true) (hfin : isFinite c = true) (ha : isNaN a = false) :
    fmul c a = signed (f32Neg a) (prodMag c a) := by
  obtain ⟨hcn, hcs, hc0⟩ := (fgt_zero_iff c).1 hc
  have hci : isInf c = false := decide_eq_false (Nat.ne_of_lt (of_decide_eq_true hfin))
  simp only [fmul, hcn, ha, hci, hcs, Bool.or_self, Bool.false_or, Bool.false_bne, if_neg Bool.false_ne_true, prodMag]
  by_cases hai : isInf a = true
  · have ha0 : ¬(f32Abs c = 0 ∨ f32Abs a = 0) := by
      have := of_decide_eq_true hai
      omega
    rw [if_pos hai, if_pos hai, if_neg ha0]
    cases f32Neg a <;> rfl
  · rw [if_neg hai, if_neg hai, packRat_eq]

theorem fmul_pos_notNaN {c a : Word} (hc : fgt c f32Zero = true) (hfin : isFinite c = true) (ha : isNaN a = false) :
    isNaN (fmul c a) = false := by
  rw [fmul_pos hc hfin ha, isNaN_signed _ (prodMag_le c a)]

/-- Multiplying by a positive finite number keeps the order. -/
theorem fmul_pos_mono {c a b : Word} (hc : fgt c f32Zero = true) (hfin : isFinite c = true) (h : fle a b = true) :
    fle (fmul c a) (fmul c b) = true := by
  obtain ⟨⟨ha, hb⟩, hkey⟩ := (fle_iff a b).1 h
  refine (fle_iff _ _).2 ⟨⟨fmul_pos_notNaN hc hfin ha, fmul_pos_notNaN hc hfin hb⟩, ?_⟩
  rw [fmul_pos hc hfin ha, fmul_pos hc hfin hb, f32Key_signed _ (prodMag_le c a), f32Key_signed _ (prodMag_le c b)]
  unfold f32Key at hkey
  cases hna : f32Neg a <;> cases hnb : f32Neg b <;>
    simp only [hna, hnb, if_true, if_neg Bool.false_ne_true] at hkey ⊢
  case false.false =>
    have := prodMag_mono c hb (show f32Abs a ≤ f32Abs b by omega)
    omega
  case false.true =>
    -- only zeros: +0 is at or below -0
    rw [prodMag_zero c (a := a) (by omega), prodMag_zero c (a := b) (by omega)]
    omega
  case true.false => omega
  case true.true =>
    have := prodMag_mono c ha (show f32Abs b ≤ f32Abs a by omega)
    omega

/-! ### The argument of LOG10 (R253) -/

/-- `fmaxe` with an epsilon that is a number answers a number at or above the epsilon. -/
theorem fle_fmaxe (e : Word) {eps : Word} (h : isNaN eps = false) : fle eps (fmaxe e eps) = true := by
  unfold fmaxe
  split
  · next hgt =>
    obtain ⟨hnan, hkey⟩ := (flt_iff eps e).1 hgt
    exact (fle_iff eps e).2 ⟨hnan, Int.le_of_lt hkey⟩
  · exact (fle_iff eps eps).2 ⟨⟨h, h⟩, Int.le_refl _⟩

theorem fmaxe_self (e : Word) : fmaxe e e = e := ite_self e

theorem fgt_inf {a : Word} (h : isFinite a = true) : fgt f32Inf a = true := by
  have habs : f32Abs a < 0x7F800000 := of_decide_eq_true h
  have hnan : isNaN a = false := decide_eq_false (by omega)
  have hinf : f32Key f32Inf = 0x7F800000 := by decide
  refine (flt_iff a f32Inf).2 ⟨⟨hnan, by decide⟩, ?_⟩
  rw [hinf, f32Key]
  split <;> omega

theorem fmaxe_inf {eps : Word} (h : isFinite eps = true) : fmaxe f32Inf eps = f32Inf := if_pos (fgt_inf h)

/-! ### Log compression -/

/-- Settles O31: the argument of LOG10 is at or above the epsilon, monotonicity of LOG10 (R12) gives a number at or
above its value there, and multiplying by 10.0 keeps both. -/
theorem logOfAnEnergyIsNeverNaN : Obligations.LogOfAnEnergyIsNeverNaN := by
  unfold Obligations.LogOfAnEnergyIsNeverNaN logcOf
  intro lg eps e hinf _ hmono hpos hfin
  have h10 : fgt 0x41200000 f32Zero = true := by decide
  have h10fin : isFinite 0x41200000 = true := by decide
  have heps : isNaN eps = false := ((fgt_zero_iff eps).1 hpos).1
  have hle : fle (lg eps) (lg (fmaxe e eps)) = true := hmono _ _ hpos (fle_fmaxe e heps)
  obtain ⟨⟨_, hnum⟩, _⟩ := (fle_iff _ _).1 hle
  rw [fmaxe_self]
  refine ⟨fmul_pos_notNaN h10 h10fin hnum, fmul_pos_mono h10 h10fin hle, ?_⟩
  rintro rfl
  rw [fmaxe_inf hfin, hinf]
  decide

end Sys2Proof.Machine
end

section
/-!
The effect of a command (spec/20_memory.md R90): every command as one END step over its effect, what a command can do
when it answers or faults, and what an effect keeps of the state before the completion is recorded.
-/

namespace Sys2Proof.Machine

/-! ### A command as its checks and its effect -/

/-- The effect of each command once its checks have passed, on the snapshot of its BEGIN step (R90). -/
def commandEffect (i : Instr) (sn : Snapshot) (s : State) : Except Fault State :=
  match i with
  | .nop => .ok s
  | .cfgCommit => .ok (effectCfgCommit s)
  | .start => .ok { s with run := true }
  | .stop => .ok { s with run := false }
  | .resetRt => .ok (effectResetRt s)
  | .rbRead k => effectRbRead k sn s
  | .rbPeek k => effectRbPeek k sn s
  | .preStep x => .ok (effectPreStep x s)
  | .winApply => onMemory (winApply s.act) s
  | .fftBitrev => onMemory (fftBitrev s.act) s
  | .fftStage k => onMemory (fftStage s.act k) s
  | .fftFull => onMemory (fftFull s.act) s
  | .fftPower => onMemory (fftPower s.act) s
  | .melApply => onMemory (melApply s.act) s
  | .logCompress => effectLogCompress s
  | .featExtract => effectFeatExtract sn s
  | .decStep v => .ok (effectDecStep v s)
  | .decReset => .ok s.decClear
  | .evtPop => .ok (effectEvtPop s)
  | .alawEnc x => .ok (s.setResult ((alaw x).setWidth 32))
  | .codecFrame => effectCodecFrame sn s
  | .pktPop => .ok (effectPktPop s)

/-- What BEGIN found for a command: recorded before, or found now. The two commands of one step never look at a
record (R90). -/
def beginFound (i : Instr) (s : State) : Option ErrCode × Snapshot :=
  if beginIsEnd i then (commandCheck i s, s.snapshot) else s.beginResult (commandCheck i)

theorem exec_eq_finish (i : Instr) (s : State) :
    exec i s = s.finish i (beginFound i s).1 (commandEffect i (beginFound i s).2) := by
  cases i <;> rfl

/-- BEGIN of the command passed its checks with the snapshot `sn`: as recorded, or now. -/
def Began (i : Instr) (s : State) (sn : Snapshot) : Prop :=
  (beginIsEnd i = false ∧ ∃ w, (s.chan s.active).pending = .begun w none sn) ∨
    (commandCheck i s = none ∧ sn = s.snapshot)

theorem began_of_found {i : Instr} {s : State} (h : (beginFound i s).1 = none) : Began i s (beginFound i s).2 := by
  unfold beginFound at h ⊢
  split at h
  · exact .inr ⟨h, by simp [*]⟩
  · unfold State.beginResult at h ⊢
    split at h <;> simp_all [Began]

/-- Everything a command can do when it answers a next state: complete with an error and no other effect (R352), or
complete with CODE 0 after its effect. -/
theorem exec_next {i : Instr} {s t : State} (h : exec i s = .next t) :
    (∃ e, t = s.complete i.opcode.byte (some e)) ∨
    (∃ sn u, Began i s sn ∧ commandEffect i sn s = .ok u ∧ t = u.complete i.opcode.byte none) := by
  rw [exec_eq_finish] at h
  rcases State.finish_next h with ⟨e, -, rfl⟩ | ⟨hv, u, hu, rfl⟩
  · exact .inl ⟨e, rfl⟩
  · exact .inr ⟨_, u, began_of_found hv, hu, rfl⟩

/-- A command faults only where its effect does, after its checks passed. -/
theorem exec_fault {i : Instr} {s : State} {f : Fault} (h : exec i s = .fault f) :
    ∃ sn, Began i s sn ∧ commandEffect i sn s = .error f := by
  rw [exec_eq_finish] at h
  unfold State.finish at h
  split at h
  · cases h
  · next hv =>
    split at h
    · cases h
    · next hf => cases h; exact ⟨_, began_of_found hv, hf⟩

theorem exec_never_refuses (i : Instr) (s : State) (r : Refusal) : exec i s ≠ .refused r := by
  rw [exec_eq_finish]
  exact State.finish_never_refuses s i _ _ r

/-! ### What a command's effect keeps -/

/-- What the effect of every command keeps before the completion is recorded: the other channel, its own channel but for
RESULTn, the sample clock and the completion bits of IRQ_STATUS; event bits are only set, and memory grows. -/
structure EffectFrame (s u : State) : Prop where
  active : u.active = s.active
  irqEnable : u.irqEnable = s.irqEnable
  sclk : u.sclk = s.sclk
  own : u.chan s.active = { s.chan s.active with result := (u.chan s.active).result }
  other : u.chan (otherChan s.active) = s.chan (otherChan s.active)
  irqKept : ∀ b, s.irqStatus.getLsbD b = true → u.irqStatus.getLsbD b = true
  irqCompletion : ∀ b, b < 4 → u.irqStatus.getLsbD b = s.irqStatus.getLsbD b
  memory : s.mem.Grows u.mem

/-- The registers that the block's invariants speak of are kept, and memory grows. -/
structure RegisterFrame (s u : State) : Prop where
  memory : s.mem.Grows u.mem
  cfgValid : u.cfgValid = s.cfgValid
  act : u.act = s.act
  run : u.run = s.run
  evq : u.evq = s.evq
  dec : u.dec = s.dec
  ema : u.ema = s.ema
  smooth : u.smooth = s.smooth
  hist : u.hist = s.hist

/-- What the effect of a command keeps that works on data only: also the configuration, RUN, the event queue and the
decision engine's registers. -/
structure DataFrame (s u : State) : Prop extends EffectFrame s u, RegisterFrame s u

/-- A data effect that moves no reader cursor. -/
structure QuietEffect (s u : State) : Prop extends DataFrame s u where
  rpos0 : u.rpos0 = s.rpos0
  rpos1 : u.rpos1 = s.rpos1

theorem EffectFrame.trans {s u v : State} (h : EffectFrame s u) (k : EffectFrame u v) : EffectFrame s v where
  active := k.active.trans h.active
  irqEnable := k.irqEnable.trans h.irqEnable
  sclk := k.sclk.trans h.sclk
  own := by
    have hk := k.own
    rw [h.active, h.own] at hk
    exact hk
  other := by
    have hk := k.other
    rw [h.active] at hk
    exact hk.trans h.other
  irqKept b hb := k.irqKept b (h.irqKept b hb)
  irqCompletion b hb := (k.irqCompletion b hb).trans (h.irqCompletion b hb)
  memory := h.memory.trans k.memory

theorem DataFrame.trans {s u v : State} (h : DataFrame s u) (k : DataFrame u v) : DataFrame s v where
  toEffectFrame := h.toEffectFrame.trans k.toEffectFrame
  cfgValid := k.cfgValid.trans h.cfgValid
  act := k.act.trans h.act
  run := k.run.trans h.run
  evq := k.evq.trans h.evq
  dec := k.dec.trans h.dec
  ema := k.ema.trans h.ema
  smooth := k.smooth.trans h.smooth
  hist := k.hist.trans h.hist

theorem QuietEffect.trans {s u v : State} (h : QuietEffect s u) (k : QuietEffect u v) : QuietEffect s v where
  toDataFrame := h.toDataFrame.trans k.toDataFrame
  rpos0 := k.rpos0.trans h.rpos0
  rpos1 := k.rpos1.trans h.rpos1

theorem QuietEffect.rpos {s u : State} (h : QuietEffect s u) (r : Chan) : u.rpos r = s.rpos r := by
  cases r
  · exact h.rpos0
  · exact h.rpos1

/-- An update that leaves the channels and the interrupt bits alone is in the frame of a command's effect. -/
theorem EffectFrame.of_registers {s u : State} (ha : u.active = s.active) (he : u.irqEnable = s.irqEnable)
    (hs : u.sclk = s.sclk) (h0 : u.chan0 = s.chan0) (h1 : u.chan1 = s.chan1) (hi : u.irqStatus = s.irqStatus)
    (hm : s.mem.Grows u.mem) : EffectFrame s u := by
  have hchan (n : Chan) : u.chan n = s.chan n := by cases n <;> assumption
  exact ⟨ha, he, hs, by rw [hchan], hchan _, fun b hb => by rw [hi]; exact hb, fun b _ => by rw [hi], hm⟩

/-! ### The operations that data effects are built of -/

/-- An update of data registers and memory. -/
theorem quiet_data {s u : State}
    (h : u = { s with
      featValid := u.featValid, counters := u.counters, cycleTs := u.cycleTs, levelRms := u.levelRms
      levelPeak := u.levelPeak, featMin := u.featMin, pkt := u.pkt, pktSeqNext := u.pktSeqNext
      pktTsNext := u.pktTsNext, pp := u.pp, mem := u.mem, draws := u.draws })
    (hm : s.mem.Grows u.mem) : QuietEffect s u := by
  refine ⟨⟨.of_registers ?_ ?_ ?_ ?_ ?_ ?_ hm, ?_, ?_, ?_, ?_, ?_, ?_, ?_, ?_⟩, ?_, ?_⟩ <;> rw [h]

theorem quiet_refl (s : State) : QuietEffect s s := quiet_data rfl (.refl _)

theorem quiet_setCounters (s : State) (f : Counters → Counters) : QuietEffect s (s.setCounters f) :=
  quiet_data rfl (.refl _)

theorem quiet_drawArray (s : State) (a : Arr) (k : Nat) : QuietEffect s (s.drawArray a k) :=
  quiet_data rfl (drawArray_grows s a k)

theorem dataFrame_advance (s : State) (r : Chan) (p : Pos) (k : Nat) : DataFrame s (s.advance r p k) :=
  ⟨.of_registers rfl rfl rfl rfl rfl rfl (.refl _), rfl, rfl, rfl, rfl, rfl, rfl, rfl, rfl⟩

theorem frame_setResult (s : State) (v : Word) : EffectFrame s (s.setResult v) where
  active := rfl
  irqEnable := rfl
  sclk := rfl
  own := by rw [s.setResult_chan]
  other := s.setResult_chan_otherChan v
  irqKept _ := id
  irqCompletion _ _ := rfl
  memory := .refl _

theorem quiet_setResult (s : State) (v : Word) : QuietEffect s (s.setResult v) :=
  ⟨⟨frame_setResult s v, rfl, rfl, rfl, rfl, rfl, rfl, rfl, rfl⟩, rfl, rfl⟩

/-- The event sources that no completion sets: bits 4 and above of IRQ_STATUS (R28). -/
theorem Irq.mask_low {q : Irq} (hq : 4 ≤ q.bit) {b : Nat} (hb : b < 4) : q.mask.getLsbD b = false := by
  simp only [Irq.mask, BitVec.getLsbD_shiftLeft, decide_eq_true (show b < q.bit by omega), Bool.not_true, Bool.and_false,
    Bool.false_and]

theorem frame_setIrq (s : State) {q : Irq} (hq : 4 ≤ q.bit) : EffectFrame s (s.setIrq q) where
  active := rfl
  irqEnable := rfl
  sclk := rfl
  own := rfl
  other := rfl
  irqKept b h := by rw [s.setIrq_irqStatus, BitVec.getLsbD_or, h, Bool.true_or]
  irqCompletion b hb := by rw [s.setIrq_irqStatus, BitVec.getLsbD_or, Irq.mask_low hq hb, Bool.or_false]
  memory := .refl _

theorem quiet_setIrq (s : State) (q : Irq) (hq : 4 ≤ q.bit) : QuietEffect s (s.setIrq q) :=
  ⟨⟨frame_setIrq s hq, rfl, rfl, rfl, rfl, rfl, rfl, rfl, rfl⟩, rfl, rfl⟩

theorem quiet_setIrqIf (s : State) (b : Bool) (q : Irq) (hq : 4 ≤ q.bit) : QuietEffect s (s.setIrqIf b q) := by
  cases b
  · exact quiet_refl s
  · exact quiet_setIrq s q hq

end Sys2Proof.Machine
end

section
/-!
The commands that work on data only: each moves at most one reader cursor and keeps the configuration, RUN, EVQ and the
decision engine (spec/20_memory.md R90).
-/

namespace Sys2Proof.Machine

/-! ### Commands that work on data only -/

/-- The effect of a data command: it moves no cursor, or it advances one, once, from the position BEGIN saw, by at most
the samples available then (R90) when the configuration is legal. -/
def DataEffect (sn : Snapshot) (s u : State) : Prop :=
  QuietEffect s u ∨
    ∃ v r n, QuietEffect s v ∧ (s.act.Legal → n ≤ sn.avail) ∧ QuietEffect (v.advance r sn.rpos n) u

theorem QuietEffect.data {sn : Snapshot} {s u : State} (h : QuietEffect s u) : DataEffect sn s u := .inl h

theorem DataEffect.frame {sn : Snapshot} {s u : State} (h : DataEffect sn s u) : DataFrame s u := by
  rcases h with h | ⟨v, r, n, hv, -, hu⟩
  · exact h.toDataFrame
  · exact (hv.toDataFrame.trans (dataFrame_advance v r sn.rpos n)).trans hu.toDataFrame

theorem DataEffect.rpos {sn : Snapshot} {s u : State} (h : DataEffect sn s u) (hl : s.act.Legal) (k : Chan) :
    u.rpos k = s.rpos k ∨
      ∃ n, n ≤ sn.avail ∧ u.rpos k = BitVec.ofNat 64 (max (sn.rpos.toNat + n) (s.rpos k).toNat) := by
  rcases h with h | ⟨v, r, n, hv, hn, hu⟩
  · exact .inl (h.rpos k)
  · rw [hu.rpos]
    by_cases hk : k = r
    · subst hk
      exact .inr ⟨n, hn hl, by rw [State.advance_rpos, hv.rpos]⟩
    · exact .inl (by rw [State.advance_rpos_other v hk, hv.rpos])

theorem onMemory_quiet {f : Memory → Except Fault Memory} {s u : State} (hf : ∀ m, f s.mem = .ok m → s.mem.Grows m)
    (h : onMemory f s = .ok u) : QuietEffect s u := by
  obtain ⟨m, hm, rfl⟩ := onMemory_ok h
  exact quiet_data rfl (hf m hm)

theorem effectLogCompress_quiet {s u : State} (h : effectLogCompress s = .ok u) : QuietEffect s u := by
  unfold effectLogCompress at h
  split at h
  · next r hr =>
    cases h
    exact (quiet_data (u := { s with mem := r.1 }) rfl (logCompress_grows hr)).trans
      (quiet_setIrqIf _ _ .featOvf (by decide))
  · cases h

theorem effectPreStep_quiet (x : Int) (s : State) : QuietEffect s (effectPreStep x s) :=
  (quiet_data (u := { s with pp := (ppStep s.act s.pp x).1 }) rfl (.refl _)).trans (quiet_setResult _ _)

theorem effectPktPop_quiet (s : State) : QuietEffect s (effectPktPop s) :=
  (quiet_setResult s s.headPacket.seq).trans (quiet_data rfl (.refl _))

/-- The copy of samples writes the scratch buffer and RESULTn (R173, R174). -/
theorem copyOut_quiet {k : Nat} {sn : Snapshot} {s u : State} (h : copyOut k sn s = .ok u) : QuietEffect s u := by
  obtain ⟨m, hm, rfl⟩ := copyOut_ok h
  have hg : s.mem.Grows m := forUpTo_grows (fun j y y' hb => by
    split at hb
    · cases hb; exact store_grows _ _ _ _
    · cases hb) hm
  have hq : QuietEffect s { s with mem := m } := quiet_data rfl hg
  refine .trans ?_ (quiet_setResult _ _)
  split
  · exact hq.trans (quiet_drawArray _ _ _)
  · exact hq

theorem effectRbRead_data {k : Nat} {sn : Snapshot} {s u : State} (h : effectRbRead k sn s = .ok u) :
    DataEffect sn s u := by
  unfold effectRbRead at h
  split at h
  · next t ht =>
    cases h
    exact .inr ⟨t, t.active, _, copyOut_quiet ht, fun _ => Nat.min_le_right _ _, quiet_refl _⟩
  · cases h

theorem codecSkipped_quiet (s : State) : QuietEffect s (codecSkipped s) :=
  ((quiet_setCounters s Counters.bumpPktSkip).trans (quiet_setIrq _ .pktSkip (by decide))).trans (quiet_setResult _ _)

theorem codecUnderrun_quiet (s : State) : QuietEffect s (codecUnderrun s) :=
  ((quiet_setCounters s Counters.bumpUnderrun).trans (quiet_setIrq _ .underrun (by decide))).trans (quiet_setResult _ _)

/-- What emitting a packet does besides advancing reader 1 by the frame (R323, R325). -/
theorem emitPacket_quiet (sn : Snapshot) (s : State) :
    QuietEffect (s.advance .ch1 sn.rpos s.act.frame) (emitPacket sn s) := by
  unfold emitPacket
  extract_lets c t t'
  have ht' : QuietEffect t t' := quiet_data rfl (.refl _)
  exact ((ht'.trans (quiet_setCounters _ Counters.bumpPkt)).trans (quiet_setIrq _ .pktReady (by decide))).trans
    (quiet_setResult _ _)

theorem effectCodecFrame_data {sn : Snapshot} {s u : State} (h : effectCodecFrame sn s = .ok u) : DataEffect sn s u := by
  unfold effectCodecFrame at h
  split at h
  · cases h; exact (codecSkipped_quiet s).data
  · split at h
    · cases h; exact (codecUnderrun_quiet s).data
    · next _ hav =>
      split at h
      · cases h
      · next bytes _ =>
        cases h
        have hpay : QuietEffect s { s with mem := storePayload s.act bytes s.mem } :=
          quiet_data rfl (storePayload_grows s.act bytes s.mem)
        split
        · have hdraw := hpay.trans (quiet_drawArray _ .pktPay s.act.frameWords)
          exact .inr ⟨_, .ch1, s.act.frame, hdraw, fun _ => Nat.le_of_not_lt hav, emitPacket_quiet sn _⟩
        · exact .inr ⟨_, .ch1, s.act.frame, hpay, fun _ => Nat.le_of_not_lt hav, emitPacket_quiet sn _⟩

theorem featFailed_quiet (s : State) : QuietEffect s (featFailed s) :=
  (((quiet_data (u := { s with featValid := false }) rfl (.refl _)).trans
    (quiet_setCounters _ Counters.bumpFeatFail)).trans (quiet_setIrq _ .featFail (by decide))).trans (quiet_setResult _ _)

theorem drawFeatures_quiet (s : State) (nwin : Nat) (full : Bool) : QuietEffect s (s.drawFeatures nwin full) := by
  unfold State.drawFeatures
  extract_lets c a b d
  have ha : QuietEffect s a :=
    (((((quiet_drawArray s .workRe c.fftSize).trans (quiet_drawArray _ .workIm c.fftSize)).trans
      (quiet_drawArray _ .pow c.bins)).trans (quiet_drawArray _ .melE c.bands)).trans
      (quiet_drawArray _ .melLog c.bands)).trans (quiet_drawArray _ .feat (c.frames * c.bands))
  clear_value a
  have hb : QuietEffect s b := ha.trans (quiet_data rfl (.refl _))
  clear_value b
  have hd : QuietEffect s d := by
    cases full
    · exact hb
    · exact hb.trans (quiet_data rfl (.refl _))
  clear_value d
  refine hd.trans (.trans ?_ (quiet_setIrqIf _ _ .featOvf (by decide)))
  exact quiet_data rfl (.refl _)

/-- A FULL extraction advances reader 0 by FEAT_STRIDE, a PAD one moves no cursor (R260). -/
theorem featDone_data {full : Bool} {nwin : Nat} {sn : Snapshot} {s u : State}
    (hs : full = true → s.act.Legal → s.act.featStride.toNat ≤ sn.avail) (h : featDone full nwin sn s = .ok u) :
    DataEffect sn s u := by
  unfold featDone at h
  extract_lets c span at h
  obtain ⟨samples, -, h⟩ := bind_ok h
  obtain ⟨r, hr, h⟩ := bind_ok h
  extract_lets t t' t'' at h
  have ht : QuietEffect s t := quiet_data rfl (featRows_grows hr)
  have ht' : QuietEffect s t' := by
    unfold t'
    split
    · exact ht.trans (drawFeatures_quiet t nwin full)
    · exact ht.trans (quiet_setIrqIf t _ .featOvf (by decide))
  clear_value t'
  have ht'' : QuietEffect s t'' := ht'.trans (quiet_data rfl (.refl _))
  cases full with
  | false => cases h; exact (ht''.trans (quiet_setResult _ _)).data
  | true => cases h; exact .inr ⟨t'', .ch0, _, ht'', hs rfl, quiet_setResult _ _⟩

theorem featMode_full {c : Cfg} {a : Nat} (h : featMode c a = .full) : c.required ≤ a := by
  unfold featMode at h
  split at h
  · assumption
  · split at h <;> cases h

/-- The check of R143 on FEAT_STRIDE. -/
theorem Cfg.Legal.stride_le {c : Cfg} (h : c.Legal) : c.featStride.toNat ≤ c.required :=
  (h (0x47, 1 ≤ c.featStride.toNat ∧ c.featStride.toNat ≤ c.rq) (by simp [Cfg.checks])).2

theorem effectFeatExtract_data {sn : Snapshot} {s u : State} (h : effectFeatExtract sn s = .ok u) :
    DataEffect sn s u := by
  unfold effectFeatExtract at h
  split at h
  · next hm => exact featDone_data (fun _ hl => Nat.le_trans hl.stride_le (featMode_full hm)) h
  · exact featDone_data (fun hf => absurd hf Bool.false_ne_true) h
  · cases h; exact (featFailed_quiet s).data

/-- The commands that change more than data: the configuration, RUN, the event queue or the decision engine. -/
def controls : Instr → Bool
  | .cfgCommit | .start | .stop | .resetRt | .decStep _ | .decReset | .evtPop => true
  | .nop | .rbRead _ | .rbPeek _ | .preStep _ | .winApply | .fftBitrev | .fftStage _ | .fftFull | .fftPower | .melApply
  | .logCompress | .featExtract | .alawEnc _ | .codecFrame | .pktPop => false

/-- Every other command's effect is one on data. -/
theorem commandEffect_data {i : Instr} {sn : Snapshot} {s u : State} (hi : controls i = false)
    (h : commandEffect i sn s = .ok u) : DataEffect sn s u := by
  cases i with
  | cfgCommit | start | stop | resetRt | decStep _ | decReset | evtPop => cases hi
  | nop => cases h; exact (quiet_refl s).data
  | rbRead k => exact effectRbRead_data h
  | rbPeek k => exact (copyOut_quiet h).data
  | preStep x => cases h; exact (effectPreStep_quiet x s).data
  | winApply => exact (onMemory_quiet (fun _ => winApply_grows) h).data
  | fftBitrev => exact (onMemory_quiet (fun _ => fftBitrev_grows) h).data
  | fftStage k => exact (onMemory_quiet (fun _ => fftStage_grows) h).data
  | fftFull => exact (onMemory_quiet (fun _ => fftFull_grows) h).data
  | fftPower => exact (onMemory_quiet (fun _ => fftPower_grows) h).data
  | melApply => exact (onMemory_quiet (fun _ => melApply_grows) h).data
  | logCompress => exact (effectLogCompress_quiet h).data
  | featExtract => exact effectFeatExtract_data h
  | alawEnc x => cases h; exact (quiet_setResult _ _).data
  | codecFrame => exact effectCodecFrame_data h
  | pktPop => cases h; exact (effectPktPop_quiet s).data

end Sys2Proof.Machine
end

section
/-!
The commands that change more than data, and what every completion records on its channel (spec/10_state.md R26-R28).
-/

namespace Sys2Proof.Machine

/-! ### The commands that change more than data -/

/-- What DEC_STEP's state machine leaves alone: it writes the decision registers but DEC_HPOS, EVT_SEQ_NEXT, EVQ, two
event bits and EVTDROP_CNT (R286-R290). -/
structure CycleFrame (s u : State) : Prop extends EffectFrame s u where
  rest : u = { s with
    dec := { u.dec with hpos := s.dec.hpos }, evtSeqNext := u.evtSeqNext, evq := u.evq, irqStatus := u.irqStatus
    counters := u.counters }
  queue : s.evq.length ≤ 4 → u.evq.length ≤ 4

/-- An update of the decision registers but DEC_HPOS. -/
theorem cycleFrame_dec {s u : State} (h : u = { s with dec := { u.dec with hpos := s.dec.hpos } }) : CycleFrame s u where
  toEffectFrame := by
    refine .of_registers ?_ ?_ ?_ ?_ ?_ ?_ ?_ <;> rw [h]
    exact .refl _
  rest := by rw [h]
  queue hq := by rw [h]; exact hq

theorem emit_cycleFrame (s : State) : CycleFrame s s.emit := by
  unfold State.emit
  extract_lets t
  have ht : EffectFrame s t := .of_registers rfl rfl rfl rfl rfl rfl (.refl _)
  split
  · next hroom =>
    have hlen : s.evq.length < 4 := of_decide_eq_true hroom
    have hpush : EffectFrame t { t with evq := t.evq ++ [s.eventRec] } := .of_registers rfl rfl rfl rfl rfl rfl (.refl _)
    refine ⟨ht.trans (hpush.trans (frame_setIrq _ (by decide))), rfl, fun _ => ?_⟩
    show (s.evq ++ [s.eventRec]).length ≤ 4
    rw [List.length_append, List.length_singleton]
    omega
  · have hdrop : EffectFrame t (t.setCounters Counters.bumpEvtDrop) := (quiet_setCounters t _).toEffectFrame
    exact ⟨ht.trans (hdrop.trans (frame_setIrq _ (by decide))), rfl, id⟩

theorem CycleFrame.trans {s u v : State} (h : CycleFrame s u) (k : CycleFrame u v) : CycleFrame s v where
  toEffectFrame := h.toEffectFrame.trans k.toEffectFrame
  rest := by rw [k.rest, h.rest]
  queue hq := k.queue (h.queue hq)

theorem exitEvent_cycleFrame (s : State) : CycleFrame s s.exitEvent.1 := by
  unfold State.exitEvent
  extract_lets _ t
  have ht : CycleFrame s t := cycleFrame_dec rfl
  split
  · exact ht.trans (emit_cycleFrame t)
  · exact ht

theorem cycleOutcome_cycleFrame (s : State) : CycleFrame s s.cycleOutcome.1 := by
  unfold State.cycleOutcome
  split
  · split
    · exact cycleFrame_dec rfl
    · exact cycleFrame_dec rfl
  · split
    · exact cycleFrame_dec rfl
    · split
      · exact exitEvent_cycleFrame s
      · exact cycleFrame_dec rfl

theorem smoothStep_frame (s : State) : EffectFrame s s.smoothStep :=
  .of_registers rfl rfl rfl rfl rfl rfl (.refl _)

theorem noDetection_quiet (s : State) : QuietEffect s s.noDetection :=
  (quiet_setCounters s Counters.bumpNodet).trans (quiet_setResult _ _)

/-- DEC_STEP is either a no-detection cycle, or a smoothing step and a step of the state machine (R283, R291). -/
theorem effectDecStep_cases (v : Bool) (s : State) :
    QuietEffect s (effectDecStep v s) ∨
      (probsValid s = true ∧
        ∃ w r, CycleFrame s.smoothStep w ∧ effectDecStep v s = w.setResult r) := by
  unfold effectDecStep
  split
  · split
    · next hp => exact .inr ⟨hp, _, _, cycleOutcome_cycleFrame _, rfl⟩
    · exact .inl ((noDetection_quiet s).trans (quiet_setIrq _ .probBad (by decide)))
  · exact .inl (noDetection_quiet s)

theorem effectDecStep_frame (v : Bool) (s : State) : EffectFrame s (effectDecStep v s) := by
  rcases effectDecStep_cases v s with h | ⟨-, w, r, hw, he⟩
  · exact h.toEffectFrame
  · rw [he]
    exact ((smoothStep_frame s).trans hw.toEffectFrame).trans (frame_setResult w r)

/-- Every command's effect is in the common frame. -/
theorem commandEffect_frame {i : Instr} {sn : Snapshot} {s u : State} (h : commandEffect i sn s = .ok u) :
    EffectFrame s u := by
  cases hi : controls i with
  | false => exact (commandEffect_data hi h).frame.toEffectFrame
  | true =>
    cases i with
    | decStep v => cases h; exact effectDecStep_frame v s
    | evtPop =>
      cases h
      exact (frame_setResult s s.headEvent.seq).trans (.of_registers rfl rfl rfl rfl rfl rfl (.refl _))
    | cfgCommit | start | stop | resetRt | decReset => cases h; exact .of_registers rfl rfl rfl rfl rfl rfl (.refl _)
    | _ => cases hi

/-! ### Completions (R26, R27, R353) -/

/-- A completion on the frame of a command's effect records the code on the active channel, and sets DONEn, and ERRn's
bit exactly on a code. -/
theorem EffectFrame.complete {s u : State} (h : EffectFrame s u) (opc : Byte) (e : Option ErrCode) :
    (u.complete opc e).chan s.active
        = { s.chan s.active with
            pending := .idle, errOpc := opc, errCode := completionCode e, result := (u.chan s.active).result } ∧
    (u.complete opc e).chan (otherChan s.active) = s.chan (otherChan s.active) ∧
    (u.complete opc e).irqStatus
        = if completionCode e ≠ 0 then u.irqStatus ||| doneBit s.active ||| errBit s.active
          else u.irqStatus ||| doneBit s.active := by
  refine ⟨?_, ?_, ?_⟩
  · have hc := u.complete_chan opc e
    rw [h.active, h.own] at hc
    exact hc
  · rw [State.complete_chan_other u (by rw [h.active]; exact otherChan_ne _), h.other]
  · rw [State.complete_irqStatus, h.active]
    simp only [decide_eq_true_eq]

/-- The numbers of the DONE and ERR bits of a channel (R28). -/
def doneIndex : Chan → Nat
  | .ch0 => 0
  | .ch1 => 1
def errIndex : Chan → Nat
  | .ch0 => 2
  | .ch1 => 3

theorem doneBit_getLsbD (n : Chan) (b : Nat) : (doneBit n).getLsbD b = decide (b = doneIndex n) := by
  have hlt : ∀ n, ∀ b, b < 15 → (doneBit n).getLsbD b = decide (b = doneIndex n) := by
    intro n; cases n <;> decide
  by_cases hb : b < 15
  · exact hlt n b hb
  · rw [BitVec.getLsbD_of_ge _ _ (by omega), decide_eq_false]
    cases n <;> simp only [doneIndex] <;> omega

theorem errBit_getLsbD (n : Chan) (b : Nat) : (errBit n).getLsbD b = decide (b = errIndex n) := by
  have hlt : ∀ n, ∀ b, b < 15 → (errBit n).getLsbD b = decide (b = errIndex n) := by
    intro n; cases n <;> decide
  by_cases hb : b < 15
  · exact hlt n b hb
  · rw [BitVec.getLsbD_of_ge _ _ (by omega), decide_eq_false]
    cases n <;> simp only [errIndex] <;> omega

/-- What a completion leaves of IRQ_STATUS, bit by bit. -/
theorem EffectFrame.complete_irq {s u : State} (h : EffectFrame s u) (opc : Byte) (e : Option ErrCode) (b : Nat) :
    (u.complete opc e).irqStatus.getLsbD b = true ↔
      u.irqStatus.getLsbD b = true ∨ b = doneIndex s.active ∨ (b = errIndex s.active ∧ completionCode e ≠ 0) := by
  obtain ⟨-, -, hirq⟩ := h.complete opc e
  rw [hirq]
  split
  · next hc =>
    simp only [BitVec.getLsbD_or, Bool.or_eq_true, doneBit_getLsbD, errBit_getLsbD, decide_eq_true_eq, or_assoc,
      and_iff_left hc]
  · next hc =>
    simp only [BitVec.getLsbD_or, Bool.or_eq_true, doneBit_getLsbD, decide_eq_true_eq, hc, and_false, or_false]

/-- Every command that answers completes a state in the frame of its effect; with a code, the unchanged state. -/
theorem exec_completes {i : Instr} {s t : State} (h : exec i s = .next t) :
    ∃ u e, EffectFrame s u ∧ t = u.complete i.opcode.byte e ∧ (completionCode e ≠ 0 → u = s) := by
  rcases exec_next h with ⟨e, rfl⟩ | ⟨sn, u, -, hu, rfl⟩
  · exact ⟨s, some e, (quiet_refl s).toEffectFrame, rfl, fun _ => rfl⟩
  · exact ⟨u, none, commandEffect_frame hu, rfl, fun hc => absurd rfl hc⟩

/-- Settles O13: every command completes a state in the frame of its effect, and the completion is recorded there. -/
theorem everyCompletionIsRecordedOnItsChannel : Obligations.EveryCompletionIsRecordedOnItsChannel := by
  unfold Obligations.EveryCompletionIsRecordedOnItsChannel
  intro i s t h done err
  have hdone : done = doneIndex s.active := by simp only [done]; cases s.active <;> rfl
  have herr : err = errIndex s.active := by simp only [err]; cases s.active <;> rfl
  obtain ⟨u, e, hf, rfl, hu⟩ := exec_completes h
  obtain ⟨hown, hother, -⟩ := hf.complete i.opcode.byte e
  have hirq := hf.complete_irq i.opcode.byte e
  refine ⟨?_, by rw [hown], ?_, ?_, fun b hb => (hirq b).2 (.inl (hf.irqKept b hb)), hother, hf.irqEnable, ?_⟩
  · rw [State.busy, hown]; rfl
  · exact (hirq done).2 (.inr (.inl hdone))
  · have hlow : errIndex s.active < 4 := by cases s.active <;> decide
    have hne : errIndex s.active ≠ doneIndex s.active := by cases s.active <;> decide
    rw [herr, hirq, hf.irqCompletion _ hlow, hown]
    simp [hne]
  · rw [hown]
    intro hc
    rw [hu hc]
    rfl

end Sys2Proof.Machine
end

section
/-!
The invariant of the block (spec/10_state.md R34, R36): every step of every agent keeps it.
-/

namespace Sys2Proof.Machine

/-! ### What a step can do (R89) -/

/-- Everything a step can do to the state `s` of the block, where `s` is what the schedule left of the state before. -/
inductive StepOf (s : State) : State → Prop where
  | idle : StepOf s s
  | read (l : Loc) (v : Word) : StepOf s { s.observeStatus l with busData := v }
  | write (l : Loc) (v : Word) : StepOf s (s.writeLoc l v)
  | sample (x : Sample) : StepOf s (s.accept x)
  | begin (w : Word) (verdict : Option ErrCode)
      (check : ∀ i, verdict = none → decodeOn s.active w = .ok i → commandCheck i s = none) : StepOf s (s.begin w verdict)
  | undecoded (opc : Byte) (e : ErrCode) : StepOf s (s.complete opc (some e))
  | command (w : Word) (i : Instr) (t : State) (pending : (s.chan s.active).pending.word? = some w)
      (decoded : decodeOn s.active w = .ok i) (ran : exec i s = .next t) : StepOf s t
  | reset : StepOf s s.resetInput

theorem stepOf_engineRun {s t : State} (h : s.engineRun = .next t) : StepOf s t := by
  rcases State.engineRun_next h with ⟨-, rfl⟩ | ⟨w, e, -, -, rfl⟩ | ⟨w, i, hw, hi, ht⟩
  · exact .idle
  · exact .undecoded _ _
  · exact .command w i t hw hi ht

theorem stepOf_engineBegin {s t : State} (h : s.engineBegin = .next t) : StepOf s t := by
  unfold State.engineBegin at h
  split at h
  · next w hp =>
    split at h
    · next i hi =>
      split at h
      · exact .command w i t (by rw [hp]; rfl) hi h
      · cases h
        refine .begin w _ fun j hv hj => ?_
        rw [hi] at hj
        cases hj
        exact hv
    · cases h
      exact .begin w _ fun _ hv => nomatch hv
  · cases h; exact .idle
  · cases h; exact .idle

theorem stepOf_inputStep {s t : State} {e : Input} (h : s.inputStep e = .next t) :
    ∃ n, StepOf (s.activate n) t := by
  cases e with
  | hostRead width off =>
    obtain ⟨l, v, -, -, -, rfl⟩ := State.hostRead_next h
    exact ⟨s.active, .read l v⟩
  | hostWrite width off v =>
    obtain ⟨l, -, -, rfl⟩ := State.hostWrite_next h
    exact ⟨s.active, .write l v⟩
  | sample x => cases h; exact ⟨s.active, .sample x⟩
  | begin n => exact ⟨n, stepOf_engineBegin h⟩
  | run n => exact ⟨n, stepOf_engineRun h⟩
  | resetInput => cases h; exact ⟨s.active, .reset⟩

theorem stepOf_quietStep {s t : State} (h : s.quietStep = .next t) : ∃ n, StepOf (s.activate n) t := by
  unfold State.quietStep at h
  split at h
  · exact ⟨s.active, stepOf_engineRun h⟩
  · split at h
    · exact ⟨_, stepOf_engineRun h⟩
    · cases h; exact ⟨s.active, .idle⟩

/-- Everything a step can do when it answers a next state. -/
theorem step_next {s t : State} (h : step s = .next t) :
    ∃ rest n, StepOf (({ s with inputs := rest } : State).activate n) t := by
  cases hi : s.inputs with
  | nil =>
    rw [step_nil hi] at h
    exact ⟨s.inputs, stepOf_quietStep h⟩
  | cons e rest =>
    rw [step_cons hi] at h
    exact ⟨rest, stepOf_inputStep h⟩

/-! ### What the invariants of the block read -/

/-- Every BEGIN without an error that is on record in `u` was on record in `s`. -/
def NoNewBegin (s u : State) : Prop :=
  ∀ n w sn, (u.chan n).pending = .begun w none sn → (s.chan n).pending = .begun w none sn

theorem noNewBegin_of_pending {s u : State} (h : ∀ n, (u.chan n).pending = (s.chan n).pending) : NoNewBegin s u :=
  fun n _ _ hb => (h n).symm.trans hb

theorem noNewBegin_setChan {s : State} {n : Chan} {c : Channel}
    (h : ∀ w sn, c.pending = .begun w none sn → (s.chan n).pending = .begun w none sn) :
    NoNewBegin s (s.setChan n c) := by
  intro k w sn hk
  by_cases hkn : k = n
  · subst hkn
    rw [State.setChan_chan] at hk
    exact h w sn hk
  · rwa [State.setChan_chan_other s hkn] at hk

theorem NoNewBegin.trans {s u v : State} (h : NoNewBegin s u) (k : NoNewBegin u v) : NoNewBegin s v :=
  fun n w sn hb => h n w sn (k n w sn hb)

/-- A completion in the frame of a command's effect records no BEGIN. -/
theorem EffectFrame.noNewBegin {s u : State} (h : EffectFrame s u) (opc : Byte) (e : Option ErrCode) :
    NoNewBegin s (u.complete opc e) := by
  obtain ⟨hown, hother, -⟩ := h.complete opc e
  intro n w sn hn
  by_cases ha : n = s.active
  · subst ha
    rw [hown] at hn
    cases hn
  · have ho : n = otherChan s.active := by
      revert ha
      cases n <;> cases s.active <;> simp
    subst ho
    rwa [hother] at hn

theorem RegisterFrame.trans {s u v : State} (h : RegisterFrame s u) (k : RegisterFrame u v) : RegisterFrame s v :=
  ⟨h.memory.trans k.memory, k.cfgValid.trans h.cfgValid, k.act.trans h.act, k.run.trans h.run, k.evq.trans h.evq,
    k.dec.trans h.dec, k.ema.trans h.ema, k.smooth.trans h.smooth, k.hist.trans h.hist⟩

theorem registerFrame_setChan (s : State) (n : Chan) (c : Channel) : RegisterFrame s (s.setChan n c) :=
  ⟨.refl _, rfl, rfl, rfl, rfl, rfl, rfl, rfl, rfl⟩

theorem registerFrame_complete (s : State) (opc : Byte) (e : Option ErrCode) : RegisterFrame s (s.complete opc e) :=
  ⟨.refl _, rfl, rfl, rfl, rfl, rfl, rfl, rfl, rfl⟩

/-! ### The host's steps and the producer's -/

theorem evictIfFull_rest (s : State) (r : Chan) :
    s.evictIfFull r = { s with
      rpos0 := (s.evictIfFull r).rpos0, rpos1 := (s.evictIfFull r).rpos1, counters := (s.evictIfFull r).counters
      irqStatus := (s.evictIfFull r).irqStatus } := by
  unfold State.evictIfFull
  split <;> rfl

/-- What the acceptance of a sample leaves alone (R170). -/
theorem accept_rest (s : State) (x : Sample) :
    s.accept x = { s with
      rpos0 := (s.accept x).rpos0, rpos1 := (s.accept x).rpos1, counters := (s.accept x).counters
      irqStatus := (s.accept x).irqStatus, mem := (s.accept x).mem, sclk := (s.accept x).sclk } := by
  unfold State.accept
  split
  · rw [evictIfFull_rest (s.evictIfFull .ch0), evictIfFull_rest s .ch0]
  · rfl

theorem accept_grows (s : State) (x : Sample) : s.mem.Grows (s.accept x).mem := by
  cases hr : s.run with
  | true => rw [State.accept_mem hr]; exact store_grows _ _ _ _
  | false => rw [State.accept_stopped hr]; exact .refl _

theorem accept_registers (s : State) (x : Sample) : RegisterFrame s (s.accept x) :=
  ⟨accept_grows s x, by rw [accept_rest], by rw [accept_rest], by rw [accept_rest], by rw [accept_rest],
    by rw [accept_rest], by rw [accept_rest], by rw [accept_rest], by rw [accept_rest]⟩

theorem accept_chan (s : State) (x : Sample) (n : Chan) : (s.accept x).chan n = s.chan n := by
  rw [accept_rest]
  cases n <;> rfl

/-- A step that keeps what the invariants read and moves neither the sample clock nor a cursor. -/
structure CalmStep (s u : State) : Prop extends RegisterFrame s u where
  sclk : u.sclk = s.sclk
  rpos : ∀ r, u.rpos r = s.rpos r
  begins : NoNewBegin s u

theorem CalmStep.trans {s u v : State} (h : CalmStep s u) (k : CalmStep u v) : CalmStep s v :=
  ⟨h.toRegisterFrame.trans k.toRegisterFrame, k.sclk.trans h.sclk, fun r => (k.rpos r).trans (h.rpos r),
    h.begins.trans k.begins⟩

theorem calm_refl (s : State) : CalmStep s s :=
  ⟨⟨.refl _, rfl, rfl, rfl, rfl, rfl, rfl, rfl, rfl⟩, rfl, fun _ => rfl, fun _ _ _ => id⟩

theorem calm_setChan {s : State} {n : Chan} {c : Channel}
    (h : ∀ w sn, c.pending = .begun w none sn → (s.chan n).pending = .begun w none sn) :
    CalmStep s (s.setChan n c) :=
  ⟨registerFrame_setChan s n c, rfl, fun _ => rfl, noNewBegin_setChan h⟩

/-- An update of the registers and arrays that the host writes as data. -/
theorem calm_host {s u : State}
    (h : u = { s with
      irqStatus := u.irqStatus, irqEnable := u.irqEnable, cycleTs := u.cycleTs, levelRms := u.levelRms
      levelPeak := u.levelPeak, shadow := u.shadow, prob := u.prob, mem := u.mem, busData := u.busData })
    (hm : s.mem.Grows u.mem) : CalmStep s u := by
  refine ⟨⟨hm, ?_, ?_, ?_, ?_, ?_, ?_, ?_, ?_⟩, ?_, fun r => ?_, noNewBegin_of_pending fun n => ?_⟩
  case refine_10 => cases r <;> (rw [h]; rfl)
  case refine_11 => cases n <;> (rw [h]; rfl)
  all_goals rw [h]

/-- What is still scheduled, and whose engine steps, is nothing to the invariants. -/
theorem scheduled_calm (s : State) (rest : List Input) (n : Chan) :
    CalmStep s (({ s with inputs := rest } : State).activate n) :=
  ⟨⟨.refl _, rfl, rfl, rfl, rfl, rfl, rfl, rfl, rfl⟩, rfl, fun _ => rfl, fun _ _ _ => id⟩

/-- A failed command changes nothing but its completion (R352). -/
theorem complete_calm (s : State) (opc : Byte) (e : Option ErrCode) : CalmStep s (s.complete opc e) :=
  ⟨registerFrame_complete s opc e, rfl, fun _ => rfl, (quiet_refl s).toEffectFrame.noNewBegin opc e⟩

theorem discard_calm (s : State) : CalmStep s ((s.setCounters Counters.bumpDiscard).setIrq .discard) :=
  ⟨⟨.refl _, rfl, rfl, rfl, rfl, rfl, rfl, rfl, rfl⟩, rfl, fun _ => rfl, fun _ _ _ => id⟩

theorem observe_calm (s : State) (n : Chan) : CalmStep s (s.observe n) := by
  unfold State.observe
  split
  · exact calm_refl s
  · exact calm_setChan fun _ _ => id

theorem observeStatus_calm (s : State) (l : Loc) : CalmStep s (s.observeStatus l) := by
  unfold State.observeStatus
  split
  · exact (observe_calm s .ch0).trans (observe_calm _ .ch1)
  · exact calm_refl s

theorem read_calm (s : State) (l : Loc) (v : Word) : CalmStep s { s.observeStatus l with busData := v } := by
  refine (observeStatus_calm s l).trans ?_
  exact calm_host rfl (.refl _)

theorem writeCmd_calm (s : State) (n : Chan) (w : Word) : CalmStep s (s.writeCmd n w) := by
  unfold State.writeCmd
  split
  · exact calm_host rfl (.refl _)
  · exact calm_setChan fun _ _ h => nomatch h

/-- A host write hands over a sample, or keeps what the invariants read. -/
theorem writeReg_cases (s : State) (r : Reg) (v : Word) :
    CalmStep s (s.writeReg r v) ∨ ∃ x, s.writeReg r v = s.accept x := by
  cases r with
  | cmd n => exact .inl (writeCmd_calm s n v)
  | sampleIn => exact .inr ⟨_, rfl⟩
  | _ => exact .inl (calm_host rfl (.refl _))

theorem writeLoc_cases (s : State) (l : Loc) (v : Word) :
    CalmStep s (s.writeLoc l v) ∨ ∃ x, s.writeLoc l v = s.accept x := by
  cases l with
  | reg r => exact writeReg_cases s r v
  | word a i =>
    refine .inl ?_
    unfold State.writeLoc
    dsimp only
    split
    · exact calm_host rfl (store_grows _ _ _ _)
    · exact calm_refl s
  | shadow | prob => exact .inl (calm_host rfl (.refl _))
  | active | ema | smooth | hist => exact .inl (calm_refl s)

/-! ### The block's invariant -/

/-- The part of `State.Sound` that does not look at the channels. -/
structure RegistersSound (s : State) : Prop where
  memory : s.mem.wf = true
  queue : s.evq.length ≤ 4
  running : s.run = true → s.cfgValid = true
  legal : s.cfgValid = true → s.act.Legal
  history : s.dec.hpos.toNat < s.act.medianK.toNat
  smoothed : s.Smoothed

theorem State.Sound.registers {s : State} (h : s.Sound) : RegistersSound s :=
  ⟨h.memory, h.queue, h.running, h.legal, h.history, h.smoothed⟩

theorem RegistersSound.frame {s u : State} (h : RegistersSound s) (k : RegisterFrame s u) : RegistersSound u where
  memory := k.memory.1 h.memory
  queue := by rw [k.evq]; exact h.queue
  running := by rw [k.run, k.cfgValid]; exact h.running
  legal := by rw [k.cfgValid, k.act]; exact h.legal
  history := by rw [k.dec, k.act]; exact h.history
  smoothed := by unfold State.Smoothed; rw [k.ema, k.smooth, k.hist]; exact h.smoothed

/-- Sound registers and no new BEGIN on record make a sound block, when CFG_VALID did not fall. -/
theorem RegistersSound.sound {s u : State} (h : RegistersSound u) (hs : s.Sound)
    (hc : s.cfgValid = true → u.cfgValid = true) (hb : NoNewBegin s u) : u.Sound where
  memory := h.memory
  queue := h.queue
  running := h.running
  legal := h.legal
  history := h.history
  smoothed := h.smoothed
  starting n w sn i hp hd hi := hc (hs.starting n w sn i (hb n w sn hp) hd hi)

theorem CalmStep.sound {s u : State} (h : CalmStep s u) (hs : s.Sound) : u.Sound :=
  (hs.registers.frame h.toRegisterFrame).sound hs (fun hc => h.cfgValid.trans hc) h.begins

theorem accept_sound {s : State} (hs : s.Sound) (x : Sample) : (s.accept x).Sound :=
  (hs.registers.frame (accept_registers s x)).sound hs (fun hc => (accept_registers s x).cfgValid.trans hc)
    (noNewBegin_of_pending fun n => by rw [accept_chan])

/-! ### The checks that the invariant rests on -/

theorem assemble_opcode (op : Opcode) (w : Word) : (op.assemble w).opcode = op := by cases op <;> rfl

/-- A word decodes only on a channel on which its opcode is legal (R110). -/
theorem decodeOn_legal {n : Chan} {w : Word} {i : Instr} (h : decodeOn n w = .ok i) : i.opcode.legalOn n = true := by
  unfold decodeOn at h
  split at h
  · cases h
  · next op hop =>
    split at h
    · next hl =>
      unfold decode at h
      rw [hop] at h
      dsimp only at h
      split at h
      · cases h
      · cases h; rw [assemble_opcode]; exact hl
    · cases h

theorem checkCfgCommit_none {s : State} (h : checkCfgCommit s = none) :
    s.run = false ∧ s.busy .ch1 = false ∧ s.shadow.Legal := by
  simpa only [checkCfgCommit, thenCheck_eq_none_iff, State.needstop_eq_none_iff, State.needidle1_eq_none_iff,
    Cfg.validate_eq_none_iff] using h

/-- START and DEC_STEP check for a configuration (R145, R291). -/
theorem check_configured {s : State} {i : Instr} (hk : i = .start ∨ ∃ v, i = .decStep v)
    (hc : commandCheck i s = none) : s.cfgValid = true := by
  rcases hk with rfl | ⟨v, rfl⟩
  · exact s.needcfg_eq_none_iff.1 hc
  · exact s.needcfg_eq_none_iff.1 ((thenCheck_eq_none_iff _ _).1 hc).1

/-- A START or DEC_STEP past its BEGIN checks found a configuration (R145, R291). -/
theorem began_configured {s : State} {w : Word} {i : Instr} {sn : Snapshot} (hs : s.Sound) (hb : Began i s sn)
    (hw : (s.chan s.active).pending.word? = some w) (hi : decodeOn s.active w = .ok i)
    (hk : i = .start ∨ ∃ v, i = .decStep v) : s.cfgValid = true := by
  rcases hb with ⟨-, w', hp⟩ | ⟨hc, -⟩
  · rw [hp] at hw
    cases hw
    exact hs.starting _ _ _ _ hp hi hk
  · exact check_configured hk hc

theorem Cfg.Legal.median_pos {c : Cfg} (h : c.Legal) : 0 < c.medianK.toNat :=
  (h (0x56, c.medianK.toNat % 2 = 1 ∧ 1 ≤ c.medianK.toNat ∧ c.medianK.toNat ≤ 7) (by simp [Cfg.checks])).2.1

theorem Cfg.Legal.alpha {c : Cfg} (h : c.Legal) : fgt c.emaAlpha f32Zero = true ∧ fle c.emaAlpha f32One = true :=
  h (0x55, fgt c.emaAlpha f32Zero = true ∧ fle c.emaAlpha f32One = true) (by simp [Cfg.checks])

theorem probsValid_iff (s : State) :
    probsValid s = true ↔
      ∀ k, k < s.act.classes → fge (at8 s.prob k) f32Zero = true ∧ fle (at8 s.prob k) f32One = true := by
  simp only [probsValid, List.all_eq_true, List.mem_range, f32Unit, Bool.and_eq_true]

/-! ### The commands that change more than data keep the registers sound -/

/-- EMA, SMOOTH and HIST after `dec_clear` (R293). -/
theorem smoothed_clear {s : State} (he : s.ema = zeros8) (hs : s.smooth = zeros8) (hh : s.hist = zeros64) :
    s.Smoothed := by
  have h8 : ∀ k, k < 8 → at8 zeros8 k = f32Zero := by decide
  have h64 : ∀ k, k < 8 → ∀ j, j < 8 → at64 zeros64 k j = f32Zero := by decide
  intro k hk
  rw [he, hs, hh, h8 k hk]
  exact ⟨unitWord_zero, unitWord_zero, fun j hj => by rw [h64 k hk j hj]; exact unitWord_zero⟩

theorem effectCfgCommit_registers {s : State} (h : RegistersSound s) (hc : checkCfgCommit s = none) :
    RegistersSound (effectCfgCommit s) where
  memory := h.memory
  queue := h.queue
  running _ := rfl
  legal _ := (checkCfgCommit_none hc).2.2
  history := (checkCfgCommit_none hc).2.2.median_pos
  smoothed := smoothed_clear rfl rfl rfl

theorem effectResetRt_registers {s : State} (h : RegistersSound s) : RegistersSound (effectResetRt s) where
  memory := h.memory
  queue := Nat.zero_le 4
  running := h.running
  legal := h.legal
  history := Nat.zero_lt_of_lt h.history
  smoothed := smoothed_clear rfl rfl rfl

theorem decClear_registers {s : State} (h : RegistersSound s) : RegistersSound s.decClear where
  memory := h.memory
  queue := h.queue
  running := h.running
  legal := h.legal
  history := Nat.zero_lt_of_lt h.history
  smoothed := smoothed_clear rfl rfl rfl

theorem effectEvtPop_registers {s : State} (h : RegistersSound s) : RegistersSound (effectEvtPop s) where
  memory := h.memory
  queue := by
    show s.evq.tail.length ≤ 4
    have := h.queue
    rw [List.length_tail]
    omega
  running := h.running
  legal := h.legal
  history := h.history
  smoothed := h.smoothed

/-- EMA, median and argmax keep the registers sound: DEC_HPOS steps modulo K, and the smoothing state stays in [0, 1]
(R284). -/
theorem smoothStep_registers {s : State} (h : RegistersSound s) (hc : s.cfgValid = true) (hp : probsValid s = true) :
    RegistersSound s.smoothStep where
  memory := h.memory
  queue := h.queue
  running := h.running
  legal := h.legal
  history := by
    have hk := (h.legal hc).median_pos
    show (BitVec.ofNat 32 ((s.dec.hpos.toNat + 1) % s.act.medianK.toNat)).toNat < s.act.medianK.toNat
    rw [BitVec.toNat_ofNat]
    exact Nat.lt_of_le_of_lt (Nat.mod_le _ _) (Nat.mod_lt _ hk)
  smoothed := State.smoothStep_smoothed h.smoothed (h.legal hc).alpha ((probsValid_iff s).1 hp)

theorem CycleFrame.registers {s u : State} (h : CycleFrame s u) (hs : RegistersSound s) : RegistersSound u where
  memory := h.memory.1 hs.memory
  queue := h.queue hs.queue
  running := by rw [h.rest]; exact hs.running
  legal := by rw [h.rest]; exact hs.legal
  history := by rw [h.rest]; exact hs.history
  smoothed := by rw [h.rest]; exact hs.smoothed

theorem effectDecStep_registers {s : State} (v : Bool) (h : RegistersSound s) (hc : s.cfgValid = true) :
    RegistersSound (effectDecStep v s) := by
  rcases effectDecStep_cases v s with hq | ⟨hp, w, r, hw, he⟩
  · exact h.frame hq.toRegisterFrame
  · rw [he]
    exact (hw.registers (smoothStep_registers h hc hp)).frame (quiet_setResult w r).toRegisterFrame

/-- No command clears CFG_VALID (R142). -/
theorem commandEffect_cfgValid {i : Instr} {sn : Snapshot} {s u : State} (h : commandEffect i sn s = .ok u)
    (hc : s.cfgValid = true) : u.cfgValid = true := by
  cases hi : controls i with
  | false => rw [(commandEffect_data hi h).frame.cfgValid]; exact hc
  | true =>
    cases i with
    | cfgCommit => cases h; rfl
    | decStep v =>
      cases h
      rcases effectDecStep_cases v s with hq | ⟨-, w, r, hw, he⟩
      · rw [hq.cfgValid]; exact hc
      · rw [he, State.setResult_cfgValid, hw.rest]; exact hc
    | start | stop | resetRt | decReset | evtPop => cases h; exact hc
    | _ => cases hi

/-- The effect of a command that the engine runs keeps the registers sound. -/
theorem commandEffect_registers {s u : State} {w : Word} {i : Instr} {sn : Snapshot} (hs : s.Sound) (hb : Began i s sn)
    (hw : (s.chan s.active).pending.word? = some w) (hd : decodeOn s.active w = .ok i)
    (h : commandEffect i sn s = .ok u) : RegistersSound u := by
  have hr := hs.registers
  cases hi : controls i with
  | false => exact hr.frame (commandEffect_data hi h).frame.toRegisterFrame
  | true =>
    cases i with
    | cfgCommit =>
      cases h
      rcases hb with ⟨hend, -⟩ | ⟨hc, -⟩
      · cases hend
      · exact effectCfgCommit_registers hr hc
    | start =>
      cases h
      have hc := began_configured hs hb hw hd (.inl rfl)
      exact ⟨hr.memory, hr.queue, fun _ => hc, hr.legal, hr.history, hr.smoothed⟩
    | stop =>
      cases h
      exact ⟨hr.memory, hr.queue, fun hrun => absurd hrun Bool.false_ne_true, hr.legal, hr.history, hr.smoothed⟩
    | resetRt => cases h; exact effectResetRt_registers hr
    | decStep v => cases h; exact effectDecStep_registers v hr (began_configured hs hb hw hd (.inr ⟨v, rfl⟩))
    | decReset => cases h; exact decClear_registers hr
    | evtPop => cases h; exact effectEvtPop_registers hr
    | _ => cases hi

theorem exec_sound {s t : State} {w : Word} {i : Instr} (hs : s.Sound)
    (hw : (s.chan s.active).pending.word? = some w) (hd : decodeOn s.active w = .ok i) (h : exec i s = .next t) :
    t.Sound := by
  rcases exec_next h with ⟨e, rfl⟩ | ⟨sn, u, hb, hu, rfl⟩
  · exact (complete_calm s _ _).sound hs
  · have hv : s.cfgValid = true → u.cfgValid = true := commandEffect_cfgValid hu
    exact ((commandEffect_registers hs hb hw hd hu).frame (registerFrame_complete u _ _)).sound hs hv
      ((commandEffect_frame hu).noNewBegin _ _)

/-! ### BEGIN, reset, and every step -/

/-- A BEGIN step records START and DEC_STEP without an error only under a configuration. -/
theorem begin_sound {s : State} {w : Word} {verdict : Option ErrCode} (hs : s.Sound)
    (hc : ∀ i, verdict = none → decodeOn s.active w = .ok i → commandCheck i s = none) : (s.begin w verdict).Sound where
  memory := hs.memory
  queue := hs.queue
  running := hs.running
  legal := hs.legal
  history := hs.history
  smoothed := hs.smoothed
  starting n w' sn i hp hd hi := by
    by_cases hn : n = s.active
    · subst hn
      rw [s.begin_chan] at hp
      cases hp
      exact check_configured (s := s) hi (hc i rfl hd)
    · rw [s.begin_chan_other hn] at hp
      exact hs.starting n w' sn i hp hd hi

theorem resetInput_sound (s : State) : s.resetInput.Sound where
  memory := rfl
  queue := Nat.zero_le 4
  running h := absurd h Bool.false_ne_true
  legal h := absurd h Bool.false_ne_true
  history := show (0 : Word).toNat < (3 : Word).toNat by decide
  smoothed := smoothed_clear rfl rfl rfl
  starting n _ _ _ hp := by cases n <;> cases hp

theorem StepOf.sound {s t : State} (h : StepOf s t) (hs : s.Sound) : t.Sound := by
  cases h with
  | idle => exact hs
  | read l v => exact (read_calm s l v).sound hs
  | write l v =>
    rcases writeLoc_cases s l v with hc | ⟨x, hx⟩
    · exact hc.sound hs
    · rw [hx]; exact accept_sound hs x
  | sample x => exact accept_sound hs x
  | begin w verdict check => exact begin_sound hs check
  | undecoded opc e => exact (complete_calm s opc _).sound hs
  | command w i t hp hd ran => exact exec_sound hs hp hd ran
  | reset => exact resetInput_sound s

/-- Settles O57: nothing is running or on record, DEC_HPOS = 0 lies below K = 3, and CFG_VALID = 0 asks nothing of the
ring buffer. -/
theorem resetIsSound : Obligations.ResetIsSound :=
  ⟨resetInput_sound State.reset, fun h => absurd h Bool.false_ne_true⟩

/-- Settles O58, by what a step can do: a command's effect keeps the registers sound because its BEGIN checks passed on a
sound state; no other step touches them. -/
theorem everyStepKeepsTheBlockSound : Obligations.EveryStepKeepsTheBlockSound := by
  unfold Obligations.EveryStepKeepsTheBlockSound
  intro s t hs h
  obtain ⟨rest, n, hstep⟩ := step_next h
  exact hstep.sound ((scheduled_calm s rest n).sound hs)

end Sys2Proof.Machine
end

section
/-!
The ring buffer's invariant (spec/10_state.md R25): every step of every agent keeps it.
-/

namespace Sys2Proof.Machine

/-! ### Readers -/

/-- A reader's range stays sound when its cursor moves forward to at most the sample clock. -/
theorem State.ReaderSound.move {s u : State} {r : Chan} (h : s.ReaderSound r) (ha : u.act = s.act)
    (hs : u.sclk = s.sclk) (hm : s.mem.Grows u.mem) (hlo : (s.rpos r).toNat ≤ (u.rpos r).toNat)
    (hhi : (u.rpos r).toNat ≤ s.sclk.toNat) : u.ReaderSound r where
  behind := by rw [hs]; exact hhi
  within := by
    have := h.within
    rw [hs, ha]
    omega
  written p hp hlt := by
    rw [ha]
    rw [hs] at hlt
    exact hm.word (h.written p (Nat.le_trans hlo hp) hlt)

/-- A reader that has read everything is sound. -/
theorem readerSound_empty {s : State} {r : Chan} (h : s.rpos r = s.sclk) : s.ReaderSound r where
  behind := by rw [h]
  within := by rw [h]; exact Nat.le_add_right _ _
  written p hp hlt := by rw [h] at hp; omega

theorem State.SnapshotSound.later {s u : State} {sn : Snapshot} (h : s.SnapshotSound sn) (ha : u.act = s.act)
    (hs : s.sclk.toNat ≤ u.sclk.toNat) : u.SnapshotSound sn where
  behind := h.behind
  past := Nat.le_trans h.past hs
  written := by rw [ha]; exact h.written

/-- A step that commits no configuration keeps the ring buffer sound when it keeps the readers so and records no BEGIN. -/
theorem State.RingSound.step {s u : State} (h : s.RingSound) (hc : u.cfgValid = s.cfgValid) (ha : u.act = s.act)
    (hs : s.sclk.toNat ≤ u.sclk.toNat) (hr : s.cfgValid = true → (∀ r, s.ReaderSound r) → ∀ r, u.ReaderSound r)
    (hb : NoNewBegin s u) : u.RingSound := by
  intro hv
  rw [hc] at hv
  obtain ⟨hreaders, hsnaps⟩ := h hv
  exact ⟨hr hv hreaders, fun n w sn hp => (hsnaps n w sn (hb n w sn hp)).later ha hs⟩

theorem CalmStep.ring {s u : State} (h : CalmStep s u) (hs : s.RingSound) : u.RingSound := by
  refine hs.step h.cfgValid h.act (by rw [h.sclk]) (fun _ hr r => ?_) h.begins
  refine (hr r).move h.act h.sclk h.memory ?_ ?_
  · rw [h.rpos]
  · rw [h.rpos]; exact (hr r).behind

/-! ### A sample (R170, R171) -/

theorem State.evictIfFull_rpos_other (s : State) {r k : Chan} (h : k ≠ r) :
    (s.evictIfFull r).rpos k = s.rpos k := by
  unfold State.evictIfFull
  split
  · exact State.setRpos_rpos_other s h _
  · rfl

theorem State.evictIfFull_rpos (s : State) (r : Chan) :
    (s.evictIfFull r).rpos r = if s.avail r = s.act.capacity then s.rpos r + 1 else s.rpos r := by
  unfold State.evictIfFull
  split
  · exact State.setRpos_rpos s r _
  · rfl

/-- A running block's sample moves a full reader's cursor by one, and no other (R171). -/
theorem accept_rpos {s : State} (h : s.run = true) (x : Sample) (r : Chan) :
    (s.accept x).rpos r = if s.avail r = s.act.capacity then s.rpos r + 1 else s.rpos r := by
  have haccept : (s.accept x).rpos r = ((s.evictIfFull .ch0).evictIfFull .ch1).rpos r := by
    simp only [State.accept, h, if_true]
    rfl
  rw [haccept]
  cases r with
  | ch0 => rw [State.evictIfFull_rpos_other _ (by decide), State.evictIfFull_rpos]
  | ch1 =>
    rw [State.evictIfFull_rpos, State.avail, State.evictIfFull_sclk, State.evictIfFull_act,
      State.evictIfFull_rpos_other _ (by decide), State.avail]

theorem State.ReaderSound.avail_eq {s : State} {r : Chan} (h : s.ReaderSound r) :
    s.avail r = s.sclk.toNat - (s.rpos r).toNat :=
  BitVec.toNat_sub_of_le (BitVec.le_def.2 h.behind)

theorem word_store (a : Arr) (i : Nat) (v : Word) (m : Memory) : (store a i v m).word a i = some v :=
  Memory.readWord_writeWord_same m _ v

/-- A sample keeps a reader sound: a full one is moved on by one, and the new position's slot is written (R170). -/
theorem accept_reader {s : State} {r : Chan} (h : s.ReaderSound r) (hrun : s.run = true) (hcap : 0 < s.act.rbCap.toNat)
    (hwrap : s.sclk.toNat + 1 < 2 ^ 64) (x : Sample) : (s.accept x).ReaderSound r := by
  have hbehind := h.behind
  have hwithin := h.within
  have hact : (s.accept x).act = s.act := (accept_registers s x).act
  have hsclk : (s.accept x).sclk.toNat = s.sclk.toNat + 1 := by
    rw [State.accept_sclk hrun, BitVec.toNat_add]
    exact Nat.mod_eq_of_lt hwrap
  have hrpos : (s.rpos r).toNat ≤ ((s.accept x).rpos r).toNat ∧ ((s.accept x).rpos r).toNat ≤ s.sclk.toNat ∧
      s.sclk.toNat + 1 ≤ ((s.accept x).rpos r).toNat + s.act.rbCap.toNat := by
    rw [accept_rpos hrun, h.avail_eq, Cfg.capacity]
    split
    · have hnext : (s.rpos r + 1).toNat = (s.rpos r).toNat + 1 := by
        rw [BitVec.toNat_add]
        exact Nat.mod_eq_of_lt (by have : (1 : Pos).toNat = 1 := rfl; omega)
      rw [hnext]
      omega
    · omega
  obtain ⟨hlo, hhi, hroom⟩ := hrpos
  refine ⟨by omega, by rw [hsclk, hact]; exact hroom, fun p hp hlt => ?_⟩
  rw [hact]
  rw [hsclk] at hlt
  by_cases hnew : p = s.sclk.toNat
  · subst hnew
    rw [State.accept_mem hrun, slotOf, Cfg.capacity, word_store]
    rfl
  · exact (accept_grows s x).word (h.written p (by omega) (by omega))

theorem Cfg.Legal.capacity_pos {c : Cfg} (h : c.Legal) : 0 < c.rbCap.toNat :=
  (h (0x41, 1 ≤ c.rbCap.toNat ∧ c.rbCap.toNat ≤ 32768) (by simp [Cfg.checks])).1

theorem accept_ring {s : State} (hb : s.Sound) (hs : s.RingSound) (hwrap : s.sclk.toNat + 1 < 2 ^ 64) (x : Sample) :
    (s.accept x).RingSound := by
  cases hrun : s.run with
  | false =>
    rw [State.accept_stopped hrun]
    exact (discard_calm s).ring hs
  | true =>
    have hreg := accept_registers s x
    refine hs.step hreg.cfgValid hreg.act ?_ (fun hv hr r => ?_) (noNewBegin_of_pending fun n => by rw [accept_chan])
    · rw [State.accept_sclk hrun, BitVec.toNat_add]
      exact Nat.le_trans (Nat.le_succ _) (Nat.le_of_eq (Nat.mod_eq_of_lt hwrap).symm)
    · exact accept_reader (hr r) hrun (hb.legal hv).capacity_pos hwrap x

/-! ### BEGIN -/

theorem readByte_ringCells (m : Memory) {off : Nat} (h : Arr.rbram.base ≤ off) :
    m.ringCells.readByte off = m.readByte off := by
  induction m with
  | nil => rfl
  | cons c rest ih =>
    obtain ⟨a, b⟩ := c
    by_cases ha : Arr.rbram.base ≤ a
    · simp only [Memory.ringCells, List.filter_cons, decide_eq_true ha, if_true, Memory.readByte]
      rw [← ih, Memory.ringCells]
    · have hne : off ≠ a := by omega
      simp only [Memory.ringCells, List.filter_cons, ha, decide_false, Memory.readByte, if_neg hne]
      rw [← ih, Memory.ringCells, if_neg Bool.false_ne_true]

theorem readWord_ringCells (m : Memory) {off : Nat} (h : Arr.rbram.base ≤ off) :
    m.ringCells.readWord off = m.readWord off :=
  Memory.readWord_congr fun _ hk _ => readByte_ringCells m (Nat.le_trans h hk)

/-- The BEGIN snapshot holds the slots of memory (R90). -/
theorem word_ringCells (m : Memory) (i : Nat) : m.ringCells.word .rbram i = m.word .rbram i :=
  readWord_ringCells m (Nat.le_add_right _ _)

/-- The snapshot of a sound reader is one the block could have taken. -/
theorem State.ReaderSound.snapshot {s : State} (h : s.ReaderSound s.active) : s.SnapshotSound s.snapshot where
  behind := h.behind
  past := Nat.le_refl _
  written p hp hlt := by
    show (s.mem.ringCells.word .rbram (p % s.act.rbCap.toNat)).isSome
    rw [word_ringCells]
    exact h.written p hp hlt

theorem begin_ring {s : State} (hs : s.RingSound) (w : Word) (verdict : Option ErrCode) :
    (s.begin w verdict).RingSound := by
  intro hv
  obtain ⟨hreaders, hsnaps⟩ := hs hv
  refine ⟨fun r => ⟨(hreaders r).behind, (hreaders r).within, (hreaders r).written⟩, fun n w' sn hp => ?_⟩
  have hsound : s.SnapshotSound sn := by
    by_cases hn : n = s.active
    · subst hn
      rw [s.begin_chan] at hp
      cases hp
      exact (hreaders _).snapshot
    · rw [s.begin_chan_other hn] at hp
      exact hsnaps n w' sn hp
  exact ⟨hsound.behind, hsound.past, hsound.written⟩

/-! ### Commands -/

/-- The snapshot a command works on is one the block could have taken. -/
theorem began_snapshot {s : State} {i : Instr} {sn : Snapshot} (hs : s.RingSound) (hv : s.cfgValid = true)
    (hb : Began i s sn) : s.SnapshotSound sn := by
  obtain ⟨hreaders, hsnaps⟩ := hs hv
  rcases hb with ⟨-, w, hp⟩ | ⟨-, rfl⟩
  · exact hsnaps _ w sn hp
  · exact (hreaders _).snapshot

theorem State.SnapshotSound.avail_eq {s : State} {sn : Snapshot} (h : s.SnapshotSound sn) :
    sn.avail = sn.sclk.toNat - sn.rpos.toNat :=
  BitVec.toNat_sub_of_le (BitVec.le_def.2 h.behind)

/-- A cursor advanced by at most the samples of a sound snapshot moves forward and not past the sample clock (R90). -/
theorem advance_bounds {s : State} {sn : Snapshot} (h : s.SnapshotSound sn) {p q : Pos} {n : Nat} (hn : n ≤ sn.avail)
    (hp : p.toNat ≤ s.sclk.toNat) (hq : q = BitVec.ofNat 64 (max (sn.rpos.toNat + n) p.toNat)) :
    p.toNat ≤ q.toNat ∧ q.toNat ≤ s.sclk.toNat := by
  have hbehind := h.behind
  have hpast := h.past
  have hclk := s.sclk.isLt
  rw [h.avail_eq] at hn
  rw [hq, BitVec.toNat_ofNat, Nat.mod_eq_of_lt (by omega)]
  omega

theorem dataCommand_readers {s u : State} {i : Instr} {sn : Snapshot} (hb : s.Sound) (hs : s.RingSound)
    (hv : s.cfgValid = true) (hbegan : Began i s sn) (h : DataEffect sn s u) : ∀ r, u.ReaderSound r := by
  intro r
  have hr := (hs hv).1 r
  have hbounds : (s.rpos r).toNat ≤ (u.rpos r).toNat ∧ (u.rpos r).toNat ≤ s.sclk.toNat := by
    rcases h.rpos (hb.legal hv) r with hq | ⟨n, hn, hq⟩
    · rw [hq]; exact ⟨Nat.le_refl _, hr.behind⟩
    · exact advance_bounds (began_snapshot hs hv hbegan) hn hr.behind hq
  exact hr.move h.frame.act h.frame.sclk h.frame.memory hbounds.1 hbounds.2

/-- Which registers of the ring buffer the commands write that change more than data: RESET_RT empties the readers, the
others but CFG_COMMIT write none (R144). -/
theorem control_ring {s u : State} {i : Instr} {sn : Snapshot} (hi : controls i = true) (hc : i ≠ .cfgCommit)
    (h : commandEffect i sn s = .ok u) :
    u.cfgValid = s.cfgValid ∧ u.act = s.act ∧ ∀ r, u.rpos r = s.rpos r ∨ u.rpos r = s.sclk := by
  cases i with
  | cfgCommit => exact absurd rfl hc
  | resetRt => cases h; exact ⟨rfl, rfl, fun r => .inr (by cases r <;> rfl)⟩
  | decStep v =>
    cases h
    rcases effectDecStep_cases v s with hq | ⟨-, w, r, hw, he⟩
    · exact ⟨hq.cfgValid, hq.act, fun r => .inl (hq.rpos r)⟩
    · have hrest := hw.rest
      rw [he]
      exact ⟨by rw [State.setResult_cfgValid, hrest]; rfl, by rw [State.setResult_act, hrest]; rfl,
        fun k => .inl (by show w.rpos k = s.rpos k; rw [hrest]; cases k <;> rfl)⟩
  | start | stop | decReset | evtPop => cases h; exact ⟨rfl, rfl, fun _ => .inl rfl⟩
  | _ => cases hi

/-- CFG_COMMIT leaves both readers empty, and no BEGIN on record: it ran on channel 0 with channel 1 idle (R141, R144). -/
theorem cfgCommit_ring {s : State} (hd : Opcode.cfgCommit.legalOn s.active = true) (hc : checkCfgCommit s = none)
    (opc : Byte) (e : Option ErrCode) : ((effectCfgCommit s).complete opc e).RingSound := by
  have hframe : EffectFrame s (effectCfgCommit s) := .of_registers rfl rfl rfl rfl rfl rfl (.refl _)
  have hactive : s.active = .ch0 := by simpa [Opcode.legalOn] using hd
  have hidle : s.busy .ch1 = false := (checkCfgCommit_none hc).2.1
  obtain ⟨hown, hother, -⟩ := hframe.complete opc e
  rw [hactive] at hown hother
  refine fun _ => ⟨fun r => readerSound_empty (by cases r <;> rfl), fun n w sn hp => ?_⟩
  cases n with
  | ch0 => rw [hown] at hp; cases hp
  | ch1 =>
    rw [otherChan_ch0] at hother
    rw [hother] at hp
    rw [State.busy, hp] at hidle
    cases hidle

theorem exec_ring {s t : State} {w : Word} {i : Instr} (hb : s.Sound) (hs : s.RingSound)
    (hd : decodeOn s.active w = .ok i) (h : exec i s = .next t) : t.RingSound := by
  rcases exec_next h with ⟨e, rfl⟩ | ⟨sn, u, hbegan, hu, rfl⟩
  · exact (complete_calm s _ _).ring hs
  · have hframe := commandEffect_frame hu
    have hnew := hframe.noNewBegin i.opcode.byte none
    have hsclk : s.sclk.toNat ≤ u.sclk.toNat := by rw [hframe.sclk]
    cases hi : controls i with
    | false =>
      have hdata := commandEffect_data hi hu
      refine hs.step hdata.frame.cfgValid hdata.frame.act hsclk (fun hv _ r => ?_) hnew
      have hr := dataCommand_readers hb hs hv hbegan hdata r
      exact ⟨hr.behind, hr.within, hr.written⟩
    | true =>
      by_cases hc : i = .cfgCommit
      · subst hc
        cases hu
        rcases hbegan with ⟨hend, -⟩ | ⟨hcheck, -⟩
        · cases hend
        · exact cfgCommit_ring (decodeOn_legal hd) hcheck _ _
      · obtain ⟨hcfg, hact, hrpos⟩ := control_ring hi hc hu
        refine hs.step hcfg hact hsclk (fun _ hr r => ?_) hnew
        refine (hr r).move hact hframe.sclk hframe.memory ?_ ?_
        · show (s.rpos r).toNat ≤ (u.rpos r).toNat
          rcases hrpos r with hq | hq <;> rw [hq]
          exact (hr r).behind
        · show (u.rpos r).toNat ≤ s.sclk.toNat
          rcases hrpos r with hq | hq <;> rw [hq]
          exact (hr r).behind

/-! ### Every step -/

theorem StepOf.ring {s t : State} (h : StepOf s t) (hb : s.Sound) (hs : s.RingSound)
    (hwrap : s.sclk.toNat + 1 < 2 ^ 64) : t.RingSound := by
  cases h with
  | idle => exact hs
  | read l v => exact (read_calm s l v).ring hs
  | write l v =>
    rcases writeLoc_cases s l v with hc | ⟨x, hx⟩
    · exact hc.ring hs
    · rw [hx]; exact accept_ring hb hs hwrap x
  | sample x => exact accept_ring hb hs hwrap x
  | begin w verdict check => exact begin_ring hs w verdict
  | undecoded opc e => exact (complete_calm s opc _).ring hs
  | command w i t hp hd ran => exact exec_ring hb hs hd ran
  | reset => exact fun hv => absurd hv Bool.false_ne_true

/-- Settles O59, by what a step can do: a sample moves a full reader on by one, a command advances its cursor within the
samples its BEGIN snapshot had, and CFG_COMMIT and RESET_RT empty the readers. -/
theorem everyStepKeepsTheRingBufferSound : Obligations.EveryStepKeepsTheRingBufferSound := by
  unfold Obligations.EveryStepKeepsTheRingBufferSound
  intro s t hb hs hwrap h
  obtain ⟨rest, n, hstep⟩ := step_next h
  exact hstep.ring ((scheduled_calm s rest n).sound hb) ((scheduled_calm s rest n).ring hs) hwrap

end Sys2Proof.Machine
end

section
/-!
Where a command faults (spec/10_state.md R50): only on a word that was never written.
-/

namespace Sys2Proof.Machine

/-! ### Faults that name an unwritten word -/

/-- The fault is UNINIT_READ at an array word that was never written (R50). -/
def Unwritten (m : Memory) (f : Fault) : Prop := ∃ a i, f = .uninitRead (Arr.off a i) ∧ m.word a i = none

/-- A word unwritten after memory grew was unwritten before. -/
theorem Unwritten.before {m m' : Memory} {f : Fault} (hg : m.Grows m') (h : Unwritten m' f) : Unwritten m f := by
  obtain ⟨a, i, hf, hn⟩ := h
  refine ⟨a, i, hf, Option.eq_none_iff_forall_not_mem.2 fun v hv => ?_⟩
  have hw : (m.word a i).isSome := by rw [hv]; rfl
  have := hg.word hw
  rw [hn] at this
  cases this

theorem load_fault {a : Arr} {i : Nat} {m : Memory} {f : Fault} (h : load a i m = .error f) : Unwritten m f := by
  unfold load at h
  split at h
  · cases h
  · next hn => cases h; exact ⟨a, i, rfl, hn⟩

/-- What a chain of two steps that may fault faults with. -/
theorem bind_fault {α β : Type} {x : Except Fault α} {g : α → Except Fault β} {f : Fault} (h : x >>= g = .error f) :
    x = .error f ∨ ∃ a, x = .ok a ∧ g a = .error f := by
  cases x with
  | ok a => exact .inr ⟨a, rfl, h⟩
  | error e => cases h; exact .inl rfl

/-- A loop faults in one of its rounds, which the rounds before it reached. -/
theorem forUpTo_fault {σ : Type} {n : Nat} {body : Nat → σ → Except Fault σ} {x : σ} {f : Fault}
    (h : forUpTo n body x = .error f) : ∃ k y, forUpTo k body x = .ok y ∧ body k y = .error f := by
  induction n with
  | zero => cases h
  | succ n ih =>
    rw [forUpTo_succ] at h
    split at h
    · next y hy => exact ⟨n, y, hy, h⟩
    · next e he => cases h; exact ih he

/-- A loop over memory, alone or beside other data, faults on a word unwritten before it when each of its rounds does
on one unwritten before the round. -/
theorem forUpTo_unwritten {σ : Type} (mem : σ → Memory) {n : Nat} {body : Nat → σ → Except Fault σ} {x : σ} {f : Fault}
    (hg : ∀ k y y', body k y = .ok y' → (mem y).Grows (mem y'))
    (hf : ∀ k y e, body k y = .error e → Unwritten (mem y) e) (h : forUpTo n body x = .error f) :
    Unwritten (mem x) f := by
  obtain ⟨k, y, hy, hb⟩ := forUpTo_fault h
  have hgrown : (mem x).Grows (mem y) :=
    forUpTo_keeps (fun _ z => (mem x).Grows (mem z)) (.refl _) (fun j z z' _ hz hb => hz.trans (hg j z z' hb)) hy
  exact (hf k y f hb).before hgrown

theorem collect_fault {α : Type} {n : Nat} {g : Nat → Except Fault α} {f : Fault} (h : collect n g = .error f) :
    ∃ k, g k = .error f := by
  induction n with
  | zero => cases h
  | succ n ih =>
    simp only [collect] at h
    split at h
    · split at h
      · cases h
      · next e he => cases h; exact ⟨n, he⟩
    · next e he => cases h; exact ih he

/-! ### The array commands -/

theorem windowStage_fault {c : Cfg} {v : Nat → Word} {m : Memory} {f : Fault} (h : windowStage c v m = .error f) :
    Unwritten m f := by
  unfold windowStage at h
  split at h
  · cases h
  · next e he =>
    cases h
    refine forUpTo_unwritten id (fun k y y' hb => ?_) (fun k y e hb => ?_) he
    · split at hb
      · cases hb; exact (store_grows _ _ _ _).trans (store_grows _ _ _ _)
      · cases hb
    · split at hb
      · cases hb
      · next hl => cases hb; exact load_fault hl

theorem winApply_fault {c : Cfg} {m : Memory} {f : Fault} (h : winApply c m = .error f) : Unwritten m f := by
  unfold winApply at h
  split at h
  · cases h
  · next e he =>
    cases h
    refine forUpTo_unwritten id (fun k y y' hb => ?_) (fun k y e hb => ?_) he
    · split at hb
      · cases hb; exact (store_grows _ _ _ _).trans (store_grows _ _ _ _)
      · cases hb
      · cases hb
    · split at hb
      · cases hb
      · next hl => cases hb; exact load_fault hl
      · next hl _ => cases hb; exact load_fault hl

theorem swapWords_fault {a : Arr} {i j : Nat} {m : Memory} {f : Fault} (h : swapWords a i j m = .error f) :
    Unwritten m f := by
  unfold swapWords at h
  split at h
  · cases h
  · next hl => cases h; exact load_fault hl
  · next hl _ => cases h; exact load_fault hl

theorem bitrevAt_grows {b i : Nat} {m m' : Memory} (h : bitrevAt b i m = .ok m') : m.Grows m' := by
  unfold bitrevAt at h
  split at h
  · split at h
    · next t ht => exact (swapWords_grows ht).trans (swapWords_grows h)
    · cases h
  · cases h; exact .refl m

theorem bitrevAt_fault {b i : Nat} {m : Memory} {f : Fault} (h : bitrevAt b i m = .error f) : Unwritten m f := by
  unfold bitrevAt at h
  split at h
  · split at h
    · next t ht => exact (swapWords_fault h).before (swapWords_grows ht)
    · next e he => cases h; exact swapWords_fault he
  · cases h

theorem fftBitrev_fault {c : Cfg} {m : Memory} {f : Fault} (h : fftBitrev c m = .error f) : Unwritten m f :=
  forUpTo_unwritten id (fun _ _ _ => bitrevAt_grows) (fun _ _ _ => bitrevAt_fault) h

theorem bfly_fault {p q k : Nat} {m : Memory} {f : Fault} (h : bfly p q k m = .error f) : Unwritten m f := by
  unfold bfly at h
  rcases bind_fault h with h | ⟨_, -, h⟩
  · exact load_fault h
  rcases bind_fault h with h | ⟨_, -, h⟩
  · exact load_fault h
  rcases bind_fault h with h | ⟨_, -, h⟩
  · exact load_fault h
  rcases bind_fault h with h | ⟨_, -, h⟩
  · exact load_fault h
  rcases bind_fault h with h | ⟨_, -, h⟩
  · exact load_fault h
  rcases bind_fault h with h | ⟨_, -, h⟩
  · exact load_fault h
  cases h

theorem fftStage_fault {c : Cfg} {k : Nat} {m : Memory} {f : Fault} (h : fftStage c k m = .error f) : Unwritten m f :=
  forUpTo_unwritten id (fun _ _ _ hb => forUpTo_grows (fun _ _ _ hc => bfly_grows hc) hb)
    (fun _ _ _ hb => forUpTo_unwritten id (fun _ _ _ => bfly_grows) (fun _ _ _ => bfly_fault) hb) h

theorem fftFull_fault {c : Cfg} {m : Memory} {f : Fault} (h : fftFull c m = .error f) : Unwritten m f := by
  unfold fftFull at h
  split at h
  · next t ht =>
    exact (forUpTo_unwritten id (fun _ _ _ => fftStage_grows) (fun _ _ _ => fftStage_fault) h).before (fftBitrev_grows ht)
  · next e he => cases h; exact fftBitrev_fault he

theorem fftPower_fault {c : Cfg} {m : Memory} {f : Fault} (h : fftPower c m = .error f) : Unwritten m f := by
  refine forUpTo_unwritten id (fun k y y' hb => ?_) (fun k y e hb => ?_) h
  · obtain ⟨_, -, hb⟩ := bind_ok hb
    obtain ⟨_, -, hb⟩ := bind_ok hb
    cases hb
    exact store_grows _ _ _ _
  · rcases bind_fault hb with hb | ⟨_, -, hb⟩
    · exact load_fault hb
    rcases bind_fault hb with hb | ⟨_, -, hb⟩
    · exact load_fault hb
    cases hb

theorem bandEnergy_fault {c : Cfg} {band : Nat} {m : Memory} {f : Fault} (h : bandEnergy c band m = .error f) :
    Unwritten m f := by
  refine forUpTo_unwritten (fun _ => m) (fun _ _ _ _ => .refl m) (fun k y e hb => ?_) h
  rcases bind_fault hb with hb | ⟨_, -, hb⟩
  · exact load_fault hb
  rcases bind_fault hb with hb | ⟨_, -, hb⟩
  · exact load_fault hb
  cases hb

theorem melApply_fault {c : Cfg} {m : Memory} {f : Fault} (h : melApply c m = .error f) : Unwritten m f := by
  refine forUpTo_unwritten id (fun k y y' hb => ?_) (fun k y e hb => ?_) h
  · obtain ⟨_, -, hb⟩ := bind_ok hb
    cases hb
    exact store_grows _ _ _ _
  · rcases bind_fault hb with hb | ⟨_, -, hb⟩
    · exact bandEnergy_fault hb
    cases hb

theorem logCompress_fault {c : Cfg} {m : Memory} {f : Fault} (h : logCompress c m = .error f) : Unwritten m f := by
  refine forUpTo_unwritten Prod.fst (fun k y y' hb => ?_) (fun k y e hb => ?_) h
  · obtain ⟨_, -, hb⟩ := bind_ok hb
    cases hb
    exact store_grows _ _ _ _
  · rcases bind_fault hb with hb | ⟨_, -, hb⟩
    · exact load_fault hb
    cases hb

/-! ### Feature extraction and samples -/

theorem featWindow_fault {c : Cfg} {v : List Word} {nwin w : Nat} {t : Memory × Bool} {f : Fault}
    (h : featWindow c v nwin w t = .error f) : Unwritten t.1 f := by
  unfold featWindow at h
  rcases bind_fault h with h | ⟨m1, h1, h⟩
  · exact windowStage_fault h
  have hg := windowStage_grows h1
  rcases bind_fault h with h | ⟨m2, h2, h⟩
  · exact (fftFull_fault h).before hg
  replace hg := hg.trans (fftFull_grows h2)
  rcases bind_fault h with h | ⟨m3, h3, h⟩
  · exact (fftPower_fault h).before hg
  replace hg := hg.trans (fftPower_grows h3)
  rcases bind_fault h with h | ⟨m4, h4, h⟩
  · exact (melApply_fault h).before hg
  replace hg := hg.trans (melApply_grows h4)
  rcases bind_fault h with h | ⟨m5, h5, h⟩
  · exact (logCompress_fault h).before hg
  replace hg := hg.trans (logCompress_grows h5)
  rcases bind_fault h with h | ⟨m6, -, h⟩
  · refine (forUpTo_unwritten id (fun k y y' hb => ?_) (fun k y e hb => ?_) h).before hg
    · obtain ⟨_, -, hb⟩ := bind_ok hb
      cases hb
      exact store_grows _ _ _ _
    · rcases bind_fault hb with hb | ⟨_, -, hb⟩
      · exact load_fault hb
      cases hb
  cases h

theorem featRows_fault {c : Cfg} {v : List Word} {nwin : Nat} {m : Memory} {f : Fault}
    (h : featRows c v nwin m = .error f) : Unwritten m f := by
  unfold featRows at h
  rcases bind_fault h with h | ⟨r, hr, h⟩
  · exact forUpTo_unwritten Prod.fst (fun _ _ _ => featWindow_grows) (fun _ _ _ => featWindow_fault) h
  have hg : m.Grows r.1 :=
    forUpTo_keeps (fun _ y => m.Grows y.1) (.refl m) (fun k y y' _ hy hb => hy.trans (featWindow_grows hb)) hr
  rcases bind_fault h with h | ⟨vals, -, h⟩
  · obtain ⟨k, hk⟩ := collect_fault h
    exact (load_fault hk).before hg
  cases h

/-- The fault is UNINIT_READ at a slot that the BEGIN snapshot had unwritten (R90). -/
def SlotUnwritten (sn : Snapshot) (f : Fault) : Prop :=
  ∃ i, f = .uninitRead (Arr.rbram.off i) ∧ sn.ring.word .rbram i = none

theorem sample_fault {sn : Snapshot} {c : Cfg} {i : Nat} {f : Fault} (h : sn.sample c i = .error f) :
    SlotUnwritten sn f := by
  unfold Snapshot.sample load at h
  split at h
  · cases h
  · next e he =>
    split at he
    · cases he
    · next hn => cases he; cases h; exact ⟨_, rfl, hn⟩

theorem copyOut_fault {k : Nat} {sn : Snapshot} {s : State} {f : Fault} (h : copyOut k sn s = .error f) :
    SlotUnwritten sn f := by
  unfold copyOut at h
  dsimp only at h
  split at h
  · next e he =>
    cases h
    obtain ⟨j, y, -, hb⟩ := forUpTo_fault he
    split at hb
    · cases hb
    · next hs => cases hb; exact sample_fault hs
  · cases h

theorem effectCodecFrame_fault {sn : Snapshot} {s : State} {f : Fault} (h : effectCodecFrame sn s = .error f) :
    SlotUnwritten sn f := by
  unfold effectCodecFrame at h
  split at h
  · cases h
  · split at h
    · cases h
    · split at h
      · next e he =>
        cases h
        unfold framePayload at he
        split at he
        · cases he
        · next hc =>
          cases he
          obtain ⟨k, hk⟩ := collect_fault hc
          exact sample_fault hk
      · cases h

theorem featDone_fault {full : Bool} {nwin : Nat} {sn : Snapshot} {s : State} {f : Fault}
    (h : featDone full nwin sn s = .error f) : Unwritten s.mem f ∨ SlotUnwritten sn f := by
  unfold featDone at h
  rcases bind_fault h with h | ⟨samples, -, h⟩
  · obtain ⟨k, hk⟩ := collect_fault h
    exact .inr (sample_fault hk)
  rcases bind_fault h with h | ⟨r, -, h⟩
  · exact .inl (featRows_fault h)
  cases h

theorem effectFeatExtract_fault {sn : Snapshot} {s : State} {f : Fault} (h : effectFeatExtract sn s = .error f) :
    Unwritten s.mem f ∨ SlotUnwritten sn f := by
  unfold effectFeatExtract at h
  split at h
  · exact featDone_fault h
  · exact featDone_fault h
  · cases h

theorem onMemory_fault {g : Memory → Except Fault Memory} {s : State} {f : Fault} (h : onMemory g s = .error f) :
    g s.mem = .error f := by
  unfold onMemory at h
  split at h
  · cases h
  · next e he => cases h; exact he

theorem effectLogCompress_fault {s : State} {f : Fault} (h : effectLogCompress s = .error f) : Unwritten s.mem f := by
  unfold effectLogCompress at h
  split at h
  · cases h
  · next e he => cases h; exact logCompress_fault he

/-! ### Every command -/

/-- A command's effect faults only on a word unwritten in memory or, for a slot, in the BEGIN snapshot. -/
theorem commandEffect_fault {i : Instr} {sn : Snapshot} {s : State} {f : Fault} (h : commandEffect i sn s = .error f) :
    Unwritten s.mem f ∨ SlotUnwritten sn f := by
  cases i with
  | rbRead k =>
    refine .inr ?_
    change effectRbRead k sn s = .error f at h
    unfold effectRbRead at h
    split at h
    · cases h
    · next e he => cases h; exact copyOut_fault he
  | rbPeek k => exact .inr (copyOut_fault h)
  | winApply => exact .inl (winApply_fault (onMemory_fault h))
  | fftBitrev => exact .inl (fftBitrev_fault (onMemory_fault h))
  | fftStage k => exact .inl (fftStage_fault (onMemory_fault h))
  | fftFull => exact .inl (fftFull_fault (onMemory_fault h))
  | fftPower => exact .inl (fftPower_fault (onMemory_fault h))
  | melApply => exact .inl (melApply_fault (onMemory_fault h))
  | logCompress => exact .inl (effectLogCompress_fault h)
  | featExtract => exact effectFeatExtract_fault h
  | codecFrame => exact .inr (effectCodecFrame_fault h)
  | nop | cfgCommit | start | stop | resetRt | preStep _ | decStep _ | decReset | evtPop | alawEnc _ | pktPop => cases h

/-- A command faults on a word unwritten in memory or, for a slot, in the recorded snapshot: a snapshot taken in the same
step has the slots of memory. -/
theorem exec_fault_unwritten {i : Instr} {s : State} {f : Fault} (h : exec i s = .fault f) :
    Unwritten s.mem f ∨
      ∃ w sn, (s.chan s.active).pending = .begun w none sn ∧ SlotUnwritten sn f := by
  obtain ⟨sn, hb, he⟩ := exec_fault h
  rcases commandEffect_fault he with hu | hu
  · exact .inl hu
  · rcases hb with ⟨-, w, hp⟩ | ⟨-, rfl⟩
    · exact .inr ⟨w, sn, hp, hu⟩
    · obtain ⟨k, hf, hn⟩ := hu
      exact .inl ⟨.rbram, k, hf, by rw [← word_ringCells]; exact hn⟩

/-! ### No step is refused -/

theorem hostRead_never_refuses (s : State) (width off : Nat) (r : Refusal) : s.hostRead width off ≠ .refused r := by
  unfold State.hostRead
  split
  · exact nofun
  · split
    · exact nofun
    · split <;> exact nofun

theorem hostWrite_never_refuses (s : State) (width off : Nat) (v : Word) (r : Refusal) :
    s.hostWrite width off v ≠ .refused r := by
  unfold State.hostWrite
  split
  · exact nofun
  · split <;> exact nofun

theorem engineRun_never_refuses (s : State) (r : Refusal) : s.engineRun ≠ .refused r := by
  unfold State.engineRun
  split
  · exact nofun
  · split
    · exact exec_never_refuses _ s r
    · exact nofun

theorem engineBegin_never_refuses (s : State) (r : Refusal) : s.engineBegin ≠ .refused r := by
  unfold State.engineBegin
  split
  · split
    · split
      · exact exec_never_refuses _ s r
      · exact nofun
    · exact nofun
  · exact nofun
  · exact nofun

theorem inputStep_never_refuses (s : State) (e : Input) (r : Refusal) : s.inputStep e ≠ .refused r := by
  cases e with
  | hostRead width off => exact hostRead_never_refuses s width off r
  | hostWrite width off v => exact hostWrite_never_refuses s width off v r
  | begin n => exact engineBegin_never_refuses _ r
  | run n => exact engineRun_never_refuses _ r
  | sample | resetInput => exact nofun

theorem quietStep_never_refuses (s : State) (r : Refusal) : s.quietStep ≠ .refused r := by
  unfold State.quietStep
  split
  · exact engineRun_never_refuses s r
  · split
    · exact engineRun_never_refuses _ r
    · exact nofun

theorem step_never_refuses (s : State) (r : Refusal) : step s ≠ .refused r := by
  cases hi : s.inputs with
  | nil => rw [step_nil hi]; exact quietStep_never_refuses s r
  | cons e rest => rw [step_cons hi]; exact inputStep_never_refuses _ e r

/-- Settles O14: a command's effect faults in a load, and every word unwritten then was unwritten before the command. -/
theorem commandsOnlyFaultOnUnwrittenWords : Obligations.CommandsOnlyFaultOnUnwrittenWords := by
  unfold Obligations.CommandsOnlyFaultOnUnwrittenWords
  refine ⟨fun i s => ⟨exec_never_refuses i s, fun f h => ?_⟩, step_never_refuses⟩
  rcases exec_fault_unwritten h with ⟨a, k, hf, hn⟩ | ⟨w, sn, hp, k, hf, hn⟩
  · exact ⟨_, hf, .inl hn⟩
  · exact ⟨_, hf, .inr ⟨w, none, sn, hp, Nat.le_add_right _ _, hn⟩⟩

end Sys2Proof.Machine
end

section
/-!
The register map, bus errors and the host's reads (spec/10_state.md R21-R50, spec/20_memory.md R80-R86).
-/

namespace Sys2Proof.Machine

/-! ### The register map (R23) -/

/-- Where each location of the map stands. -/
def Loc.StandsAt (l : Loc) (off : Nat) : Prop :=
  match l with
  | .reg r => (off, r) ∈ regTable
  | .shadow i => i < 26 ∧ off = 0x100 + 4 * i
  | .active i => i < 26 ∧ off = 0x200 + 4 * i
  | .prob c => c < 8 ∧ off = 0x340 + 4 * c
  | .ema c => c < 8 ∧ off = 0x360 + 4 * c
  | .smooth c => c < 8 ∧ off = 0x380 + 4 * c
  | .hist c k => c < 8 ∧ k < 8 ∧ off = 0x400 + 4 * (8 * c + k)
  | .word a i => i < a.len ∧ off = a.off i

theorem regTable_located : ∀ p ∈ regTable, locOf p.1 = some (.reg p.2) := by decide
theorem shadow_located : ∀ i, i < 26 → locOf (0x100 + 4 * i) = some (.shadow i) := by decide
theorem active_located : ∀ i, i < 26 → locOf (0x200 + 4 * i) = some (.active i) := by decide
theorem prob_located : ∀ c, c < 8 → locOf (0x340 + 4 * c) = some (.prob c) := by decide
theorem ema_located : ∀ c, c < 8 → locOf (0x360 + 4 * c) = some (.ema c) := by decide
theorem smooth_located : ∀ c, c < 8 → locOf (0x380 + 4 * c) = some (.smooth c) := by decide
theorem hist_located : ∀ c, c < 8 → ∀ k, k < 8 → locOf (0x400 + 4 * (8 * c + k)) = some (.hist c k) := by decide
theorem regTable_below : ∀ p ∈ regTable, p.1 < 0x400 := by decide

theorem regTable_lookup_high {off : Nat} (h : 0x400 ≤ off) : regTable.lookup off = none :=
  List.lookup_eq_none_iff.2 fun p hp => by
    have := regTable_below p hp
    exact bne_iff_ne.2 (by omega)

/-- The words of different arrays do not overlap, so an array word's offset finds its own array (R23). -/
theorem find_array {a : Arr} {i : Nat} (hi : i < a.len) :
    Arr.all.find? (fun b => inBlock b.base b.len (a.off i)) = some a := by
  have hself : inBlock a.base a.len (a.off i) = true := (inBlock_iff _ _ _).2 (by simp only [Arr.off]; omega)
  have hall : a ∈ Arr.all := by cases a <;> decide
  have hsome : (Arr.all.find? (fun b => inBlock b.base b.len (a.off i))).isSome := List.find?_isSome.2 ⟨a, hall, hself⟩
  obtain ⟨b, hb⟩ := Option.isSome_iff_exists.1 hsome
  have hin : inBlock b.base b.len (a.off i) = true :=
    List.find?_some (p := fun b : Arr => inBlock b.base b.len (a.off i)) hb
  obtain ⟨hlo, hhi⟩ := (inBlock_iff _ _ _).1 hin
  have hab : a = b := Decidable.byContradiction fun hne => by
    have hbase : a.base % 4 = 0 ∧ b.base % 4 = 0 := ⟨by cases a <;> rfl, by cases b <;> rfl⟩
    have hj : (a.off i - b.base) / 4 < b.len := by omega
    have hdis := Arr.off_disjoint hi hj (.inl hne)
    simp only [Arr.off] at hdis hlo hhi
    omega
  rw [hb, hab]

theorem word_located {a : Arr} {i : Nat} (hi : i < a.len) : locOf (a.off i) = some (.word a i) := by
  have hbase : 0x1000 ≤ a.base ∧ a.base % 4 = 0 := by cases a <;> decide
  have hmod : a.off i % 4 = 0 := by simp only [Arr.off]; omega
  have hhigh : 0x1000 ≤ a.off i := by simp only [Arr.off]; omega
  have hout {base n : Nat} (h : base + 4 * n ≤ 0x1000) : ¬inBlock base n (a.off i) = true := by
    rw [inBlock_iff]; omega
  have hword : (a.off i - a.base) / 4 = i := by simp only [Arr.off]; omega
  rw [locOf, if_pos hmod, locAligned, regTable_lookup_high (by omega)]
  simp only [aedp1_maxClasses, hout (base := 0x100) (n := 26) (by omega), hout (base := 0x200) (n := 26) (by omega),
    hout (base := 0x340) (n := 8) (by omega), hout (base := 0x360) (n := 8) (by omega),
    hout (base := 0x380) (n := 8) (by omega), hout (base := 0x400) (n := 8 * 8) (by omega), if_neg Bool.false_ne_true,
    find_array hi, hword]

/-- What the map finds at an offset stands there. -/
theorem locOf_standsAt {l : Loc} {off : Nat} (h : locOf off = some l) : off % 4 = 0 ∧ l.StandsAt off := by
  unfold locOf at h
  split at h
  case isFalse => cases h
  case isTrue hmod =>
    refine ⟨hmod, ?_⟩
    unfold locAligned at h
    simp only [inBlock_iff, aedp1_maxClasses] at h
    split at h
    · next r hr =>
      cases h
      obtain ⟨_, _, hl, -⟩ := List.lookup_eq_some_iff.1 hr
      show (off, r) ∈ regTable
      rw [hl]
      exact List.mem_append_right _ List.mem_cons_self
    · split at h
      · cases h; simp only [Loc.StandsAt]; omega
      split at h
      · cases h; simp only [Loc.StandsAt]; omega
      split at h
      · cases h; simp only [Loc.StandsAt]; omega
      split at h
      · cases h; simp only [Loc.StandsAt]; omega
      split at h
      · cases h; simp only [Loc.StandsAt]; omega
      split at h
      · cases h; simp only [Loc.StandsAt]; omega
      split at h
      · next a ha =>
        cases h
        have hin : inBlock a.base a.len off = true := List.find?_some (p := fun b : Arr => inBlock b.base b.len off) ha
        obtain ⟨i, hi, rfl⟩ := (inBlock_first a a.len hmod).1 hin
        have hword : (a.off i - a.base) / 4 = i := by simp only [Arr.off]; omega
        rw [hword]
        exact ⟨hi, rfl⟩
      · cases h

/-! ### Bus errors (R82-R84) -/

/-- The offsets that R23 lists. -/
def Listed (off : Nat) : Prop :=
  off ≤ 0x014 ∨ (0x020 ≤ off ∧ off ≤ 0x030) ∨ (0x040 ≤ off ∧ off ≤ 0x070) ∨ (0x080 ≤ off ∧ off ≤ 0x0A4) ∨
    (0x100 ≤ off ∧ off ≤ 0x164) ∨ (0x200 ≤ off ∧ off ≤ 0x264) ∨ (0x300 ≤ off ∧ off ≤ 0x3D0) ∨
    (0x3E0 ≤ off ∧ off ≤ 0x3F0) ∨ (0x400 ≤ off ∧ off ≤ 0x4FC) ∨ (0x01000 ≤ off ∧ off ≤ 0x01FFC) ∨
    (0x02000 ≤ off ∧ off ≤ 0x02FFC) ∨ (0x03000 ≤ off ∧ off ≤ 0x03FFC) ∨ (0x04000 ≤ off ∧ off ≤ 0x05FFC) ∨
    (0x06000 ≤ off ∧ off ≤ 0x06800) ∨ (0x07000 ≤ off ∧ off ≤ 0x071FC) ∨ (0x08000 ≤ off ∧ off ≤ 0x10FFC) ∨
    (0x11000 ≤ off ∧ off ≤ 0x113FC) ∨ (0x40000 ≤ off ∧ off ≤ 0x9FFFC)

theorem regTable_listed : ∀ p ∈ regTable, Listed p.1 := by unfold Listed; decide

theorem Loc.StandsAt.listed {l : Loc} {off : Nat} (h : l.StandsAt off) : Listed off := by
  cases l with
  | reg r => exact regTable_listed _ h
  | word a i =>
    obtain ⟨hi, rfl⟩ := h
    cases a <;> simp only [Arr.len_aedp1] at hi <;> simp only [Listed, Arr.off, Arr.base] <;> omega
  | _ => simp only [Loc.StandsAt] at h; unfold Listed; omega

theorem array_mapped {off : Nat} (a : Arr) (hmod : off % 4 = 0) (h : a.base ≤ off ∧ off < a.base + 4 * a.len) :
    (locOf off).isSome = true := by
  obtain ⟨i, hi, rfl⟩ := (inBlock_first a a.len hmod).1 ((inBlock_iff _ _ _).2 h)
  rw [word_located hi]
  rfl

theorem control_mapped : ∀ k, k < 0x2A →
    (4 * k ≤ 0x014 ∨ (0x020 ≤ 4 * k ∧ 4 * k ≤ 0x030) ∨ (0x040 ≤ 4 * k ∧ 4 * k ≤ 0x070) ∨ 0x080 ≤ 4 * k) →
    (locOf (4 * k)).isSome = true := by decide

theorem detection_mapped : ∀ k, k < 0x3D → (4 * k ≤ 0xD0 ∨ 0xE0 ≤ 4 * k) → (locOf (0x300 + 4 * k)).isSome = true := by
  decide

theorem Listed.mapped {off : Nat} (h : Listed off) (hmod : off % 4 = 0) : (locOf off).isSome = true := by
  unfold Listed at h
  have hregion : off < 0xA8 ∨ (0x100 ≤ off ∧ off < 0x168) ∨ (0x200 ≤ off ∧ off < 0x268) ∨ (0x300 ≤ off ∧ off < 0x3F4) ∨
      (0x400 ≤ off ∧ off < 0x500) ∨ 0x1000 ≤ off := by omega
  rcases hregion with hr | hr | hr | hr | hr | hr
  · rw [show off = 4 * (off / 4) by omega]
    exact control_mapped _ (by omega) (by omega)
  · rw [show off = 0x100 + 4 * ((off - 0x100) / 4) by omega, shadow_located _ (by omega)]
    rfl
  · rw [show off = 0x200 + 4 * ((off - 0x200) / 4) by omega, active_located _ (by omega)]
    rfl
  · rw [show off = 0x300 + 4 * ((off - 0x300) / 4) by omega]
    exact detection_mapped _ (by omega) (by omega)
  · rw [show off = 0x400 + 4 * (8 * ((off - 0x400) / 32) + (off - 0x400) / 4 % 8) by omega,
      hist_located _ (by omega) _ (by omega)]
    rfl
  · have harr : ∃ a : Arr, a.base ≤ off ∧ off < a.base + 4 * a.len := by
      by_contra hno
      have hall : ∀ a ∈ Arr.all, ¬(a.base ≤ off ∧ off < a.base + 4 * a.len) := fun a _ ha => hno ⟨a, ha⟩
      simp only [Arr.all, List.forall_mem_cons, Arr.base, Arr.len_aedp1] at hall
      omega
    obtain ⟨a, ha⟩ := harr
    exact array_mapped a hmod ha

/-- The map of R23 has a location exactly at the aligned offsets it lists. -/
theorem locOf_isSome_iff (off : Nat) : (locOf off).isSome = true ↔ off % 4 = 0 ∧ Listed off := by
  refine ⟨fun h => ?_, fun ⟨hmod, hl⟩ => hl.mapped hmod⟩
  obtain ⟨l, hl⟩ := Option.isSome_iff_exists.1 h
  obtain ⟨hmod, hat⟩ := locOf_standsAt hl
  exact ⟨hmod, hat.listed⟩

theorem busLoc_eq_none_iff (width off : Nat) : busLoc width off = none ↔ ¬(width = 4 ∧ off % 4 = 0 ∧ Listed off) := by
  rw [← locOf_isSome_iff]
  unfold busLoc
  split
  · next hw => simp [hw]
  · next hw => simp [hw]

theorem hostRead_busError_iff (s : State) (width off : Nat) :
    s.hostRead width off = .fault (.busError off) ↔ busLoc width off = none := by
  unfold State.hostRead
  split
  · next hn => simp [hn]
  · next l hl =>
    rw [hl]
    refine ⟨fun h => ?_, nofun⟩
    split at h
    · cases h
    · split at h
      · cases h
      · next f hf =>
        cases h
        cases l with
        | word a i =>
          obtain ⟨b, j, he, -⟩ := load_fault hf
          cases he
        | _ => cases hf

theorem hostWrite_busError_iff (s : State) (width off : Nat) (v : Word) :
    s.hostWrite width off v = .fault (.busError off) ↔ busLoc width off = none := by
  unfold State.hostWrite
  split
  · next hn => simp [hn]
  · next l hl =>
    rw [hl]
    refine ⟨fun h => ?_, nofun⟩
    split at h <;> cases h

/-- Settles O49: an access faults as a bus error exactly where the map finds nothing, and the map lists its blocks. -/
theorem busErrorsAreExactlyOffTheMap : Obligations.BusErrorsAreExactlyOffTheMap := by
  unfold Obligations.BusErrorsAreExactlyOffTheMap
  intro s rest width off v listed h
  show _ ↔ ¬(width = 4 ∧ off % 4 = 0 ∧ Listed off)
  rw [← busLoc_eq_none_iff]
  rcases h with h | h
  · rw [step_cons h]
    exact hostRead_busError_iff _ width off
  · rw [step_cons h]
    exact hostWrite_busError_iff _ width off v

/-! ### Reads (R85, R86) -/

/-- A read of a mapped offset shows `v`. -/
def Shows (s : State) (off : Nat) (v : Word) : Prop := ∃ l, locOf off = some l ∧ s.readLoc l = .ok v

theorem hostRead_shows {s : State} {off : Nat} {v : Word} (h : Shows s off v) (hs : s.stale off = false) :
    ∃ t, s.hostRead 4 off = .next t ∧ t.busData = v := by
  obtain ⟨l, hl, hv⟩ := h
  refine ⟨{ s.observeStatus l with busData := v }, ?_, rfl⟩
  simp only [State.hostRead, busLoc, if_true, hl, hs, hv, Bool.false_eq_true, if_false]

theorem step_read {s : State} {rest : List Input} {off : Nat} {v : Word} (hi : s.inputs = .hostRead 4 off :: rest)
    (hs : s.stale off = false) (h : Shows s off v) : ∃ t, step s = .next t ∧ t.busData = v := by
  rw [step_cons hi]
  exact hostRead_shows (s := { s with inputs := rest }) h hs

/-- Settles O54: the location of an array word's offset is the word, and reading it is loading it. -/
theorem unwrittenWordsFaultUntilWritten : Obligations.UnwrittenWordsFaultUntilWritten := by
  unfold Obligations.UnwrittenWordsFaultUntilWritten
  intro s rest a i hi hin hs
  have hloc : locOf (a.off i) = some (.word a i) := word_located hi
  refine ⟨fun hn => ?_, fun v hv => step_read hin hs ⟨_, hloc, load_ok_iff.2 hv⟩⟩
  have hload : load a i s.mem = .error (.uninitRead (a.off i)) := by
    unfold load
    rw [show s.mem.readWord (a.off i) = none from hn]
  have hstale : ({ s with inputs := rest } : State).stale (a.off i) = false := hs
  rw [step_cons hin]
  simp only [State.inputStep, State.hostRead, busLoc, if_true, hloc, hstale, State.readLoc, hload, Bool.false_eq_true,
    if_false]

theorem headEvent_nil {s : State} (h : s.evq = []) :
    s.headEvent = { cls := 0, seq := 0, start := 0, dur := 0, peakconf := 0, rms := 0, peak := 0 } := by
  rw [State.headEvent, h]; rfl

theorem headEvent_cons {s : State} {e : EventRec} {q : List EventRec} (h : s.evq = e :: q) : s.headEvent = e := by
  rw [State.headEvent, h]; rfl

/-- The event head registers (R36). -/
theorem shows_headEvent (s : State) :
    Shows s 0x3A0 s.headEvent.cls ∧ Shows s 0x3A4 s.headEvent.seq ∧ Shows s 0x3A8 (s.headEvent.start.extractLsb' 0 32) ∧
      Shows s 0x3AC (s.headEvent.start.extractLsb' 32 32) ∧ Shows s 0x3B0 s.headEvent.dur ∧
      Shows s 0x3B4 s.headEvent.peakconf ∧ Shows s 0x3B8 s.headEvent.rms ∧ Shows s 0x3BC s.headEvent.peak :=
  ⟨⟨_, rfl, rfl⟩, ⟨_, rfl, rfl⟩, ⟨_, rfl, rfl⟩, ⟨_, rfl, rfl⟩, ⟨_, rfl, rfl⟩, ⟨_, rfl, rfl⟩, ⟨_, rfl, rfl⟩, ⟨_, rfl, rfl⟩⟩

theorem headPacket_none {s : State} (h : s.pkt = none) : s.headPacket = { seq := 0, ts := 0, len := 0 } := by
  rw [State.headPacket, h]; rfl

theorem headPacket_some {s : State} {p : PktHeader} (h : s.pkt = some p) : s.headPacket = p := by
  rw [State.headPacket, h]; rfl

/-- The packet registers (R37). -/
theorem shows_headPacket (s : State) :
    Shows s 0x3C0 s.headPacket.seq ∧ Shows s 0x3C4 s.headPacket.ts ∧ Shows s 0x3C8 s.headPacket.len :=
  ⟨⟨_, rfl, rfl⟩, ⟨_, rfl, rfl⟩, ⟨_, rfl, rfl⟩⟩

/-- The words of a configuration, in the index order of R31. -/
def Cfg.words (c : Cfg) : List Word :=
  [c.fs, c.rbCap, c.winLen, c.hop, c.nframes, c.fftLog2, c.melBands, c.featStride, c.featCtrl, c.dcR, c.preemph,
   c.agcAttack, c.agcRelease, c.agcGsmooth, c.agcTarget, c.agcMaxgain, c.gateThr, c.logEps, c.nclasses, c.target,
   c.threshold, c.emaAlpha, c.medianK, c.minDur, c.quiet, c.codecLen]

theorem Cfg.get_eq (c : Cfg) (i : Nat) : c.get i = c.words.getD i 0 := rfl

theorem Cfg.get_eq_getElem (c : Cfg) {i : Nat} (hi : i < c.words.length) : c.get i = c.words[i] := by
  rw [Cfg.get_eq, List.getD_eq_getElem?_getD, List.getElem?_eq_getElem hi]
  rfl

theorem shows_shadow (s : State) {p : Nat × Word} (h : p ∈ s.shadow.words.mapIdx (fun k x => (0x100 + 4 * k, x))) :
    Shows s p.1 p.2 := by
  obtain ⟨i, hi, rfl⟩ := List.mem_mapIdx.1 h
  exact ⟨_, shadow_located i hi, congrArg Except.ok (Cfg.get_eq_getElem _ hi)⟩

theorem shows_active (s : State) {p : Nat × Word} (h : p ∈ s.act.words.mapIdx (fun k x => (0x200 + 4 * k, x))) :
    Shows s p.1 p.2 := by
  obtain ⟨i, hi, rfl⟩ := List.mem_mapIdx.1 h
  exact ⟨_, active_located i hi, congrArg Except.ok (Cfg.get_eq_getElem _ hi)⟩

/-- The per-class registers (R35). -/
theorem shows_classes (s : State) {p : Nat × Word}
    (h : p ∈ (List.range 8).flatMap (fun k => [(0x340 + 4 * k, at8 s.prob k), (0x360 + 4 * k, at8 s.ema k),
        (0x380 + 4 * k, at8 s.smooth k)] ++
        (List.range 8).map (fun j => (0x400 + 4 * (8 * k + j), at64 s.hist k j)))) : Shows s p.1 p.2 := by
  obtain ⟨k, hk, hp⟩ := List.mem_flatMap.1 h
  rw [List.mem_range] at hk
  rcases List.mem_append.1 hp with hp | hp
  · simp only [List.mem_cons, List.not_mem_nil, or_false] at hp
    rcases hp with rfl | rfl | rfl
    · exact ⟨_, prob_located k hk, rfl⟩
    · exact ⟨_, ema_located k hk, rfl⟩
    · exact ⟨_, smooth_located k hk, rfl⟩
  · obtain ⟨j, hj, rfl⟩ := List.mem_map.1 hp
    exact ⟨_, hist_located k hk j (List.mem_range.1 hj), rfl⟩

theorem shows_events (s : State) {p : Nat × Word}
    (h : p ∈ (match s.evq with
        | [] => (List.range 8).map (fun k => (0x3A0 + 4 * k, 0))
        | e :: _ => [(0x3A0, e.cls), (0x3A4, e.seq), (0x3A8, e.start.extractLsb' 0 32),
          (0x3AC, e.start.extractLsb' 32 32), (0x3B0, e.dur), (0x3B4, e.peakconf), (0x3B8, e.rms), (0x3BC, e.peak)])) :
    Shows s p.1 p.2 := by
  have hhead := shows_headEvent s
  split at h
  · next hq =>
    rw [headEvent_nil hq] at hhead
    obtain ⟨k, hk, rfl⟩ := List.mem_map.1 h
    exact forall_lt_eight (P := fun k => Shows s (0x3A0 + 4 * k) 0) hhead (List.mem_range.1 hk)
  · next e q hq =>
    rw [headEvent_cons hq] at hhead
    revert p
    simpa only [List.forall_mem_cons, List.not_mem_nil, false_implies, implies_true, and_true] using hhead

theorem shows_packet (s : State) {p : Nat × Word}
    (h : p ∈ (match s.pkt with
        | none => [(0x3C0, 0), (0x3C4, 0), (0x3C8, 0)]
        | some h => [(0x3C0, h.seq), (0x3C4, h.ts), (0x3C8, h.len)])) : Shows s p.1 p.2 := by
  have hhead := shows_headPacket s
  split at h
  · next hp =>
    rw [headPacket_none hp] at hhead
    revert p
    simpa only [List.forall_mem_cons, List.not_mem_nil, false_implies, implies_true, and_true] using hhead
  · next q hp =>
    rw [headPacket_some hp] at hhead
    revert p
    simpa only [List.forall_mem_cons, List.not_mem_nil, false_implies, implies_true, and_true] using hhead

/-- A list of rows shows its values when each row does. -/
theorem shows_of_rows {s : State} {rows : List (Nat × Word)} (h : ∀ p ∈ rows, Shows s p.1 p.2) {off : Nat} {v : Word}
    (hm : (off, v) ∈ rows) : Shows s off v := h (off, v) hm

/-- Settles O48: each offset's location shows the value listed there. -/
theorem readsShowTheRegisters : Obligations.ReadsShowTheRegisters := by
  unfold Obligations.ReadsShowTheRegisters
  intro s rest off v hin hs fields h
  refine step_read hin hs ?_
  simp only [List.mem_append] at h
  rcases h with (((((h | h) | h) | h) | h) | h) | h
  · refine shows_of_rows ?_ h
    simp only [List.forall_mem_cons, List.not_mem_nil, false_implies, implies_true, and_true]
    and_intros <;> exact ⟨_, rfl, rfl⟩
  · refine shows_of_rows ?_ h
    simp only [List.forall_mem_cons, List.not_mem_nil, false_implies, implies_true, and_true]
    and_intros <;> exact ⟨_, rfl, rfl⟩
  · exact shows_shadow s h
  · exact shows_active s h
  · exact shows_classes s h
  · exact shows_events s h
  · exact shows_packet s h

end Sys2Proof.Machine
end

section
/-!
The host's writes (spec/20_memory.md R86), the writes of commands among them (spec/10_state.md R26).
-/

namespace Sys2Proof.Machine

/-! ### Writes (R86) -/

theorem step_write {s : State} {rest : List Input} {l : Loc} {off : Nat} {v : Word}
    (hi : s.inputs = .hostWrite 4 off v :: rest) (hl : locOf off = some l) (hz : s.hazard off = false) :
    step s = .next (({ s with inputs := rest } : State).writeLoc l v) := by
  have hz' : ({ s with inputs := rest } : State).hazard off = false := hz
  rw [step_cons hi]
  simp only [State.inputStep, State.hostWrite, busLoc, if_true, hl, hz', Bool.false_eq_true, if_false]

/-- The registers that a write changes (R23). -/
def writableReg : Reg → Bool
  | .irqStatus | .irqEnable | .cmd _ | .sampleIn | .cycleTsLo | .cycleTsHi | .levelRms | .levelPeak => true
  | _ => false

theorem writeReg_readOnly (s : State) {r : Reg} (h : writableReg r = false) (v : Word) : s.writeReg r v = s := by
  cases r with
  | irqStatus | irqEnable | cmd | sampleIn | cycleTsLo | cycleTsHi | levelRms | levelPeak => cases h
  | _ => rfl

theorem writableReg_offsets : ∀ p ∈ regTable, writableReg p.2 = true →
    p.1 ∈ [0x02C, 0x030, 0x040, 0x044, 0x050, 0x300, 0x304, 0x308, 0x30C] := by decide

/-- The read-only offsets of R23. -/
def ReadOnly (off : Nat) : Prop :=
  off ≤ 0x014 ∨ (0x020 ≤ off ∧ off ≤ 0x028) ∨ (0x048 ≤ off ∧ off ≤ 0x04C) ∨ (0x054 ≤ off ∧ off ≤ 0x070) ∨
    (0x080 ≤ off ∧ off ≤ 0x0A4) ∨ (0x200 ≤ off ∧ off ≤ 0x264) ∨ (0x310 ≤ off ∧ off ≤ 0x33C) ∨
    (0x360 ≤ off ∧ off ≤ 0x3D0) ∨ (0x3E0 ≤ off ∧ off ≤ 0x3F0) ∨ (0x400 ≤ off ∧ off ≤ 0x4FC) ∨
    (0x03000 ≤ off ∧ off ≤ 0x03FFC) ∨ (0x10000 ≤ off ∧ off ≤ 0x10FFC) ∨ (0x11000 ≤ off ∧ off ≤ 0x113FC) ∨
    (0x80000 ≤ off ∧ off ≤ 0x9FFFC)

theorem ReadOnly.listed {off : Nat} (h : ReadOnly off) : Listed off := by
  unfold ReadOnly at h
  unfold Listed
  omega

/-- A write to a location that stands at a read-only offset is ignored (R86). -/
theorem writeLoc_readOnly (s : State) {l : Loc} {off : Nat} (hl : l.StandsAt off) (h : ReadOnly off) (v : Word) :
    s.writeLoc l v = s := by
  unfold ReadOnly at h
  cases l with
  | active | ema | smooth | hist => rfl
  | shadow | prob => simp only [Loc.StandsAt] at hl; omega
  | word a i =>
    obtain ⟨hi, rfl⟩ := hl
    have hw : a.writable = false := by
      by_contra hw
      cases a <;> simp only [Arr.writable, not_true_eq_false, Arr.len_aedp1, Arr.off, Arr.base] at hw hi h <;> omega
    simp only [State.writeLoc, hw, Bool.false_eq_true, if_false]
  | reg r =>
    refine writeReg_readOnly s ?_ v
    by_contra hw
    have hoff := writableReg_offsets _ hl (Bool.eq_true_of_not_eq_false hw)
    simp only [List.mem_cons, List.not_mem_nil, or_false] at hoff
    omega

/-! ### What a write changes -/

theorem Cfg.words_set (c : Cfg) (v : Word) {i : Nat} (hi : i < 26) : (c.set i v).words = c.words.set i v := by
  interval_cases i <;> rfl

/-- A CFG_* register reads back what was written, and no other changes (R30). -/
theorem Cfg.get_set (c : Cfg) (v : Word) {i j : Nat} (hi : i < 26) :
    (c.set i v).get j = if j = i then v else c.get j := by
  have hlen : i < c.words.length := hi
  rw [Cfg.get_eq, Cfg.words_set c v hi, List.getD_eq_getElem?_getD, List.getElem?_set]
  by_cases hj : j = i
  · subst hj
    rw [if_pos rfl, if_pos hlen, if_pos rfl]
    rfl
  · rw [if_neg (Ne.symm hj), if_neg hj, Cfg.get_eq, List.getD_eq_getElem?_getD]

theorem sameOutside_store (a : Arr) (i : Nat) (v : Word) (m : Memory) :
    SameOutside [(a.off i, 1)] m (store a i v m) := by
  intro off h
  refine store_readByte_other v m ?_
  have hout : ¬inBlock (a.off i) 1 off = true := by simpa [inBlocks] using h
  rw [inBlock_iff] at hout
  omega

/-- Settles O50: at each kind of offset, the map's location and what a write to it does. -/
theorem writesTakeEffectByAccessType : Obligations.WritesTakeEffectByAccessType := by
  unfold Obligations.WritesTakeEffectByAccessType
  intro s rest off v hin hmod hz u
  have hstep {l : Loc} (hl : locOf off = some l) : step s = .next (u.writeLoc l v) := step_write hin hl hz
  refine ⟨fun h => ?_, ?_, ?_, fun i hi ho => ?_, ?_, ?_, ?_, ?_, fun k hk ho => ?_, fun a i ha hi ho => ?_⟩
  · have hro : ReadOnly off := h
    obtain ⟨l, hl⟩ := Option.isSome_iff_exists.1 (hro.listed.mapped hmod)
    rw [hstep hl, writeLoc_readOnly u (locOf_standsAt hl).2 hro]
  · rintro rfl
    rw [hstep (l := .reg .irqStatus) rfl, ← BitVec.setWidth_eq_extractLsb' (by decide)]
    rfl
  · rintro rfl
    rw [hstep (l := .reg .irqEnable) rfl, ← BitVec.setWidth_eq_extractLsb' (by decide)]
    rfl
  · subst ho
    exact ⟨_, hstep (shadow_located i hi), rfl, fun j _ => Cfg.get_set s.shadow v hi⟩
  · rintro rfl
    exact hstep (l := .reg .cycleTsLo) rfl
  · rintro rfl
    exact hstep (l := .reg .cycleTsHi) rfl
  · rintro rfl
    exact hstep (l := .reg .levelRms) rfl
  · rintro rfl
    exact hstep (l := .reg .levelPeak) rfl
  · subst ho
    exact ⟨_, hstep (prob_located k hk), rfl, fun j hj => at8_tab8 _ hj⟩
  · subst ho
    have hw : a.writable = true := by
      simp only [List.mem_cons, List.not_mem_nil, or_false] at ha
      rcases ha with rfl | rfl | rfl | rfl | rfl | rfl | rfl | rfl | rfl | rfl <;> rfl
    have hwrite : u.writeLoc (.word a i) v = { u with mem := store a i v s.mem } := if_pos hw
    exact ⟨_, (hstep (word_located hi)).trans (congrArg _ hwrite), rfl, word_store a i v s.mem,
      sameOutside_store a i v s.mem⟩

/-! ### Command writes (R26, R391) -/

theorem off_high (a : Arr) (i : Nat) : 0x300 ≤ a.off i := by
  have hbase : 0x300 ≤ a.base := by cases a <;> decide
  exact Nat.le_trans hbase (Nat.le_add_right _ _)

theorem first_high (a : Arr) (n : Nat) : 0x300 ≤ (a.first n).1 := off_high a 0

/-- No footprint reaches below CYCLE_TS (R387): each is made of words of arrays, the classes' registers and the cycle's. -/
theorem footprint_high (c : Cfg) (i : Instr) : ∀ b ∈ footprint c i, 0x300 ≤ b.1 := by
  have hwork (n : Nat) : ∀ b ∈ workBlocks n, 0x300 ≤ b.1 := by simp [workBlocks, first_high]
  have hwin : ∀ b ∈ footWinApply c, 0x300 ≤ b.1 := List.forall_mem_cons.2 ⟨first_high _ _, hwork _⟩
  have hfft : ∀ b ∈ footFft c, 0x300 ≤ b.1 :=
    List.forall_mem_cons.2 ⟨first_high _ _, List.forall_mem_cons.2 ⟨first_high _ _, hwork _⟩⟩
  have hpower : ∀ b ∈ footPower c, 0x300 ≤ b.1 := List.forall_mem_cons.2 ⟨first_high _ _, hwork _⟩
  have hmel : ∀ b ∈ footMel c, 0x300 ≤ b.1 :=
    List.forall_mem_cons.2 ⟨first_high _ _, List.forall_mem_cons.2 ⟨first_high _ _,
      List.forall_mem_map.2 fun _ _ => off_high _ _⟩⟩
  have hlog : ∀ b ∈ footLog c, 0x300 ≤ b.1 := by simp [footLog, first_high]
  have hcycle : ∀ b ∈ cycleBlocks, 0x300 ≤ b.1 := by simp [cycleBlocks]
  cases i with
  | winApply => exact hwin
  | fftBitrev => exact hwork _
  | fftStage _ | fftFull => exact hfft
  | fftPower => exact hpower
  | melApply => exact hmel
  | logCompress => exact hlog
  | featExtract =>
    have hfeat : ∀ b ∈ [Arr.feat.first (c.frames * c.bands)], 0x300 ≤ b.1 := by simp [first_high]
    simp only [footprint, List.forall_mem_append]
    exact ⟨⟨⟨⟨⟨⟨hwin, hfft⟩, hpower⟩, hmel⟩, hlog⟩, hfeat⟩, hcycle⟩
  | decStep _ => exact List.forall_mem_cons.2 ⟨show 0x300 ≤ 0x340 by decide, hcycle⟩
  | _ => exact nofun

theorem hazard_low (s : State) {off : Nat} (h : off < 0x300) : s.hazard off = false := by
  have hon (n : Chan) : s.hazardOn n off = false := by
    unfold State.hazardOn
    split
    · rfl
    · split
      · next i _ =>
        refine Bool.eq_false_iff.2 fun hb => ?_
        obtain ⟨b, hmem, hin⟩ := (inBlocks_iff _ _).1 hb
        have := footprint_high s.act i b hmem
        rw [inBlock_iff] at hin
        omega
      · rfl
  rw [State.hazard, hon, hon]
  rfl

/-- Settles O51: CMDn is in no footprint, and the write latches the word or sets CMD_LOST, bit 10. -/
theorem commandWritesLatchOrAreLost : Obligations.CommandWritesLatchOrAreLost := by
  unfold Obligations.CommandWritesLatchOrAreLost
  intro s rest n w hin
  have hstep : step s = .next (({ s with inputs := rest } : State).writeCmd n w) := by
    cases n with
    | ch0 => exact step_write (l := .reg (.cmd .ch0)) hin rfl (hazard_low s (by decide))
    | ch1 => exact step_write (l := .reg (.cmd .ch1)) hin rfl (hazard_low s (by decide))
  refine ⟨fun hb => ?_, fun hb => ?_⟩
  · have hwrite : ({ s with inputs := rest } : State).writeCmd n w = ({ s with inputs := rest } : State).latch n w :=
      if_neg (by rw [show ({ s with inputs := rest } : State).busy n = s.busy n from rfl, hb]; exact Bool.false_ne_true)
    refine ⟨_, hstep.trans (congrArg _ hwrite), rfl, ?_, ?_, ?_⟩
    · rw [State.busy, State.latch_chan]; rfl
    · rw [State.latch_chan]; rfl
    · rw [State.latch_chan_other _ (otherChan_ne n)]; rfl
  · exact hstep.trans (congrArg _ (if_pos hb))

end Sys2Proof.Machine
end

section
/-!
STATUS, the interrupt line and the state after reset (spec/10_state.md R24, R28, spec/70_reset_and_hazards.md R380).
-/

namespace Sys2Proof.Machine

/-! ### STATUS (R24) -/

theorem flag_getLsbD (b : Bool) (i : Nat) {j : Nat} (hj : j < 32) :
    ((BitVec.ofBool b).setWidth 32 <<< i : Word).getLsbD j = (b && decide (j = i)) := by
  rw [BitVec.getLsbD_shiftLeft, BitVec.getLsbD_setWidth, BitVec.getLsbD_ofBool]
  by_cases h : j = i
  · simp [h, show i < 32 by omega]
  · by_cases hlt : j < i
    · simp [h, hlt]
    · simp [h, show j - i ≠ 0 by omega]

theorem count_getLsbD (n : Nat) {j : Nat} (hj : j < 32) :
    ((BitVec.ofNat 3 n).setWidth 32 <<< 8 : Word).getLsbD j = (decide (8 ≤ j) && (BitVec.ofNat 3 n).getLsbD (j - 8)) := by
  rw [BitVec.getLsbD_shiftLeft, BitVec.getLsbD_setWidth]
  by_cases h : 8 ≤ j
  · simp [h, hj, show j - 8 < 32 by omega, show ¬j < 8 by omega]
  · simp [h, show j < 8 by omega]

/-- STATUS bit by bit: each flag at its place, the event count from bit 8. -/
theorem statusWord_getLsbD (s : State) {j : Nat} (hj : j < 32) :
    s.statusWord.getLsbD j =
      (s.cfgValid && decide (j = 0) || s.run && decide (j = 1) || s.busy .ch0 && decide (j = 2) ||
        s.busy .ch1 && decide (j = 3) || s.featValid && decide (j = 4) ||
        decide (s.dec.state = .eventActive) && decide (j = 5) || s.pkt.isSome && decide (j = 6) ||
        decide (8 ≤ j) && (BitVec.ofNat 3 s.evq.length).getLsbD (j - 8)) := by
  simp only [State.statusWord, BitVec.getLsbD_or, flag_getLsbD _ _ hj, count_getLsbD _ hj]

/-- The flags stand below bit 8. -/
theorem statusWord_flags (s : State) {j : Nat} (hj : j < 8) :
    s.statusWord.getLsbD j =
      (s.cfgValid && decide (j = 0) || s.run && decide (j = 1) || s.busy .ch0 && decide (j = 2) ||
        s.busy .ch1 && decide (j = 3) || s.featValid && decide (j = 4) ||
        decide (s.dec.state = .eventActive) && decide (j = 5) || s.pkt.isSome && decide (j = 6)) := by
  rw [statusWord_getLsbD s (by omega), decide_eq_false (show ¬8 ≤ j by omega), Bool.false_and, Bool.or_false]

/-- The event count stands from bit 8. -/
theorem statusWord_high (s : State) {j : Nat} (hj : 8 + j < 32) :
    s.statusWord.getLsbD (8 + j) = (BitVec.ofNat 3 s.evq.length).getLsbD j := by
  have hno {k : Nat} (hk : k < 7) : decide (8 + j = k) = false := decide_eq_false (by omega)
  rw [statusWord_getLsbD s hj, hno (by decide), hno (by decide), hno (by decide), hno (by decide), hno (by decide),
    hno (by decide), hno (by decide), decide_eq_true (Nat.le_add_right 8 j), Nat.add_sub_cancel_left]
  simp only [Bool.and_false, Bool.or_false, Bool.true_and, Bool.false_or]

theorem statusWord_count (s : State) : s.statusWord.extractLsb' 8 3 = BitVec.ofNat 3 s.evq.length := by
  refine BitVec.eq_of_getLsbD_eq fun i hi => ?_
  rw [BitVec.getLsbD_extractLsb', statusWord_high s (by omega), decide_eq_true hi, Bool.true_and]

theorem statusWord_reserved (s : State) : s.statusWord.extractLsb' 11 21 = 0 := by
  refine BitVec.eq_of_getLsbD_eq fun i hi => ?_
  rw [BitVec.getLsbD_extractLsb', show 11 + i = 8 + (3 + i) by omega, statusWord_high s (by omega),
    BitVec.getLsbD_of_ge _ _ (by omega), Bool.and_false]
  exact BitVec.getLsbD_zero.symm

/-- A word is not zero exactly when it has a bit. -/
theorem ne_zero_iff_getLsbD {n : Nat} (x : BitVec n) : x ≠ 0 ↔ ∃ b, b < n ∧ x.getLsbD b = true := by
  constructor
  · intro hx
    by_contra hno
    refine hx (BitVec.eq_of_getLsbD_eq fun i hi => ?_)
    rw [Bool.eq_false_iff.2 fun hb => hno ⟨i, hi, hb⟩]
    exact BitVec.getLsbD_zero.symm
  · rintro ⟨b, -, hb⟩ rfl
    rw [show (0 : BitVec n).getLsbD b = false from BitVec.getLsbD_zero] at hb
    cases hb

/-- Settles O55: STATUS and the interrupt line, bit by bit. -/
theorem statusAndInterruptLineShowTheirSources : Obligations.StatusAndInterruptLineShowTheirSources := by
  unfold Obligations.StatusAndInterruptLineShowTheirSources
  intro s
  refine ⟨?_, rfl, ?_⟩
  · intro hq
    dsimp only
    refine ⟨?_, ?_, ?_, ?_, ?_, ?_, ?_, ?_, ?_, statusWord_reserved s⟩
    case refine_9 =>
      rw [statusWord_count, BitVec.toNat_ofNat]
      exact Nat.mod_eq_of_lt (by omega)
    all_goals
      rw [statusWord_flags s (by decide)]
      simp
  · rw [State.irqLine, decide_eq_true_iff, ne_zero_iff_getLsbD]
    simp only [BitVec.getLsbD_and, Bool.and_eq_true]

/-! ### After reset (R380) -/

theorem shows_iff (s : State) (off : Nat) (v : Word) : Shows s off v ↔ (locOf off).map s.readLoc = some (.ok v) := by
  rw [Option.map_eq_some_iff]
  rfl

theorem reset_counters : ∀ k, k < 10 → (locOf (0x080 + 4 * k)).map State.reset.readLoc = some (.ok 0) := by decide
theorem reset_detection : ∀ k, k < 53 → (locOf (0x300 + 4 * k)).map State.reset.readLoc = some (.ok 0) := by decide
theorem reset_history : ∀ k, k < 64 → (locOf (0x400 + 4 * k)).map State.reset.readLoc = some (.ok 0) := by decide

theorem shows_reset_range {base n : Nat} (h : ∀ k, k < n → (locOf (base + 4 * k)).map State.reset.readLoc = some (.ok 0))
    {p : Nat × Word} (hp : p ∈ (List.range n).map (fun k => (base + 4 * k, (0 : Word)))) :
    Shows State.reset p.1 p.2 := by
  obtain ⟨k, hk, rfl⟩ := List.mem_map.1 hp
  exact (shows_iff _ _ _).2 (h k (List.mem_range.1 hk))

/-- CFG_* and ACT_* hold the same reset values (R30, R31). -/
theorem shows_reset_config {p : Nat × Word}
    (hp : p ∈ (Cfg.reset.words.mapIdx (fun k v => [(0x100 + 4 * k, v), (0x200 + 4 * k, v)])).flatten) :
    Shows State.reset p.1 p.2 := by
  obtain ⟨rows, hrows, hp⟩ := List.mem_flatten.1 hp
  obtain ⟨i, hi, rfl⟩ := List.mem_mapIdx.1 hrows
  simp only [List.mem_cons, List.not_mem_nil, or_false] at hp
  rcases hp with rfl | rfl
  · exact ⟨_, shadow_located i hi, congrArg Except.ok (Cfg.get_eq_getElem _ hi)⟩
  · exact ⟨_, active_located i hi, congrArg Except.ok (Cfg.get_eq_getElem _ hi)⟩

/-- Settles O56: each offset's location shows its reset value, and the reset input is the reset state but for what is
not the block's. -/
theorem resetStateReadsAsListed : Obligations.ResetStateReadsAsListed := by
  unfold Obligations.ResetStateReadsAsListed
  refine ⟨fun off v h => hostRead_shows ?_ rfl, fun _ => rfl, rfl, fun s rest hin => ?_⟩
  · simp only [List.mem_append] at h
    rcases h with (((h | h) | h) | h) | h
    · refine shows_of_rows ?_ h
      simp only [List.forall_mem_cons, List.not_mem_nil, false_implies, implies_true, and_true]
      and_intros <;> exact ⟨_, rfl, rfl⟩
    · exact shows_reset_range reset_counters h
    · exact shows_reset_range reset_detection h
    · exact shows_reset_range reset_history h
    · exact shows_reset_config h
  · rw [step_cons hin]
    rfl

end Sys2Proof.Machine
end

section
/-!
The two steps of a command (spec/20_memory.md R89, R90): what BEGIN records, and that END goes by the record.
-/

namespace Sys2Proof.Machine

/-! ### Host reads (R85) -/

theorem observe_rest (s : State) (n : Chan) :
    s.observe n = { s with
      chan0 := { s.chan0 with unobserved := (s.observe n).chan0.unobserved }
      chan1 := { s.chan1 with unobserved := (s.observe n).chan1.unobserved } } := by
  unfold State.observe
  split
  · rfl
  · cases n <;> rfl

theorem observeStatus_rest (s : State) (l : Loc) :
    s.observeStatus l = { s with
      chan0 := { s.chan0 with unobserved := (s.observeStatus l).chan0.unobserved }
      chan1 := { s.chan1 with unobserved := (s.observeStatus l).chan1.unobserved } } := by
  unfold State.observeStatus
  split
  · rw [observe_rest (s.observe .ch0), observe_rest s .ch0]
  · rfl

/-- Settles O47: a read puts its word on the bus and at most observes STATUS. -/
theorem readsChangeNothing : Obligations.ReadsChangeNothing := by
  unfold Obligations.ReadsChangeNothing
  intro s t rest width off hin h
  rw [step_cons hin] at h
  obtain ⟨l, v, -, -, -, rfl⟩ := State.hostRead_next h
  rw [observeStatus_rest]

/-! ### BEGIN (R90) -/

/-- The checks look at the block, not at what is scheduled or at whose engine steps. -/
theorem commandCheck_scheduled (i : Instr) (s : State) (rest : List Input) (n : Chan) :
    commandCheck i (({ s with inputs := rest } : State).activate n) = commandCheck i s := by
  cases i <;> rfl

theorem beginIsEnd_eq_false {i : Instr} (hc : i ≠ .cfgCommit) (hr : i ≠ .resetRt) : beginIsEnd i = false := by
  cases i with
  | cfgCommit => exact absurd rfl hc
  | resetRt => exact absurd rfl hr
  | _ => rfl

theorem engineBegin_latched {s : State} {w : Word} {i : Instr} (hp : (s.chan s.active).pending = .latched w)
    (hd : decodeOn s.active w = .ok i) :
    s.engineBegin = if beginIsEnd i then exec i s else .next (s.begin w (commandCheck i s)) := by
  simp only [State.engineBegin, hp, hd]

/-- Settles O8: the BEGIN step is `State.begin`, and the snapshot's cells are the ring buffer's. -/
theorem beginRecordsTheVerdictAndSnapshot : Obligations.BeginRecordsTheVerdictAndSnapshot := by
  unfold Obligations.BeginRecordsTheVerdictAndSnapshot
  intro s n rest w i hin hp hd hc hr
  let u : State := ({ s with inputs := rest } : State).activate n
  have hstep : step s = .next (u.begin w (commandCheck i u)) := by
    rw [step_cons hin]
    show u.engineBegin = _
    rw [engineBegin_latched (s := u) hp hd, beginIsEnd_eq_false hc hr, if_neg Bool.false_ne_true]
  refine ⟨_, u.snapshot, hstep, rfl, ?_, ?_, rfl, rfl, fun j _ => word_ringCells s.mem j⟩
  · rw [show n = u.active from rfl, State.begin_chan, commandCheck_scheduled]
    rfl
  · exact State.begin_chan_other u (otherChan_ne n) _ _

/-! ### The verdict of BEGIN stands (R90, R351) -/

theorem beginFound_begun {i : Instr} {s : State} {w : Word} {verdict : Option ErrCode} {sn : Snapshot}
    (hi : beginIsEnd i = false) (hp : (s.chan s.active).pending = .begun w verdict sn) :
    beginFound i s = (verdict, sn) := by
  rw [beginFound, hi, if_neg Bool.false_ne_true, State.beginResult_begun hp]

/-- Settles O10: END goes by the recorded verdict, and a command without an error completes with CODE 0. -/
theorem commandsThatBeganDoNotFailLater : Obligations.CommandsThatBeganDoNotFailLater := by
  unfold Obligations.CommandsThatBeganDoNotFailLater
  intro i s w sn hc hr
  have hi := beginIsEnd_eq_false hc hr
  refine ⟨fun hp t h => ?_, fun e he hp => ⟨s.complete i.opcode.byte (some e), ?_, failedWith_complete s _ e he⟩⟩
  · rw [exec_eq_finish, beginFound_begun hi hp] at h
    rcases State.finish_next h with ⟨e, he, -⟩ | ⟨-, u, hu, rfl⟩
    · cases he
    · obtain ⟨hown, -, -⟩ := (commandEffect_frame hu).complete i.opcode.byte none
      rw [hown]
      exact ⟨rfl, rfl⟩
  · rw [exec_eq_finish, beginFound_begun hi hp, State.finish_error]

end Sys2Proof.Machine
end

section
/-!
Each command's effect in the shape its proofs use, and that no effect looks at what its channel holds, so that it is the
same before and after a BEGIN step (spec/20_memory.md R90).
-/

namespace Sys2Proof.Machine

/-- The state with what its active channel holds replaced. -/
def State.withPending (s : State) (p : Pending) : State := s.setChan s.active { s.chan s.active with pending := p }

theorem State.begin_eq_withPending (s : State) (w : Word) (verdict : Option ErrCode) :
    s.begin w verdict = s.withPending (.begun w verdict s.snapshot) := rfl

theorem State.setChan_setChan (s : State) (n : Chan) (c c' : Channel) :
    (s.setChan n c).setChan n c' = s.setChan n c' := by
  cases n <;> rfl

theorem State.withPending_setResult (s : State) (p : Pending) (v : Word) :
    (s.withPending p).setResult v = (s.setResult v).withPending p := by
  simp only [State.setResult, State.withPending, State.setChan_active, State.setChan_chan, State.setChan_setChan]

theorem setResult_withPending {s t : State} {p : Pending} (h : t = s.withPending p) (v : Word) :
    t.setResult v = (s.setResult v).withPending p := by
  rw [h, State.withPending_setResult]

/-- A completion overwrites what the channel held. -/
theorem State.withPending_complete (s : State) (p : Pending) (opc : Byte) (e : Option ErrCode) :
    (s.withPending p).complete opc e = s.complete opc e := by
  simp only [State.complete, State.withPending, State.setChan_active, State.setChan_chan, State.setChan_setChan]

theorem withPending_act (s : State) (p : Pending) : (s.withPending p).act = s.act := rfl
theorem withPending_pp (s : State) (p : Pending) : (s.withPending p).pp = s.pp := rfl
theorem withPending_evicted (s : State) (p : Pending) (sn : Snapshot) :
    (s.withPending p).evicted sn = s.evicted sn := rfl

theorem onMemory_withPending (f : Memory → Except Fault Memory) (s : State) (p : Pending) :
    onMemory f (s.withPending p) = (onMemory f s).map (·.withPending p) := by
  unfold onMemory
  show (match f s.mem with | .ok m => _ | .error e => _) = _
  cases f s.mem <;> rfl

/-- The copy of samples to a scratch buffer: the loop of R173, on the memory alone. -/
def copyLoop (dst : Arr) (cnt : Nat) (sn : Snapshot) (c : Cfg) (m : Memory) : Except Fault Memory :=
  forUpTo cnt (fun i m => match sn.sample c i with
    | .ok x => .ok (store dst i (sampleWord x) m)
    | .error f => .error f) m

/-- What the copy leaves once its loop has left the memory `m` (R90, R173). -/
def copied (cnt : Nat) (sn : Snapshot) (s : State) (m : Memory) : State :=
  let t : State := { s with mem := m }
  (if s.evicted sn then t.drawArray (scratchOf s.active) cnt else t).setResult (BitVec.ofNat 32 cnt)

theorem copyOut_eq (k : Nat) (sn : Snapshot) (s : State) :
    copyOut k sn s =
      (copyLoop (scratchOf s.active) (copyCount k sn) sn s.act s.mem).map (copied (copyCount k sn) sn s) := by
  unfold copyOut
  show (match copyLoop (scratchOf s.active) (copyCount k sn) sn s.act s.mem with | .error f => _ | .ok m => _) = _
  cases copyLoop (scratchOf s.active) (copyCount k sn) sn s.act s.mem <;> rfl

theorem copied_withPending (cnt : Nat) (sn : Snapshot) (s : State) (p : Pending) (m : Memory) :
    copied cnt sn (s.withPending p) m = (copied cnt sn s m).withPending p := by
  refine setResult_withPending ?_ _
  show (if s.evicted sn then _ else _) = _
  cases s.evicted sn <;> rfl

theorem copyOut_withPending (k : Nat) (sn : Snapshot) (s : State) (p : Pending) :
    copyOut k sn (s.withPending p) = (copyOut k sn s).map (·.withPending p) := by
  rw [copyOut_eq, copyOut_eq]
  show (copyLoop (scratchOf s.active) (copyCount k sn) sn s.act s.mem).map _ = _
  cases copyLoop (scratchOf s.active) (copyCount k sn) sn s.act s.mem with
  | error f => rfl
  | ok m => exact congrArg Except.ok (copied_withPending _ sn s p m)

theorem effectRbRead_withPending (k : Nat) (sn : Snapshot) (s : State) (p : Pending) :
    effectRbRead k sn (s.withPending p) = (effectRbRead k sn s).map (·.withPending p) := by
  unfold effectRbRead
  rw [copyOut_withPending]
  cases copyOut k sn s <;> rfl

theorem effectLogCompress_withPending (s : State) (p : Pending) :
    effectLogCompress (s.withPending p) = (effectLogCompress s).map (·.withPending p) := by
  unfold effectLogCompress
  show (match logCompress s.act s.mem with | .ok r => _ | .error f => _) = _
  cases logCompress s.act s.mem <;> rfl

theorem emit_withPending (s : State) (p : Pending) : (s.withPending p).emit = s.emit.withPending p := by
  unfold State.emit
  show (if s.queueHasRoom then _ else _) = _
  cases s.queueHasRoom <;> rfl

theorem exitEvent_withPending (s : State) (p : Pending) :
    (s.withPending p).exitEvent = (s.exitEvent.1.withPending p, s.exitEvent.2) := by
  unfold State.exitEvent
  show (if s.act.minDur.toNat ≤ s.eventDur then _ else _) = _
  split
  · refine Prod.ext ?_ rfl
    exact emit_withPending { s with dec := { s.dec with state := .idle } } p
  · rfl

theorem cycleOutcome_withPending (s : State) (p : Pending) :
    (s.withPending p).cycleOutcome = (s.cycleOutcome.1.withPending p, s.cycleOutcome.2) := by
  unfold State.cycleOutcome
  rw [exitEvent_withPending]
  show (match s.dec.state with
    | .idle => if s.above then _ else _
    | .eventActive => if s.above then _ else if s.exits then _ else _) = _
  cases s.dec.state with
  | idle => cases s.above <;> rfl
  | eventActive =>
    cases s.above with
    | true => rfl
    | false => cases s.exits <;> rfl

theorem smoothStep_withPending (s : State) (p : Pending) :
    (s.withPending p).smoothStep = s.smoothStep.withPending p := by
  have hema (t : State) : (t.withPending p).emaUpdate = t.emaUpdate.withPending p := rfl
  have hmedian (t : State) : (t.withPending p).medianUpdate = t.medianUpdate.withPending p := rfl
  unfold State.smoothStep
  rw [hema, hmedian]
  rfl

theorem effectDecStep_withPending (v : Bool) (s : State) (p : Pending) :
    effectDecStep v (s.withPending p) = (effectDecStep v s).withPending p := by
  have hnone : (s.withPending p).noDetection = s.noDetection.withPending p := setResult_withPending (by rfl) 0
  unfold effectDecStep
  rw [hnone]
  cases v with
  | false => rfl
  | true =>
    rw [if_pos rfl, if_pos rfl]
    by_cases hp : probsValid s = true
    · rw [if_pos hp, if_pos (show probsValid (s.withPending p) = true from hp), smoothStep_withPending,
        cycleOutcome_withPending, State.withPending_setResult]
    · rw [if_neg hp, if_neg (show ¬probsValid (s.withPending p) = true from hp)]
      rfl

theorem drawArray_withPending (s : State) (p : Pending) (a : Arr) (k : Nat) :
    (s.withPending p).drawArray a k = (s.drawArray a k).withPending p := rfl

theorem emitPacket_withPending (sn : Snapshot) (s : State) (p : Pending) :
    emitPacket sn (s.withPending p) = (emitPacket sn s).withPending p := by
  show State.setResult _ s.act.codecLen = _
  exact setResult_withPending (by rfl) _

/-- What a codec cycle with a free packet buffer and enough samples leaves, for its payload bytes (R90, R325). -/
def packetEmitted (sn : Snapshot) (s : State) (bytes : List Byte) : State :=
  let t : State := { s with mem := storePayload s.act bytes s.mem }
  emitPacket sn (if s.evicted sn then t.drawArray .pktPay s.act.frameWords else t)

theorem effectCodecFrame_eq (sn : Snapshot) (s : State) :
    effectCodecFrame sn s =
      if s.pkt.isSome then .ok (codecSkipped s)
      else if sn.avail < s.act.frame then .ok (codecUnderrun s)
      else (framePayload s.act sn).map (packetEmitted sn s) := by
  unfold effectCodecFrame
  cases framePayload s.act sn <;> rfl

theorem packetEmitted_withPending (sn : Snapshot) (s : State) (p : Pending) (bytes : List Byte) :
    packetEmitted sn (s.withPending p) bytes = (packetEmitted sn s bytes).withPending p := by
  unfold packetEmitted
  rw [← emitPacket_withPending]
  show emitPacket sn (if s.evicted sn then _ else _) = _
  cases s.evicted sn <;> rfl

theorem effectCodecFrame_withPending (sn : Snapshot) (s : State) (p : Pending) :
    effectCodecFrame sn (s.withPending p) = (effectCodecFrame sn s).map (·.withPending p) := by
  have hskip : codecSkipped (s.withPending p) = (codecSkipped s).withPending p := by
    show State.setResult _ 0 = _
    exact setResult_withPending (by rfl) 0
  have hunder : codecUnderrun (s.withPending p) = (codecUnderrun s).withPending p := by
    show State.setResult _ 0 = _
    exact setResult_withPending (by rfl) 0
  rw [effectCodecFrame_eq, effectCodecFrame_eq, hskip, hunder]
  show (if s.pkt.isSome then _ else if sn.avail < s.act.frame then _ else (framePayload s.act sn).map _) = _
  split
  · rfl
  · split
    · rfl
    · cases framePayload s.act sn with
      | error f => rfl
      | ok bytes => exact congrArg Except.ok (packetEmitted_withPending sn s p bytes)

theorem drawFeatures_withPending (nwin : Nat) (full : Bool) (s : State) (p : Pending) :
    (s.withPending p).drawFeatures nwin full = (s.drawFeatures nwin full).withPending p := by
  unfold State.drawFeatures
  simp only [drawArray_withPending]
  rw [withPending_act]
  generalize (((((s.drawArray .workRe s.act.fftSize).drawArray .workIm s.act.fftSize).drawArray .pow
    s.act.bins).drawArray .melE s.act.bands).drawArray .melLog s.act.bands).drawArray .feat
    (s.act.frames * s.act.bands) = a
  cases full <;> rfl

/-- The state with the data words of an extraction replaced (R258, R260, R261). -/
def State.withFeatures (s : State) (m : Memory) (mn rms peak : Word) (pp : PrepState) : State :=
  { s with mem := m, featMin := mn, levelRms := rms, levelPeak := peak, pp := pp }

/-- The registers and arrays an extraction has written before it looks at the eviction (R258, R260, R261). -/
def extractData (full : Bool) (s : State) (xs : List Int) (r : FeatResult) : State :=
  s.withFeatures r.mem r.mn (levelRmsOf xs) (levelPeakOf xs)
    (if full then ppAfter s.act s.pp (xs.take s.act.featStride.toNat) else s.pp)

/-- The same once the data words are settled: as they are, or drawn freely (R90). -/
def extractSettled (full : Bool) (nwin : Nat) (sn : Snapshot) (s : State) (xs : List Int) (r : FeatResult) : State :=
  if s.evicted sn then (extractData full s xs r).drawFeatures nwin full
  else (extractData full s xs r).setIrqIf r.ovf .featOvf

/-- The timestamp, FEAT_VALID, the counter, the cursor and the result of an extraction (R260). -/
def extractClose (full : Bool) (sn : Snapshot) (c : Cfg) (span : Nat) (t : State) : State :=
  let t := ({ t with cycleTs := BitVec.ofNat 64 (sn.rpos.toNat + span), featValid := true } : State).setCounters
    Counters.bumpFeatOk
  (if full then t.advance .ch0 sn.rpos c.featStride.toNat else t).setResult (if full then 1 else 2)

theorem featDone_eq (full : Bool) (nwin : Nat) (sn : Snapshot) (s : State) :
    featDone full nwin sn s = (do
      let samples ← collect (s.act.spanOf nwin) (sn.sample s.act)
      let r ← featRows s.act (ppOutputs s.act s.pp (samples.map BitVec.toInt)) nwin s.mem
      .ok (extractClose full sn s.act (s.act.spanOf nwin)
        (extractSettled full nwin sn s (samples.map BitVec.toInt) r))) := rfl

theorem withFeatures_withPending (s : State) (p : Pending) (m : Memory) (mn rms peak : Word) (pp : PrepState) :
    (s.withPending p).withFeatures m mn rms peak pp = (s.withFeatures m mn rms peak pp).withPending p := rfl

theorem setIrqIf_withPending (s : State) (b : Bool) (q : Irq) (p : Pending) :
    (s.withPending p).setIrqIf b q = (s.setIrqIf b q).withPending p := rfl

theorem extractSettled_withPending (full : Bool) (nwin : Nat) (sn : Snapshot) (s : State) (p : Pending) (xs : List Int)
    (r : FeatResult) :
    extractSettled full nwin sn (s.withPending p) xs r = (extractSettled full nwin sn s xs r).withPending p := by
  unfold extractSettled extractData
  rw [withPending_act, withPending_pp, withFeatures_withPending, withPending_evicted, drawFeatures_withPending,
    setIrqIf_withPending, apply_ite (State.withPending · p)]

theorem extractClose_withPending (full : Bool) (sn : Snapshot) (c : Cfg) (span : Nat) (s : State) (p : Pending) :
    extractClose full sn c span (s.withPending p) = (extractClose full sn c span s).withPending p := by
  refine setResult_withPending ?_ _
  cases full <;> rfl

theorem bind_map_comm {α : Type} (x : Except Fault α) {f g : α → Except Fault State} {h : State → State}
    (hfg : ∀ a, f a = (g a).map h) : x >>= f = (x >>= g).map h := by
  cases x with
  | error e => rfl
  | ok a => exact hfg a

theorem featDone_withPending (full : Bool) (nwin : Nat) (sn : Snapshot) (s : State) (p : Pending) :
    featDone full nwin sn (s.withPending p) = (featDone full nwin sn s).map (·.withPending p) := by
  rw [featDone_eq, featDone_eq]
  simp only [extractSettled_withPending, extractClose_withPending]
  exact bind_map_comm (collect (s.act.spanOf nwin) (sn.sample s.act)) fun samples =>
    bind_map_comm (featRows s.act (ppOutputs s.act s.pp (samples.map BitVec.toInt)) nwin s.mem) fun _ => rfl

theorem effectFeatExtract_withPending (sn : Snapshot) (s : State) (p : Pending) :
    effectFeatExtract sn (s.withPending p) = (effectFeatExtract sn s).map (·.withPending p) := by
  have hfail : featFailed (s.withPending p) = (featFailed s).withPending p := by
    show State.setResult _ 0 = _
    exact setResult_withPending (by rfl) 0
  unfold effectFeatExtract
  rw [featDone_withPending, featDone_withPending, hfail]
  show (match featMode s.act sn.avail with | .full => _ | .pad => _ | .fail => _) = _
  cases featMode s.act sn.avail <;> rfl

theorem effectEvtPop_withPending (s : State) (p : Pending) :
    effectEvtPop (s.withPending p) = (effectEvtPop s).withPending p := by
  have hseq : (s.withPending p).headEvent = s.headEvent := rfl
  unfold effectEvtPop
  rw [hseq, State.withPending_setResult]
  rfl

theorem effectPktPop_withPending (s : State) (p : Pending) :
    effectPktPop (s.withPending p) = (effectPktPop s).withPending p := by
  have hseq : (s.withPending p).headPacket = s.headPacket := rfl
  unfold effectPktPop
  rw [hseq, State.withPending_setResult]
  rfl

/-- No command's effect looks at what its channel holds, or changes it. -/
theorem commandEffect_withPending (i : Instr) (sn : Snapshot) (s : State) (p : Pending) :
    commandEffect i sn (s.withPending p) = (commandEffect i sn s).map (·.withPending p) := by
  cases i with
  | nop | cfgCommit | start | stop | resetRt | decReset => rfl
  | rbRead k => exact effectRbRead_withPending k sn s p
  | rbPeek k => exact copyOut_withPending k sn s p
  | preStep x => exact congrArg Except.ok (setResult_withPending (by rfl) _)
  | winApply | fftBitrev | fftStage | fftFull | fftPower | melApply => exact onMemory_withPending _ s p
  | logCompress => exact effectLogCompress_withPending s p
  | featExtract => exact effectFeatExtract_withPending sn s p
  | decStep v => exact congrArg Except.ok (effectDecStep_withPending v s p)
  | evtPop => exact congrArg Except.ok (effectEvtPop_withPending s p)
  | pktPop => exact congrArg Except.ok (effectPktPop_withPending s p)
  | alawEnc x => exact congrArg Except.ok (s.withPending_setResult p _)
  | codecFrame => exact effectCodecFrame_withPending sn s p

end Sys2Proof.Machine
end

section
/-!
BEGIN and END one after the other (spec/20_memory.md R90): END by the record of a BEGIN just taken is the fused step.
-/

namespace Sys2Proof.Machine

theorem State.finish_withPending (s : State) (i : Instr) (verdict : Option ErrCode) (sn : Snapshot) (p : Pending) :
    (s.withPending p).finish i verdict (commandEffect i sn) = s.finish i verdict (commandEffect i sn) := by
  cases verdict with
  | some e => rw [State.finish_error, State.finish_error, State.withPending_complete]
  | none =>
    cases hu : commandEffect i sn s with
    | ok u =>
      have hp : commandEffect i sn (s.withPending p) = .ok (u.withPending p) := by
        rw [commandEffect_withPending, hu]; rfl
      rw [State.finish_ok hu, State.finish_ok hp, State.withPending_complete]
    | error f =>
      have hp : commandEffect i sn (s.withPending p) = .error f := by
        rw [commandEffect_withPending, hu]; rfl
      rw [State.finish_fault hu, State.finish_fault hp]

/-- END by the record of a BEGIN just taken is the fused step. -/
theorem exec_begin {s : State} {w : Word} {i : Instr} (hi : beginIsEnd i = false)
    (hp : (s.chan s.active).pending = .latched w) :
    exec i (s.begin w (commandCheck i s)) = exec i s := by
  have hrecord : beginFound i (s.begin w (commandCheck i s)) = (commandCheck i s, s.snapshot) :=
    beginFound_begun hi (congrArg Channel.pending (s.begin_chan w _))
  have hnow : beginFound i s = (commandCheck i s, s.snapshot) := by
    rw [beginFound, hi, if_neg Bool.false_ne_true, State.beginResult_fresh (by rw [hp]; exact nofun)]
  rw [exec_eq_finish, exec_eq_finish, hrecord, hnow, State.begin_eq_withPending, State.finish_withPending]

/-- The commands of one step answer, whatever is scheduled after them, and leave their channel idle. -/
theorem exec_atomic {i : Instr} (hi : beginIsEnd i = true) (s : State) :
    ∃ t : State,
      (∀ rest, exec i { s with inputs := rest } = .next (({ t with inputs := rest } : State).activate s.active)) ∧
      (t.chan s.active).pending = .idle := by
  have hfound (rest : List Input) : (beginFound i { s with inputs := rest }).1 = commandCheck i s := by
    rw [beginFound, hi, if_pos rfl]
    exact commandCheck_scheduled i s rest s.active
  cases hc : commandCheck i s with
  | some e =>
    refine ⟨s.complete i.opcode.byte (some e), fun rest => ?_, s.complete_idle _ _⟩
    rw [exec_eq_finish, hfound, hc]
    rfl
  | none =>
    have hend (u : State) (hu : ∀ rest sn, commandEffect i sn { s with inputs := rest }
        = .ok (({ u with inputs := rest } : State).activate s.active)) (rest : List Input) :
        exec i { s with inputs := rest }
          = .next
            (({ (u.activate s.active).complete i.opcode.byte none with inputs := rest } : State).activate s.active) := by
      rw [exec_eq_finish, hfound, hc]
      exact State.finish_ok (hu rest _)
    cases i with
    | cfgCommit => exact ⟨_, hend (effectCfgCommit s) fun _ _ => rfl, State.complete_idle _ _ _⟩
    | resetRt => exact ⟨_, hend (effectResetRt s) fun _ _ => rfl, State.complete_idle _ _ _⟩
    | _ => cases hi

theorem engineBegin_not_latched {s : State} (h : ∀ w, (s.chan s.active).pending ≠ .latched w) :
    s.engineBegin = .next s := by
  unfold State.engineBegin
  split
  · next w hp => exact absurd hp (h w)
  · rfl
  · rfl

theorem engineRun_decoded {s : State} {w : Word} {i : Instr} (hp : (s.chan s.active).pending.word? = some w)
    (hd : decodeOn s.active w = .ok i) : s.engineRun = exec i s := by
  simp only [State.engineRun, hp, hd]

theorem engineRun_undecoded {s : State} {w : Word} {e : DecodeRefusal}
    (hp : (s.chan s.active).pending.word? = some w) (hd : decodeOn s.active w = .error e) :
    s.engineRun = .next (s.complete (opcodeByte w) (some (ErrCode.ofDecode e))) := by
  simp only [State.engineRun, hp, hd]

theorem engineRun_idle {s : State} (hp : (s.chan s.active).pending = .idle) : s.engineRun = .next s := by
  simp only [State.engineRun, hp, Pending.word?]

theorem engineBegin_undecoded {s : State} {w : Word} {e : DecodeRefusal} (hp : (s.chan s.active).pending = .latched w)
    (hd : decodeOn s.active w = .error e) : s.engineBegin = .next (s.begin w (some (ErrCode.ofDecode e))) := by
  simp only [State.engineBegin, hp, hd]

theorem begin_word (s : State) (w : Word) (verdict : Option ErrCode) :
    ((s.begin w verdict).chan s.active).pending.word? = some w := by
  rw [State.begin_chan]
  rfl

/-- An END step whose BEGIN has just been taken is the fused step (R90). -/
theorem engineRun_begin {s : State} {w : Word} {i : Instr} (hp : (s.chan s.active).pending = .latched w)
    (hd : decodeOn s.active w = .ok i) (hi : beginIsEnd i = false) :
    (s.begin w (commandCheck i s)).engineRun = s.engineRun :=
  calc (s.begin w (commandCheck i s)).engineRun
    _ = exec i (s.begin w (commandCheck i s)) := engineRun_decoded (begin_word s w _) hd
    _ = exec i s := exec_begin hi hp
    _ = s.engineRun := (engineRun_decoded (congrArg Pending.word? hp) hd).symm

/-- The same of a word that does not decode (R110). -/
theorem engineRun_begin_undecoded {s : State} {w : Word} {e : DecodeRefusal}
    (hp : (s.chan s.active).pending = .latched w) (hd : decodeOn s.active w = .error e) (verdict : Option ErrCode) :
    (s.begin w verdict).engineRun = s.engineRun :=
  calc (s.begin w verdict).engineRun
    _ = .next ((s.begin w verdict).complete (opcodeByte w) (some (ErrCode.ofDecode e))) :=
      engineRun_undecoded (begin_word s w verdict) hd
    _ = .next (s.complete (opcodeByte w) (some (ErrCode.ofDecode e))) :=
      congrArg Host.Outcome.next (s.withPending_complete _ _ _)
    _ = s.engineRun := (engineRun_undecoded (congrArg Pending.word? hp) hd).symm

/-- An outcome answers one state. -/
theorem next_eq {o : Host.Outcome State Fault Refusal} {t u : State} (ht : o = .next t) (hu : o = .next u) : u = t :=
  Host.Outcome.next.inj (hu.symm.trans ht)

/-- Settles O9: an engine without a BEGIN step to take stays as it is, a command of one step leaves its channel idle, and
any other runs by the verdict and the snapshot it just recorded. -/
theorem beginThenRunEqualsRun : Obligations.BeginThenRunEqualsRun := by
  unfold Obligations.BeginThenRunEqualsRun
  intro s u n rest hin h
  -- what stands before BEGIN with END still scheduled, and before the fused step
  let b : State := ({ s with inputs := .run n :: rest } : State).activate n
  let v : State := ({ s with inputs := rest } : State).activate n
  have hbegin : b.engineBegin = .next u := (step_cons hin).symm.trans h
  show step u = v.engineRun
  by_cases hl : ∃ w, (s.chan n).pending = .latched w
  · obtain ⟨w, hp⟩ := hl
    cases hd : decodeOn n w with
    | error e =>
      rw [next_eq (engineBegin_undecoded (s := b) hp hd) hbegin]
      exact engineRun_begin_undecoded (s := v) hp hd _
    | ok i =>
      rw [engineBegin_latched (s := b) hp hd] at hbegin
      cases hi : beginIsEnd i with
      | true =>
        obtain ⟨t, ht, hidle⟩ := exec_atomic hi v
        rw [hi, if_pos rfl] at hbegin
        rw [next_eq (ht (.run n :: rest)) hbegin, engineRun_decoded (s := v) (congrArg Pending.word? hp) hd]
        exact (engineRun_idle (s := ({ t with inputs := rest } : State).activate n) hidle).trans (ht rest).symm
      | false =>
        rw [hi, if_neg Bool.false_ne_true] at hbegin
        have hcheck : commandCheck i b = commandCheck i v :=
          (commandCheck_scheduled i s _ n).trans (commandCheck_scheduled i s _ n).symm
        rw [Host.Outcome.next.inj hbegin.symm, hcheck]
        exact engineRun_begin (s := v) hp hd hi
  · rw [next_eq (engineBegin_not_latched (s := b) fun w hw => hl ⟨w, hw⟩) hbegin]
    rfl

end Sys2Proof.Machine
end

section
/-!
Samples (spec/41_ringbuffer.md R170-R174): what a reader can read after a sample is accepted, and the copy of samples to
a scratch buffer.
-/

namespace Sys2Proof.Machine

/-! ### Words and blocks of memory -/

theorem word_store_other {a b : Arr} {i j : Nat} (v : Word) (m : Memory) (hi : i < a.len) (hj : j < b.len)
    (h : a ≠ b ∨ i ≠ j) : (store b j v m).word a i = m.word a i :=
  Memory.readWord_writeWord_other m v (Arr.off_disjoint hi hj h)

theorem word_storeLoop {a : Arr} {n i : Nat} (f : Nat → Word) (m : Memory) (hn : n ≤ a.len) (hi : i < n) :
    (loopUpTo n (fun j t => store a j (f j) t) m).word a i = some (f i) :=
  load_ok_iff.1 (load_storeLoop_same f m hn hi)

theorem sameOutside_refl (bs : List (Nat × Nat)) (m : Memory) : SameOutside bs m m := fun _ _ => rfl

theorem SameOutside.trans {bs : List (Nat × Nat)} {m m' m'' : Memory} (h : SameOutside bs m m')
    (k : SameOutside bs m' m'') : SameOutside bs m m'' := fun off ho => (k off ho).trans (h off ho)

theorem sameOutside_storeLoop (a : Arr) (n : Nat) (f : Nat → Word) (m : Memory) :
    SameOutside [(a.base, n)] m (loopUpTo n (fun j t => store a j (f j) t) m) :=
  fun _ h => readByte_storeLoop_other f m (by simpa only [inBlocks, List.any_cons, List.any_nil, Bool.or_false] using h)

/-- A loop whose rounds cannot fault. -/
theorem forUpTo_eq_loopUpTo {σ : Type} {n : Nat} {body : Nat → σ → Except Fault σ} {g : Nat → σ → σ} (x : σ)
    (h : ∀ k y, k < n → body k y = .ok (g k y)) : forUpTo n body x = .ok (loopUpTo n g x) := by
  induction n with
  | zero => rfl
  | succ n ih => rw [forUpTo_succ, ih fun k y hk => h k y (by omega), loopUpTo_succ]; exact h n _ (by omega)

/-! ### The order of the samples (R171, R172) -/

/-- Two positions less than the capacity apart have different slots. -/
theorem slot_ne {p q cap : Nat} (hlt : p < q) (hcap : q < p + cap) : p % cap ≠ q % cap := by
  intro h
  have hz := Nat.sub_mod_eq_zero_of_mod_eq h.symm
  rw [Nat.mod_eq_of_lt (by omega)] at hz
  omega

/-- Settles O20: a full reader's cursor moves on by one and another stays, and the new sample's slot is no slot of the
samples that stay available. -/
theorem acceptedSamplesStayInOrder : Obligations.AcceptedSamplesStayInOrder := by
  unfold Obligations.AcceptedSamplesStayInOrder
  intro s x r hrun hlo hhi hreaders hwrap t
  have hs := hreaders r
  have ht : t.ReaderSound r := accept_reader hs hrun hlo hwrap x
  have hsclk : t.sclk.toNat = s.sclk.toNat + 1 := by
    rw [State.accept_sclk hrun, BitVec.toNat_add]
    exact Nat.mod_eq_of_lt hwrap
  have hact : t.act = s.act := (accept_registers s x).act
  have hslot (p : Nat) : p % s.act.rbCap.toNat < Arr.rbram.len := by
    rw [Arr.len_aedp1]
    exact Nat.lt_of_lt_of_le (Nat.mod_lt _ hlo) hhi
  refine ⟨ht, ?_, fun p hp hlt => ?_, ?_⟩
  · have hbehind := hs.behind
    rw [ht.avail_eq, hs.avail_eq, hsclk, accept_rpos hrun, hs.avail_eq, Cfg.capacity]
    split
    · next hfull =>
      have hnext : (s.rpos r + 1).toNat = (s.rpos r).toNat + 1 := by
        rw [BitVec.toNat_add]
        exact Nat.mod_eq_of_lt (by have : (1 : Pos).toNat = 1 := rfl; omega)
      exact .inr ⟨hfull, by rw [hnext]; omega, rfl⟩
    · exact .inl ⟨by omega, rfl⟩
  · have hroom := ht.within
    rw [hsclk, hact] at hroom
    rw [State.accept_mem hrun]
    exact word_store_other _ _ (hslot p) (hslot _) (.inr (slot_ne hlt (by omega)))
  · rw [State.accept_mem hrun]
    exact word_store _ _ _ _

/-! ### The copy of samples (R173, R174) -/

/-- A slot that BEGIN found written holds a sample. -/
theorem Snapshot.covers.sample {sn : Snapshot} {c : Cfg} {n i : Nat} (h : sn.covers c n) (hi : i < n) :
    sn.sample c i = .ok (sn.value c i) := by
  obtain ⟨w, hw⟩ := Option.isSome_iff_exists.1 (h i hi)
  have hl : load .rbram (slotOf c (sn.rpos.toNat + i)) sn.ring = .ok w := load_ok_iff.2 hw
  rw [Snapshot.sample, hl, Snapshot.value, Memory.val, hw]
  rfl

theorem copyLoop_ok {dst : Arr} {cnt : Nat} {sn : Snapshot} {c : Cfg} (m : Memory) (h : sn.covers c cnt) :
    copyLoop dst cnt sn c m = .ok (loopUpTo cnt (fun i t => store dst i (sampleWord (sn.value c i)) t) m) := by
  refine forUpTo_eq_loopUpTo m fun i t hi => ?_
  rw [h.sample hi]

theorem scratch_len (n : Chan) : (scratchOf n).len = 1024 := by cases n <;> rfl

theorem evicted_eq_false {s : State} {sn : Snapshot} (h : s.sclk.toNat ≤ sn.rpos.toNat + s.act.rbCap.toNat) :
    s.evicted sn = false := decide_eq_false (by omega)

/-- What a copy of `cnt` samples leaves in memory and of the free draws: the words it wrote, which are the samples unless
one was evicted since BEGIN (R90). -/
def CopyOf (s : State) (sn : Snapshot) (cnt : Nat) (m : Memory) (draws : Nat) : Prop :=
  SameOutside [((scratchOf s.active).base, cnt)] s.mem m ∧
  (∀ i, i < cnt → (m.word (scratchOf s.active) i).isSome) ∧
  (s.sclk.toNat ≤ sn.rpos.toNat + s.act.rbCap.toNat → draws = s.draws ∧
    ∀ i, i < cnt → m.word (scratchOf s.active) i = some ((sn.value s.act i).signExtend 32))

/-- The copy writes memory and RESULTn, and draws free words where a sample was evicted. -/
theorem copyOut_copies {k cnt : Nat} {s : State} {sn : Snapshot} (hk : k ≤ 1024) (hcnt : cnt = copyCount k sn)
    (h : sn.covers s.act cnt) :
    ∃ m draws, copyOut k sn s = .ok (({ s with mem := m, draws := draws } : State).setResult (BitVec.ofNat 32 cnt)) ∧
      CopyOf s sn cnt m draws := by
  have hlen : cnt ≤ (scratchOf s.active).len := by
    rw [scratch_len, hcnt]
    exact Nat.le_trans (Nat.min_le_left _ _) hk
  let words (i : Nat) : Word := sampleWord (sn.value s.act i)
  let m := loopUpTo cnt (fun i t => store (scratchOf s.active) i (words i) t) s.mem
  have hcopy : copyOut k sn s = .ok (copied cnt sn s m) := by
    rw [copyOut_eq, ← hcnt, copyLoop_ok s.mem h]
    rfl
  have hout : SameOutside [((scratchOf s.active).base, cnt)] s.mem m := sameOutside_storeLoop _ _ _ _
  cases hev : s.evicted sn with
  | true =>
    let drawn := loopUpTo cnt (fun i t => store (scratchOf s.active) i (s.freeAt i) t) m
    refine ⟨drawn, s.draws + cnt, ?_, hout.trans (sameOutside_storeLoop _ _ _ _), fun i hi => ?_, fun hroom => ?_⟩
    · rw [hcopy, copied, hev, if_pos rfl]
      rfl
    · rw [word_storeLoop _ _ hlen hi]
      rfl
    · rw [evicted_eq_false hroom] at hev
      cases hev
  | false =>
    refine ⟨m, s.draws, ?_, hout, fun i hi => ?_, fun _ => ⟨rfl, fun i hi => word_storeLoop _ _ hlen hi⟩⟩
    · rw [hcopy, copied, hev, if_neg Bool.false_ne_true]
    · rw [word_storeLoop _ _ hlen hi]
      rfl

/-- The completion of a command that writes RESULTn after it has left the channels alone. -/
theorem completed_setResult {s v : State} {events : BitVec 15} (opc : Byte) (r : Word) (ha : v.active = s.active)
    (h0 : v.chan0 = s.chan0) (h1 : v.chan1 = s.chan1) (hi : v.irqStatus = s.irqStatus ||| events) :
    Completed s ((v.setResult r).complete opc none) opc r events := by
  have hchan (n : Chan) : v.chan n = s.chan n := by cases n <;> assumption
  refine completed_of ha ?_ ?_ hi
  · rw [← ha, State.setResult_chan, hchan]
  · rw [← ha, State.setResult_chan_otherChan, hchan]

theorem checkRbRead_none {s : State} {k : Nat} (hk : k ≤ 1024) (h : s.cfgValid = true) : checkRbRead k s = none :=
  (thenCheck_eq_none_iff _ _).2 ⟨s.needcfg_eq_none_iff.2 h, if_pos hk⟩

/-- Settles O21: both commands copy; RB_READ also advances the cursor of its own channel's reader. -/
theorem rbReadAndRbPeekCopySamples : Obligations.RbReadAndRbPeekCopySamples := by
  unfold Obligations.RbReadAndRbPeekCopySamples
  intro s sn k hk hend cnt hcov copied
  obtain ⟨m, draws, hcopy, hof⟩ := copyOut_copies hk rfl hcov
  let v : State := { s with mem := m, draws := draws }
  let w : State := v.advance s.active sn.rpos cnt
  have hread : effectRbRead k sn s = .ok (w.setResult (BitVec.ofNat 32 cnt)) := by
    rw [effectRbRead, hcopy]
    rfl
  have hpeekEnd : exec (.rbPeek k) s = .next ((v.setResult (BitVec.ofNat 32 cnt)).complete 0x11 none) := by
    rw [exec_rbPeek]
    exact runCommand_atEnd hend (checkRbRead_none hk) hcopy
  have hreadEnd : exec (.rbRead k) s = .next ((w.setResult (BitVec.ofNat 32 cnt)).complete 0x10 none) := by
    rw [exec_rbRead]
    exact runCommand_atEnd hend (checkRbRead_none hk) hread
  refine ⟨⟨_, hpeekEnd, ?_, hof, rfl⟩, ⟨_, hreadEnd, ?_, hof, rfl, ?_, ?_⟩⟩
  · exact completed_setResult (v := v) 0x11 (BitVec.ofNat 32 cnt) rfl rfl rfl BitVec.or_zero.symm
  · exact completed_setResult (v := w) 0x10 (BitVec.ofNat 32 cnt) rfl rfl rfl BitVec.or_zero.symm
  · exact State.advance_rpos v s.active sn.rpos cnt
  · exact State.advance_rpos_other v (otherChan_ne _) sn.rpos cnt

end Sys2Proof.Machine
end

section
/-!
The packetiser (spec/46_codec.md R322-R325): the bytes of a payload in PKT_PAY, and the packet a codec cycle emits.
-/

namespace Sys2Proof.Machine

/-! ### Bytes of stored words -/

theorem byteLane_wordOfBytes (b0 b1 b2 b3 : Byte) :
    byteLane (wordOfBytes b0 b1 b2 b3) 0 = b0 ∧ byteLane (wordOfBytes b0 b1 b2 b3) 1 = b1 ∧
      byteLane (wordOfBytes b0 b1 b2 b3) 2 = b2 ∧ byteLane (wordOfBytes b0 b1 b2 b3) 3 = b3 := by
  refine ⟨?_, ?_, ?_, ?_⟩ <;> refine BitVec.eq_of_getLsbD_eq fun i hi => ?_ <;>
    simp only [byteLane, wordOfBytes, BitVec.getLsbD_extractLsb', BitVec.getLsbD_append]
  · simp [hi]
  · simp [hi]
  · simp [hi, show ¬16 + i - 8 < 8 by omega, show ¬16 + i < 8 by omega, show 16 + i - 8 - 8 = i by omega]
  · simp [hi, show ¬24 + i - 8 < 8 by omega, show ¬24 + i < 8 by omega, show ¬24 + i - 8 - 8 < 8 by omega,
      show 24 + i - 8 - 8 - 8 = i by omega]

/-- Byte lane `k` of a stored word stands at its own offset (R81). -/
theorem store_readByte_lane (a : Arr) (j : Nat) (v : Word) (m : Memory) {k : Nat} (hk : k < 4) :
    (store a j v m).readByte (a.off j + k) = some (byteLane v k) := by
  interval_cases k <;> simp [store, Memory.writeWord, Memory.readByte_writeByte]

/-- The bytes of `a[0 .. n-1]` stored one word after another. -/
theorem readByte_storeLoop {a : Arr} {n i : Nat} (f : Nat → Word) (m : Memory) (hi : i < 4 * n) :
    (loopUpTo n (fun j t => store a j (f j) t) m).readByte (a.base + i) = some (byteLane (f (i / 4)) (i % 4)) := by
  have hoff : a.base + i = a.off (i / 4) + i % 4 := by simp only [Arr.off]; omega
  refine loopUpTo_keeps (fun k (t : Memory) => i < 4 * k → t.readByte (a.base + i) = some (byteLane (f (i / 4)) (i % 4)))
    (by omega) (fun k t _ ih hik => ?_) hi
  by_cases h : i < 4 * k
  · rw [store_readByte_other _ _ (by simp only [Arr.off]; omega), ih h]
  · obtain rfl : k = i / 4 := by omega
    rw [hoff, store_readByte_lane _ _ _ _ (Nat.mod_lt _ (by decide))]

/-! ### The payload (R322, R325) -/

theorem collect_eq_map {α : Type} {n : Nat} {f : Nat → Except Fault α} {g : Nat → α}
    (h : ∀ i, i < n → f i = .ok (g i)) : collect n f = .ok ((List.range n).map g) := by
  induction n with
  | zero => rfl
  | succ n ih => rw [collect, ih fun i hi => h i (by omega), h n (by omega), List.range_succ, List.map_append]; rfl

theorem payloadWord_lane (bytes : List Byte) (j : Nat) {k : Nat} (hk : k < 4) :
    byteLane (payloadWord bytes j) k = bytes.getD (4 * j + k) 0 := by
  obtain ⟨h0, h1, h2, h3⟩ := byteLane_wordOfBytes (bytes.getD (4 * j) 0) (bytes.getD (4 * j + 1) 0)
    (bytes.getD (4 * j + 2) 0) (bytes.getD (4 * j + 3) 0)
  interval_cases k
  · exact h0
  · exact h1
  · exact h2
  · exact h3

/-- PKT_PAY holds the payload's bytes in order, and zeros after them (R322). -/
theorem storePayload_byte (c : Cfg) (bytes : List Byte) (m : Memory) {i : Nat} (hi : i < 4 * c.frameWords) :
    (storePayload c bytes m).readByte (0x11000 + i) = some (bytes.getD i 0) := by
  refine (readByte_storeLoop (a := .pktPay) (payloadWord bytes) m hi).trans (congrArg some ?_)
  rw [payloadWord_lane _ _ (Nat.mod_lt _ (by decide)), Nat.div_add_mod]

/-- The payload of a frame whose samples BEGIN found written. -/
def payloadOf (c : Cfg) (sn : Snapshot) : List Byte := (List.range c.frame).map fun i => alaw (sn.value c i).toInt

theorem framePayload_ok {c : Cfg} {sn : Snapshot} (h : sn.covers c c.frame) :
    framePayload c sn = .ok (payloadOf c sn) := by
  rw [framePayload, collect_eq_map fun i hi => h.sample hi]
  exact congrArg Except.ok List.map_map

theorem payloadOf_getD (c : Cfg) (sn : Snapshot) (i : Nat) :
    (payloadOf c sn).getD i 0 = if i < c.frame then alaw (sn.value c i).toInt else 0 := by
  unfold payloadOf
  by_cases h : i < c.frame <;> simp [List.getD_eq_getElem?_getD, h]

/-! ### A codec cycle that emits a packet -/

/-- What emitting a packet leaves, but for RESULTn: the packet's payload in memory, where the free draws stand, its header,
the next numbers, the counter, the cursor and PKT_READY (R323, R325). -/
def State.withPacket (s : State) (sn : Snapshot) (m : Memory) (draws : Nat) : State :=
  { s with
    mem := m, draws := draws, irqStatus := s.irqStatus ||| 0x0020#15
    pkt := some { seq := s.pktSeqNext, ts := s.pktTsNext, len := s.act.codecLen }
    pktSeqNext := s.pktSeqNext + 1, pktTsNext := s.pktTsNext + s.act.codecLen
    counters := { s.counters with pkt := s.counters.pkt + 1 }
    rpos1 := BitVec.ofNat 64 (max (sn.rpos.toNat + s.act.codecLen.toNat) s.rpos1.toNat) }

theorem emitPacket_eq (s : State) (sn : Snapshot) (m : Memory) (draws : Nat) :
    emitPacket sn { s with mem := m, draws := draws } = (s.withPacket sn m draws).setResult s.act.codecLen := rfl

/-- The payload in PKT_PAY, unless a sample was evicted since BEGIN (R90). -/
def PayloadIn (s : State) (sn : Snapshot) (m : Memory) (draws : Nat) : Prop :=
  SameOutside [(0x11000, (s.act.codecLen.toNat + 3) / 4)] s.mem m ∧
  (s.sclk.toNat ≤ sn.rpos.toNat + s.act.rbCap.toNat →
    draws = s.draws ∧
    (∀ i, i < s.act.codecLen.toNat → m.readByte (0x11000 + i) = some (alaw (sn.value s.act i).toInt)) ∧
    ∀ i, s.act.codecLen.toNat ≤ i → i < 4 * ((s.act.codecLen.toNat + 3) / 4) → m.readByte (0x11000 + i) = some 0)

theorem packetEmitted_payload (sn : Snapshot) (s : State) :
    ∃ m draws, packetEmitted sn s (payloadOf s.act sn) = (s.withPacket sn m draws).setResult s.act.codecLen ∧
      PayloadIn s sn m draws := by
  let m := storePayload s.act (payloadOf s.act sn) s.mem
  have hout : SameOutside [(0x11000, (s.act.codecLen.toNat + 3) / 4)] s.mem m := sameOutside_storeLoop .pktPay _ _ _
  cases hev : s.evicted sn with
  | true =>
    let drawn := loopUpTo s.act.frameWords (fun i t => store .pktPay i (s.freeAt i) t) m
    refine ⟨drawn, s.draws + s.act.frameWords, ?_, hout.trans (sameOutside_storeLoop .pktPay _ _ _), fun hroom => ?_⟩
    · rw [packetEmitted, hev, if_pos rfl, ← emitPacket_eq]
      rfl
    · rw [evicted_eq_false hroom] at hev
      cases hev
  | false =>
    have hbyte (i : Nat) (hi : i < 4 * ((s.act.codecLen.toNat + 3) / 4)) :
        m.readByte (0x11000 + i) = some (if i < s.act.codecLen.toNat then alaw (sn.value s.act i).toInt else 0) :=
      (storePayload_byte s.act _ s.mem hi).trans (congrArg some (payloadOf_getD s.act sn i))
    refine ⟨m, s.draws, ?_, hout, fun _ => ⟨rfl, fun i hi => ?_, fun i hlo hi => ?_⟩⟩
    · rw [packetEmitted, hev, if_neg Bool.false_ne_true, ← emitPacket_eq]
    · rw [hbyte i (by omega), if_pos hi]
    · rw [hbyte i hi, if_neg (by omega)]

theorem checkCodecFrame_none {s : State} (h : s.cfgValid = true ∧ s.run = true) : checkCodecFrame s = none :=
  (thenCheck_eq_none_iff _ _).2 ⟨s.needcfg_eq_none_iff.2 h.1, s.needrun_eq_none_iff.2 h.2⟩

/-- Settles O46: the effect stores the payload of the available samples, or free words over it, and then the packet. -/
theorem codecFrameEmitsOnePacket : Obligations.CodecFrameEmitsOnePacket := by
  unfold Obligations.CodecFrameEmitsOnePacket
  intro s sn hend _ hpkt f hav hcov
  obtain ⟨m, draws, hemit, hpay⟩ := packetEmitted_payload sn s
  have heffect : effectCodecFrame sn s = .ok ((s.withPacket sn m draws).setResult s.act.codecLen) := by
    have henough : ¬sn.avail < s.act.frame := Nat.not_lt.2 hav
    rw [effectCodecFrame_eq, hpkt, if_neg (by decide), if_neg henough, framePayload_ok hcov]
    exact congrArg Except.ok hemit
  have hrun : exec .codecFrame s
      = .next (((s.withPacket sn m draws).setResult s.act.codecLen).complete 0x51 none) := by
    rw [exec_codecFrame]
    exact runCommand_atEnd hend checkCodecFrame_none heffect
  exact ⟨_, hrun, completed_setResult (v := s.withPacket sn m draws) 0x51 s.act.codecLen rfl rfl rfl rfl, rfl, hpay⟩

end Sys2Proof.Machine
end

section
/-!
The stages of a feature extraction (spec/42_preprocess.md R195, spec/43_fft.md, spec/44_mel.md R252-R254) on two memories
that hold the same coefficients: both runs complete, and they agree on every word they have computed, whatever the work
arrays held before. Run on one memory twice, this says that the stages do not fault.
-/

namespace Sys2Proof.Machine

/-! ### Two runs side by side -/

/-- Two computations that both answer, with answers that are related. -/
def Both {α : Type} (x x' : Except Fault α) (R : α → α → Prop) : Prop := ∃ z z', x = .ok z ∧ x' = .ok z' ∧ R z z'

theorem Both.mono {α : Type} {x x' : Except Fault α} {R S : α → α → Prop} (h : Both x x' R)
    (hs : ∀ z z', R z z' → S z z') :
    Both x x' S := by
  obtain ⟨z, z', hx, hx', hr⟩ := h
  exact ⟨z, z', hx, hx', hs z z' hr⟩

theorem Both.bind {α β : Type} {x x' : Except Fault α} {R : α → α → Prop} {S : β → β → Prop}
    {f f' : α → Except Fault β} (h : Both x x' R) (hf : ∀ z z', R z z' → Both (f z) (f' z') S) :
    Both (x >>= f) (x' >>= f') S := by
  obtain ⟨z, z', rfl, rfl, hr⟩ := h
  exact hf z z' hr

theorem both_forUpTo {σ : Type} {n : Nat} {body body' : Nat → σ → Except Fault σ} {x x' : σ} (R : Nat → σ → σ → Prop)
    (h0 : R 0 x x') (hs : ∀ k y y', k < n → R k y y' → Both (body k y) (body' k y') (R (k + 1))) :
    Both (forUpTo n body x) (forUpTo n body' x') (R n) := by
  induction n with
  | zero => exact ⟨x, x', rfl, rfl, h0⟩
  | succ n ih =>
    obtain ⟨y, y', hy, hy', hr⟩ := ih fun k y y' hk => hs k y y' (by omega)
    obtain ⟨z, z', hz, hz', hr'⟩ := hs n y y' (by omega) hr
    exact ⟨z, z', by rw [forUpTo_succ, hy]; exact hz, by rw [forUpTo_succ, hy']; exact hz', hr'⟩

theorem loopUpTo_pair {σ : Type} {n : Nat} {body : Nat → σ → σ} {x x' : σ} (R : Nat → σ → σ → Prop)
    (h0 : R 0 x x') (hs : ∀ k y y', k < n → R k y y' → R (k + 1) (body k y) (body k y')) :
    R n (loopUpTo n body x) (loopUpTo n body x') := by
  induction n with
  | zero => exact h0
  | succ n ih => exact hs n _ _ (by omega) (ih fun k y y' hk => hs k y y' (by omega))

/-! ### The words an extraction writes -/

/-- How many words of each array FEAT_EXTRACT may write (R260). -/
def featArea (c : Cfg) : Arr → Nat
  | .workRe | .workIm => c.fftSize
  | .pow => c.bins
  | .melE | .melLog => c.bands
  | .feat => c.frames * c.bands
  | _ => 0

/-- The same as blocks of the window. -/
def featBlocks (c : Cfg) : List (Nat × Nat) :=
  [(0x04000, c.fftSize), (0x05000, c.fftSize), (0x06000, c.bins), (0x07000, c.bands), (0x07100, c.bands),
    (0x08000, c.frames * c.bands)]

/-- The sizes of a configuration against the lengths of the arrays. -/
structure Cfg.Sizes (c : Cfg) : Prop where
  window : c.window ≤ c.fftSize
  fftLow : 2 ≤ c.fftSize
  fft : c.fftSize ≤ 1024
  bands : c.bands ≤ 64
  hop : 1 ≤ c.hop.toNat
  frames : 1 ≤ c.frames
  feat : c.frames * c.bands ≤ 8192

theorem Cfg.Legal.sizes {c : Cfg} (h : c.Legal) : c.Sizes := by
  have hfft : 1 ≤ c.fftLog2.toNat ∧ c.fftLog2.toNat ≤ 10 ∧ c.winLen.toNat ≤ 2 ^ c.fftLog2.toNat :=
    h (0x45, 1 ≤ c.fftLog2.toNat ∧ c.fftLog2.toNat ≤ 10 ∧ c.winLen.toNat ≤ 2 ^ c.fftLog2.toNat) (by simp [Cfg.checks])
  have hmel : 1 ≤ c.melBands.toNat ∧ c.melBands.toNat ≤ 64 :=
    h (0x46, 1 ≤ c.melBands.toNat ∧ c.melBands.toNat ≤ 64) (by simp [Cfg.checks])
  have hframes : 1 ≤ c.nframes.toNat ∧ c.nframes.toNat ≤ 128 :=
    h (0x44, 1 ≤ c.nframes.toNat ∧ c.nframes.toNat ≤ 128) (by simp [Cfg.checks])
  have hhop : 1 ≤ c.hop.toNat ∧ c.hop.toNat ≤ c.winLen.toNat :=
    h (0x43, 1 ≤ c.hop.toNat ∧ c.hop.toNat ≤ c.winLen.toNat) (by simp [Cfg.checks])
  obtain ⟨hlog, hlog', hlen⟩ := hfft
  exact ⟨hlen, Nat.pow_le_pow_right (n := 2) (i := 1) (by decide) hlog,
    Nat.pow_le_pow_right (n := 2) (j := 10) (by decide) hlog', hmel.2, hhop.1, hframes.1,
    Nat.mul_le_mul hframes.2 hmel.2⟩

theorem featArea_le {c : Cfg} (h : c.Legal) (a : Arr) : featArea c a ≤ a.len := by
  have hfft := h.sizes.fft
  have hbands := h.sizes.bands
  have hfeat := h.sizes.feat
  rw [Arr.len_aedp1]
  cases a <;> simp only [featArea, Cfg.bins] <;> omega

/-- The bytes of a word outside the extraction's blocks. -/
theorem outside_featBlocks {c : Cfg} {a : Arr} {i off : Nat} (hi : i < featArea c a)
    (ho : inBlocks (featBlocks c) off = false) : off < a.off i ∨ a.off i + 4 ≤ off := by
  simp only [featBlocks, inBlocks, List.any_cons, List.any_nil, Bool.or_eq_false_iff, inBlock, Bool.and_eq_false_iff,
    decide_eq_false_iff_not] at ho
  cases a <;> simp only [featArea, Arr.off, Arr.base] at hi ⊢ <;> omega

theorem sameOutside_featStore {c : Cfg} {a : Arr} {i : Nat} (hi : i < featArea c a) (v : Word) (m : Memory) :
    SameOutside (featBlocks c) m (store a i v m) :=
  fun _ ho => store_readByte_other v m (outside_featBlocks hi ho)

/-! ### Two memories that agree -/

/-- Two memories hold the same written words at `P`, and the first differs from `m₀` in the extraction's blocks only. -/
structure Twin (c : Cfg) (P : Arr → Nat → Prop) (m₀ m m' : Memory) : Prop where
  agree : ∀ a i, P a i → i < a.len ∧ ∃ v, load a i m = .ok v ∧ load a i m' = .ok v
  frame : SameOutside (featBlocks c) m₀ m

theorem Twin.load {c : Cfg} {P : Arr → Nat → Prop} {m₀ m m' : Memory} (h : Twin c P m₀ m m') {a : Arr} {i : Nat}
    (hi : P a i) : Both (load a i m) (load a i m') Eq := by
  obtain ⟨-, v, hv, hv'⟩ := h.agree a i hi
  exact ⟨v, v, hv, hv', rfl⟩

/-- The same word stored in both memories joins those they agree on. -/
theorem Twin.store {c : Cfg} {P : Arr → Nat → Prop} (Q : Arr → Nat → Prop) {m₀ m m' : Memory} (hl : c.Legal)
    (h : Twin c P m₀ m m') {a : Arr} {i : Nat} (hi : i < featArea c a) (v : Word)
    (hq : ∀ b j, Q b j → P b j ∨ (b = a ∧ j = i)) : Twin c Q m₀ (store a i v m) (store a i v m') where
  agree b j hj := by
    have hlen : i < a.len := Nat.lt_of_lt_of_le hi (featArea_le hl a)
    by_cases hsame : b = a ∧ j = i
    · obtain ⟨rfl, rfl⟩ := hsame
      exact ⟨hlen, v, load_store_same _ _ _ _, load_store_same _ _ _ _⟩
    · obtain ⟨hb, w, hw, hw'⟩ := h.agree b j ((hq b j hj).resolve_right hsame)
      have hne : b ≠ a ∨ j ≠ i := not_and_or.1 hsame
      exact ⟨hb, w, by rw [load_store_other v m hb hlen hne, hw], by rw [load_store_other v m' hb hlen hne, hw']⟩
  frame := h.frame.trans (sameOutside_featStore hi v m)

/-- The words an extraction's window has read or computed after `w` words of each work array, `p` of POW, `e` of MEL_E and
`l` of MEL_LOG: the coefficients, and those. -/
def chainWords (c : Cfg) (w p e l : Nat) : Arr → Nat → Prop
  | .win, i => i < c.window
  | .twRe, i | .twIm, i => i < c.fftSize / 2
  | .melW, i => ∃ b k, b < c.bands ∧ k < c.bins ∧ i = b * 1024 + k
  | .workRe, i | .workIm, i => i < w
  | .pow, i => i < p
  | .melE, i => i < e
  | .melLog, i => i < l
  | _, _ => False

section Growth

variable {c : Cfg} {w p e l : Nat} {b : Arr} {j : Nat}

theorem chainWords_work_succ (h : chainWords c (w + 1) p e l b j) :
    (chainWords c w p e l b j ∨ b = .workRe ∧ j = w) ∨ b = .workIm ∧ j = w := by
  cases b <;> grind [chainWords]

theorem chainWords_pow_succ (h : chainWords c w (p + 1) e l b j) : chainWords c w p e l b j ∨ b = .pow ∧ j = p := by
  cases b <;> grind [chainWords]

theorem chainWords_melE_succ (h : chainWords c w p (e + 1) l b j) : chainWords c w p e l b j ∨ b = .melE ∧ j = e := by
  cases b <;> grind [chainWords]

theorem chainWords_melLog_succ (h : chainWords c w p e (l + 1) b j) :
    chainWords c w p e l b j ∨ b = .melLog ∧ j = l := by
  cases b <;> grind [chainWords]

end Growth

section Stages

variable {c : Cfg} {P : Arr → Nat → Prop} {m₀ m m' : Memory}

/-! ### Stage 5 (R195) -/

theorem Twin.storeWork {w : Nat} (hl : c.Legal) (hw : w < c.fftSize) (x y : Word)
    (h : Twin c (chainWords c w 0 0 0) m₀ m m') :
    Twin c (chainWords c (w + 1) 0 0 0) m₀ (Machine.store .workIm w y (Machine.store .workRe w x m))
      (Machine.store .workIm w y (Machine.store .workRe w x m')) := by
  exact (h.store (fun b j => chainWords c w 0 0 0 b j ∨ b = .workRe ∧ j = w) hl hw x fun _ _ => id).store _ hl hw y
    fun _ _ => chainWords_work_succ

theorem zeroPad_twin (hl : c.Legal) (h : Twin c (chainWords c c.window 0 0 0) m₀ m m') :
    Twin c (chainWords c c.fftSize 0 0 0) m₀ (zeroPad c m) (zeroPad c m') := by
  have hlw := hl.sizes.window
  have hpad := loopUpTo_pair (n := c.fftSize - c.window)
    (body := fun k t => Machine.store .workIm (c.window + k) f32Zero (Machine.store .workRe (c.window + k) f32Zero t))
    (fun k t t' => Twin c (chainWords c (c.window + k) 0 0 0) m₀ t t') h
    fun k t t' hk ht => ht.storeWork hl (by omega) _ _
  rwa [Nat.add_sub_of_le hlw] at hpad

/-- One word of stage 5. -/
def windowWord (v : Nat → Word) (n : Nat) (t : Memory) : Except Fault Memory :=
  match Machine.load .win n t with
  | .ok w => .ok (Machine.store .workIm n f32Zero (Machine.store .workRe n (fmul (v n) w) t))
  | .error f => .error f

theorem windowStage_eq (c : Cfg) (v : Nat → Word) (m : Memory) :
    windowStage c v m = (forUpTo c.window (windowWord v) m).map (zeroPad c) := by
  unfold windowStage
  show (match forUpTo c.window (windowWord v) m with | .ok t => _ | .error f => _) = _
  cases forUpTo c.window (windowWord v) m <;> rfl

theorem windowStage_twin (v : Nat → Word) (hl : c.Legal) (h : Twin c (chainWords c 0 0 0 0) m₀ m m') :
    Both (windowStage c v m) (windowStage c v m') (Twin c (chainWords c c.fftSize 0 0 0) m₀) := by
  have hlw := hl.sizes.window
  obtain ⟨t, t', ht, ht', hr⟩ := both_forUpTo (n := c.window) (body := windowWord v) (body' := windowWord v)
    (fun k t t' => Twin c (chainWords c k 0 0 0) m₀ t t') h fun k t t' hk ht => by
      obtain ⟨w, _, hw, hw', rfl⟩ := ht.load (a := .win) (i := k) hk
      exact ⟨_, _, by rw [windowWord, hw], by rw [windowWord, hw'], ht.storeWork hl (by omega) _ _⟩
  rw [windowStage_eq, windowStage_eq, ht, ht']
  exact ⟨_, _, rfl, rfl, zeroPad_twin hl hr⟩

/-! ### The FFT (R222-R226) -/

theorem revBits_lt (b i : Nat) : revBits b i < 2 ^ b := by
  induction b generalizing i with
  | zero => exact Nat.one_pos
  | succ b ih =>
    have hrest := ih (i / 2)
    have hbit : i % 2 * 2 ^ b ≤ 1 * 2 ^ b := Nat.mul_le_mul_right _ (by omega)
    rw [revBits, Nat.pow_succ]
    omega

theorem swapWords_twin {a : Arr} {i j : Nat} (hl : c.Legal) (h : Twin c P m₀ m m') (hi : P a i) (hj : P a j)
    (hai : i < featArea c a) (haj : j < featArea c a) :
    Both (swapWords a i j m) (swapWords a i j m') (Twin c P m₀) := by
  obtain ⟨x, _, hx, hx', rfl⟩ := h.load hi
  obtain ⟨y, _, hy, hy', rfl⟩ := h.load hj
  exact ⟨_, _, by rw [swapWords, hx, hy], by rw [swapWords, hx', hy'],
    (h.store P hl hai y fun _ _ => .inl).store P hl haj x fun _ _ => .inl⟩

/-- A region that holds the whole of both work arrays and the twiddles. -/
def HoldsFft (c : Cfg) (P : Arr → Nat → Prop) : Prop :=
  (∀ i, i < c.fftSize → P .workRe i ∧ P .workIm i) ∧ ∀ k, k < c.fftSize / 2 → P .twRe k ∧ P .twIm k

theorem bitrevAt_twin {i : Nat} (hl : c.Legal) (hp : HoldsFft c P) (hi : i < c.fftSize) (h : Twin c P m₀ m m') :
    Both (bitrevAt c.fftLog2.toNat i m) (bitrevAt c.fftLog2.toNat i m') (Twin c P m₀) := by
  have hr : revBits c.fftLog2.toNat i < c.fftSize := revBits_lt _ i
  unfold bitrevAt
  split
  · obtain ⟨t, t', ht, ht', hre⟩ := swapWords_twin hl h (hp.1 i hi).1 (hp.1 _ hr).1 hi hr
    rw [ht, ht']
    exact swapWords_twin hl hre (hp.1 i hi).2 (hp.1 _ hr).2 hi hr
  · exact ⟨m, m', rfl, rfl, h⟩

/-- The indices of a butterfly lie in the work arrays and in the twiddle tables (R224). -/
theorem butterfly_indices {B k b j : Nat} (hk : k < B) (hb : b < 2 ^ B / 2 ^ (k + 1)) (hj : j < 2 ^ (k + 1) / 2) :
    b * 2 ^ (k + 1) + j + 2 ^ (k + 1) / 2 < 2 ^ B ∧ j * (2 ^ B / 2 ^ (k + 1)) < 2 ^ B / 2 := by
  have hspan : 2 ^ (k + 1) / 2 * 2 = 2 ^ (k + 1) := by rw [Nat.pow_succ, Nat.mul_div_cancel _ (by decide)]
  have hn : 2 ^ B / 2 ^ (k + 1) * 2 ^ (k + 1) = 2 ^ B := Nat.div_mul_cancel (Nat.pow_dvd_pow 2 hk)
  generalize 2 ^ B / 2 ^ (k + 1) = step at *
  generalize 2 ^ (k + 1) / 2 = half at *
  rw [← hn, ← hspan]
  constructor
  · have : (b + 1) * (half * 2) ≤ step * (half * 2) := Nat.mul_le_mul_right _ hb
    rw [Nat.add_mul] at this
    omega
  · rw [← Nat.mul_assoc, Nat.mul_div_cancel _ (by decide), Nat.mul_comm step]
    exact Nat.mul_lt_mul_of_pos_right hj (by omega)

theorem bfly_twin {p q k : Nat} (hl : c.Legal) (hP : HoldsFft c P) (hp : p < c.fftSize) (hq : q < c.fftSize)
    (hk : k < c.fftSize / 2) (h : Twin c P m₀ m m') : Both (bfly p q k m) (bfly p q k m') (Twin c P m₀) := by
  refine (h.load (hP.2 k hk).1).bind ?_
  rintro wr _ rfl
  refine (h.load (hP.2 k hk).2).bind ?_
  rintro wi _ rfl
  refine (h.load (hP.1 q hq).1).bind ?_
  rintro br _ rfl
  refine (h.load (hP.1 q hq).2).bind ?_
  rintro bi _ rfl
  refine (h.load (hP.1 p hp).1).bind ?_
  rintro ur _ rfl
  refine (h.load (hP.1 p hp).2).bind ?_
  rintro ui _ rfl
  have hq' := (h.store P hl (a := .workRe) hq (fsub ur (twiddleRe wr wi br bi)) fun _ _ => .inl).store P hl
    (a := .workIm) hq (fsub ui (twiddleIm wr wi br bi)) fun _ _ => .inl
  exact ⟨_, _, rfl, rfl, (hq'.store P hl (a := .workRe) hp _ fun _ _ => .inl).store P hl (a := .workIm) hp _
    fun _ _ => .inl⟩

theorem fftStage_twin {k : Nat} (hl : c.Legal) (hP : HoldsFft c P) (hk : k < c.fftLog2.toNat) (h : Twin c P m₀ m m') :
    Both (fftStage c (k + 1) m) (fftStage c (k + 1) m') (Twin c P m₀) := by
  refine both_forUpTo (fun _ => Twin c P m₀) h fun b t t' hb ht => ?_
  refine both_forUpTo (fun _ => Twin c P m₀) ht fun j u u' hj hu => ?_
  obtain ⟨hq, htw⟩ := butterfly_indices hk hb hj
  exact bfly_twin hl hP (Nat.lt_of_le_of_lt (Nat.le_add_right _ _) hq) hq htw hu

theorem fftFull_twin (hl : c.Legal) (hP : HoldsFft c P) (h : Twin c P m₀ m m') :
    Both (fftFull c m) (fftFull c m') (Twin c P m₀) := by
  obtain ⟨t, t', ht, ht', hr⟩ := both_forUpTo (n := c.fftSize) (body := bitrevAt c.fftLog2.toNat)
    (body' := bitrevAt c.fftLog2.toNat) (fun _ => Twin c P m₀) h fun i u u' hi hu => bitrevAt_twin hl hP hi hu
  rw [fftFull, fftFull, fftBitrev, fftBitrev, ht, ht']
  exact both_forUpTo (fun _ => Twin c P m₀) hr fun k u u' hk hu => fftStage_twin hl hP hk hu

theorem chainWords_holdsFft (p e l : Nat) : HoldsFft c (chainWords c c.fftSize p e l) :=
  ⟨fun _ h => ⟨h, h⟩, fun _ h => ⟨h, h⟩⟩

theorem fftPower_twin (hl : c.Legal) (h : Twin c (chainWords c c.fftSize 0 0 0) m₀ m m') :
    Both (fftPower c m) (fftPower c m') (Twin c (chainWords c c.fftSize c.bins 0 0) m₀) := by
  refine both_forUpTo (fun k => Twin c (chainWords c c.fftSize k 0 0) m₀) h fun k t t' hk ht => ?_
  have hn : k < c.fftSize := by
    have := hl.sizes.fftLow
    unfold Cfg.bins at hk
    omega
  refine (ht.load (a := .workRe) (i := k) hn).bind ?_
  rintro re _ rfl
  refine (ht.load (a := .workIm) (i := k) hn).bind ?_
  rintro im _ rfl
  exact ⟨_, _, rfl, rfl, ht.store _ hl hk _ fun _ _ => chainWords_pow_succ⟩

/-! ### Mel bands and log compression (R252-R254) -/

theorem bandEnergy_both {w p e l band : Nat} (hb : band < c.bands) (hp : c.bins ≤ p)
    (h : Twin c (chainWords c w p e l) m₀ m m') : Both (bandEnergy c band m) (bandEnergy c band m') Eq := by
  refine both_forUpTo (fun _ => Eq) rfl fun k acc _ hk hacc => ?_
  subst hacc
  refine (h.load (a := .melW) (i := band * 1024 + k) ⟨band, k, hb, hk, rfl⟩).bind ?_
  rintro x _ rfl
  refine (h.load (a := .pow) (i := k) (Nat.lt_of_lt_of_le hk hp)).bind ?_
  rintro y _ rfl
  exact ⟨_, _, rfl, rfl, rfl⟩

theorem melApply_twin (hl : c.Legal) (h : Twin c (chainWords c c.fftSize c.bins 0 0) m₀ m m') :
    Both (melApply c m) (melApply c m') (Twin c (chainWords c c.fftSize c.bins c.bands 0) m₀) := by
  refine both_forUpTo (fun k => Twin c (chainWords c c.fftSize c.bins k 0) m₀) h fun k t t' hk ht => ?_
  refine (bandEnergy_both hk (Nat.le_refl _) ht).bind ?_
  rintro e _ rfl
  exact ⟨_, _, rfl, rfl, ht.store _ hl hk _ fun _ _ => chainWords_melE_succ⟩

/-- Some band energy is not finite (R253). -/
def energyOverflow (c : Cfg) (m : Memory) : Bool := (List.range c.bands).any fun b => !isFinite (m.val .melE b)

theorem val_of_load {a : Arr} {i : Nat} {v : Word} (h : load a i m = .ok v) : m.val a i = v := by
  rw [Memory.val, Memory.word, load_ok_iff.1 h]
  rfl

theorem load_val {a : Arr} {i : Nat} (h : (m.word a i).isSome) : Machine.load a i m = .ok (m.val a i) := by
  obtain ⟨v, hv⟩ := Option.isSome_iff_exists.1 h
  have hl : Machine.load a i m = .ok v := load_ok_iff.2 hv
  rw [hl, val_of_load hl]

theorem any_range_congr {n : Nat} {f g : Nat → Bool} (h : ∀ b, b < n → f b = g b) :
    (List.range n).any f = (List.range n).any g := by
  induction n with
  | zero => rfl
  | succ n ih =>
    rw [List.range_succ, List.any_append, List.any_append, ih fun b hb => h b (by omega), List.any_cons, List.any_cons,
      h n (by omega), List.any_nil, List.any_nil]

theorem energyOverflow_congr (h : ∀ b, b < c.bands → m.val .melE b = m'.val .melE b) :
    energyOverflow c m = energyOverflow c m' :=
  any_range_congr fun b hb => by rw [h b hb]

/-- One band of the log compression. -/
def logWord (c : Cfg) (band : Nat) (t : Memory × Bool) : Except Fault (Memory × Bool) := do
  let e ← Machine.load .melE band t.1
  .ok (Machine.store .melLog band (logc c e) t.1, t.2 || !isFinite e)

theorem logCompress_eq (c : Cfg) (m : Memory) : logCompress c m = forUpTo c.bands (logWord c) (m, false) := rfl

/-- MEL_LOG is apart from MEL_E. -/
theorem val_melE_store_melLog {b k : Nat} (hl : c.Legal) (hb : b < c.bands) (hk : k < c.bands) (v : Word) (m : Memory) :
    (Machine.store .melLog k v m).val .melE b = m.val .melE b := by
  have hlen (a : Arr) : featArea c a ≤ a.len := featArea_le hl a
  have hne : Arr.melE ≠ Arr.melLog ∨ b ≠ k := .inl (by decide)
  rw [Memory.val, word_store_other v m (Nat.lt_of_lt_of_le hb (hlen .melE)) (Nat.lt_of_lt_of_le hk (hlen .melLog)) hne]
  rfl

theorem logCompress_twin (hl : c.Legal) (h : Twin c (chainWords c c.fftSize c.bins c.bands 0) m₀ m m') :
    Both (logCompress c m) (logCompress c m') fun r r' =>
      Twin c (chainWords c c.fftSize c.bins c.bands c.bands) m₀ r.1 r'.1 ∧ r.2 = energyOverflow c r'.1 := by
  rw [logCompress_eq, logCompress_eq]
  refine Both.mono (both_forUpTo (fun k r r' => Twin c (chainWords c c.fftSize c.bins c.bands k) m₀ r.1 r'.1 ∧
    (∀ b, b < c.bands → r'.1.val .melE b = m'.val .melE b) ∧
    r.2 = (List.range k).any fun b => !isFinite (m'.val .melE b)) ⟨h, fun _ _ => rfl, rfl⟩ ?_) ?_
  · rintro k r r' hk ⟨ht, hval, hflag⟩
    obtain ⟨e, _, he, he', rfl⟩ := ht.load (a := .melE) (i := k) hk
    have hlog := ht.store _ hl (a := .melLog) (i := k) hk (logc c e) fun _ _ => chainWords_melLog_succ
    refine ⟨_, _, by rw [logWord, he]; rfl, by rw [logWord, he']; rfl, hlog, fun b hb => ?_, ?_⟩
    · exact (val_melE_store_melLog hl hb hk _ _).trans (hval b hb)
    · rw [List.range_succ, List.any_append, ← hflag, List.any_cons, List.any_nil, Bool.or_false, ← hval k hk,
        val_of_load he']
  · rintro r r' ⟨ht, hval, hflag⟩
    exact ⟨ht, hflag.trans (energyOverflow_congr hval).symm⟩

/-! ### A window's chain (R260) -/

/-- `windowChain` with the flag that its log compression collects. -/
def flaggedChain (c : Cfg) (v : Nat → Word) (m : Memory) : Except Fault (Memory × Bool) := do
  let m ← windowStage c v m
  let m ← fftFull c m
  let m ← fftPower c m
  let m ← melApply c m
  logCompress c m

theorem windowChain_eq (c : Cfg) (v : Nat → Word) (m : Memory) :
    windowChain c v m = flaggedChain c v m >>= fun r => .ok r.1 := by
  simp only [windowChain, flaggedChain, bind_assoc]

theorem flaggedChain_twin (v : Nat → Word) (hl : c.Legal) (h : Twin c (chainWords c 0 0 0 0) m₀ m m') :
    Both (flaggedChain c v m) (flaggedChain c v m') fun r r' =>
      Twin c (chainWords c c.fftSize c.bins c.bands c.bands) m₀ r.1 r'.1 ∧ r.2 = energyOverflow c r'.1 :=
  (windowStage_twin v hl h).bind fun _ _ h =>
    (fftFull_twin hl (chainWords_holdsFft 0 0 0) h).bind fun _ _ h =>
      (fftPower_twin hl h).bind fun _ _ h => (melApply_twin hl h).bind fun _ _ h => logCompress_twin hl h

end Stages

end Sys2Proof.Machine
end

section
/-!
The rows of a feature extraction (spec/44_mel.md R253, R255-R260): every window runs its own chain on the memory before the
command, its row is written, and the rows before the windows are padded with the minimum.
-/

namespace Sys2Proof.Machine

section Rows

variable {c : Cfg} {m₀ m : Memory}

/-! ### The coefficients an extraction reads -/

/-- The window, the twiddles and the Mel weights have been written. -/
def Coefficients (c : Cfg) (m : Memory) : Prop := ∀ a i, chainWords c 0 0 0 0 a i → (m.word a i).isSome

theorem coefficients_of (hwin : Written .win c.window m) (hre : Written .twRe (c.fftSize / 2) m)
    (him : Written .twIm (c.fftSize / 2) m)
    (hmel : ∀ b k, b < c.bands → k < c.bins → (m.word .melW (b * 1024 + k)).isSome) : Coefficients c m := by
  intro a i hi
  cases a with
  | win => exact hwin i hi
  | twRe => exact hre i hi
  | twIm => exact him i hi
  | melW =>
    obtain ⟨b, k, hb, hk, rfl⟩ := hi
    exact hmel b k hb hk
  | scratch0 | scratch1 | feat | pktPay | rbram => cases hi
  | workRe | workIm | pow | melE | melLog => exact absurd hi (Nat.not_lt_zero i)

/-- The extraction's blocks lie between WORK_RE and the end of FEAT. -/
theorem outside_of_range (hl : c.Legal) {k : Nat} (h : k < 0x4000 ∨ 0x10000 ≤ k) :
    inBlocks (featBlocks c) k = false := by
  have hfft := hl.sizes.fft
  have hbands := hl.sizes.bands
  have hfeat := hl.sizes.feat
  rw [Bool.eq_false_iff]
  simp only [featBlocks, ne_eq, inBlocks_cons, inBlocks_nil, inBlock_iff, Bool.false_eq_true, or_false, Cfg.bins]
  omega

/-- A coefficient is a word of its array, and no byte of it is in the extraction's blocks. -/
theorem coefficient_apart (hl : c.Legal) {a : Arr} {i : Nat} (hi : chainWords c 0 0 0 0 a i) :
    i < a.len ∧ ∀ k, a.off i ≤ k → k < a.off i + 4 → inBlocks (featBlocks c) k = false := by
  have hlw := hl.sizes.window
  have hfft := hl.sizes.fft
  have hbands := hl.sizes.bands
  have hbins : c.bins = c.fftSize / 2 + 1 := rfl
  rw [Arr.len_aedp1]
  cases a with
  | win | twRe | twIm =>
    have hlt : i < _ := hi
    simp only [Arr.off, Arr.base]
    exact ⟨by omega, fun k hlo hhi => outside_of_range hl (.inl (by omega))⟩
  | melW =>
    obtain ⟨b, k, hb, hk, rfl⟩ := hi
    simp only [Arr.off, Arr.base]
    exact ⟨by omega, fun k hlo hhi => outside_of_range hl (.inr (by omega))⟩
  | scratch0 | scratch1 | feat | pktPay | rbram => cases hi
  | workRe | workIm | pow | melE | melLog => exact absurd hi (Nat.not_lt_zero i)

/-- Whatever the extraction has written so far, its coefficients are those of the memory before it. -/
theorem twin_of_frame (hl : c.Legal) (hc : Coefficients c m₀) (hf : SameOutside (featBlocks c) m₀ m) :
    Twin c (chainWords c 0 0 0 0) m₀ m m₀ where
  agree a i hi := by
    obtain ⟨hlen, hout⟩ := coefficient_apart hl hi
    have hload := load_val (hc a i hi)
    have hsame : load a i m = load a i m₀ :=
      load_congr (Memory.readWord_congr fun k hlo hhi => hf k (hout k hlo hhi))
    exact ⟨hlen, _, hsame.trans hload, hload⟩
  frame := hf

/-! ### One window and its row (R255, R260) -/

/-- The stage-4 outputs of window `w`. -/
def windowOutputs (c : Cfg) (v : List Word) (w i : Nat) : Word := v.getD (w * c.hop.toNat + i) f32Zero

/-- Some band energy of window `w`, run on its own, is not finite (R253). -/
def windowOverflow (c : Cfg) (v : List Word) (m : Memory) (w : Nat) : Bool :=
  match windowChain c (windowOutputs c v w) m with
  | .ok u => energyOverflow c u
  | .error _ => false

/-- One word of a row of FEAT, and the row. -/
def featWord (base band : Nat) (u : Memory) : Except Fault Memory := do
  let e ← load .melLog band u
  .ok (store .feat (base + band) e u)
def featRow (c : Cfg) (base : Nat) (u : Memory) : Except Fault Memory := forUpTo c.bands (featWord base) u

theorem featWindow_eq (c : Cfg) (v : List Word) (nwin w : Nat) (t : Memory × Bool) :
    featWindow c v nwin w t = (do
      let r ← flaggedChain c (windowOutputs c v w) t.1
      let u ← featRow c ((c.frames - nwin + w) * c.bands) r.1
      .ok (u, t.2 || r.2)) := by
  simp only [flaggedChain, bind_assoc]
  rfl

/-- A row within FEAT is written when the log energies are there. -/
theorem featRow_ok {base : Nat} (hlog : ∀ b, b < c.bands → (m.word .melLog b).isSome)
    (hbase : base + c.bands ≤ c.frames * c.bands) :
    ∃ u, featRow c base m = .ok u ∧ SameOutside (featBlocks c) m u ∧
      ∀ b, b < c.bands → (u.word .feat (base + b)).isSome := by
  obtain ⟨u, hu, -, hout, hrow⟩ := forUpTo_completes (n := c.bands) (body := featWord base) (x := m)
    (fun k u => m.Grows u ∧ SameOutside (featBlocks c) m u ∧ ∀ b, b < k → (u.word .feat (base + b)).isSome)
    ⟨.refl m, sameOutside_refl _ m, fun b hb => absurd hb (Nat.not_lt_zero b)⟩
    fun k u hk ⟨hgrown, hout, hrow⟩ => by
      refine ⟨_, by rw [featWord, load_val (hgrown.word (hlog k hk))]; rfl, hgrown.trans (store_grows _ _ _ _),
        hout.trans (sameOutside_featStore (by simp only [featArea]; omega) _ _), fun b hb => ?_⟩
      by_cases hbk : b = k
      · subst hbk
        rw [word_store]
        rfl
      · exact (store_grows _ _ _ _).word (hrow b (by omega))
  exact ⟨u, hu, hout, hrow⟩

/-- A window completes, flags what its own chain overflows, and writes its row. -/
theorem featWindow_ok {v : List Word} {nwin w : Nat} {t : Memory × Bool} (hl : c.Legal) (hc : Coefficients c m₀)
    (hf : SameOutside (featBlocks c) m₀ t.1) (hrow : c.frames - nwin + w < c.frames) :
    ∃ u, featWindow c v nwin w t = .ok (u, t.2 || windowOverflow c v m₀ w) ∧ SameOutside (featBlocks c) m₀ u ∧
      ∀ b, b < c.bands → (u.word .feat ((c.frames - nwin + w) * c.bands + b)).isSome := by
  obtain ⟨r, r', hr, hr', htwin, hflag⟩ := flaggedChain_twin (windowOutputs c v w) hl (twin_of_frame hl hc hf)
  have hlog (b : Nat) (hb : b < c.bands) : (r.1.word .melLog b).isSome := by
    obtain ⟨-, x, hx, -⟩ := htwin.agree .melLog b hb
    rw [Memory.word, load_ok_iff.1 hx]
    rfl
  have hbase : (c.frames - nwin + w) * c.bands + c.bands ≤ c.frames * c.bands := by
    rw [← Nat.succ_mul]
    exact Nat.mul_le_mul_right _ hrow
  have hover : windowOverflow c v m₀ w = r.2 := by
    have hchain : windowChain c (windowOutputs c v w) m₀ = .ok r'.1 := by rw [windowChain_eq, hr']; rfl
    rw [windowOverflow, hchain, hflag]
  obtain ⟨u, hu, hout, hwritten⟩ := featRow_ok hlog hbase
  refine ⟨u, ?_, htwin.frame.trans hout, hwritten⟩
  rw [featWindow_eq, hr, hover]
  show featRow c _ r.1 >>= _ = _
  rw [hu]
  rfl

/-! ### All windows, the minimum and the padding (R257, R260) -/

theorem windows_ok {v : List Word} {nwin : Nat} (hl : c.Legal) (hc : Coefficients c m) (hn : nwin ≤ c.frames) :
    ∃ u, forUpTo nwin (fun w t => featWindow c v nwin w t) (m, false)
        = .ok (u, (List.range nwin).any (windowOverflow c v m)) ∧
      SameOutside (featBlocks c) m u ∧
      ∀ j, j < nwin * c.bands → (u.word .feat ((c.frames - nwin) * c.bands + j)).isSome := by
  obtain ⟨⟨u, flag⟩, hu, hout, rfl, hrows⟩ := forUpTo_completes (n := nwin)
    (body := fun w t => featWindow c v nwin w t) (x := (m, false))
    (fun k t => SameOutside (featBlocks c) m t.1 ∧ t.2 = (List.range k).any (windowOverflow c v m) ∧
      ∀ j, j < k * c.bands → (t.1.word .feat ((c.frames - nwin) * c.bands + j)).isSome)
    ⟨sameOutside_refl _ m, rfl, fun j hj => by rw [Nat.zero_mul] at hj; exact absurd hj (Nat.not_lt_zero j)⟩
    fun k t hk ⟨hout, hflag, hrows⟩ => by
      obtain ⟨u, hu, hout', hrow⟩ := featWindow_ok (v := v) (nwin := nwin) (w := k) hl hc hout (by omega)
      refine ⟨_, hu, hout', ?_, fun j hj => ?_⟩
      · rw [List.range_succ, List.any_append, ← hflag, List.any_cons, List.any_nil, Bool.or_false]
      · by_cases hold : j < k * c.bands
        · exact (featWindow_grows hu).word (hrows j hold)
        · have hb : j - k * c.bands < c.bands := by rw [Nat.add_mul] at hj; omega
          have hnew := hrow _ hb
          rwa [Nat.add_mul, Nat.add_assoc, Nat.add_sub_of_le (Nat.le_of_not_lt hold)] at hnew
  exact ⟨u, hu, hout, hrows⟩

theorem val_storeLoop_other {a : Arr} {n i : Nat} (f : Nat → Word) (m : Memory) (h : n ≤ i) :
    (loopUpTo n (fun j t => store a j (f j) t) m).val a i = m.val a i := by
  have hword : (loopUpTo n (fun j t => store a j (f j) t) m).readWord (a.off i) = m.readWord (a.off i) :=
    Memory.readWord_congr fun k hlo hhi => readByte_storeLoop_other f m (by
      rw [Bool.eq_false_iff, Ne, inBlock_iff]
      simp only [Arr.off] at hlo
      omega)
  rw [Memory.val, Memory.word, hword]
  rfl

theorem sameOutside_featLoop {a : Arr} {n : Nat} (hn : n ≤ featArea c a) (f : Nat → Word) (m : Memory) :
    SameOutside (featBlocks c) m (loopUpTo n (fun j t => store a j (f j) t) m) :=
  loopUpTo_keeps (fun _ t => SameOutside (featBlocks c) m t) (sameOutside_refl _ m) fun _ t hk ih =>
    ih.trans (sameOutside_featStore (Nat.lt_of_lt_of_le hk hn) _ t)

/-- What the rows of an extraction leave (R257, R260). -/
theorem featRows_ok (v : List Word) {nwin : Nat} (hl : c.Legal) (hc : Coefficients c m) (hn : nwin ≤ c.frames) :
    ∃ r, featRows c v nwin m = .ok r ∧ SameOutside (featBlocks c) m r.mem ∧
      r.ovf = (List.range nwin).any (windowOverflow c v m) ∧
      r.mn = minF32 ((List.range (nwin * c.bands)).map fun j => r.mem.val .feat ((c.frames - nwin) * c.bands + j)) ∧
      ∀ j, j < (c.frames - nwin) * c.bands → r.mem.word .feat j = some r.mn := by
  obtain ⟨u, hu, hout, hrows⟩ := windows_ok (v := v) hl hc hn
  have hvals : collect (nwin * c.bands) (fun j => load .feat ((c.frames - nwin) * c.bands + j) u)
      = .ok ((List.range (nwin * c.bands)).map fun j => u.val .feat ((c.frames - nwin) * c.bands + j)) :=
    collect_eq_map fun j hj => load_val (hrows j hj)
  let mn := minF32 ((List.range (nwin * c.bands)).map fun j => u.val .feat ((c.frames - nwin) * c.bands + j))
  let r : FeatResult :=
    { mem := loopUpTo ((c.frames - nwin) * c.bands) (fun j t => store .feat j mn t) u
      ovf := (List.range nwin).any (windowOverflow c v m), mn := mn }
  have hfirst : (c.frames - nwin) * c.bands ≤ featArea c .feat := Nat.mul_le_mul_right _ (Nat.sub_le _ _)
  have hr : featRows c v nwin m = .ok r := by
    rw [featRows, hu]
    show collect _ _ >>= _ = _
    rw [hvals]
    rfl
  refine ⟨r, hr, hout.trans (sameOutside_featLoop hfirst _ u), rfl, ?_, fun j hj => ?_⟩
  · exact congrArg minF32 (List.map_congr_left fun j _ => (val_storeLoop_other _ u (Nat.le_add_right _ _)).symm)
  · exact word_storeLoop _ _ (Nat.le_trans hfirst (featArea_le hl .feat)) hj

end Rows

end Sys2Proof.Machine
end

section
/-!
A successful feature extraction (spec/44_mel.md R256-R261): its data words, exact or drawn freely, and what it writes
besides them.
-/

namespace Sys2Proof.Machine

/-! ### Raw samples and levels (R261) -/

/-- The `i`-th available sample of a snapshot, as the number it stands for. -/
def rawSample (c : Cfg) (sn : Snapshot) (i : Nat) : Int := (sn.value c i).toInt

/-- The first `k` available samples. -/
def rawSamples (c : Cfg) (sn : Snapshot) (k : Nat) : List Int := (List.range k).map (rawSample c sn)

theorem rawSamples_length (c : Cfg) (sn : Snapshot) (k : Nat) : (rawSamples c sn k).length = k := by
  rw [rawSamples, List.length_map, List.length_range]

theorem rawSamples_take (c : Cfg) (sn : Snapshot) {j k : Nat} (h : j ≤ k) :
    (rawSamples c sn k).take j = rawSamples c sn j := by
  rw [rawSamples, ← List.map_take, List.take_range, Nat.min_eq_left h]
  rfl

/-- The samples a command collects, when BEGIN found their slots written. -/
theorem collect_rawSamples {c : Cfg} {sn : Snapshot} {k : Nat} (h : sn.covers c k) :
    ∃ l, collect k (sn.sample c) = .ok l ∧ l.map BitVec.toInt = rawSamples c sn k :=
  ⟨_, collect_eq_map fun _ hi => h.sample hi, List.map_map⟩

theorem foldl_squares (xs : List Int) (q : Nat) :
    ((xs.foldl (fun q x => q + x.natAbs * x.natAbs) q : Nat) : Int) = q + (xs.map fun x => x * x).sum := by
  induction xs generalizing q with
  | nil => simp
  | cons x xs ih =>
    have hsquare : ((x.natAbs * x.natAbs : Nat) : Int) = x * x := Int.natAbs_mul_self
    rw [List.foldl_cons, ih, List.map_cons, List.sum_cons, Int.natCast_add, hsquare, Int.add_assoc]

theorem sumSquares_cast (xs : List Int) : (sumSquares xs : Int) = (xs.map fun x => x * x).sum :=
  (foldl_squares xs 0).trans (Int.zero_add _)

theorem levelRms_rawSamples (c : Cfg) (sn : Snapshot) (k : Nat) :
    levelRmsOf (rawSamples c sn k)
      = fdiv (fsqrt (fdiv (f32OfInt (((List.range k).map fun i => rawSample c sn i * rawSample c sn i).sum))
          (f32OfInt k))) 0x47000000 := by
  rw [levelRmsOf, sumSquares_cast, rawSamples_length, rawSamples, List.map_map]
  rfl

theorem levelPeak_rawSamples (c : Cfg) (sn : Snapshot) (k : Nat) :
    levelPeakOf (rawSamples c sn k)
      = fdiv (f32OfInt ((List.range k).foldl (fun p i => max p (rawSample c sn i).natAbs) 0 : Nat)) 0x47000000 := by
  rw [levelPeakOf, peakMag, rawSamples, List.foldl_map]

/-! ### The data words of an extraction (R90, R258, R260, R261) -/

/-- FEAT_OVF's bit. -/
def overflowEvents (b : Bool) : BitVec 15 := if b then 0x1000#15 else 0

theorem overflowEvents_cases (b : Bool) : overflowEvents b = 0 ∨ overflowEvents b = 0x1000#15 := by
  cases b
  · exact .inl rfl
  · exact .inr rfl

/-- The data words an extraction writes, where the free draws then stand, and the event bits it sets. -/
structure Extraction where
  mem : Memory
  draws : Nat
  featMin : Word
  levelRms : Word
  levelPeak : Word
  pp : PrepState
  events : BitVec 15

/-- The state with the data words of an extraction. -/
def State.withData (s : State) (x : Extraction) : State :=
  { s.withFeatures x.mem x.featMin x.levelRms x.levelPeak x.pp with
    draws := x.draws, irqStatus := s.irqStatus ||| x.events }

/-- The data words are exact (R253, R257, R258, R260, R261). -/
structure Extraction.Exact (x : Extraction) (s : State) (sn : Snapshot) (full : Bool) (nwin : Nat) : Prop where
  draws : x.draws = s.draws
  events : x.events = overflowEvents ((List.range nwin).any
    (windowOverflow s.act (ppOutputs s.act s.pp (rawSamples s.act sn (s.act.spanOf nwin))) s.mem))
  pp : full = true → x.pp = ppAfter s.act s.pp (rawSamples s.act sn s.act.featStride.toNat)
  rms : x.levelRms = levelRmsOf (rawSamples s.act sn (s.act.spanOf nwin))
  peak : x.levelPeak = levelPeakOf (rawSamples s.act sn (s.act.spanOf nwin))
  featMin : x.featMin = minF32 ((List.range (nwin * s.act.bands)).map fun j =>
    x.mem.val .feat ((s.act.frames - nwin) * s.act.bands + j))
  padding : ∀ j, j < (s.act.frames - nwin) * s.act.bands → x.mem.word .feat j = some x.featMin

/-- The data words an extraction may leave, whether or not a sample was evicted since BEGIN. -/
structure Extraction.Of (x : Extraction) (s : State) (full : Bool) : Prop where
  outside : SameOutside (featBlocks s.act) s.mem x.mem
  events : x.events = 0 ∨ x.events = 0x1000#15
  pp : full = false → x.pp = s.pp

theorem setIrqIf_featOvf (s : State) (b : Bool) :
    s.setIrqIf b .featOvf = { s with irqStatus := s.irqStatus ||| overflowEvents b } := by
  cases b with
  | true => rfl
  | false => exact congrArg (fun irq => { s with irqStatus := irq }) BitVec.or_zero.symm

/-! ### Free data words (R90) -/

/-- `u` is `s` with words of the extraction's arrays drawn freely. -/
def Drawn (s u : State) : Prop :=
  ∃ m draws, u = { s with mem := m, draws := draws } ∧ SameOutside (featBlocks s.act) s.mem m

theorem Drawn.array {s u : State} (h : Drawn s u) {a : Arr} {n : Nat} (hn : n ≤ featArea s.act a) :
    Drawn s (u.drawArray a n) := by
  obtain ⟨m, draws, rfl, hout⟩ := h
  exact ⟨_, _, rfl, hout.trans (sameOutside_featLoop hn _ m)⟩

theorem drawFeatures_withData (s : State) (nwin : Nat) (full : Bool) :
    ∃ x : Extraction, s.drawFeatures nwin full = s.withData x ∧ x.Of s full := by
  unfold State.drawFeatures
  extract_lets c a b d
  have hs : Drawn s s := ⟨_, _, rfl, sameOutside_refl _ _⟩
  have hfft : Drawn s ((s.drawArray .workRe c.fftSize).drawArray .workIm c.fftSize) :=
    (hs.array (Nat.le_refl _)).array (Nat.le_refl _)
  have ha : Drawn s a :=
    (((hfft.array (Nat.le_refl _)).array (Nat.le_refl _)).array (Nat.le_refl _)).array (Nat.le_refl _)
  obtain ⟨m, draws, hma, hout⟩ := ha
  have hb : ∃ mn rms peak draws, b = { s.withFeatures m mn rms peak s.pp with draws := draws } :=
    ⟨a.freeAt 0, a.freeAt 1, a.freeAt 2, a.draws + 3, by unfold b; rw [hma]; rfl⟩
  obtain ⟨mn, rms, peak, draws', hb⟩ := hb
  have hd : ∃ pp draws, (full = false → pp = s.pp) ∧ d = { s.withFeatures m mn rms peak pp with draws := draws } := by
    cases full with
    | false => exact ⟨s.pp, draws', fun _ => rfl, hb⟩
    | true => exact ⟨_, _, fun h => absurd h.symm Bool.false_ne_true, by
        unfold d
        rw [if_pos rfl, hb]
        rfl⟩
  obtain ⟨pp, draws'', hpp, hd⟩ := hd
  generalize freeOverflow c nwin s d = ovf
  refine ⟨⟨m, draws'' + (nwin - 1) * c.bands, mn, rms, peak, pp, overflowEvents ovf⟩, ?_,
    ⟨hout, overflowEvents_cases ovf, hpp⟩⟩
  rw [setIrqIf_featOvf, hd]
  rfl

/-! ### Exact or free (R90) -/

/-- Free words over the data of an extraction are data words an extraction may leave. -/
theorem drawFeatures_withFeatures {s : State} {m : Memory} {pp : PrepState} {full : Bool} (nwin : Nat)
    (mn rms peak : Word)
    (hout : SameOutside (featBlocks s.act) s.mem m) (hpp : full = false → pp = s.pp) :
    ∃ x : Extraction, (s.withFeatures m mn rms peak pp).drawFeatures nwin full = s.withData x ∧ x.Of s full := by
  obtain ⟨x, hx, hof⟩ := drawFeatures_withData (s.withFeatures m mn rms peak pp) nwin full
  exact ⟨x, hx, hout.trans hof.outside, hof.events, fun h => (hof.pp h).trans (hpp h)⟩

/-- The rows settle the data words: as they are computed, unless a sample was evicted since BEGIN. -/
theorem extractSettled_withData {full : Bool} {nwin : Nat} {s : State} (sn : Snapshot) (hl : s.act.Legal)
    (hc : Coefficients s.act s.mem) (hn : nwin ≤ s.act.frames)
    (hstride : full = true → s.act.featStride.toNat ≤ s.act.spanOf nwin) :
    ∃ r x, featRows s.act (ppOutputs s.act s.pp (rawSamples s.act sn (s.act.spanOf nwin))) nwin s.mem = .ok r ∧
      extractSettled full nwin sn s (rawSamples s.act sn (s.act.spanOf nwin)) r = s.withData x ∧ x.Of s full ∧
      (s.sclk.toNat ≤ sn.rpos.toNat + s.act.rbCap.toNat → x.Exact s sn full nwin) := by
  obtain ⟨r, hr, hout, hovf, hmn, hpad⟩ :=
    featRows_ok (ppOutputs s.act s.pp (rawSamples s.act sn (s.act.spanOf nwin))) hl hc hn
  let xs := rawSamples s.act sn (s.act.spanOf nwin)
  obtain ⟨rms, hrms⟩ : ∃ w, levelRmsOf xs = w := ⟨_, rfl⟩
  obtain ⟨peak, hpeak⟩ : ∃ w, levelPeakOf xs = w := ⟨_, rfl⟩
  obtain ⟨pp, hpp⟩ : ∃ p, (if full then ppAfter s.act s.pp (xs.take s.act.featStride.toNat) else s.pp) = p := ⟨_, rfl⟩
  have hkept (h : full = false) : pp = s.pp := by
    rw [← hpp, h]
    exact if_neg Bool.false_ne_true
  have hdata : extractData full s xs r = s.withFeatures r.mem r.mn rms peak pp := by
    rw [extractData, hrms, hpeak, hpp]
  cases hev : s.evicted sn with
  | true =>
    obtain ⟨x, hx, hof⟩ := drawFeatures_withFeatures nwin r.mn rms peak hout hkept
    refine ⟨r, x, hr, ?_, hof, fun hroom => ?_⟩
    · rw [extractSettled, hev, if_pos rfl, hdata, hx]
    · rw [evicted_eq_false hroom] at hev
      cases hev
  | false =>
    refine ⟨r, ⟨r.mem, s.draws, r.mn, rms, peak, pp, overflowEvents r.ovf⟩, hr, ?_,
      ⟨hout, overflowEvents_cases _, hkept⟩,
      fun _ => ⟨rfl, congrArg overflowEvents hovf, fun h => ?_, hrms.symm, hpeak.symm, hmn, hpad⟩⟩
    · rw [extractSettled, hev, if_neg Bool.false_ne_true, hdata, setIrqIf_featOvf]
      rfl
    · rw [← rawSamples_take s.act sn (hstride h)]
      exact hpp.symm.trans (if_pos h)

/-! ### The extraction (R256, R260) -/

/-- What a successful extraction leaves, but for RESULTn. -/
def State.withExtraction (s : State) (full : Bool) (sn : Snapshot) (span : Nat) (x : Extraction) : State :=
  { s.withData x with
    featValid := true, counters := { s.counters with featOk := s.counters.featOk + 1 }
    cycleTs := BitVec.ofNat 64 (sn.rpos.toNat + span)
    rpos0 := if full then BitVec.ofNat 64 (max (sn.rpos.toNat + s.act.featStride.toNat) s.rpos0.toNat) else s.rpos0 }

theorem extractClose_withData (full : Bool) (sn : Snapshot) (span : Nat) (s : State) (x : Extraction) :
    extractClose full sn s.act span (s.withData x)
      = (s.withExtraction full sn span x).setResult (if full then 1 else 2) := by
  cases full <;> rfl

/-- An extraction whose samples BEGIN found written completes. -/
theorem featDone_withExtraction {full : Bool} {nwin : Nat} {s : State} {sn : Snapshot} (hl : s.act.Legal)
    (hc : Coefficients s.act s.mem) (hn : nwin ≤ s.act.frames)
    (hstride : full = true → s.act.featStride.toNat ≤ s.act.spanOf nwin) (hcov : sn.covers s.act (s.act.spanOf nwin)) :
    ∃ x, featDone full nwin sn s
        = .ok ((s.withExtraction full sn (s.act.spanOf nwin) x).setResult (if full then 1 else 2)) ∧ x.Of s full ∧
      (s.sclk.toNat ≤ sn.rpos.toNat + s.act.rbCap.toNat → x.Exact s sn full nwin) := by
  obtain ⟨samples, hsamples, hraw⟩ := collect_rawSamples hcov
  obtain ⟨r, x, hr, hx, hof, hexact⟩ := extractSettled_withData sn hl hc hn hstride
  refine ⟨x, ?_, hof, hexact⟩
  rw [featDone_eq, hsamples]
  show featRows s.act (ppOutputs s.act s.pp (samples.map BitVec.toInt)) nwin s.mem >>= _ = _
  rw [hraw, hr, ← extractClose_withData, ← hx]
  rfl

/-- The windows of an extraction of `a` available samples (R256). -/
def windowCount (full : Bool) (c : Cfg) (a : Nat) : Nat := if full then c.frames else padWindows c a

theorem windowCount_le {full : Bool} {c : Cfg} {a : Nat} (hl : c.Legal) (h : full = false → a < c.required) :
    windowCount full c a ≤ c.frames := by
  cases full with
  | true => exact Nat.le_refl _
  | false =>
    have hshort : a < c.window + (c.frames - 1) * c.hop.toNat := h rfl
    have hdiv : (a - c.window) / c.hop.toNat ≤ c.frames - 1 :=
      Nat.div_le_of_le_mul (by rw [Nat.mul_comm]; omega)
    have hframes := hl.sizes.frames
    show (a - c.window) / c.hop.toNat + 1 ≤ c.frames
    omega

theorem effectFeatExtract_done {s : State} {sn : Snapshot}
    (h : s.act.required ≤ sn.avail ∨ s.act.padEn = true ∧ s.act.window ≤ sn.avail) :
    effectFeatExtract sn s = featDone (decide (s.act.required ≤ sn.avail))
      (windowCount (decide (s.act.required ≤ sn.avail)) s.act sn.avail) sn s := by
  unfold effectFeatExtract featMode
  by_cases hfull : s.act.required ≤ sn.avail
  · rw [if_pos hfull, decide_eq_true hfull]
    rfl
  · obtain ⟨hpad, hwindow⟩ := h.resolve_left hfull
    rw [if_neg hfull, if_pos (by rw [hpad, decide_eq_true hwindow]; rfl), decide_eq_false hfull]
    rfl

theorem checkFeatExtract_none {s : State} (h : s.cfgValid = true ∧ s.run = true) : checkFeatExtract s = none :=
  (thenCheck_eq_none_iff _ _).2 ⟨s.needcfg_eq_none_iff.2 h.1, s.needrun_eq_none_iff.2 h.2⟩

/-- A FULL or PAD FEAT_EXTRACT completes with its extraction. -/
theorem featExtract_withExtraction {s : State} {sn : Snapshot} {full : Bool}
    (hend : AtEnd s (s.cfgValid = true ∧ s.run = true) sn) (hl : s.act.Legal) (hc : Coefficients s.act s.mem)
    (hfull : full = decide (s.act.required ≤ sn.avail))
    (hmode : full = true ∨ s.act.padEn = true ∧ s.act.window ≤ sn.avail)
    (hcov : sn.covers s.act (s.act.spanOf (windowCount full s.act sn.avail))) :
    ∃ x : Extraction, exec .featExtract s
        = .next (((s.withExtraction full sn (s.act.spanOf (windowCount full s.act sn.avail)) x).setResult
            (if full then 1 else 2)).complete 0x38 none) ∧ x.Of s full ∧
      (s.sclk.toNat ≤ sn.rpos.toNat + s.act.rbCap.toNat → x.Exact s sn full (windowCount full s.act sn.avail)) := by
  have hwindows : windowCount full s.act sn.avail ≤ s.act.frames := windowCount_le hl fun h => by
    rw [hfull, decide_eq_false_iff_not] at h
    exact Nat.lt_of_not_le h
  have hstride (h : full = true) : s.act.featStride.toNat ≤ s.act.spanOf (windowCount full s.act sn.avail) := by
    rw [h]
    exact hl.stride_le
  obtain ⟨x, hx, hof, hexact⟩ := featDone_withExtraction hl hc hwindows hstride hcov
  refine ⟨x, ?_, hof, hexact⟩
  have heffect := effectFeatExtract_done (s := s) (sn := sn) (hmode.imp_left fun h => of_decide_eq_true (hfull ▸ h))
  rw [← hfull, hx] at heffect
  rw [exec_featExtract]
  exact runCommand_atEnd hend checkFeatExtract_none heffect

/-- Settles O33: the data words are the extraction's, and the rest is `State.withExtraction`. -/
theorem featExtractFullAndPadOutcomes : Obligations.FeatExtractFullAndPadOutcomes := by
  unfold Obligations.FeatExtractFullAndPadOutcomes
  intro s sn hend hl c a full nwin span n m x v overflow hmode hcov hwin hre him hmel
  obtain ⟨y, hrun, hof, hexact⟩ :=
    featExtract_withExtraction (full := full) hend hl (coefficients_of hwin hre him hmel) rfl hmode hcov
  refine ⟨_, y.events, hrun, hof.events, ?_, rfl, hof.outside, hof.pp, fun hroom => ?_⟩
  · exact completed_setResult (v := s.withExtraction full sn span y) 0x38 (if full then 1 else 2) rfl rfl rfl rfl
  · have he := hexact hroom
    exact ⟨he.draws, he.events, he.pp, he.rms.trans (levelRms_rawSamples _ _ _),
      he.peak.trans (levelPeak_rawSamples _ _ _), he.featMin, he.padding⟩

end Sys2Proof.Machine
end

section
/-!
The decoder and the encoder (spec/30_encoding.md R110-R114): where each format has its operand field, that a command word
is its operand field above its opcode byte, and what the decoder answers on each word.
-/

namespace Sys2Proof

/-! ### Opcode bytes (R113, R114) -/

theorem Opcode.ofByte_eq_some_iff {b : Byte} {op : Opcode} : Opcode.ofByte b = some op ↔ op.byte = b := by
  constructor
  · intro h
    exact eq_of_beq (List.find?_some (p := fun op : Opcode => op.byte == b) h)
  · rintro rfl
    cases op <;> rfl

theorem Opcode.ofByte_eq_none_iff {b : Byte} : Opcode.ofByte b = none ↔ ∀ op : Opcode, op.byte ≠ b := by
  constructor
  · intro h op hb
    rw [Opcode.ofByte_eq_some_iff.2 hb] at h
    cases h
  · intro h
    cases hop : Opcode.ofByte b with
    | none => rfl
    | some op => exact absurd (Opcode.ofByte_eq_some_iff.1 hop) (h op)

theorem opcodeByte_toNat (w : Word) : (opcodeByte w).toNat = w.toNat % 256 := by
  rw [opcodeByte, BitVec.extractLsb'_toNat, Nat.shiftRight_zero]

/-- The opcode bytes that R114 reserves, as numbers. -/
def ReservedOpcode (k : Nat) : Prop :=
  (0x05 ≤ k ∧ k ≤ 0x0F) ∨ (0x12 ≤ k ∧ k ≤ 0x1F) ∨ (0x22 ≤ k ∧ k ≤ 0x27) ∨ (0x2C ≤ k ∧ k ≤ 0x2F) ∨
    (0x32 ≤ k ∧ k ≤ 0x37) ∨ (0x39 ≤ k ∧ k ≤ 0x3F) ∨ (0x43 ≤ k ∧ k ≤ 0x4F) ∨ (0x53 ≤ k ∧ k ≤ 0xFF)

theorem Opcode.not_reserved (op : Opcode) : ¬ReservedOpcode op.byte.toNat := by
  unfold ReservedOpcode
  cases op <;> decide

/-- A byte outside the ranges of R114 is in the opcode map. -/
theorem Opcode.exists_of_not_reserved {b : Byte} (h : ¬ReservedOpcode b.toNat) : ∃ op : Opcode, op.byte = b := by
  have hmap : ∃ op ∈ Opcode.all, op.byte.toNat = b.toNat := by
    have hb := b.isLt
    unfold ReservedOpcode at h
    simp only [Opcode.all, List.exists_mem_cons_iff, List.not_mem_nil, false_and, exists_false, or_false, Opcode.byte,
      BitVec.ofNat_eq_ofNat, BitVec.reduceToNat]
    omega
  obtain ⟨op, -, hop⟩ := hmap
  exact ⟨op, BitVec.eq_of_toNat_eq hop⟩

theorem Opcode.ofByte_eq_none_iff_reserved {b : Byte} : Opcode.ofByte b = none ↔ ReservedOpcode b.toNat := by
  rw [Opcode.ofByte_eq_none_iff]
  constructor
  · intro h
    by_contra hr
    obtain ⟨op, hop⟩ := Opcode.exists_of_not_reserved hr
    exact h op hop
  · rintro h op rfl
    exact op.not_reserved h

/-- The channels column of R113, from the opcode's number. -/
def LegalHere (n : Chan) (k : Nat) : Prop :=
  k = 0x00 ∨ k = 0x10 ∨ k = 0x11 ∨ (n = .ch1 ↔ (0x50 ≤ k ∧ k ≤ 0x52))

theorem Opcode.legalHere_iff (op : Opcode) (n : Chan) : LegalHere n op.byte.toNat ↔ op.legalOn n = true := by
  unfold LegalHere
  cases n <;> cases op <;> decide

/-- The bits above the opcode byte that R111 fixes at 0, from the opcode's number. -/
def reservedMask (k : Nat) : Word :=
  if k = 0x10 ∨ k = 0x11 ∨ k = 0x20 ∨ k = 0x50 then 0x0000FF00
  else if k = 0x29 then 0xFFFFF000 else if k = 0x40 then 0xFFFFFE00 else 0xFFFFFF00

theorem Opcode.reservedMask_byte (op : Opcode) : reservedMask op.byte.toNat = op.format.reservedBits := by
  cases op <;> rfl

/-! ### What the decoder answers (R110) -/

theorem decode_of_opcode {w : Word} {op : Opcode} (h : Opcode.ofByte (opcodeByte w) = some op) :
    decode w = if w &&& op.format.reservedBits ≠ 0 then .error .reservedBit else .ok (op.assemble w) := by
  simp only [decode, h]

theorem decodeOn_of_opcode {w : Word} {op : Opcode} (n : Chan) (h : Opcode.ofByte (opcodeByte w) = some op) :
    decodeOn n w = if op.legalOn n = true then decode w else .error .wrongChannel := by
  simp only [decodeOn, h]

theorem decodeOn_unmapped {w : Word} (n : Chan) (h : Opcode.ofByte (opcodeByte w) = none) :
    decodeOn n w = .error .badOpcode := by simp only [decodeOn, h]

theorem decode_eq_ok_iff {w : Word} {i : Instr} :
    decode w = .ok i ↔ ∃ op : Opcode, op.byte = opcodeByte w ∧ w &&& op.format.reservedBits = 0 ∧ op.assemble w = i := by
  constructor
  · intro h
    cases hop : Opcode.ofByte (opcodeByte w) with
    | none =>
      simp only [decode, hop] at h
      cases h
    | some op =>
      rw [decode_of_opcode hop] at h
      split at h
      · cases h
      · next hr => exact ⟨op, Opcode.ofByte_eq_some_iff.1 hop, not_not.1 hr, Except.ok.inj h⟩
  · rintro ⟨op, hop, hr, rfl⟩
    rw [decode_of_opcode (Opcode.ofByte_eq_some_iff.2 hop), if_neg (not_not.2 hr)]

/-- A word whose opcode is not one of the channel's is refused, whatever its other bits (R110). -/
theorem decodeOn_illegal {w : Word} {op : Opcode} {n : Chan} (hop : op.byte = opcodeByte w)
    (hn : op.legalOn n = false) : decodeOn n w = .error .wrongChannel := by
  rw [decodeOn_of_opcode n (Opcode.ofByte_eq_some_iff.2 hop), hn, if_neg Bool.false_ne_true]

/-- Settles O4: a byte the map does not hold is a reserved one, and an opcode of the map settles the channel and the
mask. -/
theorem everyWordHasOneDecodeOutcome : Obligations.EveryWordHasOneDecodeOutcome := by
  unfold Obligations.EveryWordHasOneDecodeOutcome
  intro n w
  show (_ ↔ ReservedOpcode (w.toNat % 256)) ∧ (_ ↔ ¬ReservedOpcode (w.toNat % 256) ∧ ¬LegalHere n (w.toNat % 256)) ∧
    (_ ↔ ¬ReservedOpcode (w.toNat % 256) ∧ LegalHere n (w.toNat % 256) ∧ w &&& reservedMask (w.toNat % 256) ≠ 0)
  rw [← opcodeByte_toNat]
  cases hop : Opcode.ofByte (opcodeByte w) with
  | none =>
    have hr := Opcode.ofByte_eq_none_iff_reserved.1 hop
    rw [decodeOn_unmapped n hop]
    simp [hr]
  | some op =>
    rw [← Opcode.ofByte_eq_some_iff.1 hop, op.legalHere_iff, op.reservedMask_byte, decodeOn_of_opcode n hop,
      decode_of_opcode hop]
    have hr := op.not_reserved
    by_cases hn : op.legalOn n = true
    · rw [if_pos hn]
      by_cases hw : w &&& op.format.reservedBits = 0
      · rw [if_neg (not_not.2 hw)]
        simp [hr, hn, hw]
      · rw [if_pos hw]
        simpa [hr, hn] using hw
    · rw [if_neg hn]
      simp [hr, hn]

/-! ### The operand field of a format (R111) -/

/-- The lowest bit of a format's operand field. -/
def Format.fieldStart : Format → Nat
  | .cn | .cs | .cv => 8
  | .cc | .cx => 16

/-- The width of a format's operand field; a format without an operand has an empty one. -/
@[reducible] def Format.fieldWidth : Format → Nat
  | .cn => 0
  | .cs => 4
  | .cv => 1
  | .cc | .cx => 16

/-- The operand field of a word. -/
def Format.field (f : Format) (w : Word) : BitVec f.fieldWidth := w.extractLsb' f.fieldStart f.fieldWidth

/-- The bits of a command word with an operand field and an opcode byte. -/
def Format.word (f : Format) (x : BitVec f.fieldWidth) (b : Byte) : Word :=
  x.setWidth 32 <<< f.fieldStart ||| b.setWidth 32

theorem Format.field_bounds (f : Format) : 8 ≤ f.fieldStart ∧ f.fieldStart + f.fieldWidth ≤ 32 := by
  cases f <;> decide

/-- Above the opcode byte, exactly the bits outside the operand field are reserved. -/
theorem Format.reservedBits_getLsbD (f : Format) : ∀ k < 32, f.reservedBits.getLsbD k =
    (decide (8 ≤ k) && !(decide (f.fieldStart ≤ k) && decide (k < f.fieldStart + f.fieldWidth))) := by
  cases f <;> decide

theorem Format.word_getLsbD (f : Format) (x : BitVec f.fieldWidth) (b : Byte) {k : Nat} (hk : k < 32) :
    (f.word x b).getLsbD k = (decide (f.fieldStart ≤ k) && x.getLsbD (k - f.fieldStart) || b.getLsbD k) := by
  have hsub : k - f.fieldStart < 32 := Nat.lt_of_le_of_lt (Nat.sub_le _ _) hk
  rw [Format.word, BitVec.getLsbD_or, BitVec.getLsbD_shiftLeft, BitVec.getLsbD_setWidth, BitVec.getLsbD_setWidth]
  by_cases h : f.fieldStart ≤ k
  · simp [hk, hsub, h, Nat.not_lt_of_le h]
  · simp [hk, h, Nat.lt_of_not_le h]

/-- The operand field of a command word is the operand. -/
theorem Format.field_word (f : Format) (x : BitVec f.fieldWidth) (b : Byte) : f.field (f.word x b) = x := by
  obtain ⟨hstart, hend⟩ := f.field_bounds
  apply BitVec.eq_of_getLsbD_eq
  intro k hk
  have hb : b.getLsbD (f.fieldStart + k) = false := BitVec.getLsbD_of_ge b _ (by omega)
  rw [Format.field, BitVec.getLsbD_extractLsb', f.word_getLsbD x b (by omega), hb]
  simp [hk]

/-- A word without reserved bits is its operand field above its opcode byte. -/
theorem Format.word_field (f : Format) {w : Word} (h : w &&& f.reservedBits = 0) :
    f.word (f.field w) (opcodeByte w) = w := by
  obtain ⟨hstart, hend⟩ := f.field_bounds
  apply BitVec.eq_of_getLsbD_eq
  intro k hk
  have hclear : (w.getLsbD k && f.reservedBits.getLsbD k) = false := by
    rw [← BitVec.getLsbD_and, h]
    exact BitVec.getLsbD_zero
  rw [f.reservedBits_getLsbD k hk] at hclear
  rw [f.word_getLsbD _ _ hk, Format.field, opcodeByte, BitVec.getLsbD_extractLsb', BitVec.getLsbD_extractLsb']
  by_cases hlow : k < 8
  · simp [hlow, show ¬f.fieldStart ≤ k by omega]
  · by_cases hfield : f.fieldStart ≤ k ∧ k < f.fieldStart + f.fieldWidth
    · obtain ⟨hle, hlt⟩ := hfield
      simp [hlow, hle, show k - f.fieldStart < f.fieldWidth by omega, Nat.add_sub_cancel' hle]
    · have hout : w.getLsbD k = false := by
        rw [← Bool.decide_and, decide_eq_false hfield, decide_eq_true (Nat.le_of_not_lt hlow)] at hclear
        simpa using hclear
      by_cases hle : f.fieldStart ≤ k
      · simp [hlow, hout, Nat.add_sub_cancel' hle]
      · simp [hlow, hout, hle]

/-! ### Decoding and encoding (R110, R112) -/

theorem opcodeByte_encode (i : Instr) : opcodeByte (encode i) = i.opcode.byte := by
  cases i with
  | rbRead n => exact Laws.OpcodeByte.rbRead n
  | rbPeek n => exact Laws.OpcodeByte.rbPeek n
  | preStep x => exact Laws.OpcodeByte.preStep x
  | fftStage n => exact Laws.OpcodeByte.fftStage n
  | decStep v => exact Laws.OpcodeByte.decStep v
  | alawEnc x => exact Laws.OpcodeByte.alawEnc x
  | _ => rfl

theorem reservedBits_encode (i : Instr) : encode i &&& i.opcode.format.reservedBits = 0 := by
  cases i with
  | rbRead n => exact Laws.ReservedClear.rbRead n
  | rbPeek n => exact Laws.ReservedClear.rbPeek n
  | preStep x => exact Laws.ReservedClear.preStep x
  | fftStage n => exact Laws.ReservedClear.fftStage n
  | decStep v => exact Laws.ReservedClear.decStep v
  | alawEnc x => exact Laws.ReservedClear.alawEnc x
  | _ => rfl

theorem sampleFits_iff {x : Int} : Instr.sampleFits x = true ↔ -32768 ≤ x ∧ x ≤ 32767 := by
  simp [Instr.sampleFits]

theorem sampleFits_toInt (x : Sample) : Instr.sampleFits x.toInt = true :=
  sampleFits_iff.2 ⟨BitVec.le_toInt x, Int.le_of_lt_add_one BitVec.toInt_lt⟩

theorem toInt_ofInt_of_sampleFits {x : Int} (h : Instr.sampleFits x = true) : (BitVec.ofInt 16 x).toInt = x := by
  obtain ⟨hlo, hhi⟩ := sampleFits_iff.1 h
  exact BitVec.toInt_ofInt_eq_self (by decide) hlo (by omega)

theorem fieldNCNT_word (x : BitVec 16) (b : Byte) : fieldNCNT (Format.cc.word x b) = x.toNat :=
  congrArg BitVec.toNat (Format.cc.field_word x b)

theorem fieldX_word (x : BitVec 16) (b : Byte) : fieldX (Format.cx.word x b) = x.toInt :=
  congrArg BitVec.toInt (Format.cx.field_word x b)

theorem fieldS_word (x : BitVec 4) (b : Byte) : fieldS (Format.cs.word x b) = x.toNat :=
  congrArg BitVec.toNat (Format.cs.field_word x b)

theorem fieldV_eq (w : Word) : fieldV w = (Format.cv.field w).getLsbD 0 := by
  rw [Format.field, BitVec.getLsbD_extractLsb']
  rfl

theorem fieldV_word (x : BitVec 1) (b : Byte) : fieldV (Format.cv.word x b) = x.getLsbD 0 := by
  rw [fieldV_eq, Format.cv.field_word x b]

/-- Operand assembly reads back the operand of a well-formed command (R112). -/
theorem assemble_encode {i : Instr} (h : i.wellFormed = true) : i.opcode.assemble (encode i) = i := by
  cases i with
  | rbRead n => exact congrArg Instr.rbRead ((fieldNCNT_word _ 0x10).trans (Nat.mod_eq_of_lt (of_decide_eq_true h)))
  | rbPeek n => exact congrArg Instr.rbPeek ((fieldNCNT_word _ 0x11).trans (Nat.mod_eq_of_lt (of_decide_eq_true h)))
  | preStep x => exact congrArg Instr.preStep ((fieldX_word _ 0x20).trans (toInt_ofInt_of_sampleFits h))
  | fftStage n => exact congrArg Instr.fftStage ((fieldS_word _ 0x29).trans (Nat.mod_eq_of_lt (of_decide_eq_true h)))
  | decStep v => exact congrArg Instr.decStep ((fieldV_word _ 0x40).trans (by cases v <;> rfl))
  | alawEnc x => exact congrArg Instr.alawEnc ((fieldX_word _ 0x50).trans (toInt_ofInt_of_sampleFits h))
  | _ => rfl

theorem decode_encode {i : Instr} (h : i.wellFormed = true) : decode (encode i) = .ok i :=
  decode_eq_ok_iff.2 ⟨i.opcode, (opcodeByte_encode i).symm, reservedBits_encode i, assemble_encode h⟩

theorem decodeOn_encode {i : Instr} {n : Chan} (h : i.wellFormed = true) (hn : i.opcode.legalOn n = true) :
    decodeOn n (encode i) = .ok i := by
  rw [decodeOn_of_opcode n (Opcode.ofByte_eq_some_iff.2 (opcodeByte_encode i).symm), if_pos hn, decode_encode h]

/-- Settles O1: the encoding has the opcode's byte, no reserved bit, and the operand in the field that assembly reads. -/
theorem decodeOfEncodeIsTheCommand : Obligations.DecodeOfEncodeIsTheCommand := by
  unfold Obligations.DecodeOfEncodeIsTheCommand
  exact fun i n h => ⟨decode_encode h, decodeOn_encode h⟩

/-- The operand bits of an assembled command are the word's operand field. -/
theorem operandBits_assemble (op : Opcode) (w : Word) :
    (op.assemble w).operandBits = (op.format.field w).setWidth 32 <<< op.format.fieldStart := by
  have hempty (x : BitVec 0) : (0 : Word) = x.setWidth 32 <<< 8 := by
    rw [BitVec.eq_nil x]
    rfl
  have hcount : BitVec.ofNat 16 (fieldNCNT w) = w.extractLsb' 16 16 := by
    rw [fieldNCNT, BitVec.ofNat_toNat, BitVec.setWidth_eq]
  have hstage : BitVec.ofNat 4 (fieldS w) = w.extractLsb' 8 4 := by
    rw [fieldS, BitVec.ofNat_toNat, BitVec.setWidth_eq]
  have hsample : BitVec.ofInt 16 (fieldX w) = w.extractLsb' 16 16 := BitVec.ofInt_toInt
  have hflag : BitVec.ofBool (fieldV w) = w.extractLsb' 8 1 := by
    apply BitVec.eq_of_getLsbD_eq
    intro k hk
    obtain rfl : k = 0 := Nat.lt_one_iff.1 hk
    rw [BitVec.getLsbD_extractLsb']
    simp [fieldV]
  cases op with
  | rbRead | rbPeek => exact congrArg (fun x : BitVec 16 => x.setWidth 32 <<< 16) hcount
  | preStep | alawEnc => exact congrArg (fun x : BitVec 16 => x.setWidth 32 <<< 16) hsample
  | fftStage => exact congrArg (fun x : BitVec 4 => x.setWidth 32 <<< 8) hstage
  | decStep => exact congrArg (fun x : BitVec 1 => x.setWidth 32 <<< 8) hflag
  | _ => exact hempty _

theorem encode_assemble {op : Opcode} {w : Word} (hop : op.byte = opcodeByte w)
    (hr : w &&& op.format.reservedBits = 0) : encode (op.assemble w) = w :=
  calc encode (op.assemble w)
    _ = op.format.word (op.format.field w) op.byte := by
      rw [encode, operandBits_assemble, Machine.assemble_opcode, Format.word]
    _ = w := by rw [hop, op.format.word_field hr]

theorem wellFormed_assemble (op : Opcode) (w : Word) : (op.assemble w).wellFormed = true := by
  have hcount : Instr.countFits (fieldNCNT w) = true := decide_eq_true (BitVec.isLt _)
  have hstage : Instr.stageFits (fieldS w) = true := decide_eq_true (BitVec.isLt _)
  have hsample : Instr.sampleFits (fieldX w) = true := sampleFits_toInt _
  cases op with
  | rbRead | rbPeek => exact hcount
  | preStep | alawEnc => exact hsample
  | fftStage => exact hstage
  | _ => rfl

/-- Settles O2: a word without reserved bits is its operand field above its opcode byte, and both are the command's. -/
theorem encodeOfDecodeIsTheWord : Obligations.EncodeOfDecodeIsTheWord := by
  unfold Obligations.EncodeOfDecodeIsTheWord
  intro w i h
  obtain ⟨op, hop, hr, rfl⟩ := decode_eq_ok_iff.1 h
  exact ⟨encode_assemble hop hr, wellFormed_assemble op w⟩

/-! ### The opcode map (R113) -/

/-- A command word as a number: the operand in its field, and the opcode byte. -/
theorem Format.word_ofNat (f : Format) (k : Nat) (hk : k < 2 ^ f.fieldWidth) (b : Byte) :
    f.word (BitVec.ofNat f.fieldWidth k) b = BitVec.ofNat 32 (k * 2 ^ f.fieldStart + b.toNat) := by
  obtain ⟨hstart, hend⟩ := f.field_bounds
  have hb : b.toNat < 2 ^ f.fieldStart := Nat.lt_of_lt_of_le b.isLt (Nat.pow_le_pow_right (by decide) hstart)
  have hk32 : k < 2 ^ 32 := Nat.lt_of_lt_of_le hk (Nat.pow_le_pow_right (by decide) (by omega))
  apply BitVec.eq_of_toNat_eq
  rw [Format.word, BitVec.toNat_or, BitVec.toNat_shiftLeft, BitVec.toNat_setWidth, BitVec.toNat_setWidth,
    BitVec.toNat_ofNat, BitVec.toNat_ofNat, Nat.mod_eq_of_lt hk, Nat.mod_eq_of_lt hk32, ← Nat.shiftLeft_eq,
    Nat.shiftLeft_add_eq_or_of_lt hb, Nat.or_mod_two_pow]

/-- The command word with a sample is the sample above a 16-bit half that holds the opcode. -/
theorem sampleWord_eq_append (x : Sample) (b : Byte) :
    Format.cx.word (BitVec.ofInt 16 x.toInt) b = x ++ b.setWidth 16 := by
  rw [BitVec.ofInt_toInt]
  apply BitVec.eq_of_getLsbD_eq
  intro k hk
  rw [Format.cx.word_getLsbD x b hk, BitVec.getLsbD_append, BitVec.getLsbD_setWidth]
  by_cases h : k < 16
  · simp [h, Format.fieldStart, Nat.not_le_of_lt h]
  · have hb : b.getLsbD k = false := BitVec.getLsbD_of_ge b k (by omega)
    simp [h, hb, Format.fieldStart, Nat.le_of_not_lt h]

theorem decodeOn_of_encode_eq {i : Instr} {n : Chan} {w : Word} (hw : encode i = w) (hi : i.wellFormed = true)
    (hn : i.opcode.legalOn n = true) : decodeOn n w = .ok i := by
  rw [← hw, decodeOn_encode hi hn]

/-- The channel refuses each byte of a list whose opcodes are all legal on the other channel only. -/
theorem decodeOn_illegal_of_mem {n : Chan} {bytes : List Byte}
    (h : ∀ b ∈ bytes, ∃ op ∈ Opcode.all, op.byte = b ∧ op.legalOn n = false) {w : Word} (hw : opcodeByte w ∈ bytes) :
    decodeOn n w = .error .wrongChannel := by
  obtain ⟨op, -, hop, hn⟩ := h _ hw
  exact decodeOn_illegal hop hn

/-- Settles O3: an operand row's word is its command's encoding, and the rows without an operand are one word each. -/
theorem opcodeMapWordsDecodeAsListed : Obligations.OpcodeMapWordsDecodeAsListed := by
  unfold Obligations.OpcodeMapWordsDecodeAsListed
  refine ⟨fun n => ?nop, rfl, rfl, rfl, rfl, fun n k hk => ?rbRead, fun n k hk => ?rbPeek, fun x => ?preStep, rfl, rfl,
    fun k hk => ?fftStage, rfl, rfl, rfl, rfl, rfl, rfl, rfl, rfl, rfl, fun x => ?alawEnc, rfl, rfl, fun w hw => ?ch1,
    fun w hw => ?ch0⟩
  case nop => exact decodeOn_encode (i := .nop) rfl rfl
  case rbRead => exact decodeOn_of_encode_eq (Format.cc.word_ofNat k hk 0x10) (decide_eq_true hk) rfl
  case rbPeek => exact decodeOn_of_encode_eq (Format.cc.word_ofNat k hk 0x11) (decide_eq_true hk) rfl
  case preStep => exact decodeOn_of_encode_eq (sampleWord_eq_append x 0x20) (sampleFits_toInt x) rfl
  case fftStage => exact decodeOn_of_encode_eq (Format.cs.word_ofNat k hk 0x29) (decide_eq_true hk) rfl
  case alawEnc => exact decodeOn_of_encode_eq (sampleWord_eq_append x 0x50) (sampleFits_toInt x) rfl
  case ch1 => exact decodeOn_illegal_of_mem (by decide) hw
  case ch0 => exact decodeOn_illegal_of_mem (by decide) hw

/-- Settles O5, by evaluating the decoder on each word. -/
theorem sampleWordsDecodeToTheirCommands : Obligations.SampleWordsDecodeToTheirCommands :=
  ⟨rfl, rfl, rfl, rfl, rfl, rfl, rfl⟩

end Sys2Proof
end

section
/-!
The step of a busy engine (spec/30_encoding.md R110): it runs the command that the pending word decodes to, or completes
with the decode error.
-/

namespace Sys2Proof.Machine

theorem step_run {s : State} {n : Chan} {rest : List Input} (h : s.inputs = .run n :: rest) :
    step s = ({ s with inputs := rest, active := n } : State).engineRun := step_cons h

theorem step_begin {s : State} {n : Chan} {rest : List Input} (h : s.inputs = .begin n :: rest) :
    step s = ({ s with inputs := rest, active := n } : State).engineBegin := step_cons h

theorem State.busy_of_word {s : State} {n : Chan} {w : Word} (h : (s.chan n).pending.word? = some w) :
    s.busy n = true := by
  rw [State.busy]
  cases hp : (s.chan n).pending with
  | idle =>
    rw [hp] at h
    cases h
  | latched w => rfl
  | begun w v sn => rfl

theorem quietStep_active {s : State} (h : s.busy s.active = true) : s.quietStep = s.engineRun := by
  rw [State.quietStep, if_pos h]

theorem quietStep_other {s : State} (h : s.busy s.active = false) (ho : s.busy (otherChan s.active) = true) :
    s.quietStep = (s.activate (otherChan s.active)).engineRun := by
  rw [State.quietStep, h, if_neg Bool.false_ne_true, if_pos ho]

theorem beginIsEnd_eq_true {i : Instr} (h : i = .cfgCommit ∨ i = .resetRt) : beginIsEnd i = true := by
  rcases h with rfl | rfl <;> rfl

/-- Settles O6: each schedule gives the channel's engine its END step, or a BEGIN step that is also END. -/
theorem stepRunsTheDecodedCommand : Obligations.StepRunsTheDecodedCommand := by
  unfold Obligations.StepRunsTheDecodedCommand
  intro s n rest w i hd
  refine ⟨fun hin hp => ?_, fun hin hp hi => ?_, fun hin hn hp => ?_, fun hin hn hidle hp => ?_⟩
  · rw [step_run hin]
    exact engineRun_decoded (s := { s with inputs := rest, active := n }) hp hd
  · rw [step_begin hin, engineBegin_latched (s := { s with inputs := rest, active := n }) hp hd, beginIsEnd_eq_true hi,
      if_pos rfl]
  · subst hn
    rw [step_nil hin, quietStep_active (State.busy_of_word hp), engineRun_decoded hp hd]
  · subst hn
    rw [step_nil hin, quietStep_other hidle (State.busy_of_word hp)]
    exact engineRun_decoded (s := s.activate (otherChan s.active)) hp hd

/-- A decode error is never the code of success (R350). -/
theorem code_ofDecode_ne_zero (e : DecodeRefusal) : (ErrCode.ofDecode e).code ≠ 0 := by
  cases e <;> decide

/-- A scheduled word that does not decode completes with its decode error (R110). -/
theorem step_run_undecoded {s : State} {n : Chan} {rest : List Input} {w : Word} {e : DecodeRefusal}
    (hin : s.inputs = .run n :: rest) (hp : (s.chan n).pending.word? = some w) (hd : decodeOn n w = .error e) :
    ∃ t, step s = .next t ∧
      FailedWith { s with inputs := rest, active := n } t (opcodeByte w) (ErrCode.ofDecode e).code :=
  ⟨_, (step_run hin).trans (engineRun_undecoded (s := { s with inputs := rest, active := n }) hp hd),
    failedWith_complete _ _ _ (code_ofDecode_ne_zero e)⟩

/-- Settles O7: a reserved opcode is the decode error BAD_OPCODE, and each decode error completes with its code. -/
theorem undecodableCommandsCompleteWithTheirCode : Obligations.UndecodableCommandsCompleteWithTheirCode := by
  unfold Obligations.UndecodableCommandsCompleteWithTheirCode
  intro s n rest w hin hp u opc
  refine ⟨fun hr => ?_, step_run_undecoded hin hp, step_run_undecoded hin hp⟩
  obtain ⟨hbad, -, -⟩ := everyWordHasOneDecodeOutcome n w
  exact step_run_undecoded hin hp (hbad.2 hr)

end Sys2Proof.Machine
end

section
/-!
The control commands (spec/40_control.md): the checks that refuse a command, in their order (R141, R350, R351), the
validation list of CFG_COMMIT (R143), and what NOP, START, STOP, CFG_COMMIT and RESET_RT do once their checks have passed.
-/

namespace Sys2Proof.Machine

/-! ### A command whose checks find an error (R351, R352) -/

/-- The verdict falls on the present state where BEGIN is END, and where no BEGIN has been recorded (R90). -/
theorem beginFound_now {i : Instr} {s : State} (h : beginIsEnd i = true ∨ s.fresh) :
    beginFound i s = (commandCheck i s, s.snapshot) := by
  rcases h with hi | hf
  · rw [beginFound, hi, if_pos rfl]
  · rw [beginFound, State.beginResult_fresh hf, ite_self]

/-- A command whose checks find an error now completes with its code. -/
theorem exec_refused {i : Instr} {s : State} {e : ErrCode} (hnow : beginIsEnd i = true ∨ s.fresh)
    (hcheck : commandCheck i s = some e) (hcode : e.code ≠ 0) :
    ∃ t, exec i s = .next t ∧ FailedWith s t i.opcode.byte e.code :=
  ⟨_, by rw [exec_eq_finish, beginFound_now hnow, hcheck, State.finish_error], failedWith_complete s _ e hcode⟩

/-! ### The preconditions (R141) -/

theorem State.needcfg_refuses {s : State} (h : s.cfgValid = false) : s.needcfg = some .noConfig := by
  rw [State.needcfg, h, if_neg Bool.false_ne_true]

theorem State.needrun_refuses {s : State} (h : s.run = false) : s.needrun = some .notRunning := by
  rw [State.needrun, h, if_neg Bool.false_ne_true]

theorem State.needstop_refuses {s : State} (h : s.run = true) : s.needstop = some .running := by
  rw [State.needstop, if_pos h]

theorem State.needidle1_refuses {s : State} (h : s.busy .ch1 = true) : s.needidle1 = some .otherBusy := by
  rw [State.needidle1, if_pos h]

theorem thenCheck_of_first {a : Option ErrCode} {e : ErrCode} (h : a = some e) (b : Option ErrCode) :
    thenCheck a b = some e := by rw [h, thenCheck_some]

theorem thenCheck_of_second {a b : Option ErrCode} {e : ErrCode} (ha : a = none) (hb : b = some e) :
    thenCheck a b = some e := by rw [ha, thenCheck_none, hb]

theorem thenCheck_none_right (a : Option ErrCode) : thenCheck a none = a := by
  cases a <;> rfl

/-- The commands that need a configuration. -/
def needsConfig : Instr → Bool
  | .start | .rbRead _ | .rbPeek _ | .preStep _ | .winApply | .fftBitrev | .fftStage _ | .fftFull | .fftPower | .melApply
  | .logCompress | .featExtract | .decStep _ | .codecFrame => true
  | .nop | .cfgCommit | .stop | .resetRt | .decReset | .evtPop | .alawEnc _ | .pktPop => false

/-- The commands that need RUN = 1. -/
def needsRun : Instr → Bool
  | .featExtract | .decStep _ | .codecFrame => true
  | .nop | .cfgCommit | .start | .stop | .resetRt | .rbRead _ | .rbPeek _ | .preStep _ | .winApply | .fftBitrev
  | .fftStage _ | .fftFull | .fftPower | .melApply | .logCompress | .decReset | .evtPop | .alawEnc _ | .pktPop => false

theorem commandCheck_of_needsConfig {i : Instr} (h : needsConfig i = true) (s : State) :
    ∃ rest, commandCheck i s = thenCheck s.needcfg rest := by
  cases i with
  | start | winApply | fftBitrev | fftFull | fftPower | melApply | logCompress =>
    exact ⟨none, (thenCheck_none_right s.needcfg).symm⟩
  | rbRead | rbPeek | preStep | fftStage | featExtract | decStep | codecFrame => exact ⟨_, rfl⟩
  | _ => cases h

theorem commandCheck_of_needsRun {i : Instr} (h : needsRun i = true) (s : State) :
    commandCheck i s = thenCheck s.needcfg s.needrun := by
  cases i with
  | featExtract | decStep | codecFrame => rfl
  | _ => cases h

/-- CFG_COMMIT and RESET_RT need RUN = 0, then channel 1 idle. -/
theorem commandCheck_of_beginIsEnd {i : Instr} (h : beginIsEnd i = true) (s : State) :
    ∃ rest, commandCheck i s = thenCheck s.needstop (thenCheck s.needidle1 rest) := by
  cases i with
  | cfgCommit => exact ⟨_, rfl⟩
  | resetRt => exact ⟨none, congrArg (thenCheck s.needstop) (thenCheck_none_right s.needidle1).symm⟩
  | _ => cases h

theorem commandCheck_noConfig {i : Instr} {s : State} (hi : needsConfig i = true) (h : s.cfgValid = false) :
    commandCheck i s = some .noConfig := by
  obtain ⟨rest, hcheck⟩ := commandCheck_of_needsConfig hi s
  rw [hcheck, thenCheck_of_first (State.needcfg_refuses h)]

theorem commandCheck_notRunning {i : Instr} {s : State} (hi : needsRun i = true) (hc : s.cfgValid = true)
    (h : s.run = false) : commandCheck i s = some .notRunning := by
  rw [commandCheck_of_needsRun hi]
  exact thenCheck_of_second (s.needcfg_eq_none_iff.2 hc) (State.needrun_refuses h)

theorem commandCheck_running {i : Instr} {s : State} (hi : beginIsEnd i = true) (h : s.run = true) :
    commandCheck i s = some .running := by
  obtain ⟨rest, hcheck⟩ := commandCheck_of_beginIsEnd hi s
  rw [hcheck, thenCheck_of_first (State.needstop_refuses h)]

theorem commandCheck_otherBusy {i : Instr} {s : State} (hi : beginIsEnd i = true) (hr : s.run = false)
    (h : s.busy .ch1 = true) : commandCheck i s = some .otherBusy := by
  obtain ⟨rest, hcheck⟩ := commandCheck_of_beginIsEnd hi s
  rw [hcheck, thenCheck_of_second (s.needstop_eq_none_iff.2 hr) (thenCheck_of_first (State.needidle1_refuses h) rest)]

/-! ### The operand and state checks (R173, R224, R292, R326) -/

theorem countCheck_refuses {k : Nat} (h : 1024 < k) : countCheck k = some .badArg := if_neg (Nat.not_le.2 h)

theorem stageCheck_refuses {c : Cfg} {k : Nat} (h : k = 0 ∨ c.fftLog2.toNat < k) : stageCheck c k = some .badArg := by
  have hout : ¬inRange k c.fftLog2.toNat = true := by
    rw [inRange_iff]
    omega
  rw [stageCheck, if_neg hout]

theorem checkEvtPop_refuses {s : State} (h : s.evq = []) : checkEvtPop s = some .evqEmpty := by
  rw [checkEvtPop, h]
  rfl

theorem checkPktPop_refuses {s : State} (h : s.pkt = none) : checkPktPop s = some .pktEmpty := by
  rw [checkPktPop, h]
  rfl

/-- Settles O11: each clause is one check of `commandCheck`, and the checks before it pass. -/
theorem refusedCommandsReportTheirFirstError : Obligations.RefusedCommandsReportTheirFirstError := by
  unfold Obligations.RefusedCommandsReportTheirFirstError
  intro s
  refine ⟨fun i hi => ?atomic, fun hf => ⟨fun hc => ?unconfigured, fun hc => ?configured, fun hq => ?evtPop,
    fun hp => ?pktPop⟩⟩
  case atomic =>
    have hend := beginIsEnd_eq_true hi
    exact ⟨fun hr => exec_refused (.inl hend) (commandCheck_running hend hr) (by decide),
      fun hr hb => exec_refused (.inl hend) (commandCheck_otherBusy hend hr hb) (by decide)⟩
  case unconfigured =>
    have noConfig (i : Instr) (hi : needsConfig i = true) :=
      exec_refused (.inr hf) (commandCheck_noConfig hi hc) (by decide)
    have hlist : ∀ i ∈ [Instr.start, .winApply, .fftBitrev, .fftFull, .fftPower, .melApply, .logCompress, .featExtract,
        .decStep true, .decStep false, .codecFrame], needsConfig i = true := by decide
    exact ⟨fun i hi => noConfig i (hlist i hi),
      fun k => ⟨noConfig (.rbRead k) rfl, noConfig (.rbPeek k) rfl, noConfig (.fftStage k) rfl⟩,
      fun x => noConfig (.preStep x) rfl⟩
  case configured =>
    have configured {rest : Option ErrCode} {e : ErrCode} : rest = some e → thenCheck s.needcfg rest = some e :=
      thenCheck_of_second (s.needcfg_eq_none_iff.2 hc)
    have hlist : ∀ i ∈ [Instr.featExtract, .decStep true, .decStep false, .codecFrame], needsRun i = true := by decide
    refine ⟨fun x hr => ?_, fun i hi hr => ?_, fun k hk => ⟨?_, ?_⟩, fun k hk => ?_⟩
    · exact exec_refused (i := .preStep x) (.inr hf) (configured (State.needstop_refuses hr)) (by decide)
    · exact exec_refused (.inr hf) (commandCheck_notRunning (hlist i hi) hc hr) (by decide)
    · exact exec_refused (i := .rbRead k) (.inr hf) (configured (countCheck_refuses hk)) (by decide)
    · exact exec_refused (i := .rbPeek k) (.inr hf) (configured (countCheck_refuses hk)) (by decide)
    · exact exec_refused (i := .fftStage k) (.inr hf) (configured (stageCheck_refuses hk)) (by decide)
  case evtPop => exact exec_refused (i := .evtPop) (.inr hf) (checkEvtPop_refuses hq) (by decide)
  case pktPop => exact exec_refused (i := .pktPop) (.inr hf) (checkPktPop_refuses hp) (by decide)

/-! ### The validation list (R142, R143) -/

theorem f32Unit_iff (a : Word) : f32Unit a = true ↔ fge a f32Zero = true ∧ fle a f32One = true := Bool.and_eq_true_iff

theorem f32PosUnit_iff (a : Word) : f32PosUnit a = true ↔ fgt a f32Zero = true ∧ fle a f32One = true :=
  Bool.and_eq_true_iff

theorem f32PosFinite_iff (a : Word) : f32PosFinite a = true ↔ fgt a f32Zero = true ∧ isFinite a = true :=
  Bool.and_eq_true_iff

/-- A check that CFG_COMMIT evaluates is the check of the spec's list with its code. -/
structure Evaluates (v : Nat × Bool) (check : Byte × Prop) : Prop where
  code : (ErrCode.cfgField v.1).code = check.1
  passes : v.2 = true ↔ check.2

/-- The model's validation list is the list of R143, check by check. -/
theorem Cfg.validation_evaluates (c : Cfg) : List.Forall₂ Evaluates c.validation c.checks := by
  simp only [Cfg.validation, Cfg.checks, List.forall₂_cons, List.forall₂_nil_left_iff, and_true]
  exact ⟨⟨rfl, decide_eq_true_iff⟩, ⟨rfl, inRange_iff _ _⟩, ⟨rfl, inRange_iff _ _⟩, ⟨rfl, inRange_iff _ _⟩,
    ⟨rfl, inRange_iff _ _⟩,
    ⟨rfl, by simp only [Bool.and_eq_true, inRange_iff, decide_eq_true_eq, and_assoc]; rfl⟩,
    ⟨rfl, inRange_iff _ _⟩, ⟨rfl, inRange_iff _ _⟩,
    ⟨rfl, decide_eq_true_iff.trans (lowNibble_iff _).symm⟩,
    ⟨rfl, Bool.and_eq_true_iff⟩, ⟨rfl, f32Unit_iff _⟩,
    ⟨rfl, f32PosUnit_iff _⟩, ⟨rfl, f32PosUnit_iff _⟩, ⟨rfl, f32PosUnit_iff _⟩,
    ⟨rfl, f32PosFinite_iff _⟩, ⟨rfl, f32PosFinite_iff _⟩, ⟨rfl, f32PosFinite_iff _⟩, ⟨rfl, f32PosFinite_iff _⟩,
    ⟨rfl, inRange_iff _ _⟩, ⟨rfl, decide_eq_true_iff⟩, ⟨rfl, f32Unit_iff _⟩, ⟨rfl, f32PosUnit_iff _⟩,
    ⟨rfl, by simp only [Bool.and_eq_true, inRange_iff, decide_eq_true_eq]; rfl⟩,
    ⟨rfl, inRange_iff _ _⟩,
    ⟨rfl, by simp only [Bool.and_eq_true, decide_eq_true_eq]; rfl⟩⟩

/-- No check of the list has the code of success (R350). -/
theorem Cfg.checks_code_ne_zero (c : Cfg) : ∀ check ∈ c.checks, check.1 ≠ 0 := by
  simp only [Cfg.checks, List.forall_mem_cons, List.not_mem_nil, false_implies, implies_true, and_true]
  decide

/-- The first check of the list that fails gives the verdict. -/
theorem firstFailing_of_evaluates {vs : List (Nat × Bool)} {checks : List (Byte × Prop)}
    (h : List.Forall₂ Evaluates vs checks) {k : Nat} {code : Byte} {p : Prop} (hk : checks[k]? = some (code, p))
    (hp : ¬p) (hbefore : ∀ j q, j < k → checks[j]? = some q → q.2) :
    ∃ e : ErrCode, firstFailing vs = some e ∧ e.code = code := by
  induction h generalizing k with
  | nil => cases hk
  | @cons v check vs checks hv _ ih =>
    obtain ⟨field, ok⟩ := v
    cases k with
    | zero =>
      cases hk
      have hok : ¬ok = true := fun hok => hp (hv.passes.1 hok)
      exact ⟨.cfgField field, by rw [firstFailing, if_neg hok], hv.code⟩
    | succ k =>
      have hok : ok = true := hv.passes.2 (hbefore 0 check (Nat.succ_pos k) rfl)
      rw [firstFailing, if_pos hok]
      exact ih hk fun j q hj hq => hbefore (j + 1) q (Nat.succ_lt_succ hj) hq

/-- On a stopped block with channel 1 idle, only the configuration decides. -/
theorem checkCfgCommit_stopped {s : State} (hr : s.run = false) (hb : s.busy .ch1 = false) :
    checkCfgCommit s = s.shadow.validate := by
  rw [checkCfgCommit, s.needstop_eq_none_iff.2 hr, s.needidle1_eq_none_iff.2 hb, thenCheck_none, thenCheck_none]

/-! ### The effects (R140, R142, R145-R147) -/

theorem exec_beginIsEnd {i : Instr} {s : State} (hi : beginIsEnd i = true) (hcheck : commandCheck i s = none) {u : State}
    (hu : commandEffect i s.snapshot s = .ok u) : exec i s = .next (u.complete i.opcode.byte none) := by
  rw [exec_eq_finish, beginFound_now (.inl hi), hcheck, State.finish_ok hu]

theorem exec_cfgCommit_legal {s : State} (hr : s.run = false) (hb : s.busy .ch1 = false) (hl : s.shadow.Legal) :
    exec .cfgCommit s = .next ((effectCfgCommit s).complete 0x01 none) :=
  exec_beginIsEnd (i := .cfgCommit) rfl ((checkCfgCommit_stopped hr hb).trans (s.shadow.validate_eq_none_iff.2 hl)) rfl

theorem exec_resetRt_stopped {s : State} (hr : s.run = false) (hb : s.busy .ch1 = false) :
    exec .resetRt s = .next ((effectResetRt s).complete 0x04 none) :=
  exec_beginIsEnd (i := .resetRt) rfl
    ((thenCheck_eq_none_iff _ _).2 ⟨s.needstop_eq_none_iff.2 hr, s.needidle1_eq_none_iff.2 hb⟩) rfl

/-- The completion of a command that leaves the channels and IRQ_STATUS to it. -/
theorem completed_oldResult {s u : State} (opc : Byte) (ha : u.active = s.active) (h0 : u.chan0 = s.chan0)
    (h1 : u.chan1 = s.chan1) (hi : u.irqStatus = s.irqStatus) : Completed s (u.complete opc none) opc s.oldResult 0 := by
  have hchan (n : Chan) : u.chan n = s.chan n := by cases n <;> assumption
  exact completed_of ha (hchan _) (hchan _) (hi.trans BitVec.or_zero.symm)

/-- Settles O18: CFG_COMMIT goes by `Cfg.validate`, which evaluates the list of R143 in its order. -/
theorem commitReportsTheFirstFailingCheck : Obligations.CommitReportsTheFirstFailingCheck := by
  unfold Obligations.CommitReportsTheFirstFailingCheck
  intro s hr hb
  refine ⟨fun hl => ⟨_, exec_cfgCommit_legal hr hb hl, ?_⟩, fun k code p hk hp hbefore => ?_⟩
  · have hdone : Completed s _ 0x01 s.oldResult 0 := completed_oldResult (u := effectCfgCommit s) 0x01 rfl rfl rfl rfl
    rw [hdone.1]
  · have hcode : code ≠ 0 := s.shadow.checks_code_ne_zero (code, p) (List.mem_of_getElem? hk)
    obtain ⟨e, he, rfl⟩ := firstFailing_of_evaluates s.shadow.validation_evaluates hk hp hbefore
    exact exec_refused (i := .cfgCommit) (.inl rfl) ((checkCfgCommit_stopped hr hb).trans he) hcode

/-- Settles O16: each of the three passes its checks, and its effect writes at most RUN. -/
theorem nopStartAndStopComplete : Obligations.NopStartAndStopComplete := by
  unfold Obligations.NopStartAndStopComplete
  intro s sn
  refine ⟨fun h => ⟨s.complete 0x00 none, ?_, completed_oldResult _ rfl rfl rfl rfl, rfl⟩,
    fun h => ⟨({ s with run := true } : State).complete 0x02 none, ?_, completed_oldResult _ rfl rfl rfl rfl, rfl⟩,
    fun h => ⟨({ s with run := false } : State).complete 0x03 none, ?_, completed_oldResult _ rfl rfl rfl rfl, rfl⟩⟩
  · rw [exec_nop]
    exact runCommand_atEnd h (fun _ => rfl) rfl
  · rw [exec_start]
    exact runCommand_atEnd h s.needcfg_eq_none_iff.2 rfl
  · rw [exec_stop]
    exact runCommand_atEnd h (fun _ => rfl) rfl

/-- Settles O17: past their checks, the two commands are `effectCfgCommit` and `effectResetRt`. -/
theorem commitAndResetRtClearTheRuntimeState : Obligations.CommitAndResetRtClearTheRuntimeState := by
  unfold Obligations.CommitAndResetRtClearTheRuntimeState
  intro s hr hb cleared
  exact ⟨fun hl => ⟨_, exec_cfgCommit_legal hr hb hl, completed_oldResult _ rfl rfl rfl rfl, rfl⟩,
    _, exec_resetRt_stopped hr hb, completed_oldResult _ rfl rfl rfl rfl, rfl⟩

end Sys2Proof.Machine
end

section
/-!
The producer's samples (spec/41_ringbuffer.md R170, R171): what accepting one does to each reader and to the flags, and
that the commands which only read samples answer no model fault in a sound, configured block (R172, R394).
-/

namespace Sys2Proof.Machine

/-! ### Eviction, one reader at a time (R171) -/

theorem State.evictIfFull_counters (s : State) (r : Chan) :
    (s.evictIfFull r).counters = if s.avail r = s.act.capacity then s.counters.bumpOvr r else s.counters := by
  unfold State.evictIfFull
  split <;> rfl

/-- OVERRUN is bit 6 of IRQ_STATUS (R28). -/
theorem State.evictIfFull_irqStatus (s : State) (r : Chan) :
    (s.evictIfFull r).irqStatus = if s.avail r = s.act.capacity then s.irqStatus ||| 0x0040#15 else s.irqStatus := by
  unfold State.evictIfFull
  split <;> rfl

theorem State.evictIfFull_avail_other (s : State) {r k : Chan} (h : k ≠ r) : (s.evictIfFull r).avail k = s.avail k := by
  rw [State.avail, State.evictIfFull_sclk, State.evictIfFull_rpos_other s h, State.avail]

theorem Counters.bumpOvr_ch0_if (c : Counters) (p : Prop) [Decidable p] :
    (if p then c.bumpOvr .ch0 else c) = { c with ovr0 := if p then c.ovr0 + 1 else c.ovr0 } := by
  split <;> rfl

theorem Counters.bumpOvr_ch1_if (c : Counters) (p : Prop) [Decidable p] :
    (if p then c.bumpOvr .ch1 else c) = { c with ovr1 := if p then c.ovr1 + 1 else c.ovr1 } := by
  split <;> rfl

/-! ### Both readers of a running block (R170, R171) -/

/-- A running block's sample counts one overrun for each full reader, and moves no other counter. -/
theorem accept_counters {s : State} (h : s.run = true) (x : Sample) :
    (s.accept x).counters = { s.counters with
      ovr0 := if s.avail .ch0 = s.act.capacity then s.counters.ovr0 + 1 else s.counters.ovr0
      ovr1 := if s.avail .ch1 = s.act.capacity then s.counters.ovr1 + 1 else s.counters.ovr1 } := by
  have haccept : (s.accept x).counters = ((s.evictIfFull .ch0).evictIfFull .ch1).counters := by
    rw [State.accept, if_pos h]
  rw [haccept, State.evictIfFull_counters, State.evictIfFull_avail_other s (by decide), State.evictIfFull_act,
    State.evictIfFull_counters, Counters.bumpOvr_ch1_if, Counters.bumpOvr_ch0_if]

/-- A running block's sample sets OVERRUN when some reader is full, and no other event bit. -/
theorem accept_irqStatus {s : State} (h : s.run = true) (x : Sample) :
    (s.accept x).irqStatus =
      if s.avail .ch0 = s.act.capacity ∨ s.avail .ch1 = s.act.capacity then s.irqStatus ||| 0x0040#15
      else s.irqStatus := by
  have haccept : (s.accept x).irqStatus = ((s.evictIfFull .ch0).evictIfFull .ch1).irqStatus := by
    rw [State.accept, if_pos h]
  rw [haccept, State.evictIfFull_irqStatus, State.evictIfFull_avail_other s (by decide), State.evictIfFull_act,
    State.evictIfFull_irqStatus]
  by_cases h1 : s.avail .ch1 = s.act.capacity
  · simp only [h1, if_true, or_true]
    split
    · rw [BitVec.or_assoc, BitVec.or_self]
    · rfl
  · simp only [h1, if_false, or_false]

/-- The producer's port and a write to SAMPLE_IN hand over a sample alike: no footprint holds SAMPLE_IN (R170, R387). -/
theorem step_accept {s : State} {rest : List Input} {x : Sample} {v : Word}
    (h : s.inputs = .sample x :: rest ∨ (s.inputs = .hostWrite 4 0x050 v :: rest ∧ x = v.extractLsb' 0 16)) :
    step s = .next (({ s with inputs := rest } : State).accept x) := by
  rcases h with hin | ⟨hin, rfl⟩
  · exact step_cons hin
  · rw [← BitVec.setWidth_eq_extractLsb' (by decide)]
    exact step_write (l := .reg .sampleIn) hin rfl (hazard_low s (by decide))

/-- Settles O19: either input accepts the sample, and `accept` by its parts is what R170 and R171 say. -/
theorem acceptStoresOneSampleAndDropsTheOldest : Obligations.AcceptStoresOneSampleAndDropsTheOldest := by
  unfold Obligations.AcceptStoresOneSampleAndDropsTheOldest
  intro s rest x v hin
  let u : State := { s with inputs := rest }
  have hstep : step s = .next (u.accept x) := step_accept hin
  refine ⟨fun hstop => ?_, fun hrun => ?_⟩
  · rw [hstep, State.accept_stopped (s := u) hstop]
    rfl
  · intro full0 full1 slot
    have hr : u.run = true := hrun
    have hrpos0 : (u.accept x).rpos0 = if full0 then s.rpos0 + 1 else s.rpos0 := accept_rpos hr x .ch0
    have hrpos1 : (u.accept x).rpos1 = if full1 then s.rpos1 + 1 else s.rpos1 := accept_rpos hr x .ch1
    have hcnt : (u.accept x).counters = { s.counters with
        ovr0 := if full0 then s.counters.ovr0 + 1 else s.counters.ovr0
        ovr1 := if full1 then s.counters.ovr1 + 1 else s.counters.ovr1 } := accept_counters hr x
    have hirq : (u.accept x).irqStatus = if full0 ∨ full1 then s.irqStatus ||| 0x0040#15 else s.irqStatus :=
      accept_irqStatus hr x
    have hmem : (u.accept x).mem = store .rbram slot (x.signExtend 32) s.mem := State.accept_mem hr x
    refine ⟨_, hstep, ?_, fun h => ?_, fun h => ?_, fun h => ?_, fun h => ?_, fun h => ?_, fun h => ?_, ?_, ?_⟩
    · refine (accept_rest u x).trans ?_
      rw [State.accept_sclk hr, hcnt]
    · exact ⟨hrpos0.trans (if_pos h), by rw [hcnt]; exact if_pos h⟩
    · exact ⟨hrpos0.trans (if_neg h), by rw [hcnt]; exact if_neg h⟩
    · exact ⟨hrpos1.trans (if_pos h), by rw [hcnt]; exact if_pos h⟩
    · exact ⟨hrpos1.trans (if_neg h), by rw [hcnt]; exact if_neg h⟩
    · exact hirq.trans (if_pos h)
    · exact hirq.trans (if_neg (not_or.2 h))
    · rw [hmem]; exact word_store _ _ _ _
    · rw [hmem]; exact sameOutside_store .rbram slot _ _

/-! ### The commands that only read samples (R172, R394) -/

/-- A command runs when its effect answers on every snapshot that BEGIN may have passed on. -/
theorem exec_runs {i : Instr} {s : State} (h : ∀ sn, Began i s sn → ∃ u, commandEffect i sn s = .ok u) :
    Runs (exec i s) := by
  cases hx : exec i s with
  | next t => exact ⟨t, rfl⟩
  | refused r => exact absurd hx (exec_never_refuses i s r)
  | fault f =>
    obtain ⟨sn, hb, hf⟩ := exec_fault hx
    obtain ⟨u, hu⟩ := h sn hb
    rw [hf] at hu
    cases hu

/-- A sound snapshot has the slots of its available samples written. -/
theorem State.SnapshotSound.covers {s : State} {sn : Snapshot} (h : s.SnapshotSound sn) {n : Nat} (hn : n ≤ sn.avail) :
    sn.covers s.act n := by
  intro i hi
  have hbehind := h.behind
  rw [h.avail_eq] at hn
  exact h.written _ (Nat.le_add_right _ _) (by omega)

theorem copyOut_runs {s : State} {sn : Snapshot} (k : Nat) (h : s.SnapshotSound sn) : ∃ u, copyOut k sn s = .ok u := by
  have hcov : sn.covers s.act (copyCount k sn) := h.covers (Nat.min_le_right k sn.avail)
  rw [copyOut_eq, copyLoop_ok s.mem hcov]
  exact ⟨_, rfl⟩

theorem effectRbRead_runs {s : State} {sn : Snapshot} (k : Nat) (h : s.SnapshotSound sn) :
    ∃ u, effectRbRead k sn s = .ok u := by
  obtain ⟨t, ht⟩ := copyOut_runs k h
  rw [effectRbRead, ht]
  exact ⟨_, rfl⟩

theorem effectCodecFrame_runs {s : State} {sn : Snapshot} (h : s.SnapshotSound sn) :
    ∃ u, effectCodecFrame sn s = .ok u := by
  rw [effectCodecFrame_eq]
  split
  · exact ⟨_, rfl⟩
  · split
    · exact ⟨_, rfl⟩
    · next henough =>
      rw [framePayload_ok (h.covers (Nat.not_lt.1 henough))]
      exact ⟨_, rfl⟩

/-- Settles O60: the snapshot a command works on is sound, so every slot that it reads has been written. -/
theorem readerCommandsRunInSoundStates : Obligations.ReaderCommandsRunInSoundStates := by
  unfold Obligations.ReaderCommandsRunInSoundStates
  intro s i _ hring hvalid _ hi
  refine exec_runs fun sn hb => ?_
  have hsn : s.SnapshotSound sn := began_snapshot hring hvalid hb
  rcases hi with rfl | ⟨k, rfl | rfl⟩
  · exact effectCodecFrame_runs hsn
  · exact effectRbRead_runs k hsn
  · exact copyOut_runs k hsn

end Sys2Proof.Machine
end

section
/-!
The preprocessor (spec/42_preprocess.md): PRE_STEP and the streams of samples it steps along (R190-R194, R196, R198),
and the words that stage 5 and WIN_APPLY set (R195, R197).
-/

namespace Sys2Proof.Machine

/-! ### PRE_STEP (R190-R196) -/

theorem checkPreStep_none {s : State} (h : s.cfgValid = true ∧ s.run = false) : checkPreStep s = none :=
  (thenCheck_eq_none_iff _ _).2 ⟨s.needcfg_eq_none_iff.2 h.1, s.needstop_eq_none_iff.2 h.2⟩

/-- PRE_STEP past its checks completes with its effect. -/
theorem preStep_runs {s : State} {sn : Snapshot} (x : Int) (h : AtEnd s (s.cfgValid = true ∧ s.run = false) sn) :
    exec (.preStep x) s = .next ((effectPreStep x s).complete 0x20 none) := by
  rw [exec_preStep]
  exact runCommand_atEnd h checkPreStep_none rfl

/-- The envelope that the AGC tracks (R193). -/
def agcEnv (c : Cfg) (env e : Word) : Word :=
  fadd env (fmul (if fgt (fmul e e) env then c.agcAttack else c.agcRelease) (fsub (fmul e e) env))

/-- The gain that the AGC smooths towards the one an envelope asks for (R193). -/
def agcGain (c : Cfg) (gain env : Word) : Word :=
  let lvl := if fgt env f32Zero then fsqrt env else f32Zero
  let gd := if feq lvl f32Zero then c.agcMaxgain else fmin (fdiv c.agcTarget lvl) c.agcMaxgain
  fadd gain (fmul c.agcGsmooth (fsub gd gain))

theorem agc_off {c : Cfg} (h : c.agcEn = false) (p : PrepState) (e : Word) : agc c p e = (p, e) := by
  rw [agc, h, if_neg Bool.false_ne_true]

theorem agc_on {c : Cfg} (h : c.agcEn = true) (p : PrepState) (e : Word) :
    agc c p e = ({ p with env := agcEnv c p.env e, gain := agcGain c p.gain (agcEnv c p.env e) },
      fmul e (agcGain c p.gain (agcEnv c p.env e))) := by
  rw [agc, h, if_pos rfl]
  rfl

/-- Without the AGC the envelope and the gain stay. -/
theorem agc_eq {c : Cfg} {p : PrepState} {e env gain : Word}
    (henv : env = if c.agcEn then agcEnv c p.env e else p.env)
    (hgain : gain = if c.agcEn then agcGain c p.gain env else p.gain) :
    agc c p e = ({ p with env := env, gain := gain }, if c.agcEn then fmul e gain else e) := by
  subst hgain henv
  cases h : c.agcEn with
  | false => exact agc_off h p e
  | true => exact agc_on h p e

/-- The four stages, one value after another. -/
theorem ppStep_eq {c : Cfg} {p : PrepState} {x : Int} {d e env gain : Word}
    (hd : d = fadd (fsub (f32OfInt x) p.x1) (fmul c.dcR p.y1))
    (he : e = if c.preemphEn then fsub d (fmul c.preemph p.p1) else d)
    (henv : env = if c.agcEn then agcEnv c p.env e else p.env)
    (hgain : gain = if c.agcEn then agcGain c p.gain env else p.gain) :
    ppStep c p x = ({ x1 := f32OfInt x, y1 := d, p1 := d, env := env, gain := gain },
      gate c (if c.agcEn then fmul e gain else e)) := by
  have hdc : dcblock c p (f32OfInt x) = ({ p with x1 := f32OfInt x, y1 := d }, d) := by rw [hd]; rfl
  have hpre : preemphasis c { p with x1 := f32OfInt x, y1 := d } d
      = ({ p with x1 := f32OfInt x, y1 := d, p1 := d }, e) := by rw [he]; rfl
  have hagc := agc_eq (p := { p with x1 := f32OfInt x, y1 := d, p1 := d }) henv hgain
  rw [ppStep, hdc]
  dsimp only
  rw [hpre]
  dsimp only
  rw [hagc]

/-- Settles O22: the effect of PRE_STEP is `ppStep`, and without the AGC the envelope and the gain stay. -/
theorem preStepRunsTheFourStages : Obligations.PreStepRunsTheFourStages := by
  unfold Obligations.PreStepRunsTheFourStages
  intro s sn x hend c xf d e p rate env lvl gd g a v
  have hstep : ppStep c s.pp x = ({ x1 := xf, y1 := d, p1 := d, env := env, gain := g }, v) :=
    ppStep_eq (d := d) (e := e) (env := env) (gain := g) rfl rfl rfl rfl
  have heffect : effectPreStep x s
      = ({ s with pp := { x1 := xf, y1 := d, p1 := d, env := env, gain := g } } : State).setResult v := by
    rw [effectPreStep, hstep]
  refine ⟨_, preStep_runs x hend, ?_, ?_⟩
  · rw [heffect]
    exact completed_setResult 0x20 v rfl rfl rfl BitVec.or_zero.symm
  · rw [heffect]
    rfl

/-! ### Streams (R190, R198) -/

theorem ppOutputs_getElem? (c : Cfg) (p : PrepState) (xs : List Int) (i : Nat) :
    (ppOutputs c p xs)[i]? = xs[i]?.map fun x => (ppStep c (ppAfter c p (xs.take i)) x).2 := by
  induction xs generalizing p i with
  | nil => rfl
  | cons y ys ih =>
    cases i with
    | zero => rfl
    | succ i => exact ih (ppStep c p y).1 i

theorem ppAfter_append (c : Cfg) (p : PrepState) (xs ys : List Int) :
    ppAfter c p (xs ++ ys) = ppAfter c (ppAfter c p xs) ys := by
  induction xs generalizing p with
  | nil => rfl
  | cons x xs ih => exact ih (ppStep c p x).1

theorem ppOutputs_append (c : Cfg) (p : PrepState) (xs ys : List Int) :
    ppOutputs c p (xs ++ ys) = ppOutputs c p xs ++ ppOutputs c (ppAfter c p xs) ys := by
  induction xs generalizing p with
  | nil => rfl
  | cons x xs ih => exact congrArg (List.cons _) (ih (ppStep c p x).1)

theorem runAll_cons {i : Instr} {s t : State} (rest : List Instr) (h : exec i s = .next t) :
    runAll (i :: rest) s = runAll rest t := by
  rw [runAll, h]

/-- A stopped, configured block whose active channel has no BEGIN recorded is ready for PRE_STEP. -/
def PreReady (s : State) : Prop := s.fresh ∧ s.cfgValid = true ∧ s.run = false

theorem PreReady.atEnd {s : State} (h : PreReady s) : AtEnd s (s.cfgValid = true ∧ s.run = false) s.snapshot :=
  .inr ⟨h.1, h.2, rfl⟩

/-- PRE_STEP leaves the block ready for the next one. -/
theorem PreReady.next {s : State} (h : PreReady s) (x : Int) : PreReady ((effectPreStep x s).complete 0x20 none) := by
  refine ⟨fun w v sn hp => ?_, h.2⟩
  have hidle := (effectPreStep x s).complete_idle 0x20 none
  rw [show (effectPreStep x s).active = s.active from rfl] at hidle
  rw [show ((effectPreStep x s).complete 0x20 none).active = s.active from rfl, hidle] at hp
  cases hp

theorem preStep_result (s : State) (x : Int) :
    (((effectPreStep x s).complete 0x20 none).chan s.active).result = (ppStep s.act s.pp x).2 := by
  rw [show s.active = (effectPreStep x s).active from rfl, State.complete_chan]
  exact congrArg Channel.result (State.setResult_chan ({ s with pp := (ppStep s.act s.pp x).1 } : State) _)

/-- A run of PRE_STEP commands steps the committed state along the samples, and RESULTn holds the last output. -/
theorem runAll_preStep {s : State} (h : PreReady s) (xs : List Int) (x : Int) :
    ∃ t, runAll ((xs ++ [x]).map Instr.preStep) s = .next t ∧ t.pp = ppAfter s.act s.pp (xs ++ [x]) ∧
      some (t.chan s.active).result = (ppOutputs s.act s.pp (xs ++ [x]))[xs.length]? := by
  induction xs generalizing s with
  | nil => exact ⟨_, runAll_cons [] (preStep_runs x h.atEnd), rfl, congrArg some (preStep_result s x)⟩
  | cons y ys ih =>
    obtain ⟨t, ht, hpp, hout⟩ := ih (h.next y)
    exact ⟨t, (runAll_cons _ (preStep_runs y h.atEnd)).trans ht, hpp, hout⟩

/-- Settles O23: the outputs by the recursion of `ppOutputs`, the run of commands by induction on the samples. -/
theorem preprocessorStreamIsConsistent : Obligations.PreprocessorStreamIsConsistent := by
  unfold Obligations.PreprocessorStreamIsConsistent
  refine ⟨fun c p xs i x hx => ?_, fun c p xs ys => ⟨ppOutputs_append c p xs ys, ppAfter_append c p xs ys⟩,
    fun s xs x hfresh hcfg hrun => runAll_preStep ⟨hfresh, hcfg, hrun⟩ xs x⟩
  rw [ppOutputs_getElem?, hx]
  rfl

/-! ### Stage 5 and WIN_APPLY (R195, R197) -/

/-- Memory `t` is `m` with word `i` of WORK_RE set to `f i` and word `i` of WORK_IM to +0.0, for every `i` below `k`. -/
structure WorkSet (f : Nat → Word) (m : Memory) (k : Nat) (t : Memory) : Prop where
  re : ∀ i, i < k → t.word .workRe i = some (f i)
  im : ∀ i, i < k → t.word .workIm i = some f32Zero
  frame : SameOutside [(0x04000, k), (0x05000, k)] m t

theorem outside_work_iff {k off : Nat} : inBlocks [(0x04000, k), (0x05000, k)] off = false ↔
    (off < 0x4000 ∨ 0x4000 + 4 * k ≤ off) ∧ (off < 0x5000 ∨ 0x5000 + 4 * k ≤ off) := by
  rw [Bool.eq_false_iff]
  simp only [ne_eq, inBlocks_cons, inBlocks_nil, inBlock_iff, Bool.false_eq_true, or_false]
  omega

theorem workSet_zero (f : Nat → Word) (m : Memory) : WorkSet f m 0 m :=
  ⟨fun _ h => absurd h (Nat.not_lt_zero _), fun _ h => absurd h (Nat.not_lt_zero _), sameOutside_refl _ m⟩

/-- Setting one more word of each array. -/
theorem WorkSet.succ {f : Nat → Word} {m t : Memory} {k : Nat} {x : Word} (h : WorkSet f m k t) (hk : k < 1024)
    (hx : x = f k) : WorkSet f m (k + 1) (store .workIm k f32Zero (store .workRe k x t)) where
  re i hi := by
    have hlen : i < 1024 := by omega
    rw [word_store_other (a := .workRe) (b := .workIm) _ _ hlen hk (.inl (by decide))]
    by_cases hik : i = k
    · rw [hik, hx]
      exact word_store _ _ _ _
    · rw [word_store_other (a := .workRe) (b := .workRe) _ _ hlen hk (.inr hik)]
      exact h.re i (by omega)
  im i hi := by
    have hlen : i < 1024 := by omega
    by_cases hik : i = k
    · rw [hik]
      exact word_store _ _ _ _
    · rw [word_store_other (a := .workIm) (b := .workIm) _ _ hlen hk (.inr hik),
        word_store_other (a := .workIm) (b := .workRe) _ _ hlen hk (.inl (by decide))]
      exact h.im i (by omega)
  frame off ho := by
    rw [outside_work_iff] at ho
    rw [store_readByte_other _ _ (by simp only [Arr.off, Arr.base]; omega),
      store_readByte_other _ _ (by simp only [Arr.off, Arr.base]; omega)]
    exact h.frame off (outside_work_iff.2 (by omega))

/-- The window, and the words of WORK_RE not yet set, read as before. -/
theorem WorkSet.load {f : Nat → Word} {m t : Memory} {k i : Nat} {a : Arr} (h : WorkSet f m k t) (hi : i < 1024)
    (ha : a = .win ∨ a = .workRe ∧ k ≤ i) (hw : (m.word a i).isSome) : Machine.load a i t = .ok (m.val a i) := by
  rw [← load_val hw]
  refine load_congr (Memory.readWord_congr fun off hlo hhi => h.frame off (outside_work_iff.2 ?_))
  rcases ha with rfl | ⟨rfl, hk⟩
  · simp only [Arr.off, Arr.base] at hlo hhi
    omega
  · simp only [Arr.off, Arr.base] at hlo hhi
    omega

/-- The padding sets the words from `L` on to +0.0. -/
theorem WorkSet.zeroPad {c : Cfg} {f : Nat → Word} {m t : Memory} (hl : c.Legal) (h : WorkSet f m c.window t)
    (hf : ∀ i, c.window ≤ i → f i = f32Zero) : WorkSet f m c.fftSize (zeroPad c t) := by
  have hlw := hl.sizes.window
  have hfft := hl.sizes.fft
  have hpad := loopUpTo_keeps (n := c.fftSize - c.window) (x := t)
    (body := fun k t => store .workIm (c.window + k) f32Zero (store .workRe (c.window + k) f32Zero t))
    (fun k t => WorkSet f m (c.window + k) t) h
    fun k t hk ht => ht.succ (by omega) (hf _ (Nat.le_add_right _ _)).symm
  rwa [Nat.add_sub_of_le hlw] at hpad

/-- The windowed values `v i · WIN[i]` up to `L`, and +0.0 from there on. -/
def paddedWindow (c : Cfg) (v : Nat → Word) (m : Memory) (i : Nat) : Word :=
  if i < c.window then fmul (v i) (m.val .win i) else f32Zero

theorem paddedWindow_below {c : Cfg} {i : Nat} (v : Nat → Word) (m : Memory) (h : i < c.window) :
    paddedWindow c v m i = fmul (v i) (m.val .win i) := if_pos h

theorem paddedWindow_above {c : Cfg} {i : Nat} (v : Nat → Word) (m : Memory) (h : c.window ≤ i) :
    paddedWindow c v m i = f32Zero := if_neg (Nat.not_lt.2 h)

theorem windowStage_workSet {c : Cfg} {m : Memory} (v : Nat → Word) (hl : c.Legal) (hwin : Written .win c.window m) :
    ∃ u, windowStage c v m = .ok u ∧ WorkSet (paddedWindow c v m) m c.fftSize u := by
  have hlw := hl.sizes.window
  have hfft := hl.sizes.fft
  obtain ⟨t, ht, hset⟩ := forUpTo_completes (n := c.window) (body := windowWord v) (x := m)
    (WorkSet (paddedWindow c v m) m) (workSet_zero _ m) fun k t hk ht => by
      have hlen : k < 1024 := by omega
      have hw := ht.load hlen (.inl rfl) (hwin k hk)
      exact ⟨_, by rw [windowWord, hw], ht.succ hlen (paddedWindow_below v m hk).symm⟩
  exact ⟨_, by rw [windowStage_eq, ht]; rfl, hset.zeroPad hl fun i hi => paddedWindow_above v m hi⟩

/-- One word of WIN_APPLY. -/
def applyWord (n : Nat) (t : Memory) : Except Fault Memory :=
  match Machine.load .workRe n t, Machine.load .win n t with
  | .ok v, .ok w => .ok (store .workIm n f32Zero (store .workRe n (fmul v w) t))
  | .error f, _ => .error f
  | _, .error f => .error f

theorem winApply_eq (c : Cfg) (m : Memory) : winApply c m = (forUpTo c.window applyWord m).map (zeroPad c) := by
  unfold winApply
  show (match forUpTo c.window applyWord m with | .ok t => _ | .error f => _) = _
  cases forUpTo c.window applyWord m <;> rfl

/-- WIN_APPLY is stage 5 on the words of WORK_RE. -/
theorem winApply_workSet {c : Cfg} {m : Memory} (hl : c.Legal) (hre : Written .workRe c.window m)
    (hwin : Written .win c.window m) :
    ∃ u, winApply c m = .ok u ∧ WorkSet (paddedWindow c (m.val .workRe) m) m c.fftSize u := by
  have hlw := hl.sizes.window
  have hfft := hl.sizes.fft
  obtain ⟨t, ht, hset⟩ := forUpTo_completes (n := c.window) (body := applyWord) (x := m)
    (WorkSet (paddedWindow c (m.val .workRe) m) m) (workSet_zero _ m) fun k t hk ht => by
      have hlen : k < 1024 := by omega
      have hv := ht.load hlen (.inr ⟨rfl, Nat.le_refl k⟩) (hre k hk)
      have hw := ht.load hlen (.inl rfl) (hwin k hk)
      exact ⟨_, by rw [applyWord, hv, hw], ht.succ hlen (paddedWindow_below _ m hk).symm⟩
  exact ⟨_, by rw [winApply_eq, ht]; rfl, hset.zeroPad hl fun i hi => paddedWindow_above _ m hi⟩

/-- What the windowed words are, on either side of `L`. -/
theorem WorkSet.paddedWindow {c : Cfg} {v : Nat → Word} {m u : Memory} (hl : c.Legal)
    (h : WorkSet (paddedWindow c v m) m c.fftSize u) :
    (∀ i, i < c.window → u.word .workRe i = some (fmul (v i) (m.val .win i))) ∧
      (∀ i, c.window ≤ i → i < c.fftSize → u.word .workRe i = some f32Zero) ∧
      (∀ i, i < c.fftSize → u.word .workIm i = some f32Zero) ∧
      SameOutside [(0x04000, c.fftSize), (0x05000, c.fftSize)] m u :=
  ⟨fun i hi => (h.re i (Nat.lt_of_lt_of_le hi hl.sizes.window)).trans (congrArg some (paddedWindow_below v m hi)),
    fun i hi hn => (h.re i hn).trans (congrArg some (paddedWindow_above v m hi)), h.im, h.frame⟩

/-- Settles O24: WIN_APPLY sets every word of the work arrays, and nothing else. -/
theorem winApplyWindowsAndPads : Obligations.WinApplyWindowsAndPads := by
  unfold Obligations.WinApplyWindowsAndPads
  intro s sn hend hl hre hwin n
  obtain ⟨u, hu, hset⟩ := winApply_workSet hl hre hwin
  refine ⟨({ s with mem := u } : State).complete 0x21 none, ?_, completed_oldResult 0x21 rfl rfl rfl rfl, rfl,
    hset.paddedWindow hl⟩
  rw [exec_winApply]
  exact runCommand_atEnd hend s.needcfg_eq_none_iff.2 (onMemory_of_ok hu)

end Sys2Proof.Machine
end

section
/-!
The coefficients that a completed chain has read (spec/42_preprocess.md R195, spec/43_fft.md R222-R226, spec/44_mel.md
R252-R254): a chain that answers found the window, the twiddles and the Mel weights written in the memory it began with,
and it changed its work arrays only.
-/

namespace Sys2Proof.Machine

section Chain

variable {c : Cfg} {C D : Arr → Nat → Prop} {m u u' : Memory}

/-! ### Runs that answered -/

/-- The words the stages of a window write: those of an extraction without FEAT. -/
def chainBlocks (c : Cfg) : List (Nat × Nat) :=
  [(0x04000, c.fftSize), (0x05000, c.fftSize), (0x06000, c.bins), (0x07000, c.bands), (0x07100, c.bands)]

theorem SameOutside.featBlocks (h : SameOutside (chainBlocks c) m u) : SameOutside (featBlocks c) m u := by
  intro off ho
  refine h off ?_
  have hsplit : Machine.featBlocks c = chainBlocks c ++ [(0x08000, c.frames * c.bands)] := rfl
  rw [hsplit, Bool.eq_false_iff, ne_eq, inBlocks_append, not_or, Bool.not_eq_true] at ho
  exact ho.1

theorem sameOutside_chainStore {a : Arr} {i : Nat} (ha : a ≠ .feat) (hi : i < featArea c a) (v : Word) (m : Memory) :
    SameOutside (chainBlocks c) m (store a i v m) := by
  intro off ho
  refine store_readByte_other v m ?_
  rw [Bool.eq_false_iff] at ho
  simp only [chainBlocks, ne_eq, inBlocks_cons, inBlocks_nil, inBlock_iff, Bool.false_eq_true, or_false] at ho
  cases a <;> simp only [featArea, Arr.off, Arr.base, ne_eq, not_true_eq_false] at hi ha ⊢ <;> omega

/-- A run from `m` that answered with `u`: it changed the work arrays only, and the coefficients `C`, which it has read,
were written. -/
structure Ran (c : Cfg) (C : Arr → Nat → Prop) (m u : Memory) : Prop where
  frame : SameOutside (chainBlocks c) m u
  reads : ∀ a i, C a i → chainWords c 0 0 0 0 a i → (m.word a i).isSome

theorem ran_refl (c : Cfg) (m : Memory) : Ran c (fun _ _ => False) m m := ⟨sameOutside_refl _ m, fun _ _ h => h.elim⟩

theorem ran_store {a : Arr} {i : Nat} (ha : a ≠ .feat) (hi : i < featArea c a) (v : Word) (m : Memory) :
    Ran c (fun _ _ => False) m (store a i v m) := ⟨sameOutside_chainStore ha hi v m, fun _ _ h => h.elim⟩

theorem ran_load {a : Arr} {i : Nat} {v : Word} (c : Cfg) (h : load a i m = .ok v) :
    Ran c (fun b j => b = a ∧ j = i) m m where
  frame := sameOutside_refl _ m
  reads := by
    rintro b j ⟨rfl, rfl⟩ -
    rw [Memory.word, load_ok_iff.1 h]
    rfl

theorem Ran.mono (h : Ran c C m u) (hd : ∀ a i, D a i → C a i) : Ran c D m u :=
  ⟨h.frame, fun a i hi => h.reads a i (hd a i hi)⟩

theorem Ran.trans (hl : c.Legal) (h : Ran c C m u) (h' : Ran c D u u') : Ran c (fun a i => C a i ∨ D a i) m u' where
  frame := h.frame.trans h'.frame
  reads a i hi hw := by
    rcases hi with hi | hi
    · exact h.reads a i hi hw
    · have hread := h'.reads a i hi hw
      have hsame : u.word a i = m.word a i := Memory.readWord_congr fun k hlo hhi =>
        h.frame.featBlocks k ((coefficient_apart hl hw).2 k hlo hhi)
      rwa [hsame] at hread

/-- A run after which nothing more is read. -/
theorem Ran.frameAfter (hl : c.Legal) (h : Ran c C m u) (h' : Ran c D u u') : Ran c C m u' :=
  (h.trans hl h').mono fun _ _ => .inl

/-- A run before which nothing was read. -/
theorem Ran.after (hl : c.Legal) (h' : Ran c D u u') (h : Ran c C m u) : Ran c D m u' :=
  (h.trans hl h').mono fun _ _ => .inr

/-- A loop reads what its rounds read. -/
theorem ran_forUpTo {σ : Type} (mem : σ → Memory) {n : Nat} {body : Nat → σ → Except Fault σ} {x z : σ}
    (R : Nat → Arr → Nat → Prop) (hl : c.Legal)
    (hs : ∀ k y y', k < n → body k y = .ok y' → Ran c (R k) (mem y) (mem y')) (h : forUpTo n body x = .ok z) :
    Ran c (fun a i => ∃ k, k < n ∧ R k a i) (mem x) (mem z) := by
  refine forUpTo_keeps (fun n y => Ran c (fun a i => ∃ k, k < n ∧ R k a i) (mem x) (mem y)) ?_
    (fun k y y' hk hy hb => (hy.trans hl (hs k y y' hk hb)).mono ?_) h
  · exact (ran_refl c _).mono fun a i ⟨k, hk, _⟩ => Nat.not_lt_zero k hk
  · rintro a i ⟨j, hj, hr⟩
    by_cases hjk : j = k
    · exact .inr (hjk ▸ hr)
    · exact .inl ⟨j, by omega, hr⟩

/-! ### The stages -/

theorem ran_storeWork {n : Nat} (hl : c.Legal) (hn : n < c.fftSize) (x y : Word) (m : Memory) :
    Ran c (fun _ _ => False) m (store .workIm n y (store .workRe n x m)) :=
  (ran_store (a := .workRe) (by decide) hn x m).frameAfter hl (ran_store (a := .workIm) (by decide) hn y _)

theorem windowWord_ran {v : Nat → Word} {n : Nat} (hl : c.Legal) (hn : n < c.window)
    (h : windowWord v n m = .ok u) : Ran c (fun a i => a = .win ∧ i = n) m u := by
  unfold windowWord at h
  split at h
  · next w hw =>
    cases h
    exact (ran_load c hw).frameAfter hl (ran_storeWork hl (Nat.lt_of_lt_of_le hn hl.sizes.window) _ _ m)
  · cases h

theorem zeroPad_ran (hl : c.Legal) (m : Memory) : Ran c (fun _ _ => False) m (zeroPad c m) :=
  loopUpTo_keeps (fun _ t => Ran c (fun _ _ => False) m t) (ran_refl c m) fun k t hk ht =>
    ht.frameAfter hl (ran_storeWork hl (by omega) _ _ t)

theorem windowStage_ran {v : Nat → Word} (hl : c.Legal) (h : windowStage c v m = .ok u) :
    Ran c (fun a i => a = .win ∧ i < c.window) m u := by
  rw [windowStage_eq] at h
  cases ht : forUpTo c.window (windowWord v) m with
  | error f => rw [ht] at h; cases h
  | ok t =>
    rw [ht] at h
    cases h
    refine ((ran_forUpTo id _ hl (fun k y y' hk hb => windowWord_ran hl hk hb) ht).mono ?_).frameAfter hl
      (zeroPad_ran hl t)
    rintro a i ⟨ha, hi⟩
    exact ⟨i, hi, ha, rfl⟩

theorem swapWords_ran {a : Arr} {i j : Nat} (hl : c.Legal) (ha : a ≠ .feat) (hi : i < featArea c a)
    (hj : j < featArea c a) (h : swapWords a i j m = .ok u) : Ran c (fun _ _ => False) m u := by
  unfold swapWords at h
  split at h
  · cases h
    exact (ran_store ha hi _ m).frameAfter hl (ran_store ha hj _ _)
  · cases h
  · cases h

theorem bitrevAt_ran {i : Nat} (hl : c.Legal) (hi : i < c.fftSize) (h : bitrevAt c.fftLog2.toNat i m = .ok u) :
    Ran c (fun _ _ => False) m u := by
  have hr : revBits c.fftLog2.toNat i < c.fftSize := revBits_lt _ i
  unfold bitrevAt at h
  split at h
  · split at h
    · next t ht =>
      exact (swapWords_ran hl (by decide) hi hr ht).frameAfter hl (swapWords_ran hl (by decide) hi hr h)
    · cases h
  · cases h
    exact ran_refl c m

/-- Both words of a twiddle. -/
def IsTwiddle (k : Nat) (a : Arr) (i : Nat) : Prop := (a = .twRe ∨ a = .twIm) ∧ i = k

theorem bfly_ran {p q k : Nat} (hl : c.Legal) (hp : p < c.fftSize) (hq : q < c.fftSize) (h : bfly p q k m = .ok u) :
    Ran c (IsTwiddle k) m u := by
  unfold bfly at h
  obtain ⟨wr, hwr, h⟩ := bind_ok h
  obtain ⟨wi, hwi, h⟩ := bind_ok h
  obtain ⟨_, -, h⟩ := bind_ok h
  obtain ⟨_, -, h⟩ := bind_ok h
  obtain ⟨_, -, h⟩ := bind_ok h
  obtain ⟨_, -, h⟩ := bind_ok h
  cases h
  have htw : Ran c (IsTwiddle k) m m := ((ran_load c hwr).trans hl (ran_load c hwi)).mono fun a i ⟨ha, hi⟩ =>
    ha.imp (fun h => ⟨h, hi⟩) fun h => ⟨h, hi⟩
  exact (htw.frameAfter hl (ran_storeWork hl hq _ _ m)).frameAfter hl (ran_storeWork hl hp _ _ _)

/-- A stage reads its twiddles in the step of its span (R224). -/
theorem fftStage_ran {k : Nat} (hl : c.Legal) (hk : k < c.fftLog2.toNat) (h : fftStage c (k + 1) m = .ok u) :
    Ran c (fun a i => ∃ j, j < 2 ^ (k + 1) / 2 ∧ IsTwiddle (j * (c.fftSize / 2 ^ (k + 1))) a i) m u := by
  have hblock (b : Nat) (t t' : Memory) (hb : b < c.fftSize / 2 ^ (k + 1))
      (ht : forUpTo (2 ^ (k + 1) / 2) (fun j u => bfly (b * 2 ^ (k + 1) + j) (b * 2 ^ (k + 1) + j + 2 ^ (k + 1) / 2)
        (j * (c.fftSize / 2 ^ (k + 1))) u) t = .ok t') :
      Ran c (fun a i => ∃ j, j < 2 ^ (k + 1) / 2 ∧ IsTwiddle (j * (c.fftSize / 2 ^ (k + 1))) a i) t t' :=
    ran_forUpTo id _ hl (fun j y y' hj hy => by
      have hq := (butterfly_indices hk hb hj).1
      exact bfly_ran hl (Nat.lt_of_le_of_lt (Nat.le_add_right _ _) hq) hq hy) ht
  have hstep : 0 < c.fftSize / 2 ^ (k + 1) :=
    Nat.div_pos (Nat.pow_le_pow_right (by decide) hk) (Nat.two_pow_pos _)
  exact (ran_forUpTo id _ hl hblock h).mono fun a i hi => ⟨0, hstep, hi⟩

/-- The last stage reads every twiddle. -/
theorem fftFull_ran (hl : c.Legal) (h : fftFull c m = .ok u) :
    Ran c (fun a i => (a = .twRe ∨ a = .twIm) ∧ i < c.fftSize / 2) m u := by
  unfold fftFull at h
  split at h
  · next t ht =>
    have hrev : Ran c (fun _ _ => False) m t :=
      (ran_forUpTo id _ hl (fun i y y' hi hb => bitrevAt_ran hl hi hb) ht).mono fun _ _ => False.elim
    refine ((ran_forUpTo id _ hl (fun k y y' hk hb => fftStage_ran hl hk hb) h).mono ?_).after hl hrev
    rintro a i ⟨ha, hi⟩
    have hlow := hl.sizes.fftLow
    obtain ⟨B, hB⟩ : ∃ B, c.fftLog2.toNat = B + 1 := Nat.exists_eq_succ_of_ne_zero fun h0 => by
      rw [Cfg.fftSize, h0] at hlow
      omega
    have hsize : c.fftSize = 2 ^ (B + 1) := congrArg (2 ^ ·) hB
    refine ⟨B, by omega, i, hsize ▸ hi, ha, ?_⟩
    rw [hsize, Nat.div_self (Nat.two_pow_pos _), Nat.mul_one]
  · cases h

theorem fftPower_ran (hl : c.Legal) (h : fftPower c m = .ok u) : Ran c (fun _ _ => False) m u := by
  refine (ran_forUpTo id (fun _ _ _ => False) hl (fun k y y' hk hb => ?_) h).mono fun _ _ => False.elim
  obtain ⟨re, -, hb⟩ := bind_ok hb
  obtain ⟨im, -, hb⟩ := bind_ok hb
  cases hb
  exact ran_store (a := .pow) (by decide) hk _ y

theorem bandEnergy_ran {band : Nat} {e : Word} (hl : c.Legal) (h : bandEnergy c band m = .ok e) :
    Ran c (fun a i => ∃ k, k < c.bins ∧ a = .melW ∧ i = band * 1024 + k) m m := by
  refine ran_forUpTo (fun _ => m) _ hl (fun k acc acc' hk hb => ?_) h
  obtain ⟨w, hw, -⟩ := bind_ok hb
  exact ran_load c hw

theorem melApply_ran (hl : c.Legal) (h : melApply c m = .ok u) :
    Ran c (fun a i => ∃ b, b < c.bands ∧ ∃ k, k < c.bins ∧ a = .melW ∧ i = b * 1024 + k) m u := by
  refine ran_forUpTo id _ hl (fun b y y' hb hy => ?_) h
  obtain ⟨e, he, hy⟩ := bind_ok hy
  cases hy
  exact (bandEnergy_ran hl he).frameAfter hl (ran_store (a := .melE) (by decide) hb e y)

theorem logCompress_ran {r : Memory × Bool} (hl : c.Legal) (h : logCompress c m = .ok r) :
    Ran c (fun _ _ => False) m r.1 := by
  refine (ran_forUpTo Prod.fst (fun _ _ _ => False) hl (fun b y y' hb hy => ?_) h).mono fun _ _ => False.elim
  obtain ⟨e, -, hy⟩ := bind_ok hy
  cases hy
  exact ran_store (a := .melLog) (by decide) hb _ y.1

/-- A chain that answered has read every coefficient, and changed its work arrays only. -/
theorem flaggedChain_ran {v : Nat → Word} {r : Memory × Bool} (hl : c.Legal) (h : flaggedChain c v m = .ok r) :
    Coefficients c m ∧ SameOutside (chainBlocks c) m r.1 := by
  unfold flaggedChain at h
  obtain ⟨m1, h1, h⟩ := bind_ok h
  obtain ⟨m2, h2, h⟩ := bind_ok h
  obtain ⟨m3, h3, h⟩ := bind_ok h
  obtain ⟨m4, h4, h⟩ := bind_ok h
  have hfft := (windowStage_ran hl h1).trans hl (fftFull_ran hl h2)
  have hmel := (melApply_ran hl h4).after hl (fftPower_ran hl h3)
  have hall := (hfft.trans hl hmel).frameAfter hl (logCompress_ran hl h)
  refine ⟨fun a i hi => hall.reads a i ?_ hi, hall.frame⟩
  cases a with
  | win => exact .inl (.inl ⟨rfl, hi⟩)
  | twRe => exact .inl (.inr ⟨.inl rfl, hi⟩)
  | twIm => exact .inl (.inr ⟨.inr rfl, hi⟩)
  | melW =>
    obtain ⟨b, k, hb, hk, rfl⟩ := hi
    exact .inr ⟨b, hb, k, hk, rfl, rfl⟩
  | scratch0 | scratch1 | feat | pktPay | rbram => cases hi
  | workRe | workIm | pow | melE | melLog => exact absurd hi (Nat.not_lt_zero i)

end Chain

end Sys2Proof.Machine
end

section
/-!
The rows of a feature extraction that answered (spec/44_mel.md R255, R260): each is its own window's chain on the memory
before the command, and the work arrays hold the newest window's values.
-/

namespace Sys2Proof.Machine

section Rows

variable {c : Cfg} {m m₀ u : Memory} {v : List Word} {nwin : Nat}

/-! ### What a row leaves alone -/

/-- Words of an array that a loop of stores does not reach. -/
theorem word_storeLoop_other {a b : Arr} {n i : Nat} (f : Nat → Word) (m : Memory) (hn : n ≤ a.len) (hi : i < b.len)
    (h : b ≠ a ∨ n ≤ i) : (loopUpTo n (fun j t => store a j (f j) t) m).word b i = m.word b i :=
  loopUpTo_keeps (fun _ (t : Memory) => t.word b i = m.word b i) rfl fun k t hk ih =>
    (word_store_other (f k) t hi (Nat.lt_of_lt_of_le hk hn) (h.imp_right fun h => by omega)).trans ih

/-- A row that was written holds the log energies, and no other word of the arrays changed. -/
theorem featRow_words {base : Nat} (hl : c.Legal) (hbase : base + c.bands ≤ c.frames * c.bands)
    (h : featRow c base m = .ok u) :
    (∀ b, b < c.bands → u.word .feat (base + b) = m.word .melLog b) ∧
      ∀ a i, i < a.len → a ≠ .feat ∨ i < base → u.word a i = m.word a i := by
  have hfeat := hl.sizes.feat
  have hbands := hl.sizes.bands
  refine forUpTo_keeps (fun k (y : Memory) => (∀ b, b < k → y.word .feat (base + b) = m.word .melLog b) ∧
    ∀ a i, i < a.len → a ≠ .feat ∨ i < base → y.word a i = m.word a i)
    ⟨fun b hb => absurd hb (Nat.not_lt_zero b), fun _ _ _ _ => rfl⟩ (fun k y y' hk ⟨hrow, hrest⟩ hb => ?_) h
  obtain ⟨e, he, hb⟩ := bind_ok hb
  cases hb
  have hlen : base + k < Arr.len .feat := Nat.lt_of_lt_of_le (by omega) hfeat
  refine ⟨fun b hbk => ?_, fun a i hi ha => ?_⟩
  · by_cases hlast : b = k
    · rw [hlast, word_store, ← hrest .melLog k (Nat.lt_of_lt_of_le hk hbands) (.inl (by decide))]
      exact (load_ok_iff.1 he).symm
    · rw [word_store_other _ _ (by omega) hlen (.inr (by omega))]
      exact hrow b (by omega)
  · rw [word_store_other _ _ hi hlen (ha.imp_right fun h => by omega)]
    exact hrest a i hi ha

/-- A chain leaves FEAT alone. -/
theorem word_feat_of_chain {j : Nat} (hl : c.Legal) (h : SameOutside (chainBlocks c) m u) :
    u.word .feat j = m.word .feat j := by
  have hfft := hl.sizes.fft
  have hbands := hl.sizes.bands
  refine Memory.readWord_congr fun k hlo _ => h k ?_
  rw [Bool.eq_false_iff]
  simp only [Arr.off, Arr.base] at hlo
  simp only [chainBlocks, ne_eq, inBlocks_cons, inBlocks_nil, inBlock_iff, Bool.false_eq_true, or_false, Cfg.bins]
  omega

/-! ### One window (R255) -/

/-- The work arrays of `m` hold what the chain that ended in `u` computed. -/
def HoldsChain (c : Cfg) (m u : Memory) : Prop := ∀ a i, a ≠ .feat → i < featArea c a → m.word a i = u.word a i

theorem chainWords_of_featArea {a : Arr} {i : Nat} (ha : a ≠ .feat) (hi : i < featArea c a) :
    chainWords c c.fftSize c.bins c.bands c.bands a i := by
  cases a with
  | feat => exact absurd rfl ha
  | workRe | workIm | pow | melE | melLog => exact hi
  | win | twRe | twIm | scratch0 | scratch1 | pktPay | melW | rbram => exact absurd hi (Nat.not_lt_zero i)

theorem featWindow_chain {w : Nat} {t : Memory × Bool} {r : Memory × Bool} (h : featWindow c v nwin w t = .ok r) :
    ∃ z, flaggedChain c (windowOutputs c v w) t.1 = .ok z ∧
      featRow c ((c.frames - nwin + w) * c.bands) z.1 = .ok r.1 := by
  rw [featWindow_eq] at h
  obtain ⟨z, hz, h⟩ := bind_ok h
  obtain ⟨u, hu, h⟩ := bind_ok h
  cases h
  exact ⟨z, hz, hu⟩

/-- A window's row and the work arrays are its own chain's; the rows before it stay. -/
theorem featWindow_rows {w : Nat} {t r : Memory × Bool} (hl : c.Legal) (hc : Coefficients c m₀)
    (hf : SameOutside (featBlocks c) m₀ t.1) (hrow : c.frames - nwin + w < c.frames)
    (h : featWindow c v nwin w t = .ok r) :
    (∃ u, windowChain c (windowOutputs c v w) m₀ = .ok u ∧ HoldsChain c r.1 u ∧
      ∀ b, b < c.bands → r.1.word .feat ((c.frames - nwin + w) * c.bands + b) = u.word .melLog b) ∧
    ∀ j, j < (c.frames - nwin + w) * c.bands → r.1.word .feat j = t.1.word .feat j := by
  have hbase : (c.frames - nwin + w) * c.bands + c.bands ≤ c.frames * c.bands := by
    rw [← Nat.succ_mul]
    exact Nat.mul_le_mul_right _ hrow
  obtain ⟨z, hz, hr⟩ := featWindow_chain h
  obtain ⟨z₁, z', hz₁, hz', htwin, -⟩ := flaggedChain_twin (windowOutputs c v w) hl (twin_of_frame hl hc hf)
  obtain rfl : z = z₁ := Except.ok.inj (hz.symm.trans hz₁)
  obtain ⟨hfeat, hrest⟩ := featRow_words hl hbase hr
  have hsame : HoldsChain c z.1 z'.1 := fun a i ha hi => by
    obtain ⟨-, x, hx, hx'⟩ := htwin.agree a i (chainWords_of_featArea ha hi)
    exact (load_ok_iff.1 hx).trans (load_ok_iff.1 hx').symm
  refine ⟨⟨z'.1, by rw [windowChain_eq, hz']; rfl, fun a i ha hi => ?_, fun b hb => ?_⟩, fun j hj => ?_⟩
  · exact (hrest a i (Nat.lt_of_lt_of_le hi (featArea_le hl a)) (.inl ha)).trans (hsame a i ha hi)
  · exact (hfeat b hb).trans (hsame .melLog b (by decide) hb)
  · have hlen : j < Arr.len .feat := Nat.lt_of_lt_of_le (by omega) hl.sizes.feat
    exact (hrest .feat j hlen (.inr hj)).trans (word_feat_of_chain hl (flaggedChain_ran hl hz).2)

/-! ### All windows (R255, R260) -/

/-- The first round of a loop that completes. -/
theorem forUpTo_first {σ : Type} {n : Nat} {body : Nat → σ → Except Fault σ} {x z : σ} (hn : 0 < n)
    (h : forUpTo n body x = .ok z) : ∃ y, body 0 x = .ok y := by
  induction n generalizing z with
  | zero => exact absurd hn (Nat.lt_irrefl 0)
  | succ n ih =>
    rw [forUpTo_succ] at h
    split at h
    · next y hy =>
      by_cases h0 : n = 0
      · subst h0
        cases hy
        exact ⟨z, h⟩
      · exact ih (Nat.pos_of_ne_zero h0) hy
    · cases h

/-- After the first `k` windows, their rows hold their own chains' log energies, and the work arrays the last one's. -/
def RowsOwn (c : Cfg) (v : List Word) (nwin : Nat) (m₀ : Memory) (k : Nat) (m : Memory) : Prop :=
  ∀ w, w < k → ∃ u, windowChain c (windowOutputs c v w) m₀ = .ok u ∧
    (∀ b, b < c.bands → m.word .feat ((c.frames - nwin + w) * c.bands + b) = u.word .melLog b) ∧
    (w + 1 = k → HoldsChain c m u)

theorem RowsOwn.succ {k : Nat} {t r : Memory × Bool} (hl : c.Legal) (hc : Coefficients c m₀)
    (hf : SameOutside (featBlocks c) m₀ t.1) (hrow : c.frames - nwin + k < c.frames) (hk : RowsOwn c v nwin m₀ k t.1)
    (h : featWindow c v nwin k t = .ok r) : RowsOwn c v nwin m₀ (k + 1) r.1 := by
  obtain ⟨⟨u, hu, hwork, hfeat⟩, hrest⟩ := featWindow_rows hl hc hf hrow h
  intro w hw
  obtain rfl | hlast := eq_or_ne w k
  · exact ⟨u, hu, hfeat, fun _ => hwork⟩
  · obtain ⟨u', hu', hfeat', -⟩ := hk w (by omega)
    refine ⟨u', hu', fun b hb => ?_, fun h => absurd (Nat.succ.inj h) hlast⟩
    have hbelow : (c.frames - nwin + w + 1) * c.bands ≤ (c.frames - nwin + k) * c.bands :=
      Nat.mul_le_mul_right _ (by omega)
    rw [Nat.succ_mul] at hbelow
    exact (hrest _ (by omega)).trans (hfeat' b hb)

theorem windows_own {r : Memory × Bool} (hl : c.Legal) (hn : nwin ≤ c.frames) (hpos : 0 < nwin)
    (h : forUpTo nwin (fun w t => featWindow c v nwin w t) (m, false) = .ok r) : RowsOwn c v nwin m nwin r.1 := by
  have hc : Coefficients c m := by
    obtain ⟨y, hy⟩ := forUpTo_first hpos h
    obtain ⟨z, hz, -⟩ := featWindow_chain hy
    exact (flaggedChain_ran hl hz).1
  refine (forUpTo_keeps (fun k t => SameOutside (featBlocks c) m t.1 ∧ RowsOwn c v nwin m k t.1)
    ⟨sameOutside_refl _ m, fun w hw => absurd hw (Nat.not_lt_zero w)⟩ (fun k t t' hk ⟨hf, hown⟩ ht => ?_) h).2
  have hrow : c.frames - nwin + k < c.frames := by omega
  obtain ⟨u, hu, hf', -⟩ := featWindow_ok (v := v) hl hc hf hrow
  obtain rfl := Except.ok.inj (hu.symm.trans ht)
  exact ⟨hf', hown.succ hl hc hf hrow ht⟩

/-- The padding lies before the rows, and apart from the work arrays. -/
theorem featRows_own {r : FeatResult} (hl : c.Legal) (hn : nwin ≤ c.frames) (hpos : 0 < nwin)
    (h : featRows c v nwin m = .ok r) : RowsOwn c v nwin m nwin r.mem := by
  unfold featRows at h
  obtain ⟨t, ht, h⟩ := bind_ok h
  obtain ⟨vals, -, h⟩ := bind_ok h
  cases h
  have hfeat := hl.sizes.feat
  have hfirst : (c.frames - nwin) * c.bands ≤ Arr.len .feat :=
    Nat.le_trans (Nat.mul_le_mul_right _ (Nat.sub_le _ _)) hfeat
  intro w hw
  obtain ⟨u, hu, hrow, hwork⟩ := windows_own hl hn hpos ht w hw
  refine ⟨u, hu, fun b hb => ?_, fun hlast a i ha hi => ?_⟩
  · have hlow : (c.frames - nwin) * c.bands ≤ (c.frames - nwin + w) * c.bands :=
      Nat.mul_le_mul_right _ (Nat.le_add_right _ _)
    have hhigh : (c.frames - nwin + w + 1) * c.bands ≤ c.frames * c.bands := Nat.mul_le_mul_right _ (by omega)
    rw [Nat.succ_mul] at hhigh
    exact (word_storeLoop_other _ _ hfirst (Nat.lt_of_lt_of_le (by omega) hfeat) (.inr (by omega))).trans (hrow b hb)
  · exact (word_storeLoop_other _ _ hfirst (Nat.lt_of_lt_of_le hi (featArea_le hl a)) (.inl ha)).trans
      (hwork hlast a i ha hi)

end Rows

/-! ### The command -/

/-- Samples that were collected had their slots written. -/
theorem covers_of_collect {sn : Snapshot} {c : Cfg} {n : Nat} {xs : List Sample}
    (h : collect n (sn.sample c) = .ok xs) : sn.covers c n := by
  intro i hi
  obtain ⟨x, -, hx⟩ := collect_get h i hi
  unfold Snapshot.sample at hx
  split at hx
  · next w hw => exact Option.isSome_iff_exists.2 ⟨w, load_ok_iff.1 hw⟩
  · cases hx

/-- The memory that an extraction without an eviction leaves is that of its rows. -/
theorem featDone_rows {full : Bool} {nwin : Nat} {sn : Snapshot} {s t : State}
    (hroom : s.sclk.toNat ≤ sn.rpos.toNat + s.act.rbCap.toNat) (h : featDone full nwin sn s = .ok t) :
    ∃ r, featRows s.act (ppOutputs s.act s.pp (rawSamples s.act sn (s.act.spanOf nwin))) nwin s.mem = .ok r ∧
      t.mem = r.mem := by
  rw [featDone_eq] at h
  obtain ⟨xs, hxs, h⟩ := bind_ok h
  obtain ⟨r, hr, h⟩ := bind_ok h
  cases h
  obtain ⟨l, hl, hraw⟩ := collect_rawSamples (covers_of_collect hxs)
  obtain rfl : xs = l := Except.ok.inj (hxs.symm.trans hl)
  rw [hraw] at hr
  refine ⟨r, hr, ?_⟩
  rw [extractSettled, evicted_eq_false hroom, if_neg Bool.false_ne_true]
  cases full <;> rfl

/-- The rows of a FULL or PAD FEAT_EXTRACT that answered are their own windows'. -/
theorem featExtract_rowsOwn {s t : State} {sn : Snapshot} {full : Bool}
    (hend : AtEnd s (s.cfgValid = true ∧ s.run = true) sn) (hl : s.act.Legal)
    (hfull : full = decide (s.act.required ≤ sn.avail))
    (hmode : s.act.required ≤ sn.avail ∨ s.act.padEn = true ∧ s.act.window ≤ sn.avail)
    (hroom : s.sclk.toNat ≤ sn.rpos.toNat + s.act.rbCap.toNat) (hrun : exec .featExtract s = .next t)
    {nwin : Nat} (hn : nwin = windowCount full s.act sn.avail) (hpos : 0 < nwin) :
    RowsOwn s.act (ppOutputs s.act s.pp (rawSamples s.act sn (s.act.spanOf nwin))) nwin s.mem nwin t.mem := by
  have hwindows : nwin ≤ s.act.frames := hn ▸ windowCount_le hl fun h => by
    rw [hfull, decide_eq_false_iff_not] at h
    exact Nat.lt_of_not_le h
  have hdone : effectFeatExtract sn s = featDone full nwin sn s := by
    rw [effectFeatExtract_done hmode, ← hfull, ← hn]
  rw [exec_featExtract] at hrun
  have hbegin : s.beginResult checkFeatExtract = (none, sn) := hend.beginResult checkFeatExtract_none
  rcases runCommand_next hrun with ⟨e, he, -⟩ | ⟨-, u, hu, rfl⟩
  · rw [hbegin] at he
    cases he
  · rw [hbegin, hdone] at hu
    obtain ⟨r, hr, hmem⟩ := featDone_rows hroom hu
    have hown := featRows_own hl hwindows hpos hr
    rwa [← hmem] at hown

/-- Settles O34: stage 5 sets the work arrays, and the rows of an extraction that answered are their windows' own. -/
theorem featureRowsAreTheirOwnWindows : Obligations.FeatureRowsAreTheirOwnWindows := by
  unfold Obligations.FeatureRowsAreTheirOwnWindows
  constructor
  · intro c v m hl hwin n
    obtain ⟨u, hu, hset⟩ := windowStage_workSet v hl hwin
    exact ⟨u, hu, hset.paddedWindow hl⟩
  · intro s sn t hend hl c a nwin span v hmode hroom hrun w hw
    have hn : nwin = windowCount (decide (c.rq ≤ a)) c a := by
      simp only [windowCount, decide_eq_true_eq]
      rfl
    obtain ⟨u, hu, hrow, hwork⟩ :=
      featExtract_rowsOwn hend hl rfl hmode hroom hrun hn (Nat.lt_of_le_of_lt (Nat.zero_le w) hw) w hw
    refine ⟨u, hu, hrow, fun hlast => ?_⟩
    have hheld := hwork hlast
    exact ⟨fun i hi => ⟨hheld .workRe i (by decide) hi, hheld .workIm i (by decide) hi⟩,
      fun k hk => hheld .pow k (by decide) hk,
      fun b hb => ⟨hheld .melE b (by decide) hb, hheld .melLog b (by decide) hb⟩⟩

end Sys2Proof.Machine
end

section
/-!
The words of an array in memory: arrays apart from the blocks that changed, an array that holds given words and what a
store leaves of it, a loop that fills an array, and a command whose only effect is on the arrays.
-/

namespace Sys2Proof.Machine

/-! ### Arrays apart from the blocks that changed -/

theorem sameOutside_store_of_mem {bs : List (Nat × Nat)} {a : Arr} {n i : Nat} (hb : a.first n ∈ bs) (hi : i < n)
    (v : Word) (m : Memory) : SameOutside bs m (store a i v m) := by
  intro off ho
  refine store_readByte_other v m ?_
  by_contra hin
  refine Bool.eq_false_iff.1 ho ((inBlocks_iff bs off).2 ⟨_, hb, (inBlock_iff _ _ _).2 ?_⟩)
  simp only [Arr.off, Arr.first] at hin ⊢
  omega

/-- A word of an array other than those whose first words changed. -/
theorem SameOutside.word {bs : List (Nat × Nat)} {m t : Memory} {a : Arr} {i : Nat} (h : SameOutside bs m t)
    (hi : i < a.len) (hbs : ∀ b ∈ bs, ∃ d : Arr, ∃ n, a ≠ d ∧ n ≤ d.len ∧ b = d.first n) :
    t.word a i = m.word a i := by
  refine Memory.readWord_congr fun off hlo hhi => h off (Bool.eq_false_iff.2 fun hin => ?_)
  obtain ⟨b, hb, hblock⟩ := (inBlocks_iff bs off).1 hin
  obtain ⟨d, n, hne, hn, rfl⟩ := hbs b hb
  obtain ⟨hbase, hend⟩ := (inBlock_iff _ _ _).1 hblock
  simp only [Arr.first] at hbase hend
  have hapart := Arr.off_disjoint (j := (off - d.base) / 4) hi (by omega) (.inl hne)
  simp only [Arr.off] at hapart hlo hhi
  omega

/-- A word that was written before and reads as before. -/
theorem load_same {m t : Memory} {a : Arr} {i : Nat} (h : t.word a i = m.word a i) (hw : (m.word a i).isSome) :
    load a i t = .ok (m.val a i) := (load_congr h).trans (load_val hw)

/-! ### An array that holds given words -/

/-- The first `n` words of an array are `f 0, .., f (n-1)`. -/
def Memory.Holds (m : Memory) (a : Arr) (n : Nat) (f : Nat → Word) : Prop := ∀ i, i < n → m.word a i = some (f i)

section Holds

variable {m : Memory} {a b : Arr} {n i j k : Nat} {f g : Nat → Word}

theorem holds_of_written (h : Written a n m) : m.Holds a n (m.val a) :=
  fun i hi => load_ok_iff.1 (load_val (h i hi))

theorem Memory.Holds.congr (h : m.Holds a n f) (hfg : ∀ i, i < n → f i = g i) : m.Holds a n g :=
  fun i hi => (h i hi).trans (congrArg some (hfg i hi))

theorem Memory.Holds.load (h : m.Holds a n f) (hi : i < n) : load a i m = .ok (f i) := load_ok_iff.2 (h i hi)

theorem Memory.Holds.store (h : m.Holds a n f) (hn : n ≤ a.len) (hk : k < n) (v : Word) :
    (Machine.store a k v m).Holds a n (Function.update f k v) := by
  intro i hi
  by_cases hik : i = k
  · rw [hik, Function.update_self]
    exact word_store a k v m
  · rw [Function.update_of_ne hik, word_store_other v m (by omega) (by omega) (.inr hik)]
    exact h i hi

theorem Memory.Holds.store_other (h : m.Holds a n f) (hn : n ≤ a.len) (hab : a ≠ b) (hk : k < b.len) (v : Word) :
    (Machine.store b k v m).Holds a n f :=
  fun i hi => (word_store_other v m (by omega) hk (.inl hab)).trans (h i hi)

/-- The next word of an array joins those it holds. -/
theorem Memory.Holds.snoc (h : m.Holds a k f) (hk : k < a.len) : (Machine.store a k (f k) m).Holds a (k + 1) f := by
  intro i hi
  by_cases hik : i = k
  · rw [hik]
    exact word_store a k (f k) m
  · rw [word_store_other _ m (by omega) hk (.inr hik)]
    exact h i (by omega)

theorem swapWords_eq (h : m.Holds a n f) (hi : i < n) (hj : j < n) :
    swapWords a i j m = .ok (Machine.store a j (f i) (Machine.store a i (f j) m)) := by
  rw [swapWords, h.load hi, h.load hj]

/-- Two words exchanged. -/
theorem Memory.Holds.swap (h : m.Holds a n f) (hn : n ≤ a.len) (hi : i < n) (hj : j < n) :
    (Machine.store a j (f i) (Machine.store a i (f j) m)).Holds a n (f ∘ Equiv.swap i j) := by
  rw [Equiv.swap_comm, Equiv.comp_swap_eq_update]
  exact (h.store hn hi _).store hn hj _

end Holds

/-! ### Loops and commands on the arrays -/

/-- A loop whose round `k` writes word `k` of one array, by what stands outside that array. -/
theorem forUpTo_fills {a : Arr} {n : Nat} {body : Nat → Memory → Except Fault Memory} {f : Nat → Word} {m : Memory}
    (hn : n ≤ a.len)
    (hbody : ∀ k t, k < n → SameOutside [a.first n] m t → body k t = .ok (store a k (f k) t)) :
    ∃ u, forUpTo n body m = .ok u ∧ u.Holds a n f ∧ SameOutside [a.first n] m u :=
  forUpTo_completes (fun k t => t.Holds a k f ∧ SameOutside [a.first n] m t)
    ⟨fun _ h => absurd h (Nat.not_lt_zero _), sameOutside_refl _ m⟩ fun k t hk ht =>
      ⟨_, hbody k t hk ht.2, ht.1.snoc (Nat.lt_of_lt_of_le hk hn),
        ht.2.trans (sameOutside_store_of_mem (List.mem_singleton.2 rfl) hk _ t)⟩

/-- A loop whose rounds carry out those of a loop that cannot fault. -/
theorem forUpTo_simulates {σ τ : Type} {n : Nat} {body : Nat → σ → Except Fault σ} {step : Nat → τ → τ} {x : σ} {z : τ}
    (R : τ → σ → Prop) (h0 : R z x)
    (hs : ∀ k z y, k < n → R z y → ∃ y', body k y = .ok y' ∧ R (step k z) y') :
    ∃ y, forUpTo n body x = .ok y ∧ R (loopUpTo n step z) y :=
  forUpTo_completes (fun k y => R (loopUpTo k step z) y) h0 fun k y hk hy => hs k _ y hk hy

/-- A command whose only effect is on the arrays, past its checks. -/
theorem arrayCommand_completes {i : Instr} {check : State → Option ErrCode} {f : Cfg → Memory → Except Fault Memory}
    {s : State} {ready : Prop} {sn : Snapshot} {m : Memory} (hend : AtEnd s ready sn) (hcheck : ready → check s = none)
    (hm : f s.act s.mem = .ok m) :
    ∃ t, runCommand i check (fun _ t => onMemory (f t.act) t) s = .next t ∧
      Completed s t i.opcode.byte s.oldResult 0 ∧
      t = { s with chan0 := t.chan0, chan1 := t.chan1, irqStatus := t.irqStatus, mem := t.mem } ∧ t.mem = m :=
  ⟨_, runCommand_atEnd hend hcheck (onMemory_of_ok hm), completed_oldResult _ rfl rfl rfl rfl, rfl, rfl⟩

end Sys2Proof.Machine
end

section
/-!
The FFT (spec/43_fft.md R222-R226): WORK as a vector of complex words, the permutation and the passes on such a vector,
and the commands that carry them out in memory.
-/

namespace Sys2Proof.Machine

/-! ### Bit reversal (R223) -/

theorem revBits_testBit {b j : Nat} (i : Nat) (hj : j < b) : (revBits b i).testBit j = i.testBit (b - 1 - j) := by
  induction b generalizing i j with
  | zero => omega
  | succ b ih =>
    rw [revBits, Nat.mul_comm, Nat.testBit_two_pow_mul_add _ (revBits_lt b (i / 2))]
    split
    · next hlt => rw [ih (i / 2) hlt, Nat.testBit_div_two, show b - 1 - j + 1 = b + 1 - 1 - j by omega]
    · next hge => rw [show j = b by omega, Nat.sub_self, Nat.add_sub_cancel, Nat.sub_self, Nat.testBit_zero,
        Nat.testBit_zero, Nat.mod_mod]

theorem revBits_revBits {b i : Nat} (hi : i < 2 ^ b) : revBits b (revBits b i) = i := by
  refine Nat.eq_of_testBit_eq fun j => ?_
  by_cases hj : j < b
  · rw [revBits_testBit _ hj, revBits_testBit _ (by omega), show b - 1 - (b - 1 - j) = j by omega]
  · have hpow : 2 ^ b ≤ 2 ^ j := Nat.pow_le_pow_right (by decide) (by omega)
    rw [Nat.testBit_lt_two_pow (Nat.lt_of_lt_of_le (revBits_lt _ _) hpow),
      Nat.testBit_lt_two_pow (Nat.lt_of_lt_of_le hi hpow)]

/-- Where the word that stands at index `i` after the first `k` rounds of the permutation came from: a pair of reversed
indices is exchanged in the round of the smaller one. -/
def bitrevSource (b k i : Nat) : Nat := if min i (revBits b i) < k then revBits b i else i

theorem bitrevSource_all {b i : Nat} (hi : i < 2 ^ b) : bitrevSource b (2 ^ b) i = revBits b i :=
  if_pos (Nat.lt_of_le_of_lt (Nat.min_le_left _ _) hi)

/-- A round at the smaller of two reversed indices exchanges their words. -/
theorem bitrevSource_swap {b k i : Nat} (hk : k < revBits b k) (hi : i < 2 ^ b) :
    bitrevSource b k (Equiv.swap k (revBits b k) i) = bitrevSource b (k + 1) i := by
  have hrev := revBits_revBits hi
  have hkk := revBits_revBits (Nat.lt_trans hk (revBits_lt b k))
  by_cases hik : i = k
  · rw [hik, Equiv.swap_apply_left, bitrevSource, bitrevSource, hkk, if_neg (by omega), if_pos (by omega)]
  · by_cases hir : i = revBits b k
    · rw [hir, Equiv.swap_apply_right, bitrevSource, bitrevSource, hkk, if_neg (by omega), if_pos (by omega)]
    · have hri : revBits b i ≠ k := fun h => hir (by rw [← h, hrev])
      rw [Equiv.swap_apply_of_ne_of_ne hik hir, bitrevSource, bitrevSource,
        if_congr (show min i (revBits b i) < k ↔ min i (revBits b i) < k + 1 by omega) rfl rfl]

/-- Every other round leaves the words where they are. -/
theorem bitrevSource_skip {b k i : Nat} (hk : ¬k < revBits b k) (hi : i < 2 ^ b) :
    bitrevSource b k i = bitrevSource b (k + 1) i := by
  have hrev := revBits_revBits hi
  unfold bitrevSource
  by_cases hmin : min i (revBits b i) = k
  · have hfixed : revBits b i = i := by
      rcases Nat.le_total i (revBits b i) with hle | hle
      · obtain rfl : i = k := by omega
        omega
      · obtain rfl : revBits b i = k := by omega
        omega
    rw [hfixed, ite_self, ite_self]
  · rw [if_congr (show min i (revBits b i) < k ↔ min i (revBits b i) < k + 1 by omega) rfl rfl]

/-! ### WORK as a vector of complex words -/

/-- A complex word: its real part and its imaginary part. -/
abbrev CWord := Word × Word

/-- Memory `t` holds the vector `z` in WORK[0..n-1], and is `m` outside it. -/
structure HoldsWork (n : Nat) (m : Memory) (z : Nat → CWord) (t : Memory) : Prop where
  re : t.Holds .workRe n (Prod.fst ∘ z)
  im : t.Holds .workIm n (Prod.snd ∘ z)
  frame : SameOutside (workBlocks n) m t

/-- Entry `i` of WORK, and twiddle `k` (R221). -/
def workAt (m : Memory) (i : Nat) : CWord := (m.val .workRe i, m.val .workIm i)
def twiddleAt (m : Memory) (k : Nat) : CWord := (m.val .twRe k, m.val .twIm k)

/-- The twiddles of a transform of `n` words have been written. -/
def TwiddlesWritten (n : Nat) (m : Memory) : Prop := Written .twRe (n / 2) m ∧ Written .twIm (n / 2) m

/-- `WORK[i] <- v`. -/
def storeWork (i : Nat) (v : CWord) (m : Memory) : Memory := store .workIm i v.2 (store .workRe i v.1 m)

theorem holdsWork_of_written {n : Nat} {m : Memory} (hre : Written .workRe n m) (him : Written .workIm n m) :
    HoldsWork n m (workAt m) m := ⟨holds_of_written hre, holds_of_written him, sameOutside_refl _ m⟩

section Work

variable {n : Nat} {m t : Memory} {z z' : Nat → CWord} {i j k p q : Nat}

theorem workFrame_storeRe (h : SameOutside (workBlocks n) m t) (hk : k < n) (v : Word) :
    SameOutside (workBlocks n) m (Machine.store .workRe k v t) :=
  h.trans (sameOutside_store_of_mem List.mem_cons_self hk v t)

theorem workFrame_storeIm (h : SameOutside (workBlocks n) m t) (hk : k < n) (v : Word) :
    SameOutside (workBlocks n) m (Machine.store .workIm k v t) :=
  h.trans (sameOutside_store_of_mem (List.mem_cons_of_mem _ List.mem_cons_self) hk v t)

theorem HoldsWork.congr (h : HoldsWork n m z t) (hz : ∀ i, i < n → z i = z' i) : HoldsWork n m z' t :=
  ⟨h.re.congr fun i hi => congrArg Prod.fst (hz i hi), h.im.congr fun i hi => congrArg Prod.snd (hz i hi), h.frame⟩

theorem HoldsWork.store (h : HoldsWork n m z t) (hn : n ≤ 1024) (hk : k < n) (v : CWord) :
    HoldsWork n m (Function.update z k v) (storeWork k v t) where
  re := by
    rw [Function.comp_update]
    exact (h.re.store hn hk v.1).store_other hn (by decide) (show k < Arr.workIm.len from Nat.lt_of_lt_of_le hk hn) v.2
  im := by
    rw [Function.comp_update]
    exact (h.im.store_other hn (by decide) (show k < Arr.workRe.len from Nat.lt_of_lt_of_le hk hn) v.1).store hn hk v.2
  frame := workFrame_storeIm (workFrame_storeRe h.frame hk _) hk _

/-- The twiddles are not part of WORK. -/
theorem HoldsWork.twiddle (h : HoldsWork n m z t) (hn : n ≤ 1024) {a : Arr} (ha : a = .twRe ∨ a = .twIm)
    (hw : Written a (n / 2) m) (hk : k < n / 2) : load a k t = .ok (m.val a k) := by
  refine load_same (h.frame.word ?_ ?_) (hw k hk)
  · rcases ha with rfl | rfl <;> exact Nat.lt_of_lt_of_le hk (Nat.div_le_div_right (c := 2) hn)
  · have hne : a ≠ .workRe ∧ a ≠ .workIm := by rcases ha with rfl | rfl <;> decide
    intro b hb
    rcases List.mem_cons.1 hb with rfl | hb
    · exact ⟨.workRe, n, hne.1, hn, rfl⟩
    · exact ⟨.workIm, n, hne.2, hn, List.mem_singleton.1 hb⟩

/-! ### FFT_BITREV (R223) -/

/-- Two entries exchanged, the real parts first. -/
theorem HoldsWork.swap (h : HoldsWork n m z t) (hn : n ≤ 1024) (hi : i < n) (hj : j < n) :
    ∃ t' u, swapWords .workRe i j t = .ok t' ∧ swapWords .workIm i j t' = .ok u ∧
      HoldsWork n m (z ∘ Equiv.swap i j) u := by
  have hil : i < 1024 := Nat.lt_of_lt_of_le hi hn
  have hjl : j < 1024 := Nat.lt_of_lt_of_le hj hn
  have him := (h.im.store_other (b := .workRe) hn (by decide) hil (z j).1).store_other (b := .workRe) hn (by decide) hjl
    (z i).1
  exact ⟨_, _, swapWords_eq h.re hi hj, swapWords_eq him hi hj,
    ((h.re.swap hn hi hj).store_other hn (by decide) hil _).store_other hn (by decide) hjl _, him.swap hn hi hj,
    workFrame_storeIm (workFrame_storeIm (workFrame_storeRe (workFrame_storeRe h.frame hi _) hj _) hi _) hj _⟩

theorem HoldsWork.bitrevAt {b : Nat} (h : HoldsWork (2 ^ b) m (z ∘ bitrevSource b k) t) (hn : 2 ^ b ≤ 1024)
    (hk : k < 2 ^ b) :
    ∃ u, bitrevAt b k t = .ok u ∧ HoldsWork (2 ^ b) m (z ∘ bitrevSource b (k + 1)) u := by
  unfold Machine.bitrevAt
  split
  · next hlt =>
    obtain ⟨t', u, ht', hu, hz⟩ := h.swap hn hk (revBits_lt b k)
    rw [ht']
    exact ⟨u, hu, hz.congr fun i hi => congrArg z (bitrevSource_swap hlt hi)⟩
  · next hge => exact ⟨t, rfl, h.congr fun i hi => congrArg z (bitrevSource_skip hge hi)⟩

/-- FFT_BITREV leaves at every index the word of the reversed index. -/
theorem HoldsWork.fftBitrev {c : Cfg} (hl : c.Legal) (h : HoldsWork c.fftSize m z m) :
    ∃ u, fftBitrev c m = .ok u ∧ HoldsWork c.fftSize m (z ∘ revBits c.fftLog2.toNat) u := by
  have hstart : HoldsWork c.fftSize m (z ∘ bitrevSource c.fftLog2.toNat 0) m :=
    h.congr fun i _ => congrArg z (if_neg (Nat.not_lt_zero _)).symm
  obtain ⟨u, hu, hz⟩ := forUpTo_completes (n := c.fftSize)
    (fun k t => HoldsWork c.fftSize m (z ∘ bitrevSource c.fftLog2.toNat k) t) hstart
    fun k t hk ht => ht.bitrevAt hl.sizes.fft hk
  exact ⟨u, hu, hz.congr fun i hi => congrArg z (bitrevSource_all hi)⟩

/-! ### The butterfly (R222) -/

/-- `w·b`, and the two words of a butterfly. -/
def twiddled (w b : CWord) : CWord := (twiddleRe w.1 w.2 b.1 b.2, twiddleIm w.1 w.2 b.1 b.2)
def bflyTop (w u b : CWord) : CWord := (fadd u.1 (twiddled w b).1, fadd u.2 (twiddled w b).2)
def bflyBottom (w u b : CWord) : CWord := (fsub u.1 (twiddled w b).1, fsub u.2 (twiddled w b).2)

/-- The butterfly of twiddle `w` on entries `p` and `q` of a vector. -/
def butterfly (w : CWord) (p q : Nat) (z : Nat → CWord) : Nat → CWord :=
  Function.update (Function.update z q (bflyBottom w (z p) (z q))) p (bflyTop w (z p) (z q))

theorem butterfly_top (w : CWord) (p q : Nat) (z : Nat → CWord) : butterfly w p q z p = bflyTop w (z p) (z q) :=
  Function.update_self _ _ _

theorem butterfly_bottom (w : CWord) {p q : Nat} (hpq : q ≠ p) (z : Nat → CWord) :
    butterfly w p q z q = bflyBottom w (z p) (z q) := by
  rw [butterfly, Function.update_of_ne hpq, Function.update_self]

theorem butterfly_other (w : CWord) {p q i : Nat} (hp : i ≠ p) (hq : i ≠ q) (z : Nat → CWord) :
    butterfly w p q z i = z i := by rw [butterfly, Function.update_of_ne hp, Function.update_of_ne hq]

theorem HoldsWork.bfly (h : HoldsWork n m z t) (hn : n ≤ 1024) (htw : TwiddlesWritten n m) (hp : p < n) (hq : q < n)
    (hk : k < n / 2) :
    ∃ u, bfly p q k t = .ok u ∧ HoldsWork n m (butterfly (twiddleAt m k) p q z) u := by
  refine ⟨_, ?_, (h.store hn hq (bflyBottom (twiddleAt m k) (z p) (z q))).store hn hp
    (bflyTop (twiddleAt m k) (z p) (z q))⟩
  rw [Machine.bfly, h.twiddle hn (.inl rfl) htw.1 hk, h.twiddle hn (.inr rfl) htw.2 hk, h.re.load hq, h.im.load hq,
    h.re.load hp, h.im.load hp]
  rfl

end Work

/-! ### A pass (R224) -/

/-- A pass of `steps` blocks, with twiddle `w j` at pair `j` of each: the pairs of block `b` are the entries
`b·2·half + j` and `b·2·half + j + half`. -/
def fftPass (half steps : Nat) (w : Nat → CWord) (z : Nat → CWord) : Nat → CWord :=
  loopUpTo steps (fun b y => loopUpTo half
    (fun j x => butterfly (w j) (b * (2 * half) + j) (b * (2 * half) + j + half) x) y) z

/-- Block and place are unique. -/
theorem block_place_unique {s b r b' r' : Nat} (hr : r < s) (hr' : r' < s) (h : b * s + r = b' * s + r') :
    b = b' ∧ r = r' := by
  have hb : b = b' := by
    have hdiv := congrArg (· / s) h
    simpa only [Nat.mul_comm _ s, Nat.mul_add_div (Nat.zero_lt_of_lt hr), Nat.div_eq_of_lt hr, Nat.div_eq_of_lt hr',
      Nat.add_zero] using hdiv
  subst hb
  exact ⟨rfl, Nat.add_left_cancel h⟩

/-- The vector `z'` is `z` after the first `done` pairs of a pass, counted block after block. -/
structure PassUpTo (half : Nat) (w z : Nat → CWord) (done : Nat) (z' : Nat → CWord) : Prop where
  before : ∀ b j, j < half → b * half + j < done →
    z' (b * (2 * half) + j) = bflyTop (w j) (z (b * (2 * half) + j)) (z (b * (2 * half) + j + half)) ∧
    z' (b * (2 * half) + j + half) = bflyBottom (w j) (z (b * (2 * half) + j)) (z (b * (2 * half) + j + half))
  after : ∀ b j, j < half → done ≤ b * half + j →
    z' (b * (2 * half) + j) = z (b * (2 * half) + j) ∧ z' (b * (2 * half) + j + half) = z (b * (2 * half) + j + half)

/-- The butterfly of another pair leaves both entries of a pair alone. -/
theorem butterfly_other_pair {half b j b' j' : Nat} (w : CWord) (z : Nat → CWord) (hj : j < half) (hj' : j' < half)
    (hne : b' * half + j' ≠ b * half + j) :
    butterfly w (b * (2 * half) + j) (b * (2 * half) + j + half) z (b' * (2 * half) + j') = z (b' * (2 * half) + j') ∧
    butterfly w (b * (2 * half) + j) (b * (2 * half) + j + half) z (b' * (2 * half) + j' + half)
      = z (b' * (2 * half) + j' + half) := by
  have hapart (r r' : Nat) (hr : r < 2 * half) (hr' : r' < 2 * half) (hplace : r' = r → j' = j) :
      b' * (2 * half) + r' ≠ b * (2 * half) + r := fun h => by
    obtain ⟨hb, hrr⟩ := block_place_unique hr' hr h
    exact hne (by rw [hb, hplace hrr])
  simp only [Nat.add_assoc]
  constructor
  · exact butterfly_other w (hapart j j' (by omega) (by omega) id)
      (hapart (j + half) j' (by omega) (by omega) (by omega)) z
  · exact butterfly_other w (hapart j (j' + half) (by omega) (by omega) (by omega))
      (hapart (j + half) (j' + half) (by omega) (by omega) (by omega)) z

theorem PassUpTo.succ {half b j : Nat} {w z z' : Nat → CWord} (h : PassUpTo half w z (b * half + j) z')
    (hj : j < half) : PassUpTo half w z (b * half + j + 1)
      (butterfly (w j) (b * (2 * half) + j) (b * (2 * half) + j + half) z') where
  before b' j' hj' hdone := by
    by_cases hsame : b' * half + j' = b * half + j
    · obtain ⟨rfl, rfl⟩ := block_place_unique hj' hj hsame
      obtain ⟨htop, hbottom⟩ := h.after b' j' hj' (Nat.le_refl _)
      have hne : b' * (2 * half) + j' + half ≠ b' * (2 * half) + j' := by omega
      rw [butterfly_top, butterfly_bottom _ hne, htop, hbottom]
      exact ⟨rfl, rfl⟩
    · obtain ⟨htop, hbottom⟩ := butterfly_other_pair (w j) z' hj hj' hsame
      rw [htop, hbottom]
      exact h.before b' j' hj' (by omega)
  after b' j' hj' hdone := by
    have hne : b' * half + j' ≠ b * half + j := by omega
    obtain ⟨htop, hbottom⟩ := butterfly_other_pair (w j) z' hj hj' hne
    rw [htop, hbottom]
    exact h.after b' j' hj' (by omega)

/-- A pass does its butterfly on each pair, on the entries before the pass. -/
theorem fftPass_upTo (half steps : Nat) (w z : Nat → CWord) :
    PassUpTo half w z (steps * half) (fftPass half steps w z) := by
  refine loopUpTo_keeps (fun b y => PassUpTo half w z (b * half) y) ?_ fun b y _ hy => ?_
  · exact ⟨fun b j _ h => absurd h (by rw [Nat.zero_mul]; exact Nat.not_lt_zero _), fun _ _ _ _ => ⟨rfl, rfl⟩⟩
  · rw [Nat.succ_mul]
    exact loopUpTo_keeps (fun j x => PassUpTo half w z (b * half + j) x) hy fun j x hj hx => hx.succ hj

/-! ### FFT_STAGE and FFT_FULL (R224, R225) -/

/-- The twiddles that the pass of span `2^(k+1)` reads. -/
def passTwiddle (c : Cfg) (k : Nat) (m : Memory) (j : Nat) : CWord := twiddleAt m (j * (c.fftSize / 2 ^ (k + 1)))

theorem two_mul_half_span (k : Nat) : 2 * (2 ^ (k + 1) / 2) = 2 ^ (k + 1) :=
  Nat.mul_div_cancel' (Dvd.intro_left (2 ^ k) (Nat.pow_succ 2 k).symm)

/-- FFT_STAGE is a pass on WORK. -/
theorem HoldsWork.fftStage {c : Cfg} {k : Nat} {m t : Memory} {z : Nat → CWord} (hl : c.Legal)
    (htw : TwiddlesWritten c.fftSize m) (hk : k < c.fftLog2.toNat) (h : HoldsWork c.fftSize m z t) :
    ∃ u, fftStage c (k + 1) t = .ok u ∧
      HoldsWork c.fftSize m (fftPass (2 ^ (k + 1) / 2) (c.fftSize / 2 ^ (k + 1)) (passTwiddle c k m) z) u := by
  unfold Machine.fftStage
  refine forUpTo_simulates (HoldsWork c.fftSize m) h fun b y t' hb hy => ?_
  refine forUpTo_simulates (HoldsWork c.fftSize m) hy fun j x u hj hx => ?_
  obtain ⟨hq, hw⟩ := butterfly_indices hk hb hj
  rw [two_mul_half_span]
  exact hx.bfly hl.sizes.fft htw (Nat.lt_of_le_of_lt (Nat.le_add_right _ _) hq) hq hw

/-- FFT_FULL completes, and changes WORK only. -/
theorem HoldsWork.fftFull {c : Cfg} {m : Memory} {z : Nat → CWord} (hl : c.Legal) (htw : TwiddlesWritten c.fftSize m)
    (h : HoldsWork c.fftSize m z m) :
    ∃ t u, Machine.fftBitrev c m = .ok t ∧ forUpTo c.fftLog2.toNat (fun k y => Machine.fftStage c (k + 1) y) t = .ok u ∧
      SameOutside (workBlocks c.fftSize) m u := by
  obtain ⟨t, ht, hz⟩ := h.fftBitrev hl
  obtain ⟨u, hu, _, hz'⟩ := forUpTo_completes (n := c.fftLog2.toNat) (body := fun k y => Machine.fftStage c (k + 1) y)
    (fun _ y => ∃ z, HoldsWork c.fftSize m z y) ⟨_, hz⟩ fun k y hk ⟨z, hy⟩ => by
      obtain ⟨y', hy', hpass⟩ := hy.fftStage hl htw hk
      exact ⟨y', hy', _, hpass⟩
  exact ⟨t, u, ht, hu, hz'.frame⟩

theorem checkFftStage_none {s : State} {stage : Nat} (hlo : 1 ≤ stage) (hhi : stage ≤ s.act.fftLog2.toNat)
    (h : s.cfgValid = true) : checkFftStage stage s = none :=
  (thenCheck_eq_none_iff _ _).2 ⟨s.needcfg_eq_none_iff.2 h, if_pos ((inRange_iff _ _).2 ⟨hlo, hhi⟩)⟩

/-! ### Commands in sequence -/

theorem runAll_append {xs ys : List Instr} {s t : State} (h : runAll xs s = .next t) :
    runAll (xs ++ ys) s = runAll ys t := by
  induction xs generalizing s with
  | nil => cases h; rfl
  | cons i xs ih =>
    rw [List.cons_append]
    cases hi : exec i s with
    | next u =>
      rw [runAll_cons _ hi] at h ⊢
      exact ih h
    | fault f => rw [runAll, hi] at h; cases h
    | refused r => rw [runAll, hi] at h; cases h

/-- A configured block between commands, with memory `m` and configuration `c`. -/
structure BetweenCommands (c : Cfg) (m : Memory) (s : State) : Prop where
  fresh : s.fresh
  configured : s.cfgValid = true
  act : s.act = c
  mem : s.mem = m

/-- A completed command leaves no BEGIN recorded. -/
theorem Completed.fresh {s t : State} {opc : Byte} {result : Word} {events : BitVec 15}
    (h : Completed s t opc result events) (ha : t.active = s.active) : t.fresh := by
  intro w v sn hp
  rw [ha, h.1] at hp
  cases hp

/-- A command on the arrays leaves a configured block between commands. -/
theorem arrayCommand_between {i : Instr} {check : State → Option ErrCode} {f : Cfg → Memory → Except Fault Memory}
    {s : State} {ready : Prop} {sn : Snapshot} {m : Memory}
    (hexec : exec i s = runCommand i check (fun _ t => onMemory (f t.act) t) s) (hend : AtEnd s ready sn)
    (hcheck : ready → check s = none) (hcfg : s.cfgValid = true) (hm : f s.act s.mem = .ok m) :
    ∃ t, exec i s = .next t ∧ BetweenCommands s.act m t := by
  obtain ⟨t, hrun, hdone, hrest, hmem⟩ := arrayCommand_completes (i := i) hend hcheck hm
  have hactive : t.active = s.active := by rw [hrest]
  have hvalid : t.cfgValid = s.cfgValid := by rw [hrest]
  have hact : t.act = s.act := by rw [hrest]
  exact ⟨t, hexec.trans hrun, hdone.fresh hactive, hvalid.trans hcfg, hact, hmem⟩

/-- The first `n` stages, run as commands. -/
theorem runAll_fftStages {c : Cfg} {m u : Memory} {s : State} {n : Nat} (hs : BetweenCommands c m s)
    (hn : n ≤ c.fftLog2.toNat) (hu : forUpTo n (fun k y => fftStage c (k + 1) y) m = .ok u) :
    ∃ t, runAll ((List.range n).map fun k => .fftStage (k + 1)) s = .next t ∧ BetweenCommands c u t := by
  induction n generalizing u with
  | zero =>
    cases hu
    exact ⟨s, rfl, hs⟩
  | succ n ih =>
    rw [forUpTo_succ] at hu
    split at hu
    · next y hy =>
      obtain ⟨t, ht, htb⟩ := ih (by omega) hy
      obtain ⟨v, hv, hvb⟩ := arrayCommand_between (f := fun c => fftStage c (n + 1)) (exec_fftStage (n + 1) t)
        (.inr ⟨htb.fresh, htb.configured, rfl⟩) (checkFftStage_none (by omega) (by rw [htb.act]; exact hn))
        htb.configured (by rw [htb.act, htb.mem]; exact hu)
      refine ⟨v, ?_, htb.act ▸ hvb⟩
      rw [List.range_succ, List.map_append, runAll_append ht]
      exact runAll_cons [] hv
    · cases hu

/-! ### FFT_POWER (R226) -/

theorem fftPower_fills {c : Cfg} {m : Memory} (hl : c.Legal) (hre : Written .workRe c.bins m)
    (him : Written .workIm c.bins m) :
    ∃ u, fftPower c m = .ok u ∧ u.Holds .pow c.bins (fun k => binPower (m.val .workRe k) (m.val .workIm k)) ∧
      SameOutside [Arr.pow.first c.bins] m u := by
  have hsize := hl.sizes.fft
  have hbins : c.bins ≤ 513 := Nat.succ_le_succ (Nat.div_le_div_right (c := 2) hsize)
  refine forUpTo_fills (a := .pow) hbins fun k t hk ht => ?_
  have hload {a : Arr} (ha : a = .workRe ∨ a = .workIm) (hw : Written a c.bins m) : load a k t = .ok (m.val a k) := by
    have hne : a ≠ .pow ∧ k < a.len := by
      rcases ha with rfl | rfl <;> exact ⟨by decide, Nat.lt_of_lt_of_le hk (Nat.le_trans hbins (by decide))⟩
    exact load_same (ht.word hne.2 fun b hb => ⟨.pow, c.bins, hne.1, hbins, List.mem_singleton.1 hb⟩) (hw k hk)
  rw [hload (.inl rfl) hre, hload (.inr rfl) him]
  rfl

/-! ### The obligations -/

/-- Settles O25: the word at index `i` of the reversed vector is that of index `revBits b i`, and reversal is an
involution bit by bit. -/
theorem fftBitrevPermutesWork : Obligations.FftBitrevPermutesWork := by
  unfold Obligations.FftBitrevPermutesWork
  refine ⟨fun b i hi => ⟨revBits_lt b i, revBits_revBits hi, fun j hj => revBits_testBit i hj⟩, ?_⟩
  intro s sn hend hl n hre him
  obtain ⟨u, hu, hz⟩ := (holdsWork_of_written hre him).fftBitrev hl
  obtain ⟨t, hrun, hdone, hrest, rfl⟩ := arrayCommand_completes (i := .fftBitrev) hend s.needcfg_eq_none_iff.2 hu
  refine ⟨t, (exec_fftBitrev s).trans hrun, hdone, hrest, fun i hi => ?_, hz.frame⟩
  have hwork : workAt s.mem (revBits s.act.fftLog2.toNat (revBits s.act.fftLog2.toNat i)) = workAt s.mem i :=
    congrArg _ (revBits_revBits hi)
  have hr : revBits s.act.fftLog2.toNat i < n := revBits_lt _ i
  exact ⟨((hz.re _ hr).trans (congrArg (fun v : CWord => some v.1) hwork)).trans (holds_of_written hre i hi).symm,
    ((hz.im _ hr).trans (congrArg (fun v : CWord => some v.2) hwork)).trans (holds_of_written him i hi).symm⟩

/-- Settles O26: the command is a pass on WORK, whose pairs are disjoint. -/
theorem fftStageDoesItsButterflies : Obligations.FftStageDoesItsButterflies := by
  unfold Obligations.FftStageDoesItsButterflies
  intro s sn stage hend hl hlo hhi n hre him htwre htwim
  obtain ⟨k, rfl⟩ := Nat.exists_eq_add_of_le' hlo
  obtain ⟨u, hu, hz⟩ := (holdsWork_of_written hre him).fftStage hl ⟨htwre, htwim⟩ hhi
  obtain ⟨t, hrun, hdone, hrest, rfl⟩ := arrayCommand_completes (i := .fftStage (k + 1))
    (f := fun c => fftStage c (k + 1)) hend (checkFftStage_none hlo hhi) hu
  refine ⟨t, (exec_fftStage (k + 1) s).trans hrun, hdone, hrest, fun b j hb hj => ?_, hz.frame⟩
  obtain ⟨hq, -⟩ := butterfly_indices hhi hb hj
  have hp := Nat.lt_of_le_of_lt (Nat.le_add_right _ _) hq
  have hpair : b * (2 ^ (k + 1) / 2) + j < n / 2 ^ (k + 1) * (2 ^ (k + 1) / 2) := by
    have hblock := Nat.mul_le_mul_right (2 ^ (k + 1) / 2) (Nat.succ_le_of_lt hb)
    rw [Nat.succ_mul] at hblock
    omega
  obtain ⟨htop, hbottom⟩ := (fftPass_upTo _ _ (passTwiddle s.act k s.mem) (workAt s.mem)).before b j hj hpair
  rw [two_mul_half_span] at htop hbottom
  exact ⟨(hz.re _ hq).trans (congrArg (fun v : CWord => some v.1) hbottom),
    (hz.im _ hq).trans (congrArg (fun v : CWord => some v.2) hbottom),
    (hz.re _ hp).trans (congrArg (fun v : CWord => some v.1) htop),
    (hz.im _ hp).trans (congrArg (fun v : CWord => some v.2) htop)⟩

/-- Settles O27: run as commands, the permutation and the stages go through the memories of FFT_FULL. -/
theorem fftFullIsBitrevThenAllStages : Obligations.FftFullIsBitrevThenAllStages := by
  unfold Obligations.FftFullIsBitrevThenAllStages
  intro s sn hend hcfg hl n hre him htwre htwim
  obtain ⟨m, u, hm, hu, hframe⟩ := (holdsWork_of_written hre him).fftFull hl ⟨htwre, htwim⟩
  have hfull : fftFull s.act s.mem = .ok u := by rw [fftFull, hm]; exact hu
  have hcheck : s.needcfg = none := s.needcfg_eq_none_iff.2 hcfg
  obtain ⟨t, hrun, hdone, hrest, rfl⟩ := arrayCommand_completes (i := .fftFull) hend (fun _ => hcheck) hfull
  obtain ⟨v, hv, hvb⟩ := arrayCommand_between (exec_fftBitrev s) hend (fun _ => hcheck) hcfg hm
  obtain ⟨w, hw, hwb⟩ := runAll_fftStages hvb (Nat.le_refl _) hu
  exact ⟨t, w, (exec_fftFull s).trans hrun, hdone, hrest, (runAll_cons _ hv).trans hw, hwb.mem.symm, hframe⟩

/-- Settles O28: each round writes one word of POW from two words of WORK, which no round writes. -/
theorem fftPowerSquaresTheBins : Obligations.FftPowerSquaresTheBins := by
  unfold Obligations.FftPowerSquaresTheBins
  intro s sn hend hl nb hre him
  obtain ⟨u, hu, hpow, hframe⟩ := fftPower_fills hl hre him
  obtain ⟨t, hrun, hdone, hrest, rfl⟩ := arrayCommand_completes (i := .fftPower) hend s.needcfg_eq_none_iff.2 hu
  exact ⟨t, (exec_fftPower s).trans hrun, hdone, hrest, hpow, hframe⟩

end Sys2Proof.Machine
end

section
/-!
The Mel filterbank, the log compression, and the extraction that fails (spec/44_mel.md R252-R254, R256, R257, R260): the
loops of MEL_APPLY and LOG_COMPRESS as the words they leave, and the padding value as the first of the smallest values.
-/

namespace Sys2Proof.Machine

/-! ### MEL_APPLY (R252) -/

/-- A loop that cannot fault is a fold over its indices. -/
theorem loopUpTo_eq_foldl {σ : Type} (n : Nat) (body : Nat → σ → σ) (x : σ) :
    loopUpTo n body x = (List.range n).foldl (fun acc k => body k acc) x := by
  induction n with
  | zero => rfl
  | succ n ih => rw [loopUpTo_succ, ih, List.range_succ, List.foldl_append, List.foldl_cons, List.foldl_nil]

/-- The weighted sum of a band: every bin in increasing order, from +0.0. -/
def bandSum (c : Cfg) (m : Memory) (band : Nat) : Word :=
  (List.range c.bins).foldl (fun acc k => fadd acc (fmul (m.val .melW (band * 1024 + k)) (m.val .pow k))) f32Zero

/-- The weights and the powers that MEL_APPLY reads have been written. -/
structure MelInputs (c : Cfg) (m : Memory) : Prop where
  power : Written .pow c.bins m
  weight : ∀ band k, band < c.bands → k < c.bins → (m.word .melW (band * 1024 + k)).isSome

section Mel

variable {c : Cfg} {m t : Memory} {band k : Nat}

/-- The bands that MEL_E already holds are no input of those to come. -/
theorem word_outside_melE {a : Arr} {i : Nat} (hl : c.Legal) (h : SameOutside [Arr.melE.first c.bands] m t)
    (ha : a ≠ .melE) (hi : i < a.len) : t.word a i = m.word a i :=
  h.word hi fun _ hb => ⟨.melE, c.bands, ha, hl.sizes.bands, List.mem_singleton.1 hb⟩

theorem MelInputs.load_weight (h : MelInputs c m) (hl : c.Legal) (ht : SameOutside [Arr.melE.first c.bands] m t)
    (hband : band < c.bands) (hk : k < c.bins) :
    load .melW (band * 1024 + k) t = .ok (m.val .melW (band * 1024 + k)) := by
  refine load_same (word_outside_melE hl ht (by decide) ?_) (h.weight band k hband hk)
  have hbands := hl.sizes.bands
  have hsize := hl.sizes.fft
  rw [Arr.len_aedp1]
  simp only [Cfg.bins] at hk ⊢
  omega

theorem MelInputs.load_power (h : MelInputs c m) (hl : c.Legal) (ht : SameOutside [Arr.melE.first c.bands] m t)
    (hk : k < c.bins) : load .pow k t = .ok (m.val .pow k) :=
  load_same (word_outside_melE hl ht (by decide) (Nat.lt_of_lt_of_le hk (featArea_le hl .pow))) (h.power k hk)

theorem MelInputs.bandEnergy (h : MelInputs c m) (hl : c.Legal) (ht : SameOutside [Arr.melE.first c.bands] m t)
    (hband : band < c.bands) : bandEnergy c band t = .ok (bandSum c m band) := by
  rw [bandSum, ← loopUpTo_eq_foldl c.bins fun k acc => fadd acc (fmul (m.val .melW (band * 1024 + k)) (m.val .pow k))]
  refine forUpTo_eq_loopUpTo f32Zero fun k acc hk => ?_
  rw [aedp1_melStride, h.load_weight hl ht hband hk, h.load_power hl ht hk]
  rfl

/-- MEL_APPLY leaves in MEL_E the weighted sums over the memory it began with. -/
theorem MelInputs.melApply (h : MelInputs c m) (hl : c.Legal) :
    ∃ u, melApply c m = .ok u ∧ u.Holds .melE c.bands (bandSum c m) ∧ SameOutside [Arr.melE.first c.bands] m u := by
  refine forUpTo_fills (a := .melE) hl.sizes.bands fun band t hband ht => ?_
  rw [h.bandEnergy hl ht hband]
  rfl

/-! ### LOG_COMPRESS (R253, R254) -/

/-- MEL_LOG and the flag after the first `k` bands of the log compression of `m`. -/
structure LogUpTo (c : Cfg) (m : Memory) (k : Nat) (r : Memory × Bool) : Prop where
  words : r.1.Holds .melLog k fun band => logc c (m.val .melE band)
  flag : r.2 = (List.range k).any fun band => !isFinite (m.val .melE band)
  frame : SameOutside [Arr.melLog.first c.bands] m r.1

theorem LogUpTo.succ {r : Memory × Bool} (hl : c.Legal) (hw : Written .melE c.bands m) (hk : k < c.bands)
    (h : LogUpTo c m k r) : ∃ r', logWord c k r = .ok r' ∧ LogUpTo c m (k + 1) r' := by
  have hbands := hl.sizes.bands
  have hlen : k < 64 := Nat.lt_of_lt_of_le hk hbands
  have hload : load .melE k r.1 = .ok (m.val .melE k) := by
    refine load_same (h.frame.word (a := .melE) hlen fun b hb => ?_) (hw k hk)
    exact ⟨.melLog, c.bands, by decide, hbands, List.mem_singleton.1 hb⟩
  refine ⟨_, by rw [logWord, hload]; rfl, h.words.snoc hlen, ?_,
    h.frame.trans (sameOutside_store_of_mem (List.mem_singleton.2 rfl) hk _ r.1)⟩
  rw [List.range_succ, List.any_append, ← h.flag, List.any_cons, List.any_nil, Bool.or_false]

/-- LOG_COMPRESS leaves in MEL_LOG the compressed energies of the memory it began with, and the flag of R253. -/
theorem logCompress_logUpTo (hl : c.Legal) (hw : Written .melE c.bands m) :
    ∃ r, logCompress c m = .ok r ∧ LogUpTo c m c.bands r :=
  forUpTo_completes (body := logWord c) (LogUpTo c m)
    ⟨fun _ h => absurd h (Nat.not_lt_zero _), rfl, sameOutside_refl _ m⟩ fun _ _ hk h => h.succ hl hw hk

end Mel

/-- LOG_COMPRESS past its checks completes with the words and the flag of the loop. -/
theorem logCompress_runs {s : State} {sn : Snapshot} {r : Memory × Bool} (hend : AtEnd s (s.cfgValid = true) sn)
    (hr : logCompress s.act s.mem = .ok r) :
    exec .logCompress s
      = .next (({ s with mem := r.1, irqStatus := s.irqStatus ||| overflowEvents r.2 } : State).complete 0x31 none) := by
  rw [exec_logCompress]
  refine runCommand_atEnd hend s.needcfg_eq_none_iff.2 ?_
  rw [effectLogCompress, hr]
  exact congrArg Except.ok (setIrqIf_featOvf { s with mem := r.1 } r.2)

/-! ### The extraction that fails (R256, R260) -/

theorem featMode_fail {c : Cfg} {a : Nat} (hshort : a < c.required) (hpad : c.padEn = false ∨ a < c.window) :
    featMode c a = .fail := by
  rw [featMode, if_neg (Nat.not_le.2 hshort), if_neg]
  rw [Bool.and_eq_true, decide_eq_true_eq, not_and_or, Bool.not_eq_true, Nat.not_le]
  exact hpad

/-- What a failed extraction changes, but for RESULTn. -/
def State.withFailedCycle (s : State) : State :=
  { s with
    featValid := false, irqStatus := s.irqStatus ||| 0x0100#15
    counters := { s.counters with featFail := s.counters.featFail + 1 } }

theorem featFailed_eq (s : State) : featFailed s = s.withFailedCycle.setResult 0 := rfl

/-- FEAT_EXTRACT past its checks with a failing outcome. -/
theorem featExtract_fails {s : State} {sn : Snapshot} (hend : AtEnd s (s.cfgValid = true ∧ s.run = true) sn)
    (hmode : featMode s.act sn.avail = .fail) :
    exec .featExtract s = .next ((s.withFailedCycle.setResult 0).complete 0x38 none) := by
  rw [exec_featExtract]
  refine runCommand_atEnd hend checkFeatExtract_none ?_
  rw [effectFeatExtract, hmode]
  exact congrArg Except.ok (featFailed_eq s)

/-! ### The padding value (R257) -/

/-- Comparison of numbers is comparison of their places (R9). -/
theorem flt_iff_key {a b : Word} (ha : isNaN a = false) (hb : isNaN b = false) :
    flt a b = true ↔ f32Key a < f32Key b := (flt_iff a b).trans (and_iff_right ⟨ha, hb⟩)

/-- Index `i` is the first at which a list has its smallest place, with the value `v`. -/
structure FirstMin (xs : List Word) (i : Nat) (v : Word) : Prop where
  get : xs[i]? = some v
  le : ∀ y ∈ xs, f32Key v ≤ f32Key y
  lt : ∀ j y, j < i → xs[j]? = some y → f32Key v < f32Key y

section Minimum

variable {xs : List Word} {v y : Word} {i : Nat}

theorem firstMin_singleton (x : Word) : FirstMin [x] 0 x where
  get := rfl
  le y hy := by rw [List.mem_singleton.1 hy]
  lt j _ hj := absurd hj (Nat.not_lt_zero j)

/-- A value that is not smaller than the minimum leaves it where it is. -/
theorem FirstMin.append_keep (h : FirstMin xs i v) (hy : f32Key v ≤ f32Key y) : FirstMin (xs ++ [y]) i v := by
  have hi : i < xs.length := (List.getElem?_eq_some_iff.1 h.get).1
  refine ⟨(List.getElem?_append_left hi).trans h.get, fun z hz => ?_, fun j z hj hz => ?_⟩
  · rcases List.mem_append.1 hz with hz | hz
    · exact h.le z hz
    · rwa [List.mem_singleton.1 hz]
  · rw [List.getElem?_append_left (Nat.lt_trans hj hi)] at hz
    exact h.lt j z hj hz

/-- A smaller value is the new minimum, and the first of its kind. -/
theorem FirstMin.append_replace (h : FirstMin xs i v) (hy : f32Key y < f32Key v) :
    FirstMin (xs ++ [y]) xs.length y := by
  have hbelow (z : Word) (hz : z ∈ xs) : f32Key y < f32Key z := Int.lt_of_lt_of_le hy (h.le z hz)
  refine ⟨List.getElem?_concat_length, fun z hz => ?_, fun j z hj hz => ?_⟩
  · rcases List.mem_append.1 hz with hz | hz
    · exact Int.le_of_lt (hbelow z hz)
    · rw [List.mem_singleton.1 hz]
  · rw [List.getElem?_append_left hj] at hz
    exact hbelow z (List.mem_of_getElem? hz)

theorem minF32_append (hne : xs ≠ []) (y : Word) :
    minF32 (xs ++ [y]) = if flt y (minF32 xs) then y else minF32 xs := by
  cases xs with
  | nil => exact absurd rfl hne
  | cons x xs => exact List.foldl_concat _ _ _ _

/-- The scan for the padding value finds the first minimum of a list of numbers. -/
theorem minF32_firstMin (hne : xs ≠ []) (hnum : ∀ x ∈ xs, isNaN x = false) : ∃ i, FirstMin xs i (minF32 xs) := by
  induction xs using List.reverseRecOn with
  | nil => exact absurd rfl hne
  | append_singleton xs y ih =>
    by_cases hxs : xs = []
    · subst hxs
      exact ⟨0, firstMin_singleton y⟩
    · obtain ⟨hnums, hy⟩ := List.forall_mem_append.1 hnum
      obtain ⟨i, hmin⟩ := ih hxs hnums
      have hflt := flt_iff_key (hy y List.mem_cons_self) (hnums _ (List.mem_of_getElem? hmin.get))
      rw [minF32_append hxs]
      split
      · next hlt => exact ⟨_, hmin.append_replace (hflt.1 hlt)⟩
      · next hge => exact ⟨i, hmin.append_keep (Int.not_lt.1 (mt hflt.2 hge))⟩

end Minimum

/-! ### The obligations -/

/-- Settles O29: each round writes one word of MEL_E from the weights and the powers, which no round writes. -/
theorem melApplySumsEveryBin : Obligations.MelApplySumsEveryBin := by
  unfold Obligations.MelApplySumsEveryBin
  intro s sn hend hl nb hpow hmel
  have hin : MelInputs s.act s.mem := ⟨hpow, hmel⟩
  obtain ⟨u, hu, hsums, hframe⟩ := hin.melApply hl
  obtain ⟨t, hrun, hdone, hrest, rfl⟩ := arrayCommand_completes (i := .melApply) (f := fun c m => melApply c m) hend
    s.needcfg_eq_none_iff.2 hu
  exact ⟨t, (exec_melApply s).trans hrun, hdone, hrest, hsums, hframe⟩

/-- Settles O30: each round writes one word of MEL_LOG and adds its band to the flag; the energies stay as they were. -/
theorem logCompressTakesLogarithms : Obligations.LogCompressTakesLogarithms := by
  unfold Obligations.LogCompressTakesLogarithms
  intro s sn hend hl hw energy overflow
  obtain ⟨⟨m, flag⟩, hr, hwords, hflag, hframe⟩ := logCompress_logUpTo hl hw
  refine ⟨_, logCompress_runs hend hr, completed_of rfl rfl rfl ?_, rfl, hwords, hframe⟩
  exact congrArg (fun b => s.irqStatus ||| overflowEvents b) hflag

/-- Settles O32: the outcome is FAIL, and its effect is `State.withFailedCycle`. -/
theorem featExtractFailSkipsTheCycle : Obligations.FeatExtractFailSkipsTheCycle := by
  unfold Obligations.FeatExtractFailSkipsTheCycle
  intro s sn hend hshort hpad
  refine ⟨_, featExtract_fails hend (featMode_fail hshort hpad), ?_, rfl⟩
  exact completed_setResult (v := s.withFailedCycle) 0x38 0 rfl rfl rfl rfl

/-- Settles O35: the places of the first minimum decide the comparisons, since no value is a NaN. -/
theorem paddingValueIsTheFirstMinimum : Obligations.PaddingValueIsTheFirstMinimum := by
  unfold Obligations.PaddingValueIsTheFirstMinimum
  intro xs hne hnum
  obtain ⟨i, hmin⟩ := minF32_firstMin hne hnum
  have hv : isNaN (minF32 xs) = false := hnum _ (List.mem_of_getElem? hmin.get)
  refine ⟨i, hmin.get, fun y hy => ?_, fun j y hj hget => ?_⟩
  · exact Bool.eq_false_iff.2 fun hlt => Int.not_lt.2 (hmin.le y hy) ((flt_iff_key (hnum y hy) hv).1 hlt)
  · exact (flt_iff_key hv (hnum y (List.mem_of_getElem? hget))).2 (hmin.lt j y hj hget)

end Sys2Proof.Machine
end

section
/-!
The decision engine (spec/45_decision.md R282-R293): a valid cycle as its smoothing step and its state machine, the median
and the argmax as what R284 and R285 say they are, every outcome of the state machine, and the other two commands.
-/

namespace Sys2Proof.Machine

/-! ### The configuration of the decision engine (R143) -/

theorem Cfg.Legal.classes_range {c : Cfg} (h : c.Legal) : 1 ≤ c.classes ∧ c.classes ≤ 8 :=
  h (0x52, 1 ≤ c.nclasses.toNat ∧ c.nclasses.toNat ≤ 8) (by simp [Cfg.checks])

theorem Cfg.Legal.median_le {c : Cfg} (h : c.Legal) : c.medianLen ≤ 7 :=
  (h (0x56, c.medianK.toNat % 2 = 1 ∧ 1 ≤ c.medianK.toNat ∧ c.medianK.toNat ≤ 7) (by simp [Cfg.checks])).2.2

/-! ### The order of numbers (R9) -/

theorem fle_iff_key {a b : Word} (ha : isNaN a = false) (hb : isNaN b = false) :
    fle a b = true ↔ f32Key a ≤ f32Key b := (fle_iff a b).trans (and_iff_right ⟨ha, hb⟩)

/-! ### The median (R284) -/

theorem insertF32_eq_orderedInsert (x : Word) (l : List Word) :
    insertF32 x l = l.orderedInsert (fun a b => fle a b = true) x := by
  induction l with
  | nil => rfl
  | cons y ys ih => rw [insertF32, ih, List.orderedInsert_cons]

theorem sortF32_eq_insertionSort (l : List Word) : sortF32 l = l.insertionSort (fun a b => fle a b = true) := by
  induction l with
  | nil => rfl
  | cons x xs ih => rw [sortF32, ih, insertF32_eq_orderedInsert, List.insertionSort_cons]

theorem sortF32_perm (l : List Word) : (sortF32 l).Perm l := by
  rw [sortF32_eq_insertionSort]
  exact List.perm_insertionSort _ l

/-- Without a NaN the order of the words is the order of their places, so sorting leaves an ascending list. -/
theorem sortF32_pairwise {l : List Word} (hnum : ∀ x ∈ l, isNaN x = false) :
    (sortF32 l).Pairwise (fun x y => fle x y = true) := by
  have hkeys : ((sortF32 l).map f32Key).Pairwise (· ≤ ·) := by
    rw [sortF32_eq_insertionSort, List.map_insertionSort _ (· ≤ ·) f32Key l
      fun x hx y hy => fle_iff_key (hnum x hx) (hnum y hy)]
    exact List.pairwise_insertionSort (· ≤ ·) _
  refine (List.pairwise_map.1 hkeys).imp_of_mem fun hx hy hle => ?_
  exact (fle_iff_key (hnum _ (mem_sortF32.1 hx)) (hnum _ (mem_sortF32.1 hy))).2 hle

theorem take_toList_eq_map_at8 (v : Vector Word 8) {k : Nat} (hk : k ≤ 8) :
    v.toList.take k = (List.range k).map (at8 v) := by
  refine List.ext_getElem (by simp [hk]) fun i hi _ => ?_
  have hlen : i < v.toList.length := Nat.lt_of_lt_of_le hi (List.length_take_le' k v.toList)
  rw [List.getElem_take, List.getElem_map, List.getElem_range, at8, List.getD_eq_getElem?_getD,
    List.getElem?_eq_getElem hlen, Option.getD_some]

/-- The median is element (K-1)/2 of the first K values in ascending order. -/
theorem median_isMiddle (v : Vector Word 8) {k : Nat} (hpos : 0 < k) (hk : k ≤ 8)
    (hnum : ∀ j, j < k → isNaN (at8 v j) = false) :
    ∃ sorted : List Word, sorted.Perm ((List.range k).map (at8 v)) ∧ sorted.Pairwise (fun x y => fle x y = true) ∧
      sorted[(k - 1) / 2]? = some (median k v.toList) := by
  have htake := take_toList_eq_map_at8 v hk
  have hperm : (sortF32 (v.toList.take k)).Perm ((List.range k).map (at8 v)) := by
    rw [htake]
    exact sortF32_perm _
  have hlen : (sortF32 (v.toList.take k)).length = k := by
    rw [hperm.length_eq, List.length_map, List.length_range]
  refine ⟨_, hperm, sortF32_pairwise fun x hx => ?_, ?_⟩
  · rw [htake] at hx
    obtain ⟨j, hj, rfl⟩ := List.mem_map.1 hx
    exact hnum j (List.mem_range.1 hj)
  · have hmid : (k - 1) / 2 < (sortF32 (v.toList.take k)).length := by omega
    rw [median, List.getD_eq_getElem?_getD, List.getElem?_eq_getElem hmid, Option.getD_some]

/-! ### The argmax (R285) -/

/-- Class `a` is the smallest below `nc` with the largest place. -/
structure FirstMax (nc : Nat) (v : Vector Word 8) (a : Nat) : Prop where
  below : a < nc
  le : ∀ k, k < nc → f32Key (at8 v k) ≤ f32Key (at8 v a)
  lt : ∀ k, k < a → f32Key (at8 v k) < f32Key (at8 v a)

theorem firstMax_one (v : Vector Word 8) : FirstMax 1 v 0 where
  below := Nat.one_pos
  le k hk := by rw [Nat.lt_one_iff.1 hk]
  lt k hk := absurd hk (Nat.not_lt_zero k)

theorem FirstMax.keep {nc a : Nat} {v : Vector Word 8} (h : FirstMax nc v a)
    (hle : f32Key (at8 v nc) ≤ f32Key (at8 v a)) : FirstMax (nc + 1) v a where
  below := Nat.lt_succ_of_lt h.below
  le k hk := by
    rcases Nat.lt_succ_iff_lt_or_eq.1 hk with hk | rfl
    · exact h.le k hk
    · exact hle
  lt := h.lt

theorem FirstMax.replace {nc a : Nat} {v : Vector Word 8} (h : FirstMax nc v a)
    (hlt : f32Key (at8 v a) < f32Key (at8 v nc)) : FirstMax (nc + 1) v nc where
  below := Nat.lt_succ_self nc
  le k hk := by
    rcases Nat.lt_succ_iff_lt_or_eq.1 hk with hk | rfl
    · exact Int.le_of_lt (Int.lt_of_le_of_lt (h.le k hk) hlt)
    · exact Int.le_refl _
  lt k hk := Int.lt_of_le_of_lt (h.le k hk) hlt

/-- The scan of R285 finds the smallest maximal class, when no class below NC holds a NaN. -/
theorem argmaxOf_firstMax {nc : Nat} {v : Vector Word 8} (hpos : 1 ≤ nc)
    (hnum : ∀ k, k < nc → isNaN (at8 v k) = false) : FirstMax nc v (argmaxOf nc v) := by
  have hscan : FirstMax (nc - 1 + 1) v (argmaxOf nc v) := by
    refine loopUpTo_keeps (fun k a => FirstMax (k + 1) v a) (firstMax_one v) fun k a hk ha => ?_
    have hfgt : fgt (at8 v (k + 1)) (at8 v a) = true ↔ f32Key (at8 v a) < f32Key (at8 v (k + 1)) :=
      flt_iff_key (hnum a (by have := ha.below; omega)) (hnum (k + 1) (by omega))
    split
    · next hgt => exact ha.replace (hfgt.1 hgt)
    · next hle => exact ha.keep (Int.not_lt.1 (mt hfgt.2 hle))
  rwa [Nat.sub_add_cancel hpos] at hscan

/-! ### The smoothing step, class by class (R282, R284, R285) -/

section Smoothing

variable (s : State) {k j : Nat}

theorem smoothStep_ema (hk : k < 8) :
    at8 s.smoothStep.ema k
      = if k < s.act.classes then emaNext s.act.emaAlpha (at8 s.prob k) (at8 s.ema k) else at8 s.ema k :=
  at8_tab8 _ hk

theorem smoothStep_histRow (hk : k < 8) :
    histRow s.smoothStep.hist k
      = if k < s.act.classes then
          tab8 (fun j => if j = s.dec.hpos.toNat then at8 s.smoothStep.ema k else at64 s.hist k j)
        else histRow s.hist k :=
  histRow_tab8 _ hk

/-- Only the slot DEC_HPOS of the classes in use changes. -/
theorem smoothStep_hist (hk : k < 8) (hj : j < 8) :
    at64 s.smoothStep.hist k j
      = if k < s.act.classes ∧ j = s.dec.hpos.toNat then at8 s.smoothStep.ema k else at64 s.hist k j := by
  rw [at64_eq, smoothStep_histRow s hk]
  by_cases hc : k < s.act.classes
  · rw [if_pos hc, at8_tab8 _ hj]
    simp only [hc, true_and]
  · rw [if_neg hc, if_neg fun h => hc h.1, at64_eq]

theorem smoothStep_smooth (hk : k < 8) :
    at8 s.smoothStep.smooth k
      = if k < s.act.classes then median s.act.medianLen (histRow s.smoothStep.hist k).toList else at8 s.smooth k :=
  at8_tab8 _ hk

theorem smoothStep_hpos (hk : s.act.medianLen ≤ 7) (hpos : 0 < s.act.medianLen) :
    s.smoothStep.dec.hpos.toNat = (s.dec.hpos.toNat + 1) % s.act.medianLen := by
  have hlt : (s.dec.hpos.toNat + 1) % s.act.medianLen < s.act.medianLen := Nat.mod_lt _ hpos
  have hword : (s.dec.hpos.toNat + 1) % s.act.medianLen < 2 ^ 32 := by omega
  exact (BitVec.toNat_ofNat _ 32).trans (Nat.mod_eq_of_lt hword)

theorem smoothStep_argmax (ha : argmaxOf s.act.classes s.smoothStep.smooth < 8) :
    s.smoothStep.dec.argmax.toNat = argmaxOf s.act.classes s.smoothStep.smooth := by
  have hword : argmaxOf s.act.classes s.smoothStep.smooth < 2 ^ 32 := by omega
  exact (BitVec.toNat_ofNat _ 32).trans (Nat.mod_eq_of_lt hword)

theorem smoothStep_conf :
    s.smoothStep.dec.conf = at8 s.smoothStep.smooth (argmaxOf s.act.classes s.smoothStep.smooth) := rfl

/-- The smoothing step changes the smoothing state, DEC_ARGMAX, DEC_CONF and DEC_HPOS alone. -/
theorem smoothStep_rest :
    s.smoothStep = { s with
      ema := s.smoothStep.ema, smooth := s.smoothStep.smooth, hist := s.smoothStep.hist
      dec := { s.dec with
        argmax := s.smoothStep.dec.argmax, conf := s.smoothStep.dec.conf, hpos := s.smoothStep.dec.hpos } } := rfl

theorem smoothStep_act : s.smoothStep.act = s.act := rfl

end Smoothing

/-! ### The outcomes of the state machine (R286-R290) -/

theorem State.above_iff (s : State) :
    s.above = true ↔ s.dec.argmax = s.act.target ∧ fge s.targetConf s.act.threshold = true := by
  rw [State.above, Bool.and_eq_true, decide_eq_true_eq]

theorem State.exits_iff (s : State) :
    s.exits = true ↔ s.dec.argmax ≠ s.act.target ∨ s.act.quiet.toNat ≤ (s.cycleTs - s.dec.last).toNat := by
  rw [State.exits, State.otherDominant, Bool.or_eq_true, decide_eq_true_eq, decide_eq_true_eq]

section Outcomes

variable {s : State}

theorem cycleOutcome_enter (hi : s.dec.state = .idle) (ha : s.above = true) : s.cycleOutcome = (s.enterEvent, 0x3) := by
  simp only [State.cycleOutcome, hi, ha, if_true]

theorem cycleOutcome_idle (hi : s.dec.state = .idle) (ha : ¬s.above = true) : s.cycleOutcome = (s, 0x1) := by
  simp only [State.cycleOutcome, hi, if_neg ha]

theorem cycleOutcome_stay (he : s.dec.state = .eventActive) (ha : s.above = true) :
    s.cycleOutcome = (s.stayEvent, 0x1) := by
  simp only [State.cycleOutcome, he, ha, if_true]

theorem cycleOutcome_hold (he : s.dec.state = .eventActive) (ha : ¬s.above = true) (hx : ¬s.exits = true) :
    s.cycleOutcome = (s, 0x1) := by
  simp only [State.cycleOutcome, he, if_neg ha, if_neg hx]

theorem cycleOutcome_exit (he : s.dec.state = .eventActive) (ha : ¬s.above = true) (hx : s.exits = true) :
    s.cycleOutcome = s.exitEvent := by
  simp only [State.cycleOutcome, he, if_neg ha, hx, if_true]

/-- The state after the exit, before a record is emitted. -/
def State.closeEvent (s : State) : State := { s with dec := { s.dec with state := .idle } }

theorem closeEvent_smoothStep (s : State) :
    s.smoothStep.closeEvent = { s with
      ema := s.smoothStep.ema, smooth := s.smoothStep.smooth, hist := s.smoothStep.hist
      dec := { s.dec with
        state := .idle, argmax := s.smoothStep.dec.argmax, conf := s.smoothStep.dec.conf
        hpos := s.smoothStep.dec.hpos } } :=
  congrArg State.closeEvent (smoothStep_rest s)

theorem exitEvent_discards (hd : s.eventDur < s.act.minDur.toNat) : s.exitEvent = (s.closeEvent, 0x5) :=
  if_neg (Nat.not_le.2 hd)

theorem queueHasRoom_iff : s.queueHasRoom = true ↔ s.evq.length < 4 := decide_eq_true_iff

theorem exitEvent_queues (hd : s.act.minDur.toNat ≤ s.eventDur) (hq : s.evq.length < 4) :
    s.exitEvent
      = ({ s.closeEvent with
            evtSeqNext := s.evtSeqNext + 1, evq := s.evq ++ [s.eventRec], irqStatus := s.irqStatus ||| 0x0010#15 },
          0xD) := by
  have hroom : s.queueHasRoom = true := queueHasRoom_iff.2 hq
  have hclosed : s.closeEvent.queueHasRoom = true := hroom
  have hmask : Irq.mask .event = 0x0010#15 := by decide
  rw [State.exitEvent, if_pos hd, if_pos hroom, ← hmask]
  exact congrArg (·, _) (if_pos hclosed)

theorem exitEvent_drops (hd : s.act.minDur.toNat ≤ s.eventDur) (hq : 4 ≤ s.evq.length) :
    s.exitEvent
      = ({ s.closeEvent with
            counters := { s.counters with evtDrop := s.counters.evtDrop + 1 }, evtSeqNext := s.evtSeqNext + 1
            irqStatus := s.irqStatus ||| 0x0800#15 },
          0x15) := by
  have hfull : ¬s.queueHasRoom = true := fun h => Nat.not_lt.2 hq (queueHasRoom_iff.1 h)
  have hclosed : ¬s.closeEvent.queueHasRoom = true := hfull
  have hmask : Irq.mask .evtDrop = 0x0800#15 := by decide
  rw [State.exitEvent, if_pos hd, if_neg hfull, ← hmask]
  exact congrArg (·, _) (if_neg hclosed)

end Outcomes

/-! ### What the state machine leaves of the smoothing step -/

/-- The smoothing state, DEC_ARGMAX and DEC_CONF are the same in both states. -/
structure SameSmoothing (s u : State) : Prop where
  ema : u.ema = s.ema
  smooth : u.smooth = s.smooth
  hist : u.hist = s.hist
  argmax : u.dec.argmax = s.dec.argmax
  conf : u.dec.conf = s.dec.conf
  hpos : u.dec.hpos = s.dec.hpos

theorem SameSmoothing.smoothed {s u : State} (h : SameSmoothing s u) (hs : s.Smoothed) : u.Smoothed := by
  unfold State.Smoothed
  rw [h.ema, h.smooth, h.hist]
  exact hs

theorem emit_sameSmoothing (s : State) : SameSmoothing s s.emit := by
  unfold State.emit
  extract_lets t
  split <;> exact ⟨rfl, rfl, rfl, rfl, rfl, rfl⟩

theorem exitEvent_sameSmoothing (s : State) : SameSmoothing s s.exitEvent.1 := by
  unfold State.exitEvent
  extract_lets _ t
  split
  · have h := emit_sameSmoothing t
    exact ⟨h.ema, h.smooth, h.hist, h.argmax, h.conf, h.hpos⟩
  · exact ⟨rfl, rfl, rfl, rfl, rfl, rfl⟩

theorem cycleOutcome_sameSmoothing (s : State) : SameSmoothing s s.cycleOutcome.1 := by
  unfold State.cycleOutcome
  split
  · split <;> exact ⟨rfl, rfl, rfl, rfl, rfl, rfl⟩
  · split
    · exact ⟨rfl, rfl, rfl, rfl, rfl, rfl⟩
    · split
      · exact exitEvent_sameSmoothing s
      · exact ⟨rfl, rfl, rfl, rfl, rfl, rfl⟩

/-! ### A cycle from its checks to its completion (R283, R291) -/

theorem checkDecStep_none {s : State} (h : s.cfgValid = true ∧ s.run = true) : checkDecStep s = none :=
  checkFeatExtract_none h

theorem decStep_runs {s : State} {sn : Snapshot} (v : Bool) (hend : AtEnd s (s.cfgValid = true ∧ s.run = true) sn) :
    exec (.decStep v) s = .next ((effectDecStep v s).complete 0x40 none) := by
  rw [exec_decStep]
  exact runCommand_atEnd hend checkDecStep_none rfl

/-- The state after a valid cycle. -/
def State.afterCycle (s : State) : State :=
  (s.smoothStep.cycleOutcome.1.setResult s.smoothStep.cycleOutcome.2).complete 0x40 none

theorem validCycle_runs {s : State} {sn : Snapshot} (hend : AtEnd s (s.cfgValid = true ∧ s.run = true) sn)
    (hprob : ∀ k, k < s.act.classes → fge (at8 s.prob k) f32Zero = true ∧ fle (at8 s.prob k) f32One = true) :
    exec (.decStep true) s = .next s.afterCycle := by
  rw [decStep_runs true hend, effectDecStep, if_pos rfl, if_pos ((probsValid_iff s).2 hprob), State.afterCycle]

/-- The channels are as before, and IRQ_STATUS has gained `events`. -/
structure EventsSet (s u : State) (events : BitVec 15) : Prop where
  active : u.active = s.active
  chan0 : u.chan0 = s.chan0
  chan1 : u.chan1 = s.chan1
  irqStatus : u.irqStatus = s.irqStatus ||| events

theorem EventsSet.after {s w u : State} {events : BitVec 15} (k : EventsSet w u events) (h : EventsSet s w 0) :
    EventsSet s u events where
  active := k.active.trans h.active
  chan0 := k.chan0.trans h.chan0
  chan1 := k.chan1.trans h.chan1
  irqStatus := by
    rw [k.irqStatus, h.irqStatus]
    exact congrArg (· ||| events) BitVec.or_zero

theorem smoothStep_eventsSet (s : State) : EventsSet s s.smoothStep 0 := ⟨rfl, rfl, rfl, BitVec.or_zero.symm⟩

theorem decision_eventsSet (s : State) (d : Decision) : EventsSet s { s with dec := d } 0 :=
  ⟨rfl, rfl, rfl, BitVec.or_zero.symm⟩

theorem emitted_eventsSet (s : State) (cs : Counters) (seq : Word) (evq : List EventRec) (events : BitVec 15) :
    EventsSet s { s.closeEvent with
      counters := cs, evtSeqNext := seq, evq := evq, irqStatus := s.irqStatus ||| events } events :=
  ⟨rfl, rfl, rfl, rfl⟩

/-- A completion that writes a result changes the channels and IRQ_STATUS alone. -/
theorem complete_setResult_rest (u : State) (r : Word) (opc : Byte) :
    (u.setResult r).complete opc none = { u with
      chan0 := ((u.setResult r).complete opc none).chan0, chan1 := ((u.setResult r).complete opc none).chan1
      irqStatus := ((u.setResult r).complete opc none).irqStatus } := rfl

/-- A valid cycle completes with what its outcome leaves. -/
theorem afterCycle_completes {s u : State} {r : Word} {events : BitVec 15} (h : s.smoothStep.cycleOutcome = (u, r))
    (hu : EventsSet s.smoothStep u events) :
    Completed s s.afterCycle 0x40 r events ∧
      s.afterCycle = { u with
        chan0 := s.afterCycle.chan0, chan1 := s.afterCycle.chan1, irqStatus := s.afterCycle.irqStatus } := by
  have hs := hu.after (smoothStep_eventsSet s)
  rw [State.afterCycle, h]
  exact ⟨completed_setResult 0x40 r hs.active hs.chan0 hs.chan1 hs.irqStatus, complete_setResult_rest u r 0x40⟩

/-- A valid cycle whose outcome writes the decision registers alone. -/
theorem afterCycle_of_decision {s : State} {d : Decision} {r : Word}
    (h : s.smoothStep.cycleOutcome = ({ s.smoothStep with dec := d }, r)) :
    Completed s s.afterCycle 0x40 r 0 ∧
      s.afterCycle = { s with
        chan0 := s.afterCycle.chan0, chan1 := s.afterCycle.chan1, irqStatus := s.afterCycle.irqStatus
        ema := s.afterCycle.ema, smooth := s.afterCycle.smooth, hist := s.afterCycle.hist, dec := s.afterCycle.dec } ∧
      s.afterCycle.dec = d := by
  have hrest : ({ s.smoothStep with dec := d } : State)
      = { s with ema := s.smoothStep.ema, smooth := s.smoothStep.smooth, hist := s.smoothStep.hist, dec := d } :=
    congrArg (fun w : State => { w with dec := d }) (smoothStep_rest s)
  obtain ⟨hdone, hleft⟩ := afterCycle_completes h (decision_eventsSet s.smoothStep d)
  rw [hrest] at hleft
  refine ⟨hdone, ?_, ?_⟩
  · rw [hleft]
  · rw [hleft]

theorem afterCycle_sameSmoothing (s : State) : SameSmoothing s.smoothStep s.afterCycle := by
  have h := cycleOutcome_sameSmoothing s.smoothStep
  exact ⟨h.ema, h.smooth, h.hist, h.argmax, h.conf, h.hpos⟩

/-- Whether the cycle is above can be read from the state after it. -/
theorem above_iff_afterCycle (s : State) :
    s.afterCycle.dec.argmax = s.act.target ∧
        fge (at8 s.afterCycle.smooth s.act.target.toNat) s.act.threshold = true ↔ s.smoothStep.above = true := by
  rw [(afterCycle_sameSmoothing s).argmax, (afterCycle_sameSmoothing s).smooth, State.above_iff, State.targetConf,
    smoothStep_act]

theorem exits_iff_afterCycle (s : State) :
    s.afterCycle.dec.argmax ≠ s.act.target ∨ s.act.quiet.toNat ≤ (s.cycleTs - s.dec.last).toNat
      ↔ s.smoothStep.exits = true := by
  rw [(afterCycle_sameSmoothing s).argmax]
  exact s.smoothStep.exits_iff.symm

/-- What a no-detection cycle changes, but for RESULT0 (R283). -/
def State.withNodet (s : State) (events : BitVec 15) : State :=
  { s with
    counters := { s.counters with nodet := s.counters.nodet + 1 }, irqStatus := s.irqStatus ||| events }

theorem effectDecStep_unavailable (s : State) : effectDecStep false s = (s.withNodet 0).setResult 0 := by
  have hzero : s.irqStatus ||| (0 : BitVec 15) = s.irqStatus := BitVec.or_zero
  rw [State.withNodet, hzero]
  rfl

theorem effectDecStep_badProbability {s : State} (h : ¬probsValid s = true) :
    effectDecStep true s = (s.withNodet 0x0200#15).setResult 0 := by
  have hmask : Irq.mask .probBad = 0x0200#15 := by decide
  rw [effectDecStep, if_pos rfl, if_neg h, ← hmask]
  rfl

/-- A no-detection cycle completes with RESULT0 = 0, its event bits and one more NODET_CNT. -/
theorem noDetection_completes {s u : State} {events : BitVec 15} (h : u = (s.withNodet events).setResult 0) :
    Completed s (u.complete 0x40 none) 0x40 0 events ∧
      u.complete 0x40 none = { s with
        chan0 := (u.complete 0x40 none).chan0, chan1 := (u.complete 0x40 none).chan1
        irqStatus := (u.complete 0x40 none).irqStatus
        counters := { s.counters with nodet := s.counters.nodet + 1 } } := by
  rw [h]
  exact ⟨completed_setResult 0x40 0 rfl rfl rfl rfl, complete_setResult_rest (s.withNodet events) 0 0x40⟩

/-! ### The obligations -/

/-- Settles O37: the state machine leaves the smoothing step as it is, and that step is R282 and R284 class by class. -/
theorem decStepSmoothsItsClasses : Obligations.DecStepSmoothsItsClasses := by
  unfold Obligations.DecStepSmoothsItsClasses
  intro s sn hend hl c hprob
  have hsame := afterCycle_sameSmoothing s
  have hsmoothed (hs : s.Smoothed) : s.afterCycle.Smoothed :=
    hsame.smoothed (State.smoothStep_smoothed hs hl.alpha hprob)
  have hpos : 0 < c.medianLen := hl.median_pos
  have hK : c.medianLen ≤ 7 := hl.median_le
  refine ⟨s.afterCycle, validCycle_runs hend hprob, ?_, hsmoothed, fun k hk => ⟨?_, fun j hj => ?_, fun hc => ?_,
    fun hc hnum => ?_⟩⟩
  · rw [hsame.hpos]
    exact smoothStep_hpos s hK hpos
  · rw [hsame.ema]
    exact smoothStep_ema s hk
  · rw [hsame.hist, hsame.ema]
    exact smoothStep_hist s hk hj
  · rw [hsame.smooth, smoothStep_smooth s hk]
    exact if_neg (Nat.not_lt.2 hc)
  · have hnan : ∀ j, j < c.medianLen → isNaN (at64 s.afterCycle.hist k j) = false := by
      rcases hnum with hs | hnum
      · exact fun j hj => ((hsmoothed hs k hk).2.2 j (by omega)).notNaN
      · exact hnum
    have hmid : at8 s.afterCycle.smooth k = median c.medianLen (histRow s.afterCycle.hist k).toList := by
      rw [hsame.smooth, hsame.hist, smoothStep_smooth s hk]
      exact if_pos hc
    rw [hmid]
    exact median_isMiddle _ hpos (Nat.le_succ_of_le hK) hnan

/-- Settles O38: the scan finds the first maximum, and without a NaN the places of the classes decide `fgt`. -/
theorem argmaxIsTheSmallestMaximalClass : Obligations.ArgmaxIsTheSmallestMaximalClass := by
  unfold Obligations.ArgmaxIsTheSmallestMaximalClass
  intro s sn hend hl hprob
  have hsame := afterCycle_sameSmoothing s
  obtain ⟨hpos, hle8⟩ := hl.classes_range
  refine ⟨s.afterCycle, validCycle_runs hend hprob, fun hnum => ?_⟩
  rw [hsame.smooth, hsame.argmax, hsame.conf]
  rw [hsame.smooth] at hnum
  have hnan : ∀ k, k < s.act.classes → isNaN (at8 s.smoothStep.smooth k) = false := by
    rcases hnum with hs | hnum
    · intro k hk
      obtain ⟨-, hunit, -⟩ := State.smoothStep_smoothed hs hl.alpha hprob k (by omega)
      exact hunit.notNaN
    · exact hnum
  have hmax := argmaxOf_firstMax hpos hnan
  have hbelow := hmax.below
  rw [smoothStep_argmax s (by omega), smoothStep_conf]
  refine ⟨hbelow, rfl, fun k hk => ?_, fun k hk => ?_⟩
  · exact Bool.eq_false_iff.2 fun hgt =>
      Int.not_lt.2 (hmax.le k hk) ((flt_iff_key (hnan _ hbelow) (hnan k hk)).1 hgt)
  · exact (flt_iff_key (hnan k (Nat.lt_trans hk hbelow)) (hnan _ hbelow)).2 (hmax.lt k hk)

/-- Settles O39: each case is one outcome of the state machine on the smoothed state. -/
theorem decisionMachineEntersAndStays : Obligations.DecisionMachineEntersAndStays := by
  unfold Obligations.DecisionMachineEntersAndStays
  intro s t sn hend _ hprob hrun
  rw [validCycle_runs hend hprob] at hrun
  cases hrun
  intro tgt above exits frame smoothed
  have hsame := afterCycle_sameSmoothing s
  have habove : above ↔ s.smoothStep.above = true := above_iff_afterCycle s
  have hexits : exits ↔ s.smoothStep.exits = true := exits_iff_afterCycle s
  have htgt : tgt = s.smoothStep.targetConf := congrArg (at8 · s.act.target.toNat) hsame.smooth
  have hsmoothed : smoothed = s.smoothStep.dec := by
    simp only [smoothed, hsame.argmax, hsame.conf, hsame.hpos]
    rfl
  rw [htgt, hsmoothed]
  refine ⟨fun hi ha => ?enter, fun hi ha => ?idle, fun he ha => ?stay, fun he ha hx => ?hold⟩
  case enter => exact afterCycle_of_decision (cycleOutcome_enter hi (habove.1 ha))
  case idle => exact afterCycle_of_decision (cycleOutcome_idle hi (mt habove.2 ha))
  case stay => exact afterCycle_of_decision (cycleOutcome_stay he (habove.1 ha))
  case hold => exact afterCycle_of_decision (cycleOutcome_hold he (mt habove.2 ha) (mt hexits.2 hx))

/-- Settles O40: the outcome is the exit of the smoothed state, which discards, queues or drops the event. -/
theorem eventExitEmitsOrDrops : Obligations.EventExitEmitsOrDrops := by
  unfold Obligations.EventExitEmitsOrDrops
  intro s t sn hend _ hprob hrun he hcond
  rw [validCycle_runs hend hprob] at hrun
  cases hrun
  intro dur record frame
  have hsame := afterCycle_sameSmoothing s
  have hbelow : ¬s.smoothStep.above = true := fun h => by
    obtain ⟨hargmax, hfge⟩ := (above_iff_afterCycle s).2 h
    rcases hcond with hother | ⟨hlow, -⟩
    · exact hother hargmax
    · rw [hlow] at hfge
      exact Bool.false_ne_true hfge
  have hexits : s.smoothStep.exits = true := (exits_iff_afterCycle s).1 (hcond.imp_right And.right)
  have hexit := cycleOutcome_exit (s := s.smoothStep) he hbelow hexits
  have hframe : frame = { s.smoothStep.closeEvent with
      chan0 := s.afterCycle.chan0, chan1 := s.afterCycle.chan1, irqStatus := s.afterCycle.irqStatus } := by
    rw [closeEvent_smoothStep]
    simp only [frame, hsame.ema, hsame.smooth, hsame.hist, hsame.argmax, hsame.conf, hsame.hpos]
  rw [hframe]
  refine ⟨fun hshort => ?discard, fun hlong hroom => ?queue, fun hlong hfull => ?drop⟩
  case discard =>
    exact afterCycle_completes (hexit.trans (exitEvent_discards hshort)) (decision_eventsSet s.smoothStep _)
  case queue =>
    exact afterCycle_completes (hexit.trans (exitEvent_queues hlong hroom)) (emitted_eventsSet s.smoothStep _ _ _ _)
  case drop =>
    exact afterCycle_completes (hexit.trans (exitEvent_drops hlong hfull)) (emitted_eventsSet s.smoothStep _ _ _ _)

/-- Settles O36: both kinds of cycle count themselves and write RESULT0, and a bad probability also sets its bit. -/
theorem noDetectionCycleFreezesTheEngine : Obligations.NoDetectionCycleFreezesTheEngine := by
  unfold Obligations.NoDetectionCycleFreezesTheEngine
  intro s sn hend frozen
  refine ⟨?unavailable, fun k hk hbad => ?badProbability⟩
  case unavailable => exact ⟨_, decStep_runs false hend, noDetection_completes (effectDecStep_unavailable s)⟩
  case badProbability =>
    have hinvalid : ¬probsValid s = true := fun h => by
      obtain ⟨h0, h1⟩ := (probsValid_iff s).1 h k hk
      rw [h0, h1] at hbad
      cases hbad
    exact ⟨_, decStep_runs true hend, noDetection_completes (effectDecStep_badProbability hinvalid)⟩

/-- Settles O41: DEC_RESET has no check, and EVT_POP's passes on a queue with a head. -/
theorem decResetAndEvtPopComplete : Obligations.DecResetAndEvtPopComplete := by
  unfold Obligations.DecResetAndEvtPopComplete
  intro s sn
  refine ⟨fun hend => ⟨s.decClear.complete 0x41 none, ?_, completed_oldResult _ rfl rfl rfl rfl, rfl⟩,
    fun head rest hq hend => ?_⟩
  · rw [exec_decReset]
    exact runCommand_atEnd hend (fun _ => rfl) rfl
  · have hcheck : checkEvtPop s = none := by
      rw [checkEvtPop, hq]
      rfl
    have heffect : effectEvtPop s = ({ s with evq := rest } : State).setResult head.seq := by
      rw [effectEvtPop, State.headEvent, hq]
      rfl
    refine ⟨(effectEvtPop s).complete 0x42 none, ?_, ?_, ?_⟩
    · rw [exec_evtPop]
      exact runCommand_atEnd hend (fun _ => hcheck) rfl
    · rw [heffect]
      exact completed_setResult 0x42 head.seq rfl rfl rfl BitVec.or_zero.symm
    · rw [heffect]
      rfl

end Sys2Proof.Machine
end

section
/-!
The A-law codec (spec/46_codec.md R320, R321, R324, R326): the code of a sample as its sign, segment and step, and the
codec commands that complete without writing memory.
-/

namespace Sys2Proof.Machine

/-! ### The A-law code (R320) -/

/-- The sign bit of the code of a sample whose value divided by 8 is `p`. -/
def alawSign (p : Int) : Nat := if 0 ≤ p then 0x80 else 0x00

/-- The magnitude of a sample whose value divided by 8 is `p`. -/
def alawMag (p : Int) : Nat := (if 0 ≤ p then p else -p - 1).toNat

/-- The code within segment `seg`: its number and the step. -/
def alawStep (seg mag : Nat) : Nat := (seg <<< 4) ||| ((if seg < 2 then mag >>> 1 else mag >>> seg) &&& 0x0F)

/-- `seg` is the smallest segment whose end is at least `mag`. -/
structure SegmentOf (mag seg : Nat) : Prop where
  lt : seg < 8
  le_end : mag ≤ segEnd.getD seg 0
  above : ∀ j, j < seg → segEnd.getD j 0 < mag

theorem alaw_eq (x : Int) : alaw x = BitVec.ofNat 8 (alawCode (alawSign (x / 8)) (alawMag (x / 8)) ^^^ 0x55) := by
  simp only [alaw, alawSign, alawMag]
  split <;> rfl

/-- The search for a segment finds one exactly where one is the smallest that reaches the magnitude. -/
theorem findSegment_eq_some_iff (mag seg : Nat) :
    segEnd.findIdx? (fun e => decide (mag ≤ e)) = some seg ↔ SegmentOf mag seg := by
  rw [List.findIdx?_eq_some_iff_getElem]
  constructor
  · rintro ⟨hlt, hle, habove⟩
    refine ⟨hlt, ?_, fun j hj => ?_⟩
    · rw [List.getD_eq_getElem _ _ hlt]
      exact of_decide_eq_true hle
    · rw [List.getD_eq_getElem _ _ (hj.trans hlt)]
      simpa using habove j hj
  · rintro ⟨hseg, hle, habove⟩
    have hlt : seg < segEnd.length := hseg
    rw [List.getD_eq_getElem _ _ hlt] at hle
    refine ⟨hlt, decide_eq_true hle, fun j hj => ?_⟩
    have hj' := habove j hj
    rw [List.getD_eq_getElem _ _ (hj.trans hlt)] at hj'
    simpa using hj'

/-- The last segment ends at 0xFFF, so every magnitude up to there has its segment. -/
theorem exists_segmentOf {mag : Nat} (h : mag ≤ 0xFFF) : ∃ seg, SegmentOf mag seg := by
  cases hfind : segEnd.findIdx? (fun e => decide (mag ≤ e)) with
  | some seg => exact ⟨seg, (findSegment_eq_some_iff mag seg).1 hfind⟩
  | none =>
    have hlast := List.findIdx?_eq_none_iff.1 hfind 0xFFF (by decide)
    exact absurd h (of_decide_eq_false hlast)

theorem alawCode_of_segment (sgn : Nat) {mag seg : Nat} (h : SegmentOf mag seg) :
    alawCode sgn mag = sgn ||| alawStep seg mag := by
  rw [alawCode, (findSegment_eq_some_iff mag seg).2 h, alawStep, ← Nat.or_assoc]

/-- The sign bit is beside the rest of the code, the clip of a magnitude past the last segment included. -/
theorem alawCode_sign (sgn mag : Nat) : alawCode sgn mag = sgn ||| alawCode 0 mag := by
  unfold alawCode
  split
  · rw [Nat.zero_or]
  · rw [Nat.zero_or, Nat.or_assoc]

theorem alawStep_lt {seg : Nat} (mag : Nat) (h : seg < 8) : alawStep seg mag < 2 ^ 7 := by
  have hseg : seg <<< 4 < 2 ^ 7 := by rw [Nat.shiftLeft_eq]; omega
  exact Nat.or_lt_two_pow hseg (Nat.and_lt_two_pow _ (by decide))

theorem alawCode_zero_lt (mag : Nat) : alawCode 0 mag < 2 ^ 7 := by
  cases hfind : segEnd.findIdx? (fun e => decide (mag ≤ e)) with
  | none =>
    rw [alawCode, hfind]
    exact show 0 ||| 0x7F < 2 ^ 7 by decide
  | some seg =>
    have hseg := (findSegment_eq_some_iff mag seg).1 hfind
    rw [alawCode_of_segment 0 hseg, Nat.zero_or]
    exact alawStep_lt mag hseg.lt

/-- Under the toggle mask too, the sign bit is bit 7 of the byte. -/
theorem toggled_sign : ∀ c : Nat, c < 2 ^ 7 →
    BitVec.ofNat 8 (c ^^^ 0x55) = BitVec.ofNat 8 ((0x80 ||| c) ^^^ 0x55) ^^^ 0x80 := by
  decide

/-! ### The samples -/

theorem sample_shift_toInt (x : Sample) : (x.sshiftRight 3).toInt = x.toInt / 8 := by
  rw [BitVec.toInt_sshiftRight, Int.shiftRight_eq_div_pow]
  rfl

/-- The magnitude of a sample has 12 bits, so the clip is never taken. -/
theorem alawMag_sample_le (x : Sample) : alawMag (x.toInt / 8) ≤ 0xFFF := by
  have hlo : -2 ^ 15 ≤ x.toInt := BitVec.le_toInt x
  have hhi : x.toInt < 2 ^ 15 := BitVec.toInt_lt
  unfold alawMag
  split <;> omega

/-- Division rounds down, so the one's complement of a sample is also that of its quotient. -/
theorem complement_div_eight (x : Int) : (-x - 1) / 8 = -(x / 8) - 1 := by omega

theorem alawMag_complement (p : Int) : alawMag (-p - 1) = alawMag p := by
  unfold alawMag
  split <;> split <;> omega

/-! ### Commands that write RESULTn and registers alone -/

/-- A command past its checks whose effect leaves `v` but for RESULTn, where `v` has the channels of `s` and the event
bits `events`. -/
theorem command_completes {i : Instr} {check : State → Option ErrCode} {effect : Snapshot → State → Except Fault State}
    {s v : State} {ready : Prop} {sn : Snapshot} {r : Word} {events : BitVec 15}
    (hexec : exec i s = runCommand i check effect s) (hend : AtEnd s ready sn) (hcheck : ready → check s = none)
    (heffect : effect sn s = .ok (v.setResult r)) (hv : EventsSet s v events) :
    ∃ t, exec i s = .next t ∧ Completed s t i.opcode.byte r events ∧
      t = { v with chan0 := t.chan0, chan1 := t.chan1, irqStatus := t.irqStatus } :=
  ⟨_, hexec.trans (runCommand_atEnd hend hcheck heffect),
    completed_setResult _ r hv.active hv.chan0 hv.chan1 hv.irqStatus, complete_setResult_rest v r _⟩

theorem effectPktPop_held {s : State} {header : PktHeader} (h : s.pkt = some header) :
    effectPktPop s = ({ s with pkt := none } : State).setResult header.seq := by
  rw [effectPktPop, State.headPacket, h]
  rfl

theorem checkPktPop_held {s : State} {header : PktHeader} (h : s.pkt = some header) : checkPktPop s = none := by
  rw [checkPktPop, h]
  rfl

/-- What a skipped codec cycle changes, but for RESULTn: the statistics counters and an event bit (R324). -/
def State.withSkippedCycle (s : State) (f : Counters → Counters) (events : BitVec 15) : State :=
  { s with counters := f s.counters, irqStatus := s.irqStatus ||| events }

theorem eventsSet_withSkippedCycle (s : State) (f : Counters → Counters) (events : BitVec 15) :
    EventsSet s (s.withSkippedCycle f events) events := ⟨rfl, rfl, rfl, rfl⟩

/-- A held packet skips the cycle, however many samples are available (R324). -/
theorem effectCodecFrame_held {s : State} {header : PktHeader} (sn : Snapshot) (h : s.pkt = some header) :
    effectCodecFrame sn s = .ok ((s.withSkippedCycle Counters.bumpPktSkip 0x2000#15).setResult 0) := by
  have hmask : Irq.mask .pktSkip = 0x2000#15 := by decide
  rw [effectCodecFrame, h, if_pos (by rfl), ← hmask]
  rfl

/-- With no packet held, a frame of more samples than are available skips the cycle (R324). -/
theorem effectCodecFrame_short {s : State} {sn : Snapshot} (h : s.pkt = none) (hshort : sn.avail < s.act.frame) :
    effectCodecFrame sn s = .ok ((s.withSkippedCycle Counters.bumpUnderrun 0x0080#15).setResult 0) := by
  have hmask : Irq.mask .underrun = 0x0080#15 := by decide
  rw [effectCodecFrame, h, if_neg (by decide), if_pos hshort, ← hmask]
  rfl

/-! ### The obligations -/

/-- Settles O42: the magnitude of a sample has a segment, and the code is the sign beside that segment's step. -/
theorem alawIsTheSegmentCode : Obligations.AlawIsTheSegmentCode := by
  unfold Obligations.AlawIsTheSegmentCode
  intro x p mag ends
  obtain ⟨seg, hseg⟩ := exists_segmentOf (alawMag_sample_le x)
  have hcode := alaw_eq x.toInt
  rw [alawCode_of_segment _ hseg, alawStep, ← Nat.or_assoc] at hcode
  rw [← sample_shift_toInt x] at hseg hcode
  exact ⟨seg, hseg.lt, hseg.le_end, hseg.above, hcode⟩

/-- Settles O43: a sample and its one's complement have one magnitude, so their codes differ in the sign bit. -/
theorem alawGoldenBytes : Obligations.AlawGoldenBytes := by
  unfold Obligations.AlawGoldenBytes
  refine ⟨by decide, by decide, by decide, by decide, by decide, by decide, by decide, by decide, by decide,
    fun x hx _ => ?_⟩
  have hpos : alawSign (x / 8) = 0x80 := if_pos (by omega)
  have hneg : alawSign (-(x / 8) - 1) = 0 := if_neg (by omega)
  rw [alaw_eq, alaw_eq, complement_div_eight, alawMag_complement, hpos, hneg, alawCode_sign 0x80]
  exact toggled_sign _ (alawCode_zero_lt _)

/-- Settles O44: ALAW_ENC has no check and writes RESULTn alone, and PKT_POP's check passes on a held packet. -/
theorem alawEncAndPktPopComplete : Obligations.AlawEncAndPktPopComplete := by
  unfold Obligations.AlawEncAndPktPopComplete
  intro s sn hend
  have hirq : s.irqStatus = s.irqStatus ||| 0 := BitVec.or_zero.symm
  refine ⟨fun x => ?encode, fun header hpkt => ?pop⟩
  case encode => exact command_completes (exec_alawEnc x s) hend (fun _ => rfl) rfl ⟨rfl, rfl, rfl, hirq⟩
  case pop =>
    exact command_completes (v := { s with pkt := none }) (exec_pktPop s) hend (fun _ => checkPktPop_held hpkt)
      (congrArg Except.ok (effectPktPop_held hpkt)) ⟨rfl, rfl, rfl, hirq⟩

/-- Settles O45: both kinds of skipped cycle count themselves and set their bit, and the held packet is seen first. -/
theorem codecFrameSkipsACycle : Obligations.CodecFrameSkipsACycle := by
  unfold Obligations.CodecFrameSkipsACycle
  intro s sn hend
  refine ⟨fun header hpkt => ?held, fun hpkt hshort => ?short⟩
  case held =>
    exact command_completes (exec_codecFrame s) hend checkCodecFrame_none (effectCodecFrame_held sn hpkt)
      (eventsSet_withSkippedCycle s _ _)
  case short =>
    exact command_completes (exec_codecFrame s) hend checkCodecFrame_none (effectCodecFrame_short hpkt hshort)
      (eventsSet_withSkippedCycle s _ _)

end Sys2Proof.Machine
end

section
/-!
Failed commands (spec/60_exceptions.md R352, R353).
-/

namespace Sys2Proof.Machine

/-- Settles O12: a completion with a code is one of the unchanged state, and so is that of a word that does not decode. -/
theorem failedCommandChangesOnlyItsCompletion : Obligations.FailedCommandChangesOnlyItsCompletion := by
  unfold Obligations.FailedCommandChangesOnlyItsCompletion
  refine ⟨fun i s t hrun hcode => ?checks, fun s n rest w e hin hp hd => step_run_undecoded hin hp hd⟩
  obtain ⟨u, e, hframe, rfl, hsame⟩ := exec_completes hrun
  obtain ⟨hown, -, -⟩ := hframe.complete i.opcode.byte e
  have herr : ((u.complete i.opcode.byte e).chan s.active).errCode = completionCode e := by rw [hown]
  rw [herr] at hcode ⊢
  obtain rfl := hsame hcode
  cases e with
  | none => exact absurd rfl hcode
  | some e => exact failedWith_complete u _ e hcode

end Sys2Proof.Machine
end

section
/-!
The hazards of pending commands (spec/70_reset_and_hazards.md R387): the blocks that a host write is held against are the
table of Safety.lean.
-/

namespace Sys2Proof.Machine

section Footprints

variable {off : Nat}

theorem inBlocks_work (k : Nat) (h : off % 4 = 0) :
    inBlocks (workBlocks k) off = true ↔ InArray .workRe k off ∨ InArray .workIm k off := by
  simp only [workBlocks, inBlocks_cons, inBlocks_nil, inBlock_first _ _ h, Bool.false_eq_true, or_false]

theorem inBlocks_footWinApply (c : Cfg) (h : off % 4 = 0) :
    inBlocks (footWinApply c) off = true ↔
      InArray .win c.window off ∨ InArray .workRe c.fftSize off ∨ InArray .workIm c.fftSize off := by
  rw [footWinApply, inBlocks_cons, inBlock_first _ _ h, inBlocks_work _ h]

theorem inBlocks_footFft (c : Cfg) (h : off % 4 = 0) :
    inBlocks (footFft c) off = true ↔
      (InArray .workRe c.fftSize off ∨ InArray .workIm c.fftSize off) ∨
        InArray .twRe (c.fftSize / 2) off ∨ InArray .twIm (c.fftSize / 2) off := by
  rw [footFft, inBlocks_cons, inBlocks_cons, inBlock_first _ _ h, inBlock_first _ _ h, inBlocks_work _ h, ← or_assoc,
    or_comm]

theorem inBlocks_footPower (c : Cfg) (h : off % 4 = 0) :
    inBlocks (footPower c) off = true ↔
      InArray .workRe c.bins off ∨ InArray .workIm c.bins off ∨ InArray .pow c.bins off := by
  rw [footPower, inBlocks_cons, inBlock_first _ _ h, inBlocks_work _ h, or_comm, or_assoc]

/-- The rows of weights that MEL_APPLY reads, one of each band (R252). -/
theorem inBlocks_melRows (c : Cfg) (h : off % 4 = 0) :
    inBlocks ((List.range c.bands).map fun m => (Arr.melW.off (m * 1024), c.bins)) off = true ↔
      ∃ m k, m < c.bands ∧ k < c.bins ∧ off = Arr.melW.off (m * 1024 + k) := by
  have hrow (m : Nat) :
      inBlock (Arr.melW.off (m * 1024)) c.bins off = true ↔ ∃ k, k < c.bins ∧ off = Arr.melW.off (m * 1024 + k) := by
    have hbase : Arr.melW.off (m * 1024) % 4 = 0 := by simp only [Arr.off, Arr.base]; omega
    have hword (k : Nat) : Arr.melW.off (m * 1024) + 4 * k = Arr.melW.off (m * 1024 + k) := by
      simp only [Arr.off]; omega
    simp only [inBlock_words hbase h, hword]
  simp only [inBlocks_iff, List.mem_map, List.mem_range]
  constructor
  · rintro ⟨_, ⟨m, hm, rfl⟩, hin⟩
    obtain ⟨k, hk, ho⟩ := (hrow m).1 hin
    exact ⟨m, k, hm, hk, ho⟩
  · rintro ⟨m, k, hm, hk, ho⟩
    exact ⟨_, ⟨m, hm, rfl⟩, (hrow m).2 ⟨k, hk, ho⟩⟩

theorem inBlocks_footMel (c : Cfg) (h : off % 4 = 0) :
    inBlocks (footMel c) off = true ↔
      InArray .pow c.bins off ∨ InArray .melE c.bands off ∨
        ∃ m k, m < c.bands ∧ k < c.bins ∧ off = Arr.melW.off (m * 1024 + k) := by
  rw [footMel, inBlocks_cons, inBlocks_cons, inBlock_first _ _ h, inBlock_first _ _ h, aedp1_melStride,
    inBlocks_melRows c h]

theorem inBlocks_footLog (c : Cfg) (h : off % 4 = 0) :
    inBlocks (footLog c) off = true ↔ InArray .melE c.bands off ∨ InArray .melLog c.bands off := by
  simp only [footLog, inBlocks_cons, inBlocks_nil, inBlock_first _ _ h, Bool.false_eq_true, or_false]

/-- CYCLE_TS_LO/HI, LEVEL_RMS and LEVEL_PEAK, word by word. -/
theorem inBlocks_cycleBlocks (h : off % 4 = 0) :
    inBlocks cycleBlocks off = true ↔ off = 0x300 ∨ off = 0x304 ∨ off = 0x308 ∨ off = 0x30C := by
  simp only [cycleBlocks, inBlocks_cons, inBlocks_nil, inBlock_iff, Bool.false_eq_true, or_false]
  omega

/-- The blocks of a command's footprint are its row of the table (R387). -/
theorem inBlocks_footprint (c : Cfg) (i : Instr) (h : off % 4 = 0) :
    inBlocks (footprint c i) off = true ↔ InFootprint c i off := by
  cases i with
  | winApply => exact inBlocks_footWinApply c h
  | fftBitrev => exact inBlocks_work _ h
  | fftStage _ | fftFull => exact inBlocks_footFft c h
  | fftPower => exact inBlocks_footPower c h
  | melApply => exact inBlocks_footMel c h
  | logCompress => exact inBlocks_footLog c h
  | featExtract =>
    simp only [footprint, InFootprint, inBlocks_append, inBlocks_cons, inBlocks_nil, inBlocks_footWinApply c h,
      inBlocks_footFft c h, inBlocks_footPower c h, inBlocks_footMel c h, inBlocks_footLog c h, inBlock_first _ _ h,
      inBlocks_cycleBlocks h, Bool.false_eq_true, or_false, or_assoc]
  | decStep _ =>
    rw [footprint, inBlocks_cons, inBlock_words (show 0x340 % 4 = 0 from rfl) h, inBlocks_cycleBlocks h]
    rfl
  | nop | cfgCommit | start | stop | resetRt | preStep _ | rbRead _ | rbPeek _ | decReset | evtPop | alawEnc _
  | codecFrame | pktPop => exact iff_of_false Bool.false_ne_true id

end Footprints

/-- When a host write of an aligned offset is a hazard (R387). -/
theorem State.hazard_iff (s : State) {off : Nat} (h : off % 4 = 0) :
    s.hazard off = true ↔
      ∃ n w i, (s.chan n).pending.word? = some w ∧ decodeOn n w = .ok i ∧ InFootprint s.act i off := by
  have hon (n : Chan) : s.hazardOn n off = true ↔
      ∃ w i, (s.chan n).pending.word? = some w ∧ decodeOn n w = .ok i ∧ InFootprint s.act i off := by
    unfold State.hazardOn
    split
    · next hw => simp [hw]
    · next w hw =>
      split
      · next i hi => simp [hw, hi, inBlocks_footprint _ _ h]
      · next e he => simp [hw, he]
  rw [State.hazard, Bool.or_eq_true, hon, hon]
  constructor
  · rintro (hw | hw)
    · exact ⟨.ch0, hw⟩
    · exact ⟨.ch1, hw⟩
  · rintro ⟨n, hw⟩
    cases n with
    | ch0 => exact .inl hw
    | ch1 => exact .inr hw

/-- A host write of a mapped offset faults exactly on a hazard. -/
theorem hostWrite_hazard_iff (s : State) {off : Nat} (v : Word) (h : (locOf off).isSome = true) :
    s.hostWrite 4 off v = .fault (.hazardRw off) ↔ s.hazard off = true := by
  obtain ⟨l, hl⟩ := Option.isSome_iff_exists.1 h
  have hbus : busLoc 4 off = some l := hl
  unfold State.hostWrite
  rw [hbus]
  dsimp only
  split
  · next hz => simp [hz]
  · next hz => simp [hz]

/-- Settles O52: the fault is the hazard of R387, whose blocks are the table's rows. -/
theorem hazardsAreExactlyTheFootprints : Obligations.HazardsAreExactlyTheFootprints := by
  unfold Obligations.HazardsAreExactlyTheFootprints
  intro s rest off v hin hloc
  have hmod : off % 4 = 0 := ((locOf_isSome_iff off).1 hloc).1
  rw [step_cons hin]
  exact (hostWrite_hazard_iff _ v hloc).trans (State.hazard_iff { s with inputs := rest } hmod)

end Sys2Proof.Machine
end

section
/-!
STALE_CMD (spec/60_exceptions.md R357, spec/70_reset_and_hazards.md R386): the words of unobserved commands, and which
steps issue and observe a command.
-/

namespace Sys2Proof.Machine

/-! ### Reads of words that unobserved commands write (R386) -/

/-- A host read of a mapped offset faults as STALE_CMD exactly on a word that an unobserved command writes. -/
theorem hostRead_stale_iff (s : State) {off : Nat} (h : (locOf off).isSome = true) :
    s.hostRead 4 off = .fault (.staleCmd off) ↔ s.stale off = true := by
  obtain ⟨l, hl⟩ := Option.isSome_iff_exists.1 h
  have hbus : busLoc 4 off = some l := hl
  unfold State.hostRead
  rw [hbus]
  dsimp only
  split
  · next hs => simp [hs]
  · next hs =>
    refine iff_of_false (fun hf => ?_) hs
    split at hf
    · cases hf
    · next f hload =>
      cases hf
      cases l with
      | word a i =>
        obtain ⟨b, j, he, -⟩ := load_fault hload
        cases he
      | _ => cases hload

/-! ### A command is issued (R26, R357) -/

/-- A write to CMDn on an idle channel latches the command: CMDn is in no footprint. -/
theorem step_cmd_latches {s : State} {rest : List Input} {off : Nat} {n : Chan} {w : Word}
    (hin : s.inputs = .hostWrite 4 off w :: rest) (hloc : locOf off = some (.reg (.cmd n))) (hlow : off < 0x300)
    (hidle : s.busy n = false) : step s = .next (({ s with inputs := rest } : State).latch n w) := by
  have hwrite : ({ s with inputs := rest } : State).writeCmd n w = ({ s with inputs := rest } : State).latch n w :=
    if_neg (Bool.eq_false_iff.1 hidle)
  rw [← hwrite]
  exact step_write hin hloc (hazard_low s hlow)

/-! ### The host observes STATUS (R92) -/

/-- No command writes STATUS, in the table of R386. -/
theorem not_inWritten_status (e : Issued) (n : Chan) (i : Instr) : ¬InWritten e n i 0x020 := by
  have hoff (a : Arr) (j : Nat) : 0x020 ≠ a.off j := by have := off_high a j; omega
  have harray (a : Arr) (k : Nat) : ¬InArray a k 0x020 := fun ⟨j, _, hj⟩ => hoff a j hj
  have hresult : ¬IsResult n 0x020 := by cases n <;> simp [IsResult]
  have hreader (r : Chan) : ¬IsReader r 0x020 := by cases r <;> simp [IsReader]
  cases i with
  | decStep v =>
    simp only [InWritten, Between, hresult, false_or]
    rintro (h | ⟨-, h | h | h | h | h | ⟨k, -, -, h⟩⟩) <;> omega
  | _ => simp [InWritten, Between, hoff, harray, hresult, hreader]

theorem status_never_stale (s : State) : s.stale 0x020 = false := by
  rw [Bool.eq_false_iff, Ne, s.stale_iff (by decide)]
  rintro ⟨n, e, -, hirq | herr | ⟨i, -, hi⟩⟩
  · cases hirq
  · cases n <;> cases herr
  · exact not_inWritten_status e n i hi

theorem observe_unobserved (s : State) (n : Chan) :
    ((s.observe n).chan n).unobserved = if s.busy n then (s.chan n).unobserved else [] := by
  unfold State.observe
  split
  · rfl
  · rw [State.setChan_chan]

theorem observe_chan_other (s : State) {n k : Chan} (h : k ≠ n) : (s.observe n).chan k = s.chan k := by
  unfold State.observe
  split
  · rfl
  · exact State.setChan_chan_other s h _

/-- A read of STATUS observes the commands of each idle channel. -/
theorem observeStatus_unobserved (s : State) (n : Chan) :
    ((s.observeStatus (.reg .status)).chan n).unobserved = if s.busy n then (s.chan n).unobserved else [] := by
  rw [State.observeStatus, if_pos rfl]
  cases n with
  | ch0 => rw [observe_chan_other _ (by decide), observe_unobserved]
  | ch1 =>
    have hch1 : (s.observe .ch0).chan .ch1 = s.chan .ch1 := observe_chan_other s (by decide)
    rw [observe_unobserved, State.busy, hch1]
    rfl

theorem step_readStatus {s : State} {rest : List Input} (hin : s.inputs = .hostRead 4 0x020 :: rest) :
    ∃ v, step s = .next { ({ s with inputs := rest } : State).observeStatus (.reg .status) with busData := v } := by
  have hloc : locOf 0x020 = some (.reg .status) := rfl
  refine ⟨State.statusWord { s with inputs := rest }, ?_⟩
  rw [step_cons hin]
  simp only [State.inputStep, State.hostRead, busLoc, if_true, hloc, status_never_stale, Bool.false_eq_true, if_false,
    State.readLoc, State.readReg]

/-! ### The commands themselves -/

/-- No command's own steps issue or observe a command. -/
theorem exec_keeps_unobserved {i : Instr} {s t : State} (h : exec i s = .next t) (n : Chan) :
    (t.chan n).unobserved = (s.chan n).unobserved := by
  obtain ⟨u, e, hframe, rfl, -⟩ := exec_completes h
  obtain ⟨hown, hother, -⟩ := hframe.complete i.opcode.byte e
  by_cases hn : n = s.active
  · rw [hn, hown]
  · have hn' : n = otherChan s.active := by revert hn; cases n <;> cases s.active <;> decide
    rw [hn', hother]

/-- Settles O53: the fault is the table's, and latching, reading STATUS and running keep the list of issued commands. -/
theorem resultReadsAreStaleUntilObserved : Obligations.ResultReadsAreStaleUntilObserved := by
  unfold Obligations.ResultReadsAreStaleUntilObserved
  intro s rest
  refine ⟨fun off hin hloc => ?read, fun n w hin hidle => ?issue, fun hin => ?observe,
    fun i t hrun n => exec_keeps_unobserved hrun n⟩
  case read =>
    have hmod : off % 4 = 0 := ((locOf_isSome_iff off).1 hloc).1
    rw [step_cons hin]
    exact (hostRead_stale_iff _ hloc).trans (State.stale_iff { s with inputs := rest } hmod)
  case issue =>
    have hstep : step s = .next (({ s with inputs := rest } : State).latch n w) := by
      cases n with
      | ch0 => exact step_cmd_latches hin rfl (by decide) hidle
      | ch1 => exact step_cmd_latches hin rfl (by decide) hidle
    refine ⟨_, hstep, ?_⟩
    rw [State.latch_chan]
    rfl
  case observe =>
    obtain ⟨v, hstep⟩ := step_readStatus hin
    exact ⟨_, hstep, fun n => observeStatus_unobserved { s with inputs := rest } n⟩

end Sys2Proof.Machine
end

section
/-!
The arrays that each channel's commands write (spec/70_reset_and_hazards.md R387, R388): those of the streaming path are
SCRATCH1 and PKT_PAY, and no command of the detection path reaches them.
-/

namespace Sys2Proof.Machine

/-! ### The arrays of the streaming path -/

/-- SCRATCH1 and PKT_PAY. -/
def streamBlocks : List (Nat × Nat) := [(0x10000, 1024), (0x11000, 256)]

/-- Every byte of SCRATCH1 and PKT_PAY reads as before. -/
def StreamKept (m u : Memory) : Prop := ∀ off, inBlocks streamBlocks off = true → u.readByte off = m.readByte off

theorem SameOutside.mono {bs bs' : List (Nat × Nat)} {m u : Memory} (h : SameOutside bs m u)
    (hsub : ∀ off, inBlocks bs off = true → inBlocks bs' off = true) : SameOutside bs' m u :=
  fun off ho => h off (Bool.eq_false_iff.2 fun hin => Bool.eq_false_iff.1 ho (hsub off hin))

theorem SameOutside.streamKept {bs : List (Nat × Nat)} {m u : Memory} (h : SameOutside bs m u)
    (hapart : ∀ off, inBlocks streamBlocks off = true → inBlocks bs off = false) : StreamKept m u :=
  fun off ho => h off (hapart off ho)

theorem inBlocks_streamBlocks (off : Nat) :
    inBlocks streamBlocks off = true ↔ (0x10000 ≤ off ∧ off < 0x11000) ∨ 0x11000 ≤ off ∧ off < 0x11400 := by
  simp only [streamBlocks, inBlocks_cons, inBlocks_nil, inBlock_iff, Bool.false_eq_true, or_false]

theorem inBlocks_singleton (base n off : Nat) : inBlocks [(base, n)] off = true ↔ base ≤ off ∧ off < base + 4 * n := by
  simp only [inBlocks_cons, inBlocks_nil, inBlock_iff, Bool.false_eq_true, or_false]

/-- An extraction's arrays are apart from those of the streaming path. -/
theorem streamKept_of_featBlocks {c : Cfg} {m u : Memory} (hl : c.Legal) (h : SameOutside (featBlocks c) m u) :
    StreamKept m u :=
  h.streamKept fun off ho => outside_of_range hl (.inr (by rw [inBlocks_streamBlocks] at ho; omega))

theorem Ran.streamKept {c : Cfg} {C : Arr → Nat → Prop} {m u : Memory} (hl : c.Legal) (h : Ran c C m u) :
    StreamKept m u := streamKept_of_featBlocks hl h.frame.featBlocks

/-! ### Runs of the array commands that answered -/

section Stages

variable {c : Cfg} {m u : Memory}

theorem applyWord_ran {n : Nat} (hl : c.Legal) (hn : n < c.window) (h : applyWord n m = .ok u) :
    Ran c (fun _ _ => False) m u := by
  unfold applyWord at h
  split at h
  · cases h
    exact ran_storeWork hl (Nat.lt_of_lt_of_le hn hl.sizes.window) _ _ m
  · cases h
  · cases h

theorem winApply_streamKept (hl : c.Legal) (h : winApply c m = .ok u) : StreamKept m u := by
  rw [winApply_eq] at h
  cases ht : forUpTo c.window applyWord m with
  | error f => rw [ht] at h; cases h
  | ok t =>
    rw [ht] at h
    cases h
    exact ((ran_forUpTo id _ hl (fun k y y' hk hb => applyWord_ran hl hk hb) ht).frameAfter hl
      (zeroPad_ran hl t)).streamKept hl

theorem fftBitrev_streamKept (hl : c.Legal) (h : fftBitrev c m = .ok u) : StreamKept m u :=
  (ran_forUpTo id _ hl (fun _ _ _ hi hb => bitrevAt_ran hl hi hb) h).streamKept hl

/-- The two indices of a butterfly lie below N, whatever the stage: a span beyond N has no blocks, and one of 1 no
butterflies (R224). -/
theorem butterfly_below {N span b j : Nat} (hb : b < N / span) (hj : j < span / 2) :
    b * span + j < N ∧ b * span + j + span / 2 < N := by
  have hblock : (b + 1) * span ≤ N := Nat.le_trans (Nat.mul_le_mul_right span hb) (Nat.div_mul_le_self N span)
  rw [Nat.succ_mul] at hblock
  omega

theorem fftStage_streamKept {stage : Nat} (hl : c.Legal) (h : fftStage c stage m = .ok u) : StreamKept m u := by
  have hblock (b : Nat) (t t' : Memory) (hb : b < c.fftSize / 2 ^ stage)
      (ht : forUpTo (2 ^ stage / 2) (fun j u => bfly (b * 2 ^ stage + j) (b * 2 ^ stage + j + 2 ^ stage / 2)
        (j * (c.fftSize / 2 ^ stage)) u) t = .ok t') :
      Ran c (fun a i => ∃ j, j < 2 ^ stage / 2 ∧ IsTwiddle (j * (c.fftSize / 2 ^ stage)) a i) t t' :=
    ran_forUpTo id _ hl (fun j y y' hj hy => by
      obtain ⟨hp, hq⟩ := butterfly_below hb hj
      exact bfly_ran hl hp hq hy) ht
  exact (ran_forUpTo id _ hl hblock h).streamKept hl

end Stages

/-! ### The rows of an extraction that answered -/

/-- Rows that answered have found every coefficient written. -/
theorem coefficients_of_featRows {c : Cfg} {v : List Word} {nwin : Nat} {m : Memory} {r : FeatResult} (hl : c.Legal)
    (hpos : 0 < nwin) (h : featRows c v nwin m = .ok r) : Coefficients c m := by
  unfold featRows at h
  obtain ⟨t, ht, -⟩ := bind_ok h
  obtain ⟨y, hy⟩ := forUpTo_first hpos ht
  obtain ⟨z, hz, -⟩ := featWindow_chain hy
  exact (flaggedChain_ran hl hz).1

/-- An extraction that answered left `State.withExtraction`. -/
theorem featDone_ok {full : Bool} {nwin : Nat} {sn : Snapshot} {s u : State} (hl : s.act.Legal) (hpos : 0 < nwin)
    (hn : nwin ≤ s.act.frames) (hstride : full = true → s.act.featStride.toNat ≤ s.act.spanOf nwin)
    (h : featDone full nwin sn s = .ok u) :
    ∃ x : Extraction, x.Of s full ∧
      u = (s.withExtraction full sn (s.act.spanOf nwin) x).setResult (if full then 1 else 2) := by
  have hparts := h
  rw [featDone_eq] at hparts
  obtain ⟨samples, hsamples, hparts⟩ := bind_ok hparts
  obtain ⟨r, hr, -⟩ := bind_ok hparts
  obtain ⟨x, hx, hof, -⟩ :=
    featDone_withExtraction hl (coefficients_of_featRows hl hpos hr) hn hstride (covers_of_collect hsamples)
  exact ⟨x, hof, Except.ok.inj (h.symm.trans hx)⟩

/-- FEAT_EXTRACT that answered failed its cycle, or left `State.withExtraction` (R256, R260). -/
theorem effectFeatExtract_ok {sn : Snapshot} {s u : State} (hl : s.act.Legal) (h : effectFeatExtract sn s = .ok u) :
    u = featFailed s ∨ ∃ full span, ∃ x : Extraction, x.Of s full ∧
      u = (s.withExtraction full sn span x).setResult (if full then 1 else 2) := by
  have hmode : s.act.required ≤ sn.avail ∨ s.act.padEn = true ∧ s.act.window ≤ sn.avail ∨ u = featFailed s := by
    unfold effectFeatExtract featMode at h
    split_ifs at h with hfull hpad
    · exact .inl hfull
    · rw [Bool.and_eq_true, decide_eq_true_eq] at hpad
      exact .inr (.inl hpad)
    · cases h
      exact .inr (.inr rfl)
  rw [← or_assoc] at hmode
  rcases hmode with hdone | hfail
  · rw [effectFeatExtract_done hdone] at h
    generalize hfull : decide (s.act.required ≤ sn.avail) = full at h
    have hwindows : windowCount full s.act sn.avail ≤ s.act.frames := windowCount_le hl fun hf => by
      rw [hf, decide_eq_false_iff_not] at hfull
      exact Nat.lt_of_not_le hfull
    have hpos : 0 < windowCount full s.act sn.avail := by
      cases full with
      | true => exact hl.sizes.frames
      | false => exact Nat.succ_pos _
    have hstride (hf : full = true) : s.act.featStride.toNat ≤ s.act.spanOf (windowCount full s.act sn.avail) := by
      rw [hf]
      exact hl.stride_le
    exact .inr ⟨full, _, featDone_ok hl hpos hwindows hstride h⟩
  · exact .inl hfail

/-! ### Commands that copy samples, when they answered -/

/-- A slot that gave a sample was written. -/
theorem slot_of_sample {sn : Snapshot} {c : Cfg} {i : Nat} {x : Sample} (h : sn.sample c i = .ok x) :
    (sn.ring.word .rbram ((sn.rpos.toNat + i) % c.rbCap.toNat)).isSome := by
  unfold Snapshot.sample at h
  split at h
  · next w hw => exact Option.isSome_iff_exists.2 ⟨w, load_ok_iff.1 hw⟩
  · cases h

theorem covers_of_copyLoop {dst : Arr} {cnt : Nat} {sn : Snapshot} {c : Cfg} {m u : Memory}
    (h : copyLoop dst cnt sn c m = .ok u) : sn.covers c cnt := by
  refine forUpTo_keeps (fun k _ => sn.covers c k) (fun i hi => absurd hi (Nat.not_lt_zero i))
    (fun k y y' _ hk hb => ?_) h
  intro i hi
  split at hb
  · next x hx =>
    obtain hlt | rfl := Nat.lt_succ_iff_lt_or_eq.1 hi
    · exact hk i hlt
    · exact slot_of_sample hx
  · cases hb

/-- A copy that answered wrote its channel's scratch buffer and RESULTn (R173, R174). -/
theorem copyOut_scratch {k : Nat} {sn : Snapshot} {s u : State} (hk : k ≤ 1024) (h : copyOut k sn s = .ok u) :
    ∃ m draws r, u = ({ s with mem := m, draws := draws } : State).setResult r ∧
      SameOutside [((scratchOf s.active).base, 1024)] s.mem m := by
  have hcov : sn.covers s.act (copyCount k sn) := by
    have hloop := h
    rw [copyOut_eq] at hloop
    cases hm : copyLoop (scratchOf s.active) (copyCount k sn) sn s.act s.mem with
    | ok m => exact covers_of_copyLoop hm
    | error f => rw [hm] at hloop; cases hloop
  obtain ⟨m, draws, hcopy, hout, -⟩ := copyOut_copies hk rfl hcov
  refine ⟨m, draws, _, Except.ok.inj (h.symm.trans hcopy), hout.mono fun off ho => ?_⟩
  have hcount : copyCount k sn ≤ k := Nat.min_le_left _ _
  rw [inBlocks_singleton] at ho ⊢
  omega

theorem Cfg.Legal.codecLen_le {c : Cfg} (h : c.Legal) : c.codecLen.toNat ≤ 1024 :=
  (h (0x59, 1 ≤ c.codecLen.toNat ∧ c.codecLen.toNat ≤ 1024) (by simp [Cfg.checks])).2

/-- CODEC_FRAME that answered skipped its cycle or emitted a packet, whose payload is in PKT_PAY (R324, R325). -/
theorem effectCodecFrame_ok {sn : Snapshot} {s u : State} (hl : s.act.Legal) (h : effectCodecFrame sn s = .ok u) :
    u = codecSkipped s ∨ u = codecUnderrun s ∨
      ∃ m draws, u = (s.withPacket sn m draws).setResult s.act.codecLen ∧ SameOutside [(0x11000, 256)] s.mem m := by
  rw [effectCodecFrame_eq] at h
  split_ifs at h
  · cases h
    exact .inl rfl
  · cases h
    exact .inr (.inl rfl)
  · have hcov : sn.covers s.act s.act.frame := by
      cases hx : collect s.act.frame (sn.sample s.act) with
      | ok xs => exact covers_of_collect hx
      | error f => rw [framePayload, hx] at h; cases h
    obtain ⟨m, draws, hemit, hout, -⟩ := packetEmitted_payload sn s
    rw [framePayload_ok hcov] at h
    refine .inr (.inr ⟨m, draws, (Except.ok.inj h).symm.trans hemit, hout.mono fun off ho => ?_⟩)
    have hlen := hl.codecLen_le
    rw [inBlocks_singleton] at ho ⊢
    omega

end Sys2Proof.Machine
end

section
/-!
The channels do not disturb each other (spec/70_reset_and_hazards.md R388): what the commands of each channel leave of the
other's path.
-/

namespace Sys2Proof.Machine

/-! ### Commands of channel 0 and the streaming path -/

/-- The streaming path's own registers: its cursor, its packet with the next numbers, and its counters. -/
def State.streamRegs (s : State) : Pos × Option PktHeader × Word × Word × Word × Word × Word :=
  (s.rpos1, s.pkt, s.pktSeqNext, s.pktTsNext, s.counters.underrun, s.counters.pktSkip, s.counters.pkt)

/-- The streaming path's registers and arrays are as before. -/
structure StreamingKept (s u : State) : Prop where
  regs : u.streamRegs = s.streamRegs
  arrays : StreamKept s.mem u.mem

theorem StreamingKept.trans {s u v : State} (h : StreamingKept s u) (k : StreamingKept u v) : StreamingKept s v where
  regs := k.regs.trans h.regs
  arrays off ho := (k.arrays off ho).trans (h.arrays off ho)

/-- An update of other registers alone. -/
theorem streamingKept_of_regs {s u : State} (hr : u.streamRegs = s.streamRegs) (hm : u.mem = s.mem) :
    StreamingKept s u := ⟨hr, fun off _ => congrArg (·.readByte off) hm⟩

theorem setResult_streamingKept (s : State) (v : Word) : StreamingKept s (s.setResult v) :=
  streamingKept_of_regs rfl rfl

theorem advance_ch0_streamingKept (s : State) (p : Pos) (n : Nat) : StreamingKept s (s.advance .ch0 p n) :=
  streamingKept_of_regs rfl rfl

theorem complete_streamingKept (s : State) (opc : Byte) (e : Option ErrCode) : StreamingKept s (s.complete opc e) :=
  streamingKept_of_regs rfl rfl

theorem onMemory_streamingKept {f : Memory → Except Fault Memory} {s u : State}
    (hf : ∀ m, f s.mem = .ok m → StreamKept s.mem m) (h : onMemory f s = .ok u) : StreamingKept s u := by
  obtain ⟨m, hm, rfl⟩ := onMemory_ok h
  exact ⟨rfl, hf m hm⟩

theorem effectLogCompress_streamingKept {s u : State} (hl : s.act.Legal) (h : effectLogCompress s = .ok u) :
    StreamingKept s u := by
  unfold effectLogCompress at h
  split at h
  · next r hr =>
    cases h
    exact ⟨rfl, (logCompress_ran hl hr).streamKept hl⟩
  · cases h

theorem effectFeatExtract_streamingKept {sn : Snapshot} {s u : State} (hl : s.act.Legal)
    (h : effectFeatExtract sn s = .ok u) : StreamingKept s u := by
  rcases effectFeatExtract_ok hl h with rfl | ⟨full, span, x, hof, rfl⟩
  · exact streamingKept_of_regs rfl rfl
  · exact ⟨rfl, streamKept_of_featBlocks hl hof.outside⟩

/-- SCRATCH0 is apart from the streaming path's arrays. -/
theorem copyOut_streamingKept {k : Nat} {sn : Snapshot} {s u : State} (ha : s.active = .ch0) (hk : k ≤ 1024)
    (h : copyOut k sn s = .ok u) : StreamingKept s u := by
  obtain ⟨m, draws, r, rfl, hout⟩ := copyOut_scratch hk h
  rw [ha] at hout
  refine ⟨rfl, hout.streamKept fun off ho => ?_⟩
  rw [inBlocks_streamBlocks] at ho
  rw [Bool.eq_false_iff, Ne, inBlocks_singleton]
  simp only [scratchOf, Arr.base]
  omega

/-- RB_READ is the copy and the cursor of its channel's reader (R173). -/
theorem effectRbRead_ok {k : Nat} {sn : Snapshot} {s u : State} (h : effectRbRead k sn s = .ok u) :
    ∃ v, copyOut k sn s = .ok v ∧ u = v.advance s.active sn.rpos (copyCount k sn) := by
  unfold effectRbRead at h
  split at h
  · next v hv =>
    cases h
    exact ⟨v, hv, by rw [(copyOut_quiet hv).active]⟩
  · cases h

theorem emit_streamingKept (s : State) : StreamingKept s s.emit := by
  unfold State.emit
  extract_lets t
  split
  · exact streamingKept_of_regs rfl rfl
  · exact streamingKept_of_regs rfl rfl

theorem exitEvent_streamingKept (s : State) : StreamingKept s s.exitEvent.1 := by
  unfold State.exitEvent
  extract_lets _ t
  have ht : StreamingKept s t := streamingKept_of_regs rfl rfl
  split
  · exact ht.trans (emit_streamingKept t)
  · exact ht

theorem cycleOutcome_streamingKept (s : State) : StreamingKept s s.cycleOutcome.1 := by
  unfold State.cycleOutcome
  split
  · split
    · exact streamingKept_of_regs rfl rfl
    · exact streamingKept_of_regs rfl rfl
  · split
    · exact streamingKept_of_regs rfl rfl
    · split
      · exact exitEvent_streamingKept s
      · exact streamingKept_of_regs rfl rfl

theorem effectDecStep_streamingKept (v : Bool) (s : State) : StreamingKept s (effectDecStep v s) := by
  unfold effectDecStep
  split
  · split
    · have hsmooth : StreamingKept s s.smoothStep := streamingKept_of_regs rfl rfl
      exact (hsmooth.trans (cycleOutcome_streamingKept _)).trans (setResult_streamingKept _ _)
    · exact streamingKept_of_regs rfl rfl
  · exact streamingKept_of_regs rfl rfl

theorem commandEffect_streamingKept {i : Instr} {sn : Snapshot} {s u : State} (ha : s.active = .ch0)
    (hi : i.opcode.legalOn .ch0 = true) (hatomic : beginIsEnd i = false) (hl : s.act.Legal)
    (hk : ∀ k, i = .rbRead k ∨ i = .rbPeek k → k ≤ 1024) (h : commandEffect i sn s = .ok u) : StreamingKept s u := by
  cases i with
  | cfgCommit | resetRt => cases hatomic
  | alawEnc _ | codecFrame | pktPop => cases hi
  | nop | start | stop | preStep _ | decReset | evtPop => cases h; exact streamingKept_of_regs rfl rfl
  | rbRead k =>
    obtain ⟨v, hv, rfl⟩ := effectRbRead_ok h
    rw [ha]
    exact (copyOut_streamingKept ha (hk k (.inl rfl)) hv).trans (advance_ch0_streamingKept _ _ _)
  | rbPeek k => exact copyOut_streamingKept ha (hk k (.inr rfl)) h
  | winApply => exact onMemory_streamingKept (fun _ => winApply_streamKept hl) h
  | fftBitrev => exact onMemory_streamingKept (fun _ => fftBitrev_streamKept hl) h
  | fftStage k => exact onMemory_streamingKept (fun _ => fftStage_streamKept hl) h
  | fftFull => exact onMemory_streamingKept (fun _ hm => (fftFull_ran hl hm).streamKept hl) h
  | fftPower => exact onMemory_streamingKept (fun _ hm => (fftPower_ran hl hm).streamKept hl) h
  | melApply => exact onMemory_streamingKept (fun _ hm => (melApply_ran hl hm).streamKept hl) h
  | logCompress => exact effectLogCompress_streamingKept hl h
  | featExtract => exact effectFeatExtract_streamingKept hl h
  | decStep v => cases h; exact effectDecStep_streamingKept v s

/-! ### Commands of channel 1 and the detection path -/

/-- The detection path is as before: what has changed is the streaming path, the free draws, and what a completion
records. -/
structure DetectionKept (s u : State) : Prop where
  rest : u = { s with
    chan0 := u.chan0, chan1 := u.chan1, irqStatus := u.irqStatus, rpos1 := u.rpos1, pkt := u.pkt
    pktSeqNext := u.pktSeqNext, pktTsNext := u.pktTsNext, mem := u.mem, draws := u.draws
    counters := { s.counters with
      underrun := u.counters.underrun, pktSkip := u.counters.pktSkip, pkt := u.counters.pkt } }
  arrays : SameOutside streamBlocks s.mem u.mem

theorem DetectionKept.trans {s u v : State} (h : DetectionKept s u) (k : DetectionKept u v) : DetectionKept s v where
  rest := by rw [k.rest, h.rest]
  arrays := h.arrays.trans k.arrays

theorem complete_detectionKept (s : State) (opc : Byte) (e : Option ErrCode) : DetectionKept s (s.complete opc e) :=
  ⟨rfl, sameOutside_refl _ _⟩

theorem setResult_detectionKept (s : State) (v : Word) : DetectionKept s (s.setResult v) :=
  ⟨rfl, sameOutside_refl _ _⟩

theorem advance_ch1_detectionKept (s : State) (p : Pos) (n : Nat) : DetectionKept s (s.advance .ch1 p n) :=
  ⟨rfl, sameOutside_refl _ _⟩

theorem copyOut_detectionKept {k : Nat} {sn : Snapshot} {s u : State} (ha : s.active = .ch1) (hk : k ≤ 1024)
    (h : copyOut k sn s = .ok u) : DetectionKept s u := by
  obtain ⟨m, draws, r, rfl, hout⟩ := copyOut_scratch hk h
  rw [ha] at hout
  refine ⟨rfl, hout.mono fun off ho => ?_⟩
  rw [inBlocks_singleton] at ho
  rw [inBlocks_streamBlocks]
  simp only [scratchOf, Arr.base] at ho
  omega

theorem effectCodecFrame_detectionKept {sn : Snapshot} {s u : State} (hl : s.act.Legal)
    (h : effectCodecFrame sn s = .ok u) : DetectionKept s u := by
  rcases effectCodecFrame_ok hl h with rfl | rfl | ⟨m, draws, rfl, hout⟩
  · exact ⟨rfl, sameOutside_refl _ _⟩
  · exact ⟨rfl, sameOutside_refl _ _⟩
  · exact ⟨rfl, hout.mono fun off ho => (inBlocks_cons _ _ off).2 (.inr ho)⟩

theorem commandEffect_detectionKept {i : Instr} {sn : Snapshot} {s u : State} (ha : s.active = .ch1)
    (hi : i.opcode.legalOn .ch1 = true) (hl : s.act.Legal) (hk : ∀ k, i = .rbRead k ∨ i = .rbPeek k → k ≤ 1024)
    (h : commandEffect i sn s = .ok u) : DetectionKept s u := by
  cases i with
  | nop => cases h; exact ⟨rfl, sameOutside_refl _ _⟩
  | rbRead k =>
    obtain ⟨v, hv, rfl⟩ := effectRbRead_ok h
    rw [ha]
    exact (copyOut_detectionKept ha (hk k (.inl rfl)) hv).trans (advance_ch1_detectionKept _ _ _)
  | rbPeek k => exact copyOut_detectionKept ha (hk k (.inr rfl)) h
  | alawEnc x => cases h; exact setResult_detectionKept _ _
  | codecFrame => exact effectCodecFrame_detectionKept hl h
  | pktPop => cases h; exact ⟨rfl, sameOutside_refl _ _⟩
  | _ => cases hi

/-! ### The commands completed -/

/-- What every completion and every effect keep, a command that answers keeps. -/
theorem exec_keeps {R : State → State → Prop} {i : Instr} {s t : State} (hrefl : R s s)
    (hcomplete : ∀ u e, R s u → R s (u.complete i.opcode.byte e))
    (heffect : ∀ sn u, commandEffect i sn s = .ok u → R s u) (h : exec i s = .next t) : R s t := by
  rcases exec_next h with ⟨e, rfl⟩ | ⟨sn, u, -, hu, rfl⟩
  · exact hcomplete s (some e) hrefl
  · exact hcomplete u none (heffect sn u hu)

/-- A command leaves the other channel and the sample clock alone. -/
theorem exec_keeps_other {i : Instr} {s t : State} (h : exec i s = .next t) :
    t.chan (otherChan s.active) = s.chan (otherChan s.active) ∧ t.sclk = s.sclk := by
  obtain ⟨u, e, hframe, rfl, -⟩ := exec_completes h
  obtain ⟨-, hother, -⟩ := hframe.complete i.opcode.byte e
  exact ⟨hother, hframe.sclk⟩

/-- Settles O15: each command's effect stays within its channel's path, and its completion within its channel. -/
theorem channelsDoNotDisturbEachOther : Obligations.ChannelsDoNotDisturbEachOther := by
  unfold Obligations.ChannelsDoNotDisturbEachOther
  intro i s t hrun hl hlegal hk
  obtain ⟨hother, hclock⟩ := exec_keeps_other hrun
  refine ⟨fun ha => ?streaming, fun ha hc hr => ?detection⟩
  case streaming =>
    rw [ha] at hother hlegal
    have hchan0 : t.chan0 = s.chan0 := hother
    obtain ⟨hrest, harrays⟩ : DetectionKept s t := exec_keeps ⟨rfl, sameOutside_refl _ _⟩
      (fun u e hu => hu.trans (complete_detectionKept u _ e)) (fun _ _ => commandEffect_detectionKept ha hlegal hl hk)
      hrun
    rw [hchan0] at hrest
    exact ⟨hrest, harrays⟩
  case detection =>
    rw [ha] at hother hlegal
    obtain ⟨hregs, harrays⟩ : StreamingKept s t := exec_keeps (streamingKept_of_regs rfl rfl)
      (fun u e hu => hu.trans (complete_streamingKept u _ e))
      (fun _ _ => commandEffect_streamingKept ha hlegal (beginIsEnd_eq_false hc hr) hl hk) hrun
    simp only [State.streamRegs, Prod.mk.injEq] at hregs
    obtain ⟨hrpos, hpkt, hseq, hts, hunderrun, hskip, hcount⟩ := hregs
    exact ⟨hother, hrpos, hpkt, hseq, hts, hunderrun, hskip, hcount, hclock, harrays⟩

end Sys2Proof.Machine
end
